-- ==== Sys2Proof/Config.lean ====
section
/-! DEFINITION. What the spec leaves open and the model leaves free. Neither constant has a body: no proof can see a value. -/

namespace Sys2Proof

/-- FREE VALUE (log 2, 15, 16, 17). Which order is taken where the spec allows several: the n-th time such a choice is made,
`Config.tie n` names the order. -/
opaque Config.tie : Nat → Nat

/-- FREE VALUE (log 10). Where the rate strap stands when the reset of a RESET request comes by itself (R163, R188): true is
460,800 baud. -/
opaque Config.strapAt : Nat → Bool

end Sys2Proof
end

