-- ==== Sys2Proof/Word.lean ====
section
/-! DEFINITION. The words the 2240 handles: bytes of frames, sectors and tracks, and the 16-bit check register. -/

namespace Sys2Proof

/-- A byte of a frame, a sector or a track; bits 7 (most significant) to 0 (00, section 6.1). -/
abbrev Byte := BitVec 8

/-- The register of the cyclic check (R23), and the sixteen encoded cells of a byte cell (R91). -/
abbrev Check := BitVec 16

end Sys2Proof
end

