-- ==== Sys2Proof/Syntax.lean ====
section
/-! DEFINITION. The commands of the 2240: one constructor for each row of spec/opcode_table.json, with the operands the
rules of its row name (log 9, 11). -/

namespace Sys2Proof

/-- The levels of the input lines that the 2240 takes as they stand at power-on (R192, R162, R163). `true` is asserted for
a drive line, closed for the card-detect switch, and the 460,800 baud position for the strap. -/
structure Inputs where
  select0    : Bool
  select1    : Bool
  select2    : Bool
  select3    : Bool
  motorOn    : Bool
  side       : Bool
  writeGate  : Bool
  cardDetect : Bool
  fastStrap  : Bool
  deriving DecidableEq, Repr

/-- The commands. A request row is the arrival of a whole frame of that kind with a good check (R165): its operands are the
tag and the payload bytes. -/
inductive Instr where
  /-- POWER_ON, R192. -/
  | powerOn (inputs : Inputs)
  /-- POWER_FAIL, R193. -/
  | powerFail
  /-- STATUS, R181. -/
  | status (tag : Byte) (payload : List Byte)
  /-- OPTIONS, R182. -/
  | options (tag : Byte) (payload : List Byte)
  /-- PROFILE, R183. -/
  | profile (tag : Byte) (payload : List Byte)
  /-- MOUNT, R184. -/
  | mount (tag : Byte) (payload : List Byte)
  /-- UNMOUNT, R51. -/
  | unmount (tag : Byte) (payload : List Byte)
  /-- FLUSH, R185. -/
  | flush (tag : Byte) (payload : List Byte)
  /-- CARD_READ, R159. -/
  | cardRead (tag : Byte) (payload : List Byte)
  /-- CARD_WRITE, R160. -/
  | cardWrite (tag : Byte) (payload : List Byte)
  /-- DEFECTS, R187. -/
  | defects (tag : Byte) (payload : List Byte)
  /-- RESET, R188. -/
  | reset (tag : Byte) (payload : List Byte)
  /-- UNKNOWN_KIND, R168: a frame with a good check whose kind is no request kind. -/
  | unknownKind (kind : Byte) (tag : Byte)
  /-- FRAME_ERROR, R165. -/
  | frameError
  /-- BAD_LENGTH_DISCARD, R164. -/
  | badLengthDiscard
  /-- FRAMING_FAULT, R167. -/
  | framingFault
  /-- INTER_CHARACTER_TIMEOUT, R166. -/
  | interCharacterTimeout
  /-- FRAME_SENT, R171. -/
  | frameSent
  /-- RESET_TAKES_EFFECT, R188, with the strap as it then stands. -/
  | resetTakesEffect (fastStrap : Bool)
  /-- LINK_BREAK, R174. -/
  | linkBreak
  /-- LINK_BREAK_END, R175. -/
  | linkBreakEnd
  /-- DRIVE_SELECT_CHANGE, R24: DRIVE SELECT `line` takes a level. -/
  | driveSelectChange (line : Fin 4) (asserted : Bool)
  /-- STEP, R25: a leading edge on STEP, with DIRECTION as sampled at it (`true` is in). -/
  | step (dirIn : Bool)
  /-- SIDE_CHANGE, R26: the SIDE line takes a level. -/
  | sideChange (asserted : Bool)
  /-- MOTOR_ON_CHANGE, R34: the MOTOR ON line takes a level. -/
  | motorOnChange (asserted : Bool)
  /-- SPIN_UP_TIMER_EXPIRY, R35. -/
  | spinUpTimerExpiry
  /-- ROTATION_WRAP, R36. -/
  | rotationWrap
  /-- INDEX_PULSE_END, R37. -/
  | indexPulseEnd
  /-- INDEX_FIELD_DECISION, R100. -/
  | indexFieldDecision
  /-- SLOT_DECISION, R96. -/
  | slotDecision
  /-- WRITE_GATE_RISE, R113: the WRITE GATE line is asserted. -/
  | writeGateRise
  /-- WRITE_DATA_FLUX_CHANGE, R110. -/
  | writeDataFluxChange
  /-- HUNT_DEADLINE, R116. -/
  | huntDeadline
  /-- SLOT_END_DURING_CAPTURE, R123. -/
  | slotEndDuringCapture
  /-- WRITE_GATE_FALL, R121: the WRITE GATE line is released. -/
  | writeGateFall
  /-- IDLE_FLUSH_TIMER_EXPIRY, R80. -/
  | idleFlushTimerExpiry
  /-- CARD_INSERTED, R140. -/
  | cardInserted
  /-- BRING_UP_DONE, R140: whether the card came into block mode, the capacity it reports, its write-protect switch. -/
  | bringUpDone (ok : Bool) (capacity : Nat) (writeProtect : Bool)
  /-- BRING_UP_LIMIT_EXPIRY, R140. -/
  | bringUpLimitExpiry
  /-- CARD_REMOVED, R141. -/
  | cardRemoved
  /-- BLOCK_TRANSFER_DONE, R145, with the bytes the card delivered when the run reads. -/
  | blockTransferDone (data : List Byte)
  /-- BLOCK_LIMIT_EXPIRY, R145. -/
  | blockLimitExpiry
  /-- BLOCK_CARD_ERROR, R145. -/
  | blockCardError
  /-- EMPTY_CELL, R110. -/
  | emptyCell
  /-- CHARACTER_RECEIVED, R164. -/
  | characterReceived (char : Byte)
  deriving DecidableEq, Repr

end Sys2Proof
end

