-- ==== Sys2Proof/Machine/State.lean ====
section
/-! DEFINITION. The state of the 2240, block by block as 00 section 3 lists the blocks, and its value after reset. -/

namespace Sys2Proof.Machine

/-! ## Outcomes -/

/-- Reasons for a fault. NONE: no rule of the spec stops the part, so no meaning faults (log 9); an empty type is safe, since
nothing can answer it. -/
inductive Fault : Type
  deriving DecidableEq, Repr

/-- Reasons for a refusal. -/
inductive Refusal where
  /-- Raised by exec's arm for a command that has no meaning yet; no arm does. Safe: the model stops. -/
  | notModelled (mnemonic : String)
  deriving DecidableEq, Repr

/-! ## Profile, zones and layouts (01) -/

/-- R3, encoding. -/
inductive Encoding where
  | fm | mfm
  deriving DecidableEq, Repr

/-- R3, head set. -/
inductive HeadSet where
  | head0 | head1 | both
  deriving DecidableEq, Repr

/-- R3, data rate in kbit/s. -/
inductive Rate where
  | k125 | k250 | k300 | k500
  deriving DecidableEq, Repr

/-- R2, rotation. -/
inductive Rpm where
  | rpm300 | rpm360
  deriving DecidableEq, Repr

/-- A zone record (R3). -/
structure Zone where
  firstCyl    : Nat
  lastCyl     : Nat
  heads       : HeadSet
  encoding    : Encoding
  rate        : Rate
  n           : Nat
  sizeCode    : Nat
  firstSector : Nat
  order       : Option (List Nat)
  gap3        : Nat
  gap4a       : Nat
  gap1        : Nat
  indexMark   : Bool
  idZero      : Bool
  fill        : Byte
  deriving DecidableEq, Repr

/-- A profile: its record (R2) and its zones in order. -/
structure Profile where
  cylinders : Nat
  heads     : Nat
  stepRatio : Nat
  rpm       : Rpm
  zones     : List Zone
  deriving DecidableEq, Repr

/-- A zone layout (R20). -/
structure Layout where
  byteTime   : Nat
  capacity   : Nat
  pre        : Nat
  base       : Nat
  sectorSize : Nat
  gap3       : Nat
  slotLen    : Nat
  slotsEnd   : Nat
  gap4b      : Nat
  trackBytes : Nat
  deriving DecidableEq, Repr

/-- A profile with the layout of each of its zones (R1, R20). -/
structure Geometry where
  profile : Profile
  layouts : List Layout
  deriving DecidableEq, Repr

/-- A track of the image: cylinder, then head (R4). -/
structure Track where
  cyl  : Nat
  head : Nat
  deriving DecidableEq, Repr

/-- Zone 0 of the default profile D0 (R6). -/
def d0Zone : Zone where
  firstCyl := 0
  lastCyl := 79
  heads := .both
  encoding := .mfm
  rate := .k250
  n := 9
  sizeCode := 2
  firstSector := 1
  order := none
  gap3 := 84
  gap4a := 80
  gap1 := 50
  indexMark := true
  idZero := false
  fill := 0xE5#8

/-- D0's computed layout, with the values R6 and R20 give. -/
def d0Layout : Layout where
  byteTime := 96
  capacity := 6250
  pre := 146
  base := 62
  sectorSize := 512
  gap3 := 84
  slotLen := 658
  slotsEnd := 6068
  gap4b := 182
  trackBytes := 4608

/-- The default profile D0 with its layout (R6). -/
def d0 : Geometry where
  profile := { cylinders := 80, heads := 2, stepRatio := 1, rpm := .rpm300, zones := [d0Zone] }
  layouts := [d0Layout]

/-! ## Drive interface and rotation timer (02) -/

/-- The drive interface (02, R38). -/
structure Drive where
  selected   : Bool
  head       : Nat
  side       : Bool
  lastIn     : Bool
  latch      : Bool
  gateActive : Bool
  deriving DecidableEq, Repr

/-- R35. -/
inductive RotState where
  | stopped | spinningUp | atSpeed
  deriving DecidableEq, Repr

/-- The rotation timer: `t` in rotation ticks (R36), the fine tick within it, the state and the spin-up timer (R35) as the
fine ticks left. -/
structure Rotation where
  t         : Nat
  fine      : Nat
  state     : RotState
  spinTimer : Option Nat
  deriving DecidableEq, Repr

/-! ## Mount table (03) -/

/-- R40. -/
inductive MountState where
  | unmounted | mounted | draining | lost
  deriving DecidableEq, Repr

/-- An extent record (R41). -/
structure Extent where
  start  : Nat
  count  : Nat
  skip   : Bool
  notify : Bool
  deriving DecidableEq, Repr

/-- The mount record (R40), and the count of accepted mounts that tells one mount from another (R143). -/
structure Mount where
  state     : MountState
  geom      : Option Geometry
  chain     : List Extent
  readOnly  : Bool
  shortOk   : Bool
  imageSize : Nat
  blocks    : Nat
  total     : Nat
  serial    : Nat
  deriving DecidableEq, Repr

/-! ## Track cache (04) -/

/-- Byte memory of the track RAM and of the capture scratch: strictly rising addresses, no byte listed that an unlisted
address reads as (log 7). -/
abbrev Memory := List Host.Cell

/-- R65. -/
inductive SectorState where
  | pending | clean | dirty | capture | flush | missing
  deriving DecidableEq, Repr

/-- R64. -/
inductive LineState where
  | free | filling | resident | failed
  deriving DecidableEq, Repr

/-- A sector record (R63). `stamp` names the run build that moved the sector to FLUSH (R83, log 6). -/
structure Sector where
  state     : SectorState
  hole      : Bool
  defective : Bool
  progress  : List Nat
  stamp     : Nat
  deriving DecidableEq, Repr

/-- R62, origin. -/
inductive Origin where
  | demand | ahead
  deriving DecidableEq, Repr

/-- A line record (R62); its state is derived (R64) and its data area stands in the track RAM. -/
structure Line where
  tag      : Option Track
  zone     : Nat
  origin   : Origin
  pinned   : Bool
  failures : Nat
  sectors  : List Sector
  deriving DecidableEq, Repr

/-- The parts of a FREE line (R62). -/
def Line.free : Line where
  tag := none
  zone := 0
  origin := .ahead
  pinned := false
  failures := 0
  sectors := []

/-- R85, reasons. -/
inductive DefectReason where
  | noMark | torn | crc | decode | overrun
  deriving DecidableEq, Repr

/-- An entry of the defect list (R85). -/
structure Defect where
  track  : Track
  sector : Nat
  reason : DefectReason
  deriving DecidableEq, Repr

/-- The track cache (04). `demandStart` is the start block of the active line's demand order (R74). -/
structure Cache where
  lines       : List Line
  ram         : Memory
  lru         : List Nat
  flushQ      : List Nat
  defects     : List Defect
  idleTimer   : Option Nat
  waiting     : Option Track
  forced      : Option Nat
  armed       : Bool
  demandStart : Nat
  flushSerial : Nat
  deriving DecidableEq, Repr

/-! ## Presentation unit (05) -/

/-- R89, unit. -/
inductive PresUnit where
  | none | indexField | slot (j : Nat)
  deriving DecidableEq, Repr

/-- The decision record (R89). -/
structure Decision where
  unit      : PresUnit
  track     : Option Track
  line      : Option Nat
  full      : Bool
  logical   : Nat
  defective : Bool
  deriving DecidableEq, Repr

/-- The cleared decision record (R89, R90). R89 gives unit, track and line none; BLANK, logical sector 0 and not defective are the
model's choice (log 5). -/
def Decision.none : Decision where
  unit := .none
  track := Option.none
  line := Option.none
  full := false
  logical := 0
  defective := false

/-- The presentation unit (R89): decision record and encoder state. `inCell` says that the stream has begun a byte cell since
it started or since the arrival (R90, R104); `cells` are the sixteen encoded cells of that byte cell (R91). -/
structure Present where
  decision   : Decision
  prevBit    : Bool
  crc        : Option Check
  fieldCount : Nat
  inCell     : Bool
  cells      : Check
  deriving DecidableEq, Repr

/-! ## Capture unit (06, 07) -/

/-- R108. -/
inductive CaptureState where
  | idle | hunt | sectorData | sectorTail | track | discard
  deriving DecidableEq, Repr

/-- The phases of a track write (07 section 7.2, R128). -/
inductive Phase where
  | seek | idField | dataField
  deriving DecidableEq, Repr

/-- R129, data status. -/
inductive DataStatus where
  | absent | short | badCheck | good
  deriving DecidableEq, Repr

/-- A found-ID entry (R129). -/
structure FoundId where
  cyl    : Byte
  head   : Byte
  sector : Byte
  size   : Byte
  idGood : Bool
  data   : DataStatus
  deriving DecidableEq, Repr

/-- The capture record (R108, R127), the capture scratch and the found-ID list. -/
structure Capture where
  st        : CaptureState
  track     : Option Track
  line      : Option Nat
  zone      : Nat
  slot      : Nat
  logical   : Nat
  received  : Nat
  shift     : BitVec 64
  valid     : Nat
  crc       : Check
  violation : Bool
  pastSlot  : Bool
  phase     : Phase
  idBytes   : List Byte
  found     : List FoundId
  overflow  : Bool
  scratch   : Memory
  fluxOpen  : Option Nat
  empties   : Nat
  deriving DecidableEq, Repr

/-- The capture unit in IDLE, its record and scratch holding nothing that any block reads (R108, R138, log 5). -/
def Capture.idle : Capture where
  st := .idle
  track := none
  line := none
  zone := 0
  slot := 0
  logical := 0
  received := 0
  shift := 0#64
  valid := 0
  crc := 0#16
  violation := false
  pastSlot := false
  phase := .seek
  idBytes := []
  found := []
  overflow := false
  scratch := []
  fluxOpen := none
  empties := 0

/-! ## Card engine (08) -/

/-- R139. -/
inductive CardState where
  | absent | initialising | ready | failed
  deriving DecidableEq, Repr

/-- R147: 1 DEMAND, 2 PANEL, 3 WRITEBACK, 4 AHEAD. -/
inductive RunClass where
  | demand | panel | writeback | ahead
  deriving DecidableEq, Repr

/-- R143, kind. -/
inductive RunKind where
  | fill | flush | mergeRead | panelRead | panelWrite
  deriving DecidableEq, Repr

/-- R143, error. -/
inductive RunError where
  | timeout | cardError | cardGone
  deriving DecidableEq, Repr

/-- R143, status. -/
inductive RunStatus where
  | queued | inProgress | done | cancelled | failed (error : RunError)
  deriving DecidableEq, Repr

/-- A run record (R143). `data` holds the bytes a write run fixed when it was built (R152), `members` its FLUSH sectors with
the stamp each had then (R83), `merged` says that it follows a merge read (R147). `base` is the number of the run's blocks that stood
delivered when the attempt began: 0, and in a fill's second attempt the place of the block that failed, from which `received` counts
(R155, log 35). -/
structure Run where
  cls        : RunClass
  kind       : RunKind
  start      : Nat
  count      : Nat
  firstImage : Option Nat
  extent     : Option Nat
  line       : Option Nat
  track      : Option Track
  mount      : Option Nat
  attempt    : Nat
  base       : Nat
  received   : Nat
  status     : RunStatus
  data       : List Byte
  members    : List (Nat × Nat)
  merged     : Bool
  deriving DecidableEq, Repr

/-- The panel work of the request in execution (R159, R160). -/
structure PanelWork where
  write : Bool
  block : Nat
  data  : List Byte
  deriving DecidableEq, Repr

/-- The card engine (08). Timers are fine ticks left. -/
structure Card where
  state      : CardState
  capacity   : Nat
  wp         : Bool
  failCount  : Nat
  active     : Option Run
  queued     : Option Run
  mergeBuf   : List Byte
  lastRun    : Option Run
  panel      : Option PanelWork
  bringUp    : Option Nat
  blockLimit : Option Nat
  deriving DecidableEq, Repr

/-! ## Link unit (09, 10) -/

/-- R32. -/
inductive Line34 where
  | ready | diskChange
  deriving DecidableEq, Repr

/-- R34. -/
inductive MotorSource where
  | motorLine | select
  deriving DecidableEq, Repr

/-- The options (R176, R182). -/
structure Options where
  selectLine  : Nat
  line34      : Line34
  motorSource : MotorSource
  spinUp      : Nat
  idleFlush   : Nat
  burstCap    : Nat
  fillLead    : Nat
  readAhead   : Bool
  noticeMask  : Byte
  deriving DecidableEq, Repr

/-- The defaults of R176. -/
def Options.default : Options where
  selectLine := 0
  line34 := .diskChange
  motorSource := .motorLine
  spinUp := 250
  idleFlush := 1500
  burstCap := 8
  fillLead := 20
  readAhead := true
  noticeMask := 0xFF#8

/-- R164. -/
inductive RxState where
  | hunt | length | body | check
  deriving DecidableEq, Repr

/-- The request in execution (R168, R169): `made` once its reply has been made, `drop` when a link break marked that reply
(R174), `resets` for a RESET answered OK (R188). -/
structure Request where
  kind   : Byte
  tag    : Byte
  made   : Bool
  drop   : Bool
  resets : Bool
  deriving DecidableEq, Repr

/-- A reply that has been made (R170). `ofRequest` tells the reply of the request in execution from the link unit's own. -/
structure Reply where
  kind      : Byte
  tag       : Byte
  payload   : List Byte
  ofRequest : Bool
  deriving DecidableEq, Repr

/-- R190, reasons of CAPTURE_FAULT. -/
inductive FaultReason where
  | stray | hole | notReady | noLine | noMark | torn | crc | decode | overrun | deletedMark
  deriving DecidableEq, Repr

/-- The notices and their own fields (R190). EXTENT_REACHED keeps the mount it was posted for (R60). -/
inductive NoticeBody where
  | cardState (state : CardState) (capacity : Nat)
  | mountState (state : MountState) (discarded : Nat)
  | trackWritten (track : Track)
  | captureFault (cyl : Nat) (head : Nat) (sector : Nat) (reason : FaultReason) (defectDropped : Bool)
  | formatMismatch (track : Track) (found : Nat) (firstDiffering : Nat)
  | extentReached (mount : Nat) (set : BitVec 64)
  | flushDone (ok : Bool)
  | fillError (track : Track) (error : RunError)
  deriving DecidableEq, Repr

/-- A queued notice with its DROPPED bit (R173). -/
structure Notice where
  body    : NoticeBody
  dropped : Bool
  deriving DecidableEq, Repr

/-- The frame in sending (R171): `left` is its remaining time in twelfths of a fine tick (log 21). -/
structure TxFrame where
  bytes     : List Byte
  ofRequest : Bool
  left      : Nat
  deriving DecidableEq, Repr

/-- The link unit (09). `rxTimer` counts in twelfths of a fine tick (log 21). -/
structure Link where
  rx        : RxState
  rxBytes   : List Byte
  rxTimer   : Option Nat
  executing : Option Request
  replies   : List Reply
  notices   : List Notice
  dropped   : Bool
  tx        : Option TxFrame
  breakLow  : Bool
  resetDue  : Bool
  fast      : Bool
  options   : Options
  deriving DecidableEq, Repr

/-! ## The whole block -/

/-- The state of the 2240. `pending` is the queue of commands that wait; `free` counts the free values drawn (log 3). -/
structure State where
  powered : Bool
  pending : List Instr
  free    : Nat
  inputs  : Inputs
  prof    : Geometry
  drive   : Drive
  rot     : Rotation
  mount   : Mount
  cache   : Cache
  pres    : Present
  cap     : Capture
  card    : Card
  link    : Link
  deriving DecidableEq, Repr

/-! ## Values after reset, block by block -/

/-- R61, for the mount numbered `serial`. -/
def Mount.cleared (serial : Nat) : Mount where
  state := .unmounted
  geom := none
  chain := []
  readOnly := false
  shortOk := false
  imageSize := 0
  blocks := 0
  total := 0
  serial := serial

/-- R88. -/
def Cache.reset : Cache where
  lines := List.replicate 8 Line.free
  ram := []
  lru := [0, 1, 2, 3, 4, 5, 6, 7]
  flushQ := []
  defects := []
  idleTimer := none
  waiting := none
  forced := none
  armed := false
  demandStart := 0
  flushSerial := 0

/-- R89. -/
def Present.reset : Present where
  decision := Decision.none
  prevBit := false
  crc := none
  fieldCount := 0
  inCell := false
  cells := 0#16

/-- R162, with the card-detect switch open. -/
def Card.reset : Card where
  state := .absent
  capacity := 0
  wp := false
  failCount := 0
  active := none
  queued := none
  mergeBuf := []
  lastRun := none
  panel := none
  bringUp := none
  blockLimit := none

/-- R176, with the strap read as `fast`. No link break lasts: R174 takes one once the line has been low for 1 ms, since power-on too
(log 22). -/
def Link.reset (fast : Bool) : Link where
  rx := .hunt
  rxBytes := []
  rxTimer := none
  executing := none
  replies := []
  notices := []
  dropped := false
  tx := none
  breakLow := false
  resetDue := false
  fast := fast
  options := Options.default

/-- Every input line released, no card in the socket, the strap at 115,200 baud (log 4). -/
def Inputs.released : Inputs where
  select0 := false
  select1 := false
  select2 := false
  select3 := false
  motorOn := false
  side := false
  writeGate := false
  cardDetect := false
  fastStrap := false

/-- The 2240 right after reset (R1, R36, R38, R61, R88, R89, R108, R162, R176), with the input lines of log 4. -/
def State.reset : State where
  powered := true
  pending := []
  free := 0
  inputs := Inputs.released
  prof := d0
  drive := { selected := false, head := 0, side := false, lastIn := false, latch := true, gateActive := false }
  rot := { t := 0, fine := 0, state := .stopped, spinTimer := none }
  mount := Mount.cleared 0
  cache := Cache.reset
  pres := Present.reset
  cap := Capture.idle
  card := Card.reset
  link := Link.reset false

end Sys2Proof.Machine
end

