-- ==== Sys2Proof/Machine/Ops.lean ====
section
/-! DEFINITION. Named operations over bytes, the cyclic check, the byte memories and the eight lines, and the choice of an
order the spec leaves open. -/

namespace Sys2Proof.Machine

/-! ## Bytes (R177) -/

/-- The low byte of a number. -/
def byteOf (n : Nat) : Byte := BitVec.ofNat 8 n

/-- A number in two bytes, least significant first (R177). -/
def le2 (n : Nat) : List Byte := [byteOf n, byteOf (n / 256)]

/-- A number in four bytes, least significant first (R177). -/
def le4 (n : Nat) : List Byte := [byteOf n, byteOf (n / 256), byteOf (n / 65536), byteOf (n / 16777216)]

/-- The number that bytes give, least significant first (R177). -/
def ofLe : List Byte → Nat
  | [] => 0
  | b :: bs => b.toNat + 256 * ofLe bs

/-- A flag byte from its bits, bit 0 first (R177). -/
def flagByte (bits : List Bool) : Byte := byteOf (bits.foldr (fun b acc => b.toNat + 2 * acc) 0)

/-- Byte `i` of a payload, 00 hex past its end. -/
def byteAt (bs : List Byte) (i : Nat) : Byte := bs.getD i 0#8

/-- The `k` bytes of a payload from byte `i`. -/
def bytesAt (bs : List Byte) (i k : Nat) : List Byte := (bs.drop i).take k

/-- The bits of a byte, bit 7 first (00, section 6.1). -/
def byteBits (b : Byte) : List Bool :=
  [b.getLsbD 7, b.getLsbD 6, b.getLsbD 5, b.getLsbD 4, b.getLsbD 3, b.getLsbD 2, b.getLsbD 1, b.getLsbD 0]

/-! ## The cyclic check (R23) -/

/-- The register at the start of a checked field (R23). -/
def crcPreset : Check := 0xFFFF#16

/-- One bit step (R23): compare the top bit with the incoming bit, shift, and combine with 1021 hex when they differed. -/
def crcBit (r : Check) (bit : Bool) : Check :=
  if r.msb != bit then (r <<< 1) ^^^ 0x1021#16 else r <<< 1

/-- A byte enters the register, most significant bit first (R23). -/
def crcByte (r : Check) (b : Byte) : Check := (byteBits b).foldl crcBit r

/-- Bytes enter the register in order. -/
def crcBytes (r : Check) (bs : List Byte) : Check := bs.foldl crcByte r

/-- The check value in the order it is sent: high byte first (R23). -/
def checkBytes (r : Check) : List Byte := [byteOf (r.toNat / 256), byteOf r.toNat]

/-! ## Byte memories -/

/-- What an address that is not listed reads as (log 7). -/
def unlisted : Byte := 0#8

/-- The canonical form: addresses strictly rising, nothing listed that reads the same unlisted. -/
abbrev Memory.wf (m : Memory) : Prop :=
  (m.map Prod.fst).Pairwise (· < ·) ∧ ∀ c ∈ m, c.2 ≠ unlisted

/-- The byte at an address. -/
def memRead (m : Memory) (a : Nat) : Byte :=
  match m.find? (fun c => c.1 == a) with
  | some c => c.2
  | none => unlisted

/-- The cells that bytes from address `a` upward give, those equal to an unlisted byte left out. -/
def cellsFrom : Nat → List Byte → Memory
  | _, [] => []
  | a, b :: bs => if b = unlisted then cellsFrom (a + 1) bs else (a, b) :: cellsFrom (a + 1) bs

/-- Store bytes from address `a` upward. -/
def memStore (m : Memory) (a : Nat) (bs : List Byte) : Memory :=
  m.filter (fun c => decide (c.1 < a)) ++ cellsFrom a bs ++ m.filter (fun c => decide (a + bs.length ≤ c.1))

/-- `k` bytes from address `a` upward. -/
def memSlice (m : Memory) (a k : Nat) : List Byte := (List.range k).map (fun i => memRead m (a + i))

/-! ## Sizes of the buffers (00, section 2) -/

/-- Bytes of one cache line (R62). -/
def lineBytes : Nat := 12288

/-- Bytes of a card block and of an image block (00, section 5). -/
def blockBytes : Nat := 512

/-- Where the data area of line `i` stands in the track RAM (R62). -/
def lineBase (i : Nat) : Nat := i * lineBytes

/-! ## Timebases (00, section 6.2) -/

/-- Fine ticks of 1/24 µs in a millisecond of the crystal. -/
def fineTicksPerMs : Nat := 24000

/-- A limit or timer of `n` ms in fine ticks. -/
def ms (n : Nat) : Nat := n * fineTicksPerMs

/-! ## Orders the spec leaves open (log 2, 15, 16, 17) -/

/-- The `k`-th order of a list: every order is some `k`. -/
def arrange {α : Type} : Nat → List α → List α
  | _, [] => []
  | k, x :: xs => (arrange (k / (xs.length + 1)) xs).insertIdx (k % (xs.length + 1)) x

/-- Apply effects one after another in an order that is a free value; with fewer than two nothing is drawn. -/
def inFreeOrder (fs : List (State → State)) (s : State) : State :=
  if fs.length ≤ 1 then fs.foldl (fun t f => f t) s
  else (arrange (Config.tie s.free) fs).foldl (fun t f => f t) { s with free := s.free + 1 }

end Sys2Proof.Machine
end

