-- ==== Sys2Proof/Machine/Geometry.lean ====
section
/-! DEFINITION. Disk profiles and track geometry (01): rates, layouts, fields under the head, image offsets, and the image's
place on the card (03, R41, R48 to R50). -/

namespace Sys2Proof.Machine

/-! ## Rates and times (R13, R109) -/

/-- The revolution period P in rotation ticks (R13). -/
def Rpm.period : Rpm → Nat
  | .rpm300 => 600000
  | .rpm360 => 500000

/-- The rate in kbit/s (R3). -/
def Rate.kbit : Rate → Nat
  | .k125 => 125
  | .k250 => 250
  | .k300 => 300
  | .k500 => 500

/-- The byte time b = 24,000 / rate in rotation ticks (R13). -/
def Rate.byteTime (r : Rate) : Nat := 24000 / r.kbit

/-- The encoded cell w = 12,000 / rate in fine ticks (R109). -/
def Rate.cellTicks (r : Rate) : Nat := 12000 / r.kbit

/-! ## Zone figures -/

/-- S = 128 × 2^N (R3). -/
def Zone.sectorSize (z : Zone) : Nat := 128 * 2 ^ z.sizeCode

/-- Cells of the index field: 16 (MFM) or 7 (FM) (R16). -/
def indexFieldCells : Encoding → Nat
  | .mfm => 16
  | .fm => 7

/-- The preamble length (R16). -/
def Zone.preamble (z : Zone) : Nat :=
  z.gap4a + (if z.indexMark then indexFieldCells z.encoding else 0) + z.gap1

/-- The slot base: 62 (MFM, R17) or 33 (FM, R18). -/
def slotBase : Encoding → Nat
  | .mfm => 62
  | .fm => 33

/-- The filler byte of gaps: 4E hex (MFM) or FF hex (FM) (R16 to R18, R97). -/
def gapByte : Encoding → Byte
  | .mfm => 0x4E#8
  | .fm => 0xFF#8

/-- The logical sector in slot `j` (R5). -/
def Zone.logicalOf (z : Zone) (j : Nat) : Nat :=
  match z.order with
  | none => j
  | some l => l.getD j j

/-- The ID sector number of logical sector `l` (R5). -/
def Zone.idSector (z : Zone) (l : Nat) : Nat := z.firstSector + l

/-- The four ID bytes of slot `j` on a track (R5). -/
def Zone.idBytes (z : Zone) (tr : Track) (j : Nat) : List Byte :=
  [byteOf tr.cyl, byteOf (if z.idZero then 0 else tr.head), byteOf (z.idSector (z.logicalOf j)), byteOf z.sizeCode]

/-- Whether a head set contains a head (R4). -/
def HeadSet.has : HeadSet → Nat → Bool
  | .head0, h => h == 0
  | .head1, h => h == 1
  | .both, h => h == 0 || h == 1

/-- Whether a zone contains a track (R4). -/
def Zone.has (z : Zone) (tr : Track) : Bool :=
  z.firstCyl ≤ tr.cyl && tr.cyl ≤ z.lastCyl && z.heads.has tr.head

/-! ## The fit and the layout (R19, R20) -/

/-- G3' of the fit, or none for LAYOUT_OVERFLOW (R19). -/
def fitGap3 (rpm : Rpm) (z : Zone) : Option Nat :=
  let cap := rpm.period / z.rate.byteTime
  let required := z.preamble + z.n * (slotBase z.encoding + z.sectorSize + z.gap3)
  if required ≤ cap then (if z.gap3 < 8 then none else some z.gap3)
  else
    let cut := (required - cap + z.n - 1) / z.n
    if z.gap3 < cut + 8 then none else some (z.gap3 - cut)

/-- The zone layout, or none when the fit overflows (R19, R20). -/
def layoutOf (rpm : Rpm) (z : Zone) : Option Layout :=
  (fitGap3 rpm z).map fun g3 =>
    let b := z.rate.byteTime
    let cap := rpm.period / b
    let slot := slotBase z.encoding + z.sectorSize + g3
    let fin := z.preamble + z.n * slot
    { byteTime := b, capacity := cap, pre := z.preamble, base := slotBase z.encoding, sectorSize := z.sectorSize,
      gap3 := g3, slotLen := slot, slotsEnd := fin, gap4b := cap - fin, trackBytes := z.n * z.sectorSize }

/-- p_id(j), the first cell of slot `j` (R20). -/
def Layout.slotStart (y : Layout) (j : Nat) : Nat := y.pre + j * y.slotLen

/-- The byte cell at rotation time `t`, limited to C - 1 (R15). -/
def Layout.cellAt (y : Layout) (t : Nat) : Nat := min (t / y.byteTime) (y.capacity - 1)

/-! ## Tracks of a geometry -/

/-- The number of the zone that contains a track (R4). -/
def Geometry.zoneOf (g : Geometry) (tr : Track) : Nat := g.profile.zones.findIdx (fun z => z.has tr)

/-- Zone record `k`. -/
def Geometry.zone (g : Geometry) (k : Nat) : Zone := g.profile.zones.getD k d0Zone

/-- Zone layout `k`. -/
def Geometry.layout (g : Geometry) (k : Nat) : Layout := g.layouts.getD k d0Layout

/-- The zone record of a track (R4). -/
def Geometry.zoneAt (g : Geometry) (tr : Track) : Zone := g.zone (g.zoneOf tr)

/-- The layout of a track (R4). -/
def Geometry.layoutAt (g : Geometry) (tr : Track) : Layout := g.layout (g.zoneOf tr)

/-- Track index k = c × heads + h (R22). -/
def Geometry.trackIndex (g : Geometry) (tr : Track) : Nat := tr.cyl * g.profile.heads + tr.head

/-- The track with index `k`. -/
def Geometry.trackNo (g : Geometry) (k : Nat) : Track := ⟨k / g.profile.heads, k % g.profile.heads⟩

/-- The track data sizes of the first `k` tracks together (R22). -/
def Geometry.bytesBefore (g : Geometry) : Nat → Nat
  | 0 => 0
  | k + 1 => g.bytesBefore k + (g.layoutAt (g.trackNo k)).trackBytes

/-- The track offset (R22). -/
def Geometry.trackOffset (g : Geometry) (tr : Track) : Nat := g.bytesBefore (g.trackIndex tr)

/-- The image size in bytes (R22). -/
def Geometry.imageSize (g : Geometry) : Nat := g.bytesBefore (g.profile.cylinders * g.profile.heads)

/-- The image holds ceil(image size / 512) blocks (R22). -/
def Geometry.imageBlocks (g : Geometry) : Nat := (g.imageSize + 511) / 512

/-- The current track that a head position and side name, or none for off-image (R27). -/
def Geometry.locate (g : Geometry) (head : Nat) (side : Bool) : Option Track :=
  let c := head / g.profile.stepRatio
  if head % g.profile.stepRatio = 0 ∧ c < g.profile.cylinders ∧ side.toNat < g.profile.heads then some ⟨c, side.toNat⟩
  else none

/-- The image offset of logical sector `l` of a track (R22). -/
def Geometry.sectorOffset (g : Geometry) (tr : Track) (l : Nat) : Nat :=
  g.trackOffset tr + l * (g.layoutAt tr).sectorSize

/-- The image blocks a sector covers, lowest first (R22). -/
def Geometry.sectorBlocks (g : Geometry) (tr : Track) (l : Nat) : List Nat :=
  let first := g.sectorOffset tr l / 512
  let last := (g.sectorOffset tr l + (g.layoutAt tr).sectorSize - 1) / 512
  (List.range (last + 1 - first)).map (fun i => first + i)

/-- Whether a sector covers an image block (R22). -/
def Geometry.covers (g : Geometry) (tr : Track) (l blk : Nat) : Bool :=
  let o := g.sectorOffset tr l
  o / 512 ≤ blk && blk ≤ (o + (g.layoutAt tr).sectorSize - 1) / 512

/-- The first image block of a track. -/
def Geometry.firstBlock (g : Geometry) (tr : Track) : Nat := g.trackOffset tr / 512

/-- The last image block of a track. -/
def Geometry.lastBlock (g : Geometry) (tr : Track) : Nat :=
  (g.trackOffset tr + (g.layoutAt tr).trackBytes - 1) / 512

/-! ## The field under the head (R16 to R18, R21) -/

/-- The regions of a track (R21), the preamble with its parts (R16). -/
inductive Region where
  | gap4a | indexField (k : Nat) | gap1 | slot (j off : Nat) | gap4b
  deriving DecidableEq, Repr

/-- The region of byte cell `p` (R21). -/
def regionAt (z : Zone) (y : Layout) (p : Nat) : Region :=
  if p < y.pre then
    if p < z.gap4a then .gap4a
    else if z.indexMark && decide (p < z.gap4a + indexFieldCells z.encoding) then .indexField (p - z.gap4a)
    else .gap1
  else if p < y.slotsEnd then .slot ((p - y.pre) / y.slotLen) ((p - y.pre) % y.slotLen)
  else .gap4b

/-- The fields of a slot; an index counts from the field's first cell (R17, R18). -/
inductive Field where
  | sync | idMark (k : Nat) | id (k : Nat) | idCheck (k : Nat) | gap2
  | dataMark (k : Nat) | data (i : Nat) | dataCheck (k : Nat) | gap3
  deriving DecidableEq, Repr

/-- The field of a slot's cell at an offset, MFM (R17). -/
def mfmField (sectorSize off : Nat) : Field :=
  if off < 12 then .sync
  else if off < 16 then .idMark (off - 12)
  else if off < 20 then .id (off - 16)
  else if off < 22 then .idCheck (off - 20)
  else if off < 44 then .gap2
  else if off < 56 then .sync
  else if off < 60 then .dataMark (off - 56)
  else if off < 60 + sectorSize then .data (off - 60)
  else if off < 62 + sectorSize then .dataCheck (off - 60 - sectorSize)
  else .gap3

/-- The field of a slot's cell at an offset, FM (R18). -/
def fmField (sectorSize off : Nat) : Field :=
  if off < 6 then .sync
  else if off < 7 then .idMark 3
  else if off < 11 then .id (off - 7)
  else if off < 13 then .idCheck (off - 11)
  else if off < 24 then .gap2
  else if off < 30 then .sync
  else if off < 31 then .dataMark 3
  else if off < 31 + sectorSize then .data (off - 31)
  else if off < 33 + sectorSize then .dataCheck (off - 31 - sectorSize)
  else .gap3

/-- The field of a slot's cell at an offset (R17, R18). -/
def slotField : Encoding → Nat → Nat → Field
  | .mfm, s, off => mfmField s off
  | .fm, s, off => fmField s off

/-- The write window of a slot, as offsets from its first cell (R114). -/
def inWriteWindow : Encoding → Nat → Bool
  | .mfm, off => 22 ≤ off && off ≤ 50
  | .fm, off => 13 ≤ off && off ≤ 26

/-- Offset of the data mark's first cell (R17, R18): from here a fall of the gate in HUNT is NO_MARK (R117). -/
def dataMarkOffset : Encoding → Nat
  | .mfm => 56
  | .fm => 30

/-- Offset of the hunt deadline cell (R116). -/
def deadlineOffset : Encoding → Nat
  | .mfm => 72
  | .fm => 40

/-! ## The image on the card (03) -/

/-- The extent that holds image block `i`: its number, the blocks before it, and itself (R41). -/
def findExtent : List Extent → Nat → Nat → Nat → Option (Nat × Nat × Extent)
  | [], _, _, _ => none
  | e :: es, no, before, i => if i < before + e.count then some (no, before, e) else findExtent es (no + 1) (before + e.count) i

/-- Image block to card block and extent number, or none for a hole (R48). -/
def Mount.mapBlock (m : Mount) (i : Nat) : Option (Nat × Nat) :=
  match findExtent m.chain 0 0 i with
  | none => none
  | some (no, before, e) => if e.skip then none else some (e.start + (i - before), no)

/-- The image block that a card block holds in a chain, counting `before` blocks ahead of it (R50). -/
def imageBlockIn : List Extent → Nat → Nat → Option Nat
  | [], _, _ => none
  | e :: es, before, b =>
    if !e.skip && decide (e.start ≤ b) && decide (b < e.start + e.count) then some (before + (b - e.start))
    else imageBlockIn es (before + e.count) b

/-- The image block that a card block holds; none in UNMOUNTED (R50). -/
def Mount.imageBlockOf (m : Mount) (b : Nat) : Option Nat :=
  if m.state = .unmounted then none else imageBlockIn m.chain 0 b

/-- A sector is a hole when one of its image blocks is (R49). -/
def sectorHole (g : Geometry) (m : Mount) (tr : Track) (l : Nat) : Bool :=
  (g.sectorBlocks tr l).any (fun i => (m.mapBlock i).isNone)

end Sys2Proof.Machine
end

