-- ==== Sys2Proof/Machine/Cache.lean ====
section
/-! DEFINITION. The track cache (04): lines and sector records, LRU order, allocation, arrivals, read-ahead, write-back work,
the flush queue and the defect list. Every operation here acts on the cache alone. -/

namespace Sys2Proof.Machine

/-! ## Sectors and lines (R62 to R64) -/

/-- R64: DIRTY, CAPTURE or FLUSH. -/
def SectorState.nonClean : SectorState → Bool
  | .dirty | .capture | .flush => true
  | .pending | .clean | .missing => false

/-- A sector takes a state; a change of state empties its block progress (R63). -/
def Sector.enter (x : Sector) (st : SectorState) : Sector :=
  if x.state = st then x else { x with state := st, progress := [] }

/-- The line holds at least one non-clean sector (R64). -/
def Line.dirty (l : Line) : Bool := l.sectors.any (fun x => x.state.nonClean)

/-- The line holds at least one DIRTY sector (R70). -/
def Line.hasDirty (l : Line) : Bool := l.sectors.any (fun x => x.state == .dirty)

/-- The line state, derived from its tag and sector records (R64). -/
def Line.lineState (l : Line) : LineState :=
  if l.tag.isNone then .free
  else if l.sectors.any (fun x => x.state == .pending) then .filling
  else if l.sectors.any (fun x => x.state == .missing) then .failed
  else .resident

/-- R69: not pinned, not FILLING and without a non-clean sector (and holding a track at all). -/
def Line.evictable (l : Line) : Bool :=
  l.tag.isSome && !l.pinned && (l.lineState != .filling) && !l.dirty

/-- The number of non-clean sectors of a line (R62). -/
def Line.nonCleanCount (l : Line) : Nat := l.sectors.countP (fun x => x.state.nonClean)

/-- The number of MISSING sectors of a line (R62). -/
def Line.missingCount (l : Line) : Nat := l.sectors.countP (fun x => x.state == .missing)

/-- Unpin a line; a FILLING line of origin DEMAND becomes AHEAD (R28, R73). -/
def Line.unpin (l : Line) : Line :=
  if l.pinned then
    { l with pinned := false, origin := if l.lineState = .filling then .ahead else l.origin }
  else l

/-- Line `i`. -/
def Cache.line (c : Cache) (i : Nat) : Line := c.lines.getD i Line.free

/-- Change line `i`. -/
def Cache.modLine (c : Cache) (i : Nat) (f : Line → Line) : Cache := { c with lines := c.lines.modify i f }

/-- Change sector record `l` of line `i`. -/
def Cache.modSector (c : Cache) (i l : Nat) (f : Sector → Sector) : Cache :=
  c.modLine i (fun ln => { ln with sectors := ln.sectors.modify l f })

/-- Sector record `l` of line `i`. -/
def Cache.sector (c : Cache) (i l : Nat) : Option Sector := (c.line i).sectors[l]?

/-- The number of the line that satisfies a test, if any. -/
def Cache.findLine (c : Cache) (p : Line → Bool) : Option Nat := c.lines.findIdx? p

/-- The active line: the pinned one (R68). -/
def Cache.active (c : Cache) : Option Nat := c.findLine (fun l => l.pinned)

/-- The line that carries a track's tag. -/
def Cache.carrier (c : Cache) (tr : Track) : Option Nat := c.findLine (fun l => l.tag == some tr)

/-- Non-clean sectors of all lines (R40, R57, R189). -/
def Cache.nonClean (c : Cache) : Nat := (c.lines.map Line.nonCleanCount).sum

/-- Whether line `i` carries a given track. -/
def Cache.carries (c : Cache) (i : Nat) (tr : Option Track) : Bool :=
  tr.isSome && (c.line i).tag == tr

/-! ## LRU order (R67) -/

/-- A line moves to the front. -/
def toFront (order : List Nat) (i : Nat) : List Nat := i :: order.filter (· != i)

/-- A line moves to the second place, behind the line at the front. -/
def toSecond (order : List Nat) (i : Nat) : List Nat :=
  match order.filter (· != i) with
  | [] => [i]
  | h :: rest => h :: i :: rest

/-- A line moves to the front of the cache's LRU order. -/
def Cache.touch (c : Cache) (i : Nat) : Cache := { c with lru := toFront c.lru i }

/-! ## Data areas -/

/-- Address of byte `b` of logical sector `l` in line `i`, with sectors of `size` bytes (R62). -/
def dataAddr (i size l b : Nat) : Nat := lineBase i + l * size + b

/-- Store bytes into line `i` from byte `off` of its data area. -/
def Cache.storeLine (c : Cache) (i off : Nat) (bs : List Byte) : Cache :=
  { c with ram := memStore c.ram (lineBase i + off) bs }

/-! ## Defect list (R85 to R87) -/

/-- Whether the list names a sector. -/
def names (ds : List Defect) (tr : Track) (sector : Nat) : Bool := ds.any (fun d => d.track == tr && d.sector == sector)

/-- Set every defective part from the list: it is true exactly while the list names the sector (R63, R85 to R87). -/
def Line.syncDefects (g : Geometry) (ds : List Defect) (ln : Line) : Line :=
  match ln.tag with
  | none => ln
  | some tr =>
    { ln with sectors := ln.sectors.mapIdx (fun l x => { x with defective := names ds tr ((g.zone ln.zone).idSector l) }) }

/-- The cache takes a new defect list, and the defective parts follow it. -/
def Cache.setDefects (c : Cache) (g : Geometry) (ds : List Defect) : Cache :=
  { c with defects := ds, lines := c.lines.map (Line.syncDefects g ds) }

/-- The most entries the list holds (R85). -/
def maxDefects : Nat := 32

/-- The list after an addition, and whether the oldest entry was dropped (R85, R86). -/
def addToDefects (ds : List Defect) (d : Defect) : List Defect × Bool :=
  if names ds d.track d.sector then (ds.filter (fun e => !(e.track == d.track && e.sector == d.sector)) ++ [d], false)
  else if ds.length < maxDefects then (ds ++ [d], false)
  else (ds.drop 1 ++ [d], true)

/-- Add an entry (R85, R86); the second part says that the oldest entry was dropped. -/
def Cache.addDefect (c : Cache) (g : Geometry) (d : Defect) : Cache × Bool :=
  (c.setDefects g (addToDefects c.defects d).1, (addToDefects c.defects d).2)

/-- Remove the entry of one sector (R87, good rewrite). -/
def Cache.removeDefect (c : Cache) (g : Geometry) (tr : Track) (sector : Nat) : Cache :=
  c.setDefects g (c.defects.filter (fun e => !(e.track == tr && e.sector == sector)))

/-- Remove the entries of a whole track (R87, track write). -/
def Cache.removeTrackDefects (c : Cache) (g : Geometry) (tr : Track) : Cache :=
  c.setDefects g (c.defects.filter (fun e => !(e.track == tr)))

/-! ## Allocation and eviction (R69, R72) -/

/-- The line furthest back in an order that satisfies a test. -/
def furthestBack (order : List Nat) (p : Nat → Bool) : Option Nat := order.reverse.find? p

/-- The line a demand allocation takes: a FREE line, else an evictable one, furthest back (R69). -/
def Cache.pickLine (c : Cache) (order : List Nat) : Option Nat :=
  match furthestBack order (fun i => (c.line i).tag.isNone) with
  | some i => some i
  | none => furthestBack order (fun i => (c.line i).evictable)

/-- The fresh sector records of a track (R69). -/
def freshSectors (g : Geometry) (m : Mount) (ds : List Defect) (tr : Track) : List Sector :=
  (List.range (g.zoneAt tr).n).map fun l =>
    let h := sectorHole g m tr l
    { state := if h then .clean else .pending, hole := h, defective := names ds tr ((g.zoneAt tr).idSector l),
      progress := [], stamp := 0 }

/-- The hole sectors of a fresh line filled with the zone's fill byte (R69, R49). -/
def fillHoles (g : Geometry) (i : Nat) (tr : Track) (secs : List Sector) (ram : Memory) : Memory :=
  secs.zipIdx.foldl (fun r (x, l) =>
    if x.hole then
      memStore r (dataAddr i (g.layoutAt tr).sectorSize l 0) (List.replicate (g.layoutAt tr).sectorSize (g.zoneAt tr).fill)
    else r) ram

/-- Line `i` is set up for a track (R69). -/
def Cache.occupy (c : Cache) (g : Geometry) (m : Mount) (i : Nat) (tr : Track) (origin : Origin) : Cache :=
  let secs := freshSectors g m c.defects tr
  { c with
    lines := c.lines.set i { tag := some tr, zone := g.zoneOf tr, origin := origin, pinned := false, failures := 0, sectors := secs }
    ram := fillHoles g i tr secs c.ram }

/-! ## Demand order (R74) -/

/-- The first slot, in physical order, that starts at or after cell `q`, or slot 0 (R74). -/
def firstSlotFrom (z : Zone) (y : Layout) (q : Nat) : Nat :=
  ((List.range z.n).find? (fun j => decide (q ≤ y.slotStart j))).getD 0

/-- The target cell: the cell under the head plus the fill lead, taken around the track (R74). -/
def targetCell (y : Layout) (leadMs t : Nat) : Nat :=
  let q := y.cellAt t + leadMs * 3000 / y.byteTime
  if q < y.capacity then q else q - y.capacity

/-- The start block of the demand order (R74). -/
def startBlock (g : Geometry) (tr : Track) (leadMs t : Nat) : Nat :=
  let j := firstSlotFrom (g.zoneAt tr) (g.layoutAt tr) (targetCell (g.layoutAt tr) leadMs t)
  g.sectorOffset tr ((g.zoneAt tr).logicalOf j) / 512

/-! ## Arrivals and the waiting track (R28, R70) -/

/-- Unpin whatever is pinned (R28 step 1, R68). -/
def Cache.unpinAll (c : Cache) : Cache := { c with lines := c.lines.map Line.unpin }

/-- Line `i` becomes the active line: pinned, DEMAND, front of the LRU order, its MISSING sectors PENDING again, and the
demand order worked out after that (R28 steps 2 to 4, R70, R74). -/
def Cache.activate (c : Cache) (g : Geometry) (leadMs t : Nat) (i : Nat) (tr : Track) : Cache :=
  let c := c.modLine i (fun l =>
    { l with pinned := true, origin := .demand,
             sectors := l.sectors.map (fun x => if x.state = .missing then x.enter .pending else x) })
  { c with lru := toFront c.lru i, demandStart := startBlock g tr leadMs t, waiting := none, forced := none }

/-- The forced line: of the unpinned lines with a DIRTY sector, the one furthest back; it goes to the front of the flush
queue (R70, R78). -/
def Cache.chooseForced (c : Cache) : Cache :=
  match furthestBack c.lru (fun i => !(c.line i).pinned && (c.line i).hasDirty) with
  | none => { c with forced := none }
  | some f => { c with forced := some f, flushQ := toFront c.flushQ f }

/-- A demand allocation, or the wait for one (R69, R70). -/
def Cache.demandAllocate (c : Cache) (g : Geometry) (m : Mount) (leadMs t : Nat) (tr : Track) : Cache :=
  match c.pickLine c.lru with
  | some i => (c.occupy g m i tr .demand).activate g leadMs t i tr
  | none => { c with waiting := some tr }.chooseForced

/-- The cache takes an arrival at a track, or off-image (R28). -/
def Cache.arrive (c : Cache) (g : Geometry) (m : Mount) (leadMs t : Nat) (new : Option Track) : Cache :=
  let c := { c.unpinAll with waiting := none, forced := none }
  match new with
  | none => c
  | some tr =>
    match c.carrier tr with
    | some i => c.activate g leadMs t i tr
    | none => c.demandAllocate g m leadMs t tr

/-- What R70 watches: every line's state and which of its sectors are non-clean. -/
def Cache.watch (c : Cache) : List (LineState × List Bool) :=
  c.lines.map (fun l => (l.lineState, l.sectors.map (fun x => x.state.nonClean)))

/-- A try of the waiting allocation (R70). A try that does not succeed lets a forced line without DIRTY or FLUSH sectors lose
its standing, and chooses one afresh when there is none. -/
def Cache.retryWaiting (c : Cache) (g : Geometry) (m : Mount) (leadMs t : Nat) (tr : Track) : Cache :=
  match c.pickLine c.lru with
  | some i => (c.occupy g m i tr .demand).activate g leadMs t i tr
  | none =>
    match c.forced with
    | none => c.chooseForced
    | some f =>
      if (c.line f).sectors.any (fun x => x.state == .dirty || x.state == .flush) then c
      else { c with forced := none }.chooseForced

/-! ## Read-ahead (R71, R72) -/

/-- The candidates of read-ahead around a track, in order, those on the image (R71). -/
def aheadCandidates (p : Profile) (tr : Track) (dirIn : Bool) : List Track :=
  let next : List Track :=
    if dirIn then [⟨tr.cyl + 1, 0⟩, ⟨tr.cyl + 1, 1⟩]
    else if tr.cyl = 0 then [] else [⟨tr.cyl - 1, 0⟩, ⟨tr.cyl - 1, 1⟩]
  (⟨tr.cyl, 1 - tr.head⟩ :: next).filter
    (fun x => decide (x.cyl < p.cylinders) && decide (x.head < p.heads))

/-- A read-ahead allocation for one candidate, if no line carries it and a line third or further back can be had (R72). -/
def Cache.tryAhead (g : Geometry) (m : Mount) (c : Cache) (tr : Track) : Cache :=
  if (c.carrier tr).isSome then c
  else
    match c.pickLine (c.lru.drop 2) with
    | none => c
    | some i => { c.occupy g m i tr .ahead with lru := toSecond c.lru i }

/-- The active line is RESIDENT, with the track it holds (R71). -/
def Cache.activeResident (c : Cache) : Option (Nat × Option Track) :=
  match c.active with
  | none => none
  | some i => if (c.line i).lineState = .resident then some (i, (c.line i).tag) else none

/-- Read-ahead is considered: with the active line RESIDENT, its neighbours are tried in order (R71). -/
def Cache.considerAhead (c : Cache) (g : Geometry) (m : Mount) (dirIn : Bool) : Cache :=
  match c.activeResident with
  | some (_, some tr) => (aheadCandidates g.profile tr dirIn).foldl (Cache.tryAhead g m) c
  | _ => c

/-- Between two states of the cache the active line has become RESIDENT, or has become active while RESIDENT, or a line that
is not the active line has left FILLING (R71). -/
def aheadMoment (old new : Cache) : Bool :=
  new.activeResident.isSome &&
    (decide (old.activeResident ≠ new.activeResident) ||
      (List.range 8).any (fun i =>
        decide (new.active ≠ some i) && decide ((old.line i).lineState = .filling) &&
          decide ((new.line i).lineState ≠ .filling)))

/-! ## Fill and write-back work (R73, R78) -/

/-- Whether a run holds an image block. -/
def Run.holds (r : Run) (blk : Nat) : Bool :=
  match r.firstImage with
  | none => false
  | some f => decide (f ≤ blk) && decide (blk < f + r.count)

/-- Fill work: the block holds a byte of a PENDING sector and is not yet in its block progress (R73). -/
def Cache.isFillWork (c : Cache) (g : Geometry) (i blk : Nat) : Bool :=
  match (c.line i).tag with
  | none => false
  | some tr => (c.line i).sectors.zipIdx.any (fun (x, l) =>
      x.state == .pending && !x.progress.contains blk && g.covers tr l blk)

/-- Write-back work: the block holds a byte of a DIRTY sector, or of a FLUSH sector whose progress lacks it while no write
run in a slot holds it (R78). `runs` are the write runs in the slots. -/
def Cache.isWriteWork (c : Cache) (g : Geometry) (runs : List Run) (i blk : Nat) : Bool :=
  match (c.line i).tag with
  | none => false
  | some tr => (c.line i).sectors.zipIdx.any (fun (x, l) =>
      (x.state == .dirty || (x.state == .flush && !x.progress.contains blk && !runs.any (fun r => r.holds blk)))
        && g.covers tr l blk)

/-- The image blocks of the track a line holds, lowest first. -/
def Cache.lineBlocks (c : Cache) (g : Geometry) (i : Nat) : List Nat :=
  match (c.line i).tag with
  | none => []
  | some tr => (List.range (g.lastBlock tr + 1 - g.firstBlock tr)).map (fun k => g.firstBlock tr + k)

/-- A line has write-back work (R78). A line without a non-clean sector has none. -/
def Cache.hasWriteWork (c : Cache) (g : Geometry) (runs : List Run) (i : Nat) : Bool :=
  (c.line i).dirty && (c.lineBlocks g i).any (c.isWriteWork g runs i)

/-- The lines that a trigger adds to the flush queue, those furthest back in the LRU order first (R78). -/
def Cache.joining (c : Cache) (p : Nat → Bool) : List Nat := c.lru.reverse.filter (fun i => p i && !c.flushQ.contains i)

/-- Lines join the flush queue at its back, the forced line at its front, without a line standing twice (R78). -/
def Cache.join (c : Cache) (p : Nat → Bool) : Cache :=
  { c with flushQ := (c.joining p).filter (fun i => c.forced == some i) ++ c.flushQ
                      ++ (c.joining p).filter (fun i => c.forced != some i) }

/-- Every line with write-back work joins (R78). -/
def Cache.joinAll (c : Cache) (g : Geometry) (runs : List Run) : Cache := c.join (c.hasWriteWork g runs)

/-- A line leaves the queue when it has no write-back work (R78). -/
def Cache.trimQueue (c : Cache) (g : Geometry) (runs : List Run) : Cache :=
  { c with flushQ := c.flushQ.filter (c.hasWriteWork g runs) }

/-! ## Completions (R76, R77, R79, R83, R84) -/

/-- A sector of a track with a byte in one of a run's blocks. -/
def touches (g : Geometry) (tr : Track) (r : Run) (l : Nat) : Bool :=
  (g.sectorBlocks tr l).any (fun b => r.holds b)

/-- Change the sectors of line `i` by number. -/
def Cache.mapSectors (c : Cache) (i : Nat) (f : Nat → Sector → Sector) : Cache :=
  c.modLine i (fun ln => { ln with sectors := ln.sectors.mapIdx f })

/-- One sector takes its bytes of a fill block (R76): where the block's bytes begin and end in the sector. -/
def storeFillPart (g : Geometry) (i : Nat) (tr : Track) (blk : Nat) (data : List Byte) (ram : Memory) (l : Nat) : Memory :=
  let o := g.sectorOffset tr l
  let lo := max o (blk * 512)
  let hi := min (o + (g.layoutAt tr).sectorSize) (blk * 512 + 512)
  memStore ram (lineBase i + (lo - g.trackOffset tr)) ((List.range (hi - lo)).map (fun k => byteAt data (lo - blk * 512 + k)))

/-- A PENDING sector that has just received a block: CLEAN when its progress holds every block it covers (R76). -/
def receiveBlock (g : Geometry) (tr : Track) (blk l : Nat) (x : Sector) : Sector :=
  if x.state = .pending ∧ g.covers tr l blk ∧ ¬ x.progress.contains blk then
    let p := (g.sectorBlocks tr l).filter (fun b => b == blk || x.progress.contains b)
    if p = g.sectorBlocks tr l then x.enter .clean else { x with progress := p }
  else x

/-- A fill block arrives for a line that carries the run's track (R76). -/
def Cache.deliver (c : Cache) (g : Geometry) (i : Nat) (tr : Track) (blk : Nat) (data : List Byte) : Cache :=
  let takers := (c.line i).sectors.zipIdx.filter (fun (x, l) =>
    x.state == .pending && g.covers tr l blk && !x.progress.contains blk)
  let c := { c with ram := takers.foldl (fun r (p : Sector × Nat) => storeFillPart g i tr blk data r p.2) c.ram }
  c.mapSectors i (receiveBlock g tr blk)

/-- The final failure of a fill: PENDING sectors in the run's blocks become MISSING (R77). -/
def Cache.failFill (c : Cache) (g : Geometry) (i : Nat) (tr : Track) (r : Run) : Cache :=
  c.mapSectors i (fun l x => if x.state = .pending ∧ touches g tr r l then x.enter .missing else x)

/-- A write run is built: DIRTY sectors with a byte in its blocks become FLUSH under the next stamp (R79). -/
def Cache.toFlush (c : Cache) (g : Geometry) (i : Nat) (tr : Track) (r : Run) : Cache :=
  let c := { c with flushSerial := c.flushSerial + 1 }
  c.mapSectors i (fun l x =>
    if x.state = .dirty ∧ touches g tr r l then { x.enter .flush with stamp := c.flushSerial } else x)

/-- The FLUSH sectors in a run's blocks, with their stamps (R83). -/
def Cache.flushMembers (c : Cache) (g : Geometry) (i : Nat) (tr : Track) (r : Run) : List (Nat × Nat) :=
  ((c.line i).sectors.zipIdx.filter (fun (x, l) => x.state == .flush && touches g tr r l)).map (fun p => (p.2, p.1.stamp))

/-- FLUSH sectors in a run's blocks return to DIRTY (R79 withdrawal, R84 step 1). -/
def Cache.fromFlush (c : Cache) (g : Geometry) (i : Nat) (tr : Track) (r : Run) : Cache :=
  c.mapSectors i (fun l x => if x.state = .flush ∧ touches g tr r l then x.enter .dirty else x)

/-- A DONE write run grows a member's progress, and a sector whose progress is whole becomes CLEAN (R83). -/
def progressOf (g : Geometry) (tr : Track) (r : Run) (l : Nat) (x : Sector) : Sector :=
  if x.state = .flush ∧ r.members.contains (l, x.stamp) then
    let p := (g.sectorBlocks tr l).filter (fun b => r.holds b || x.progress.contains b)
    if p = g.sectorBlocks tr l then x.enter .clean else { x with progress := p }
  else x

/-- A write run ends DONE for a line that carries its track (R83). -/
def Cache.writeDone (c : Cache) (g : Geometry) (i : Nat) (tr : Track) (r : Run) : Cache :=
  (c.mapSectors i (progressOf g tr r)).modLine i (fun ln => { ln with failures := 0 })

/-- CLEAN sectors of every line that are no holes and have a byte in a failed run's blocks become DIRTY (R84 step 2). -/
def Line.dirtyOverlap (g : Geometry) (r : Run) (ln : Line) : Line :=
  match ln.tag with
  | none => ln
  | some tr => { ln with sectors := ln.sectors.mapIdx (fun l x =>
      if x.state = .clean ∧ x.hole = false ∧ touches g tr r l then x.enter .dirty else x) }

/-- The lines whose sectors a failed write run makes DIRTY in step 2 of R84. -/
def Cache.overlapped (c : Cache) (g : Geometry) (r : Run) (i : Nat) : Bool :=
  decide (Line.dirtyOverlap g r (c.line i) ≠ c.line i)

/-- The count of failed write runs of a line rises, up to 3 (R84 step 3). -/
def Cache.countFailure (c : Cache) (i : Nat) : Cache := c.modLine i (fun ln => { ln with failures := min 3 (ln.failures + 1) })

/-! ## The end of a mount, and a mount leaving MOUNTED -/

/-- The active line is unpinned, the wait ends and the idle-flush timer stops (R52, R68, R70, R80). -/
def Cache.leaveMounted (c : Cache) : Cache :=
  { c.unpinAll with waiting := none, forced := none, idleTimer := none }

/-- Every line FREE, flush queue and defect list empty, FLUSH_DONE not armed; the LRU order is kept (R53, R57, R81). -/
def Cache.release (c : Cache) : Cache :=
  { c with lines := c.lines.map (fun _ => Line.free), flushQ := [], defects := [], idleTimer := none, waiting := none,
           forced := none, armed := false }

end Sys2Proof.Machine
end

