-- ==== Sys2Proof/Machine/Link.lean ====
section
/-! DEFINITION. The link unit (09) and the layout of frames and notices (10): codes, frames, the reply and notice queues,
the transmitter, the receiver's discards and the link break. Every operation here acts on the link unit alone. -/

namespace Sys2Proof.Machine

/-! ## Codes (R179, R189, R190) -/

/-- R179, status codes of a reply. -/
inductive ReplyStatus where
  | ok | busy | badField | wrongState | cardNotReady | cardFault | inImage | writeProtected | unknownKind | frameError
  deriving DecidableEq, Repr

/-- R179. -/
def ReplyStatus.code : ReplyStatus → Byte
  | .ok => 0x00#8
  | .busy => 0x01#8
  | .badField => 0x02#8
  | .wrongState => 0x03#8
  | .cardNotReady => 0x04#8
  | .cardFault => 0x05#8
  | .inImage => 0x06#8
  | .writeProtected => 0x07#8
  | .unknownKind => 0x0E#8
  | .frameError => 0x0F#8

/-- R179, card state codes. -/
def CardState.code : CardState → Byte
  | .absent => 0#8
  | .initialising => 1#8
  | .ready => 2#8
  | .failed => 3#8

/-- R179, mount state codes. -/
def MountState.code : MountState → Byte
  | .unmounted => 0#8
  | .mounted => 1#8
  | .draining => 2#8
  | .lost => 3#8

/-- R179, rotation state codes. -/
def RotState.code : RotState → Byte
  | .stopped => 0#8
  | .spinningUp => 1#8
  | .atSpeed => 2#8

/-- R179, line state codes. -/
def LineState.code : LineState → Byte
  | .free => 0#8
  | .filling => 1#8
  | .resident => 2#8
  | .failed => 3#8

/-- R179, R189, R190: run errors. -/
def RunError.code : RunError → Byte
  | .timeout => 1#8
  | .cardError => 2#8
  | .cardGone => 3#8

/-- R190, reason codes of CAPTURE_FAULT. -/
def FaultReason.code : FaultReason → Byte
  | .stray => 0x01#8
  | .hole => 0x02#8
  | .notReady => 0x03#8
  | .noLine => 0x04#8
  | .noMark => 0x05#8
  | .torn => 0x06#8
  | .crc => 0x07#8
  | .decode => 0x08#8
  | .overrun => 0x09#8
  | .deletedMark => 0x0A#8

/-- R187, reason codes of the defect list. -/
def DefectReason.code : DefectReason → Byte
  | .noMark => 0x01#8
  | .torn => 0x02#8
  | .crc => 0x03#8
  | .decode => 0x04#8
  | .overrun => 0x05#8

/-- The CAPTURE_FAULT reason that reports a defect (06 section 6.8). -/
def DefectReason.fault : DefectReason → FaultReason
  | .noMark => .noMark
  | .torn => .torn
  | .crc => .crc
  | .decode => .decode
  | .overrun => .overrun

/-- The notice codes 1..8 (R190). -/
def NoticeBody.code : NoticeBody → Nat
  | .cardState _ _ => 1
  | .mountState _ _ => 2
  | .trackWritten _ => 3
  | .captureFault _ _ _ _ _ => 4
  | .formatMismatch _ _ _ => 5
  | .extentReached _ _ => 6
  | .flushDone _ => 7
  | .fillError _ _ => 8

/-- The notice's own fields (R190). -/
def NoticeBody.fields : NoticeBody → List Byte
  | .cardState st cap => st.code :: le4 cap
  | .mountState st n => st.code :: le2 n
  | .trackWritten tr => [byteOf tr.cyl, byteOf tr.head]
  | .captureFault c h s r d => [byteOf c, byteOf h, byteOf s, r.code, flagByte [d]]
  | .formatMismatch tr n j => [byteOf tr.cyl, byteOf tr.head, byteOf n, byteOf j]
  | .extentReached _ set => (List.range 8).map (fun k => (set >>> (8 * k)).setWidth 8)
  | .flushDone ok => [if ok then 0#8 else 1#8]
  | .fillError tr e => [byteOf tr.cyl, byteOf tr.head, e.code]

/-! ## Frames (R180) -/

/-- A whole frame: start byte, length, kind, tag, payload, check high byte first (R180, R23). -/
def frameBytes (kind tag : Byte) (payload : List Byte) : List Byte :=
  let covered := le2 (payload.length + 2) ++ [kind, tag] ++ payload
  0xC5#8 :: covered ++ checkBytes (crcBytes crcPreset covered)

/-- The frame of a notice: kind 40 hex, tag 00 hex, code, DROPPED bit, fields (R171, R190). -/
def Notice.frame (n : Notice) : List Byte :=
  frameBytes 0x40#8 0x00#8 (byteOf n.body.code :: flagByte [n.dropped] :: n.body.fields)

/-- The frame of a reply (R180). -/
def Reply.frame (r : Reply) : List Byte := frameBytes r.kind r.tag r.payload

/-- The time of one character in twelfths of a fine tick: ten bit times at the sampled rate (R163, log 21). -/
def Link.charTime (l : Link) : Nat := if l.fast then 6250 else 25000

/-! ## The transmit line (R163) -/

/-- Bit time `k` of a character: the start bit, the eight data bits least significant first, then the stop bit (R163). -/
def characterBit (b : Byte) (k : Nat) : Bool :=
  if k = 0 then false else if k ≤ 8 then b.getLsbD (k - 1) else true

/-- The level of the transmit line: the bit in progress of the frame in sending, its characters one directly after the other, and
the idle high level between frames (R163). While the supply is down nothing is in sending and the line reads high, the model's choice
(log 37). -/
def Link.txLine (l : Link) : Bool :=
  match l.tx with
  | none => true
  | some f =>
    if f.left = 0 then true
    else
      let gone := f.bytes.length * l.charTime - f.left
      characterBit (byteAt f.bytes (gone / l.charTime)) (gone % l.charTime / (l.charTime / 10))

/-! ## Transmitter (R171) -/

/-- The transmitter takes up a frame. -/
def Link.send (l : Link) (bytes : List Byte) (ofRequest : Bool) : Link :=
  { l with tx := some { bytes := bytes, ofRequest := ofRequest, left := bytes.length * l.charTime } }

/-- An idle transmitter that is not held silent starts the oldest reply, else the oldest notice (R171). -/
def Link.startTx (l : Link) : Link :=
  if l.tx.isSome || l.breakLow || l.resetDue then l
  else
    match l.replies with
    | r :: rest => Link.send { l with replies := rest } r.frame r.ofRequest
    | [] =>
      match l.notices with
      | n :: rest => Link.send { l with notices := rest } n.frame false
      | [] => l

/-! ## Notices (R60, R172, R173) -/

/-- The most notices the queue holds (R172). -/
def maxNotices : Nat := 16

/-- A notice joins at the back, with DROPPED as the mark stands, or is dropped and sets the mark (R172, R173). -/
def Link.enqueue (l : Link) (b : NoticeBody) : Link :=
  if l.notices.length < maxNotices then Link.startTx { l with notices := l.notices ++ [{ body := b, dropped := l.dropped }], dropped := false }
  else { l with dropped := true }

/-- Whether a queued notice is an EXTENT_REACHED posted for mount `m` (R60). -/
def Notice.isExtentOf (n : Notice) (m : Nat) : Bool :=
  match n.body with
  | .extentReached k _ => k == m
  | _ => false

/-- Add extents to a queued EXTENT_REACHED (R60). -/
def Notice.addExtents (n : Notice) (set : BitVec 64) : Notice :=
  match n.body with
  | .extentReached k old => { n with body := .extentReached k (old ||| set) }
  | _ => n

/-- The mask bit of a notice is on (R172, R182). -/
def Link.unmasked (l : Link) (b : NoticeBody) : Bool := l.options.noticeMask.getLsbD (b.code - 1)

/-- A notice is posted: masked off, merged into a waiting EXTENT_REACHED of the same mount, queued or dropped (R172). -/
def Link.post (l : Link) (b : NoticeBody) : Link :=
  if !l.unmasked b then l
  else
    match b with
    | .extentReached m set =>
      if l.notices.any (fun n => n.isExtentOf m) then
        { l with notices := l.notices.map (fun n => if n.isExtentOf m then n.addExtents set else n) }
      else l.enqueue b
    | _ => l.enqueue b

/-- Notices are posted one after another. -/
def Link.postAll (l : Link) (bs : List NoticeBody) : Link := bs.foldl Link.post l

/-! ## Replies (R169, R170, R191) -/

/-- The most replies of the link unit's own that wait (R170). -/
def maxOwnReplies : Nat := 3

/-- A BUSY, UNKNOWN_KIND or FRAME_ERROR reply joins the queue, or is not made when three such wait (R170, R191). -/
def Link.offer (l : Link) (kind tag : Byte) (st : ReplyStatus) : Link :=
  if l.replies.countP (fun r => !r.ofRequest) < maxOwnReplies then
    Link.startTx { l with replies := l.replies ++ [{ kind := kind, tag := tag, payload := [st.code, 0#8], ofRequest := false }] }
  else l

/-- The reply of the request in execution is made, once: it joins the queue, or is dropped when a link break marked it, and the
request then leaves execution (R169, R170, R175, R179). -/
def Link.answer (l : Link) (st : ReplyStatus) (detail : Byte) (data : List Byte) : Link :=
  match l.executing with
  | none => l
  | some q =>
    if q.made then l
    else if q.drop then { l with executing := none }
    else
      Link.startTx { l with
        executing := some { q with made := true }
        replies := l.replies ++ [{ kind := 0x80#8 + q.kind, tag := q.tag, payload := st.code :: detail :: data, ofRequest := true }] }

/-- A BAD_FIELD reply with its position byte (R179). -/
def Link.badField (l : Link) (detail position : Byte) : Link := l.answer .badField detail [position]

/-- A request enters execution (R168). -/
def Link.enter (l : Link) (kind tag : Byte) : Link :=
  { l with executing := some { kind := kind, tag := tag, made := false, drop := false, resets := false } }

/-- The transmitter has sent the last character of a frame (R169, R171, R188). -/
def Link.frameSent (l : Link) : Link :=
  match l.tx with
  | none => l
  | some f =>
    if f.ofRequest then
      match l.executing with
      | some q => if q.resets then { l with tx := none, resetDue := true } else Link.startTx { l with tx := none, executing := none }
      | none => Link.startTx { l with tx := none }
    else Link.startTx { l with tx := none }

/-! ## Receiver (R164 to R167) -/

/-- The receiver returns to RX_HUNT and its timer stops; a partial frame is discarded. -/
def Link.rxIdle (l : Link) : Link := { l with rx := .hunt, rxBytes := [], rxTimer := none }

/-- The inter-character timer from the end of a character: 20 ms to the start of the next, whose end is one character time
later (R166, log 21). -/
def Link.rxWait (l : Link) : Nat := 12 * ms 20 + l.charTime

/-- The receiver goes on with a frame, the inter-character timer restarted (R164, R166). -/
def Link.rxGoOn (l : Link) (st : RxState) (bytes : List Byte) : Link :=
  { l with rx := st, rxBytes := bytes, rxTimer := some l.rxWait }

/-- The length that the first two bytes of the frame give (R164). -/
def frameLength (bytes : List Byte) : Nat := ofLe (bytesAt bytes 0 2)

/-! ## Link break (R174, R175) -/

/-- A frame in sending is cut off after the character in progress: the characters not yet begun are left out. A frame between two
characters is cut at once (R174, log 31). The rest of it is no reply any longer: the request has left execution (R169). -/
def Link.cutTx (l : Link) : Option TxFrame :=
  match l.tx with
  | none => none
  | some f =>
    if f.left % l.charTime = 0 then none
    else some { bytes := f.bytes.take (f.bytes.length - f.left / l.charTime), ofRequest := false, left := f.left % l.charTime }

/-- A link break is taken (R174). A RESET whose reply it drops then takes effect (R169). -/
def Link.takeBreak (l : Link) : Link :=
  let l := { l.rxIdle with tx := l.cutTx, breakLow := true, replies := [], notices := [], dropped := false }
  match l.executing with
  | none => l
  | some q =>
    if q.made then (if q.resets then { l with resetDue := true } else { l with executing := none })
    else { l with executing := some { q with drop := true } }

/-- The receive line returns high (R175). -/
def Link.endBreak (l : Link) : Link := Link.startTx { l with breakLow := false }

end Sys2Proof.Machine
end

