-- ==== Sys2Proof/Machine/Flags.lean ====
section
/-! DEFINITION. Conditions of the 2240: selection, presented disk, write protect, current track, spin demand, the drive
outputs, and the STATUS record (10, R189). -/

namespace Sys2Proof.Machine

/-! ## Inputs and conditions (02) -/

/-- The level of DRIVE SELECT line `n` (R24). -/
def selectLevel (x : Inputs) : Nat → Bool
  | 0 => x.select0
  | 1 => x.select1
  | 2 => x.select2
  | 3 => x.select3
  | _ => false

/-- DRIVE SELECT line `n` takes a level. -/
def setSelectLevel (x : Inputs) (n : Nat) (v : Bool) : Inputs :=
  match n with
  | 0 => { x with select0 := v }
  | 1 => { x with select1 := v }
  | 2 => { x with select2 := v }
  | 3 => { x with select3 := v }
  | _ => x

/-- The geometry that the drive, cache, presentation and capture take: the mount's copy (R1), the profile in force when no
image is mounted (R15). -/
def State.geom (s : State) : Geometry := s.mount.geom.getD s.prof

/-- The mount is MOUNTED. -/
def State.isMounted (s : State) : Bool := s.mount.state == .mounted

/-- The disk is presented (R33). -/
def State.presented (s : State) : Bool :=
  s.powered && s.drive.selected && s.isMounted && (s.rot.state == .atSpeed)

/-- The write-protect condition, as it would be driven when selected (R30). -/
def State.protectCond (s : State) : Bool := !s.isMounted || s.mount.readOnly || s.card.wp

/-- The motor source is active (R34). -/
def State.motorActive (s : State) : Bool :=
  match s.link.options.motorSource with
  | .motorLine => s.inputs.motorOn
  | .select => s.drive.selected

/-- Spin demand (R34). -/
def State.spinDemand (s : State) : Bool := s.isMounted && s.motorActive

/-- The current track; none off-image and outside MOUNTED (R27). -/
def State.currentTrack (s : State) : Option Track :=
  if s.isMounted then s.geom.locate s.drive.head s.drive.side else none

/-- READ DATA flows: the disk is presented and write gate is not active (R90). -/
def State.flowing (s : State) : Bool := s.presented && !s.drive.gateActive

/-- The zone whose figures give the cell under the head: the current track's, else zone 0 (R15, R102). -/
def State.headZone (s : State) : Nat :=
  match s.currentTrack with
  | some tr => s.geom.zoneOf tr
  | none => 0

/-- The byte cell under the head (R15). -/
def State.cell (s : State) : Nat := (s.geom.layout s.headZone).cellAt s.rot.t

/-! ## Outputs on the drive connector -/

/-- INDEX (R37). -/
def State.indexOut (s : State) : Bool := s.presented && decide (s.rot.t < 6000)

/-- TRACK 00 (R29). -/
def State.track00Out (s : State) : Bool := s.powered && s.drive.selected && s.drive.head == 0

/-- WRITE PROTECT (R30). -/
def State.writeProtectOut (s : State) : Bool := s.powered && s.drive.selected && s.protectCond

/-- Line 34 (R32). -/
def State.line34Out (s : State) : Bool :=
  match s.link.options.line34 with
  | .ready => s.presented
  | .diskChange => s.powered && s.drive.selected && s.drive.latch

/-! ## STATUS record (R189) -/

/-- Byte 0 of the drive part. -/
def State.driveFlags (s : State) : Byte :=
  flagByte [s.drive.selected, s.inputs.motorOn, s.drive.side, s.drive.lastIn, s.drive.latch, s.drive.head == 0,
    s.protectCond, s.link.options.line34 == .diskChange]

/-- The drive part, 3 bytes. -/
def State.drivePart (s : State) : List Byte := [s.driveFlags, s.rot.state.code, byteOf s.drive.head]

/-- The card part, 7 bytes, or nothing while the card is ABSENT. -/
def State.cardPart (s : State) : List Byte :=
  if s.card.state = .absent then []
  else [s.card.state.code] ++ le4 s.card.capacity ++ [flagByte [s.card.wp], byteOf s.card.failCount]

/-- The mount part, 10 bytes, or nothing while UNMOUNTED. -/
def State.mountPart (s : State) : List Byte :=
  if s.mount.state = .unmounted then []
  else [s.mount.state.code, flagByte [s.mount.readOnly, s.mount.shortOk]] ++ le4 s.mount.imageSize
    ++ [byteOf s.mount.chain.length] ++ le2 s.cache.nonClean ++ [byteOf s.cache.defects.length]

/-- Class codes of a run entry. -/
def RunClass.code : RunClass → Byte
  | .demand => 1#8
  | .panel => 2#8
  | .writeback => 3#8
  | .ahead => 4#8

/-- Kind codes of a run entry. -/
def RunKind.code : RunKind → Byte
  | .fill => 1#8
  | .flush => 2#8
  | .mergeRead => 3#8
  | .panelRead => 4#8
  | .panelWrite => 5#8

/-- Status and error bytes of a run entry. -/
def RunStatus.bytes : RunStatus → List Byte
  | .queued => [0#8, 0#8]
  | .inProgress => [1#8, 0#8]
  | .done => [2#8, 0#8]
  | .cancelled => [3#8, 0#8]
  | .failed e => [4#8, e.code]

/-- A run entry, 9 bytes; an empty slot is all zeros. -/
def runEntry : Option Run → List Byte
  | none => List.replicate 9 0#8
  | some r => [r.cls.code, r.kind.code] ++ le4 r.start ++ [byteOf r.count] ++ r.status.bytes

/-- The operation part: both slots, or nothing while neither holds a run. -/
def State.operationPart (s : State) : List Byte :=
  if s.card.active.isNone && s.card.queued.isNone then [] else runEntry s.card.active ++ runEntry s.card.queued

/-- The last-run part. -/
def State.lastRunPart (s : State) : List Byte :=
  match s.card.lastRun with
  | none => []
  | some r => runEntry (some r)

/-- One zone of the layout part, 7 bytes. -/
def Layout.report (y : Layout) : List Byte := le2 y.capacity ++ le2 y.pre ++ [byteOf y.gap3] ++ le2 y.gap4b

/-- The layout part, of the profile in force. -/
def State.layoutPart (s : State) : List Byte :=
  [byteOf s.prof.profile.cylinders, byteOf s.prof.profile.heads, byteOf s.prof.profile.stepRatio,
    (match s.prof.profile.rpm with | .rpm300 => 0#8 | .rpm360 => 1#8), byteOf s.prof.profile.zones.length]
  ++ s.prof.layouts.flatMap Layout.report

/-- A line entry of the cache part, 7 bytes. -/
def Cache.lineEntry (c : Cache) (i : Nat) : List Byte :=
  let ln := c.line i
  match ln.tag with
  | none => [LineState.free.code, 0xFF#8, 0xFF#8, 0xFF#8, 0#8, 0#8, 0#8]
  | some tr =>
    [ln.lineState.code, byteOf tr.cyl, byteOf tr.head, byteOf ln.zone,
      flagByte [ln.origin == .ahead, ln.pinned, c.flushQ.contains i, c.forced == some i],
      byteOf ln.nonCleanCount, byteOf ln.missingCount]

/-- The cache part, 66 bytes. -/
def Cache.part (c : Cache) : List Byte :=
  (List.range 8).flatMap c.lineEntry ++ c.lru.map byteOf
    ++ (match c.waiting with | none => [0xFF#8, 0xFF#8] | some tr => [byteOf tr.cyl, byteOf tr.head])

/-- The presence byte. -/
def State.presence (s : State) : Byte :=
  flagByte [s.card.state != .absent, s.mount.state != .unmounted, s.card.active.isSome || s.card.queued.isSome,
    s.card.lastRun.isSome]

/-- The STATUS record (R189). -/
def State.statusRecord (s : State) : List Byte :=
  [s.presence] ++ s.drivePart ++ s.cardPart ++ s.mountPart ++ s.operationPart ++ s.lastRunPart ++ s.layoutPart
    ++ s.cache.part

/-- The 11 bytes of the options in force (R182, bytes 2..12). -/
def Options.bytes (o : Options) : List Byte :=
  [byteOf o.selectLine, (match o.line34 with | .ready => 0#8 | .diskChange => 1#8),
    (match o.motorSource with | .motorLine => 0#8 | .select => 1#8)]
  ++ le2 o.spinUp ++ le2 o.idleFlush ++ [byteOf o.burstCap, byteOf o.fillLead, flagByte [o.readAhead], o.noticeMask]

end Sys2Proof.Machine
end

