-- ==== Sys2Proof/Machine/Capture.lean ====
section
/-! DEFINITION. The capture unit: sector writes (06) and track writes (07), from the rise of the write gate to the end. -/

namespace Sys2Proof.Machine

/-! ## Notices -/

/-- A notice is posted (R172). -/
def State.post (s : State) (b : NoticeBody) : State := { s with link := s.link.post b }

/-- CAPTURE_FAULT (06 section 6.8). -/
def State.postFault (s : State) (cyl head sector : Nat) (reason : FaultReason) (defectDropped : Bool) : State :=
  s.post (.captureFault cyl head sector reason defectDropped)

/-! ## The record of the capture in progress -/

/-- The zone of the capture's track (R108, R127). -/
def State.capZone (s : State) : Zone := s.geom.zone s.cap.zone

/-- The layout of the capture's track. -/
def State.capLayout (s : State) : Layout := s.geom.layout s.cap.zone

/-- The ID sector of the capture's slot (R115). -/
def State.capSector (s : State) : Nat := s.capZone.idSector s.cap.logical

/-- The unit measures flux intervals (R109): HUNT, SECTOR_DATA and TRACK. -/
def CaptureState.measures : CaptureState → Bool
  | .hunt | .sectorData | .track => true
  | .idle | .sectorTail | .discard => false

/-- The unit enters a state in which WRITE DATA is ignored, its record kept (R108, R123). -/
def Capture.rest (c : Capture) (st : CaptureState) : Capture := { c with st := st, fluxOpen := none, empties := 0 }

/-- After an end other than a fall of the gate: DISCARD while the gate is active, its record kept, else IDLE, record, scratch and found-ID
list cleared (R124, R125, R131, log 26). -/
def State.capAside (s : State) : State :=
  { s with cap := if s.drive.gateActive then s.cap.rest .discard else Capture.idle }

/-- After a fall of the gate: IDLE (R117, R121, R123, R131). That the record is cleared, and the capture scratch and the found-ID list with
it, is the model's choice (log 26). -/
def State.capIdle (s : State) : State := { s with cap := Capture.idle }

/-! ## Starting a capture (R112 to R115, R127) -/

/-- The conditions under which a rise starts a capture (R112). -/
def State.mayCapture (s : State) : Bool :=
  s.drive.selected && s.isMounted && !s.mount.readOnly && !s.card.wp && (s.rot.state == .atSpeed)

/-- What a rise of the write gate is (R112, R113). -/
inductive Rise where
  | ignored
  | discard (cyl head sector : Nat) (reason : FaultReason)
  | trackWrite (track : Track) (line : Nat)
  | sectorWrite (track : Track) (line slot logical : Nat)
  deriving DecidableEq, Repr

/-- The slot whose write window holds the cell under the head of a track (R114). -/
def State.windowSlot (s : State) (tr : Track) : Option Nat :=
  match regionAt (s.geom.zoneAt tr) (s.geom.layoutAt tr) ((s.geom.layoutAt tr).cellAt s.rot.t) with
  | .slot j off => if inWriteWindow (s.geom.zoneAt tr).encoding off then some j else none
  | _ => none

/-- A rise in the write window of slot `j` (R113, checks 4 to 6). -/
def State.classifyWindow (s : State) (tr : Track) (i j : Nat) : Rise :=
  let z := s.geom.zoneAt tr
  let l := z.logicalOf j
  match s.cache.sector i l with
  | none => .discard tr.cyl tr.head 0xFF .stray
  | some x =>
    if x.hole then .discard tr.cyl tr.head (z.idSector l) .hole
    else
      match x.state with
      | .pending | .missing => .discard tr.cyl tr.head (z.idSector l) .notReady
      | .clean | .dirty | .flush => .sectorWrite tr i j l
      | .capture => .discard tr.cyl tr.head 0xFF .stray

/-- The classification of a rise (R112, R113). -/
def State.classifyRise (s : State) : Rise :=
  if !s.mayCapture then .ignored
  else
    match s.currentTrack with
    | none => .discard 0xFF s.drive.side.toNat 0xFF .stray
    | some tr =>
      match s.cache.active with
      | none => .discard tr.cyl tr.head 0xFF .noLine
      | some i =>
        if s.rot.t < 6000 then .trackWrite tr i
        else
          match s.windowSlot tr with
          | none => .discard tr.cyl tr.head 0xFF .stray
          | some j => s.classifyWindow tr i j

/-- The capture record at the start of a capture, every count of it cleared. -/
def Capture.begin (st : CaptureState) (tr : Option Track) (line : Option Nat) (zone slot logical : Nat) : Capture :=
  { Capture.idle with st := st, track := tr, line := line, zone := zone, slot := slot, logical := logical }

/-- A sector write begins (R114). -/
def State.beginSectorWrite (s : State) (tr : Track) (i j l : Nat) : State :=
  let wasDirty := (s.cache.line i).dirty
  let s := { s with cap := Capture.begin .hunt (some tr) (some i) (s.geom.zoneOf tr) j l,
                    cache := s.cache.modSector i l (fun x => x.enter .capture) }
  if wasDirty then s else s.post (.trackWritten tr)

/-- The capture unit takes a rise of the write gate (R112 to R115, R127). -/
def State.captureRise (s : State) : State :=
  match s.classifyRise with
  | .ignored => s
  | .discard c h sec r =>
    { s with cap := Capture.begin .discard s.currentTrack s.cache.active s.headZone 0 0 }.postFault c h sec r false
  | .trackWrite tr i => { s with cap := Capture.begin .track (some tr) (some i) (s.geom.zoneOf tr) 0 0 }
  | .sectorWrite tr i j l => s.beginSectorWrite tr i j l

/-! ## Ends of a sector write (R117, R120 to R122) -/

/-- What a sector write comes to. -/
inductive WriteOutcome where
  /-- R117, quiet end: the defect list is left alone. -/
  | quiet
  /-- R120: a good check; the sector's entry is removed. -/
  | good
  /-- An entry is added and CAPTURE_FAULT posted (R117, R120, R121). -/
  | faulty (reason : DefectReason)
  deriving DecidableEq, Repr

/-- R122 step 1: the defect list, and whether its oldest entry was dropped. -/
def State.outcomeDefects (s : State) (tr : Track) (o : WriteOutcome) : Cache × Bool :=
  match o with
  | .quiet => (s.cache, false)
  | .good => (s.cache.removeDefect s.geom tr s.capSector, false)
  | .faulty r => s.cache.addDefect s.geom { track := tr, sector := s.capSector, reason := r }

/-- R122 step 4: the notice an outcome calls for. -/
def State.outcomeNotice (s : State) (tr : Track) (o : WriteOutcome) (dropped : Bool) : State :=
  match o with
  | .quiet => s
  | .good => s
  | .faulty r => s.postFault tr.cyl tr.head s.capSector r.fault dropped

/-- A line goes to the front of the LRU order and the idle-flush timer starts from its full interval (R67, R80). -/
def State.writeEnded (s : State) (i : Nat) : State :=
  { s with cache := { s.cache.touch i with idleTimer := some (ms s.link.options.idleFlush) } }

/-- A sector write ends: bytes `bs` are stored from the sector's first byte on, the sector goes DIRTY, and the steps of R122
run. -/
def State.endSectorWrite (s : State) (bs : List Byte) (o : WriteOutcome) : State :=
  match s.cap.track, s.cap.line with
  | some tr, some i =>
    let s := { s with cache := (s.cache.storeLine i (s.cap.logical * s.capLayout.sectorSize) bs).modSector i s.cap.logical
                                  (fun x => x.enter .dirty) }
    let d := s.outcomeDefects tr o
    ({ s with cache := d.1 }.writeEnded i).outcomeNotice tr o d.2
  | _, _ => s

/-- The offset of the byte cell under the head from the first cell of the capture's slot (R116). -/
def State.capOffset (s : State) : Nat := s.capLayout.cellAt s.rot.t - s.capLayout.slotStart s.cap.slot

/-- The end of a sector write in HUNT by a fall of the gate or a side change (R117, R124). -/
def State.endHunt (s : State) : State :=
  s.endSectorWrite [] (if s.capOffset < dataMarkOffset s.capZone.encoding then .quiet else .faulty .noMark)

/-- The bits received of a byte in progress, in their places, the rest 0: cells pair into clock and data (R110, R121). -/
def partialByte (shift : BitVec 64) (valid : Nat) : Byte :=
  byteOf ((List.range (valid / 2)).foldl (fun acc k => acc + (shift.getLsbD (valid - 2 - 2 * k)).toNat * 2 ^ (7 - k)) 0)

/-- The data bytes a torn write stores (R121). -/
def State.tornBytes (s : State) : List Byte :=
  let size := s.capLayout.sectorSize
  if s.cap.received < size then
    memSlice s.cap.scratch 0 s.cap.received
      ++ (if 2 ≤ s.cap.valid then [partialByte s.cap.shift s.cap.valid] else [])
  else memSlice s.cap.scratch 0 size

/-- The end of a sector write in SECTOR_DATA by a fall of the gate or a side change (R121, R124). -/
def State.endTorn (s : State) : State := s.endSectorWrite s.tornBytes (.faulty .torn)

/-- The count is exhausted (R120), after a slot end that has passed into DISCARD (R123). -/
def State.exhaust (s : State) : State :=
  let o : WriteOutcome := if s.cap.violation then .faulty .decode else if s.cap.crc = 0#16 then .good else .faulty .crc
  let s := s.endSectorWrite (memSlice s.cap.scratch 0 s.capLayout.sectorSize) o
  { s with cap := s.cap.rest (if s.cap.pastSlot then .discard else .sectorTail) }

/-! ## Cells and marks (R110, R111, R128) -/

/-- A cell enters the shift register. -/
def Capture.shiftIn (c : Capture) (bit : Bool) : Capture :=
  { c with shift := (c.shift <<< 1) ||| (if bit then 1#64 else 0#64), valid := min 64 (c.valid + 1) }

/-- The byte that the last sixteen cells carry: the data cells, bit 7 first (R110). -/
def dataByte (shift : BitVec 64) : Byte :=
  byteOf ((List.range 8).foldl (fun acc k => acc + (shift.getLsbD (14 - 2 * k)).toNat * 2 ^ (7 - k)) 0)

/-- The marks a search can meet (R111, R128). -/
inductive Mark where
  | id | data (deleted : Bool)
  deriving DecidableEq, Repr

/-- What the cells up to this one show: no mark, a mark, or three A1 groups that are no mark (R111, R128). -/
inductive Seen where
  | nothing | mark (m : Mark) | falseLead
  deriving DecidableEq, Repr

/-- The MFM search: three groups 4489 hex and a byte (R111, R128). -/
def seenMfm (c : Capture) : Seen :=
  if c.valid = 64 ∧ c.shift >>> 16 = 0x448944894489#64 then
    (if dataByte c.shift = 0xFE#8 then .mark .id
    else if dataByte c.shift = 0xFB#8 then .mark (.data false)
    else if dataByte c.shift = 0xF8#8 then .mark (.data true)
    else .falseLead)
  else .nothing

/-- The FM search: one group of sixteen cells (R111, R128). -/
def seenFm (c : Capture) : Seen :=
  if c.valid < 16 then .nothing
  else
    match (c.shift.setWidth 16).toNat with
    | 0xF57E => .mark .id
    | 0xF56F => .mark (.data false)
    | 0xF56A => .mark (.data true)
    | _ => .nothing

/-- The search of a zone's encoding. -/
def seen : Encoding → Capture → Seen
  | .mfm, c => seenMfm c
  | .fm, c => seenFm c

/-- The fourth byte of a mark (R93, R94, R111). -/
def Mark.byte : Mark → Byte
  | .id => 0xFE#8
  | .data false => 0xFB#8
  | .data true => 0xF8#8

/-- The check register after a mark (R23, R111). -/
def markCheck : Encoding → Mark → Check
  | .mfm, m => crcBytes crcPreset [0xA1#8, 0xA1#8, 0xA1#8, m.byte]
  | .fm, m => crcBytes crcPreset [m.byte]

/-- After three A1 groups that are no mark the search goes on from the cell after them: the sixteen cells of the byte (R111,
R128). -/
def Capture.afterFalseLead (c : Capture) : Capture := { c with valid := 16 }

/-- The byte boundary stands at the next cell. -/
def Capture.atBoundary (c : Capture) : Capture := { c with shift := 0#64, valid := 0 }

/-! ## HUNT and SECTOR_DATA (R116, R118, R119) -/

/-- SECTOR_DATA begins (R111), and DELETED_MARK is posted for an F8 hex mark (R118). -/
def State.dataMarkFound (s : State) (deleted : Bool) : State :=
  let s := { s with cap := { s.cap.atBoundary with
    st := .sectorData, received := 0, violation := false, crc := markCheck s.capZone.encoding (.data deleted) } }
  match deleted, s.cap.track with
  | true, some tr => s.postFault tr.cyl tr.head s.capSector .deletedMark false
  | _, _ => s

/-- A cell in HUNT (R116). -/
def State.huntCell (s : State) (bit : Bool) : State :=
  let c := s.cap.shiftIn bit
  match seen s.capZone.encoding c with
  | .nothing => { s with cap := c }
  | .falseLead => { s with cap := c.afterFalseLead }
  | .mark .id => { s with cap := c.afterFalseLead }
  | .mark (.data d) => { s with cap := c }.dataMarkFound d

/-- A byte in SECTOR_DATA (R119), the last of them exhausting the count (R120). -/
def State.dataByteTaken (s : State) (b : Byte) : State :=
  let size := s.capLayout.sectorSize
  let s := { s with cap := { s.cap.atBoundary with
    scratch := if s.cap.received < size then memStore s.cap.scratch s.cap.received [b] else s.cap.scratch
    crc := crcByte s.cap.crc b
    received := s.cap.received + 1 } }
  if size + 2 ≤ s.cap.received then s.exhaust else s

/-- A cell in SECTOR_DATA (R119). -/
def State.sectorDataCell (s : State) (bit : Bool) : State :=
  let c := s.cap.shiftIn bit
  if c.valid < 16 then { s with cap := c } else { s with cap := c }.dataByteTaken (dataByte c.shift)

/-! ## Track writes: collecting (R128 to R130) -/

/-- The most found-ID entries (R129). -/
def maxFound : Nat := 32

/-- The newest entry waits for its data (R128, R129). -/
def Capture.idWaits (c : Capture) : Bool :=
  !c.overflow && match c.found.getLast? with
    | some e => e.data == .absent
    | none => false

/-- The newest entry takes a data status (R129). -/
def Capture.setNewest (c : Capture) (d : DataStatus) : Capture :=
  { c with found := c.found.modify (c.found.length - 1) (fun e => { e with data := d }) }

/-- A mark in SEEK (R128). -/
def Capture.seekMark (c : Capture) (e : Encoding) (m : Mark) : Capture :=
  match m with
  | .id => { c.atBoundary with phase := .idField, idBytes := [], crc := markCheck e .id }
  | .data d =>
    if c.idWaits then { c.atBoundary with phase := .dataField, received := 0, crc := markCheck e (.data d) } else c.atBoundary

/-- A cell in SEEK (R128). -/
def Capture.seekCell (c : Capture) (e : Encoding) (bit : Bool) : Capture :=
  let c := c.shiftIn bit
  match seen e c with
  | .nothing => c
  | .falseLead => c.afterFalseLead
  | .mark m => c.seekMark e m

/-- The entry that six bytes of an ID field give, with the register after them (R129). -/
def foundEntry (bs : List Byte) (r : Check) : FoundId :=
  { cyl := byteAt bs 0, head := byteAt bs 1, sector := byteAt bs 2, size := byteAt bs 3, idGood := r == 0#16, data := .absent }

/-- A byte in ID_FIELD (R129). -/
def Capture.idByte (c : Capture) (b : Byte) : Capture :=
  let bs := c.idBytes ++ [b]
  let r := crcByte c.crc b
  if bs.length < 6 then { c.atBoundary with idBytes := bs, crc := r }
  else
    let c := { c.atBoundary with idBytes := [], crc := r, phase := .seek }
    if c.found.length < maxFound then { c with found := c.found ++ [foundEntry bs r] } else { c with overflow := true }

/-- A byte in DATA_FIELD, for the newest entry of a zone of `n` sectors of `size` bytes (R130). -/
def Capture.fieldByte (c : Capture) (n size : Nat) (b : Byte) : Capture :=
  let k := c.found.length - 1
  let r := crcByte c.crc b
  let c := { c.atBoundary with
    scratch := if k < n ∧ c.received < size then memStore c.scratch (k * size + c.received) [b] else c.scratch
    crc := r
    received := c.received + 1 }
  if c.received < size + 2 then c
  else { c.setNewest (if r = 0#16 then .good else .badCheck) with phase := .seek }

/-- A cell in TRACK (R128 to R130). -/
def Capture.trackCell (c : Capture) (e : Encoding) (n size : Nat) (bit : Bool) : Capture :=
  match c.phase with
  | .seek => c.seekCell e bit
  | .idField => let c := c.shiftIn bit; if c.valid < 16 then c else c.idByte (dataByte c.shift)
  | .dataField => let c := c.shiftIn bit; if c.valid < 16 then c else c.fieldByte n size (dataByte c.shift)

/-! ## Flux changes (R109, R110) -/

/-- An encoded cell of the capture's stream (R110). -/
def State.captureCell (s : State) (bit : Bool) : State :=
  match s.cap.st with
  | .hunt => s.huntCell bit
  | .sectorData => s.sectorDataCell bit
  | .track => { s with cap := s.cap.trackCell s.capZone.encoding s.capZone.n s.capLayout.sectorSize bit }
  | .idle | .sectorTail | .discard => s

/-- Cells of 0, one after another (R110). -/
def State.zeroCells : Nat → State → State
  | 0, s => s
  | k + 1, s => State.zeroCells k (s.captureCell false)

/-- The legal classes of an interval (R109). -/
def legalClass : Encoding → Nat → Bool
  | .mfm, m => 2 ≤ m && m ≤ 4
  | .fm, m => 1 ≤ m && m ≤ 2

/-- The largest legal class: an open interval is too long from half a cell past it (R110). -/
def largestClass : Encoding → Nat
  | .mfm => 4
  | .fm => 2

/-- The class of an interval of `x` fine ticks with encoded cells of `w` (R109). -/
def intervalClass (w x : Nat) : Nat := (2 * x + w) / (2 * w)

/-- A violation is seen; it counts in SECTOR_DATA alone (R110). -/
def Capture.violate (c : Capture) (seen : Bool) : Capture :=
  if seen && c.st == .sectorData then { c with violation := true } else c

/-- A flux change on WRITE DATA (R110). An interval of an illegal class counts as a violation by the unit's state when the change that ends
it comes, also when its upper bound passed in HUNT; that is the model's choice (log 42). The violation is set before the cells that the
change gives (log 43). -/
def State.fluxChange (s : State) : State :=
  if !s.cap.st.measures then s
  else
    let w := s.capZone.rate.cellTicks
    let e := s.capZone.encoding
    let cap := { s.cap with fluxOpen := some 0, empties := 0 }
    match s.cap.fluxOpen with
    | none => { s with cap := cap }.captureCell true
    | some x =>
      let m := intervalClass w x
      if m = 0 then { s with cap := cap.violate true }
      else (State.zeroCells (m - 1 - s.cap.empties) { s with cap := cap.violate (!legalClass e m) }).captureCell true

/-- Half cells of an open interval at which its next 0 cell is added: 1.5, 2.5, 3.5 cells and so on (R110). -/
def nextEmpty (w empties : Nat) : Nat := (2 * empties + 3) * w / 2

/-- An open interval reaches its next half-cell mark: one 0 cell, and a violation at the upper bound of the largest legal
class (R110). That the violation is set before the cell, which may complete the last check byte, is the model's choice (log 43). -/
def State.emptyCell (s : State) : State :=
  match s.cap.fluxOpen with
  | none => s
  | some x =>
    if !s.cap.st.measures then s
    else
      let k := s.cap.empties + 1
      let cap := { s.cap with fluxOpen := some (max x (nextEmpty s.capZone.rate.cellTicks s.cap.empties)), empties := k }
      { s with cap := cap.violate (decide (k = largestClass s.capZone.encoding)) }.captureCell false

/-! ## The end of a track write (R131 to R136) -/

/-- Collection stops: an ID field is dropped, a data field makes its entry SHORT (R130, R131). -/
def Capture.stopCollecting (c : Capture) : Capture :=
  match c.phase with
  | .dataField => c.setNewest .short
  | .seek => c
  | .idField => c

/-- An entry is the expected ID of slot `j` with good checks (R132). -/
def FoundId.matchesSlot (e : FoundId) (z : Zone) (tr : Track) (j : Nat) : Bool :=
  ([e.cyl, e.head, e.sector, e.size] == z.idBytes tr j) && e.idGood && e.data == .good

/-- Slot `j` is as expected in the found-ID list (R132). -/
def slotMatches (z : Zone) (tr : Track) (found : List FoundId) (j : Nat) : Bool :=
  match found[j]? with
  | none => false
  | some e => e.matchesSlot z tr j

/-- The track write matches the zone (R132). -/
def Capture.trackMatches (c : Capture) (z : Zone) (tr : Track) : Bool :=
  c.found.length == z.n && !c.overflow && (List.range z.n).all (slotMatches z tr c.found)

/-- R132, found count. -/
def Capture.foundCount (c : Capture) : Nat := if c.overflow then 33 else c.found.length

/-- R132, first differing slot. -/
def Capture.firstDiffering (c : Capture) (z : Zone) (tr : Track) : Nat :=
  ((List.range z.n).find? (fun j => !slotMatches z tr c.found j)).getD z.n

/-- The data of every slot goes from the scratch to its logical sector's place (R133 step 1). -/
def storeSlots (z : Zone) (i size : Nat) (scratch : Memory) (ram : Memory) : Memory :=
  (List.range z.n).foldl (fun r j => memStore r (dataAddr i size (z.logicalOf j) 0) (memSlice scratch (j * size) size)) ram

/-- A sector record after a match: DIRTY, a hole taken back to CLEAN at once (R133 step 2, R65). -/
def Sector.afterMatch (x : Sector) : Sector := { x with state := if x.hole then .clean else .dirty, progress := [] }

/-- A matched track write stores (R133). -/
def State.storeTrack (s : State) (tr : Track) (i : Nat) : State :=
  let cache := { s.cache with ram := storeSlots s.capZone i s.capLayout.sectorSize s.cap.scratch s.cache.ram }
  let cache := (cache.mapSectors i (fun _ x => x.afterMatch)).removeTrackDefects s.geom tr
  let s := { s with cache := cache }
  let s := if (s.cache.line i).hasDirty then s.writeEnded i else s
  s.post (.trackWritten tr)

/-- A track write ends: the comparison, and what follows from it (R131 to R136). -/
def State.endTrackWrite (s : State) : State :=
  match s.cap.track, s.cap.line with
  | some tr, some i =>
    let s := { s with cap := s.cap.stopCollecting }
    if s.cap.trackMatches s.capZone tr then
      (if s.cache.carries i (some tr) then s.storeTrack tr i else s.postFault tr.cyl tr.head 0xFF .noLine false)
    else s.post (.formatMismatch tr s.cap.foundCount (s.cap.firstDiffering s.capZone tr))
  | _, _ => s

/-! ## Falls, side changes, the deadline, the slot end and the loss of the mount -/

/-- What a fall of the gate does to the capture's data (R117, R121, R123, R131). -/
def State.endCapture (s : State) : State :=
  match s.cap.st with
  | .hunt => s.endHunt
  | .sectorData => s.endTorn
  | .track => s.endTrackWrite
  | .idle | .sectorTail | .discard => s

/-- The capture unit takes a fall of the write gate. -/
def State.captureFall (s : State) : State := s.endCapture.capIdle

/-- The capture unit takes a side change (R124, R136). -/
def State.captureSideChange (s : State) : State := if s.cap.st = .idle then s else s.endCapture.capAside

/-- The deadline cell begins (R116). -/
def State.captureDeadline (s : State) : State :=
  if s.cap.st = .hunt then (s.endSectorWrite [] (.faulty .noMark)).capAside else s

/-- The end of the capture's slot is reached with the gate active (R123): the next slot's sector is marked OVERRUN when it holds
data, once in a capture. -/
def State.markOverrun (s : State) : State :=
  match s.cap.track, s.cap.line with
  | some tr, some i =>
    let j := s.cap.slot + 1
    let l := s.capZone.logicalOf j
    if s.capZone.n ≤ j then s
    else
      match s.cache.sector i l with
      | none => s
      | some x =>
        if !x.hole && (x.state == .clean || x.state == .dirty || x.state == .flush) then
          let d := s.cache.addDefect s.geom { track := tr, sector := s.capZone.idSector l, reason := .overrun }
          { s with cache := d.1 }.postFault tr.cyl tr.head (s.capZone.idSector l) .overrun d.2
        else s
  | _, _ => s

/-- The end of the slot has a bearing: once in a capture, in SECTOR_TAIL and SECTOR_DATA (R123). -/
def State.takesSlotEnd (s : State) : Bool := (s.cap.st == .sectorTail || s.cap.st == .sectorData) && !s.cap.pastSlot

/-- SECTOR_TAIL and SECTOR_DATA take the end of the slot (R123). -/
def State.captureSlotEnd (s : State) : State :=
  if s.cap.pastSlot then s
  else
    match s.cap.st with
    | .sectorTail => let s := s.markOverrun; { s with cap := { s.cap.rest .discard with pastSlot := true } }
    | .sectorData => let s := s.markOverrun; { s with cap := { s.cap with pastSlot := true } }
    | .idle | .hunt | .track | .discard => s

/-- A wrap of the rotation time ends a track write (R131). -/
def State.captureWrap (s : State) : State := if s.cap.st = .track then s.endTrackWrite.capAside else s

/-- The mount leaves MOUNTED: the capture is abandoned (R125, R137). -/
def State.captureAbandon (s : State) : State :=
  match s.cap.st with
  | .idle => s
  | .hunt | .sectorData =>
    (match s.cap.line with
      | some i => { s with cache := s.cache.modSector i s.cap.logical (fun x => x.enter .dirty) }
      | none => s).capAside
  | .sectorTail | .track | .discard => s.capAside

end Sys2Proof.Machine
end

