-- ==== Sys2Proof/Machine/Runs.lean ====
section
/-! DEFINITION. The arbiter of the card engine (08, R144, R147 to R153) and what the cache does by itself after a step: the
waiting allocation, read-ahead and the flush queue. Nothing here touches the drive, the mount, the capture unit or the link. -/

namespace Sys2Proof.Machine

/-! ## Runs in the slots -/

/-- R143: FLUSH and PANEL_WRITE write the card. -/
def RunKind.writes : RunKind → Bool
  | .flush | .panelWrite => true
  | .fill | .mergeRead | .panelRead => false

/-- R143: PANEL_READ and PANEL_WRITE belong to no mount. -/
def RunKind.isPanel : RunKind → Bool
  | .panelRead | .panelWrite => true
  | .fill | .flush | .mergeRead => false

/-- The per-block limit in fine ticks: 250 ms for a write, 100 ms for a read (R145). -/
def RunKind.limit (k : RunKind) : Nat := if k.writes then ms 250 else ms 100

/-- Blocks of a run delivered so far, in every attempt: the place in the run of the block in transfer (R143, R155). -/
def Run.delivered (r : Run) : Nat := r.base + r.received

/-- The runs standing in the slots (R144). -/
def Card.runs (c : Card) : List Run := c.active.toList ++ c.queued.toList

/-- The mount a run was built for has ended: it entered UNMOUNTED (R146, R149). -/
def State.runEnded (s : State) (r : Run) : Bool :=
  !r.kind.isPanel && (s.mount.state == .unmounted || r.mount != some s.mount.serial)

/-- The runs in the slots that belong to the standing mount. -/
def State.mountRuns (s : State) : List Run := s.card.runs.filter (fun r => !r.kind.isPanel && !s.runEnded r)

/-- The write runs of the standing mount in the slots (R78, log 13). -/
def State.writeRuns (s : State) : List Run := s.mountRuns.filter (fun r => r.kind == .flush)

/-- The class of a run, by the work it serves (R148). -/
def State.runClass (s : State) (r : Run) : RunClass :=
  match r.kind with
  | .fill => if r.line.isSome && s.cache.active == r.line then .demand else .ahead
  | .flush | .mergeRead => if r.line.isSome && s.cache.forced == r.line then .demand else .writeback
  | .panelRead | .panelWrite => .panel

/-- The rank of a class, 1 first (R147). -/
def RunClass.rank : RunClass → Nat
  | .demand => 1
  | .panel => 2
  | .writeback => 3
  | .ahead => 4

/-- A block of line `i` stands in a run of one of the kinds in a slot, a run of that line with the track it carries (R147, log 13). -/
def State.heldBy (s : State) (kinds : RunKind → Bool) (i blk : Nat) : Bool :=
  s.mountRuns.any (fun r => kinds r.kind && r.line == some i && r.track == (s.cache.line i).tag && r.holds blk)

/-- A merge read, or the write run that follows one, stands in a slot (R147, R153). -/
def State.mergeBusy (s : State) : Bool := s.card.runs.any (fun r => r.kind == .mergeRead || r.merged)

/-- Fill work while the mount is MOUNTED (R73, log 12). -/
def State.fillWork (s : State) (i blk : Nat) : Bool := s.isMounted && s.cache.isFillWork s.geom i blk

/-- Write-back work of line `i` (R78). -/
def State.writeWork (s : State) (i blk : Nat) : Bool := s.cache.isWriteWork s.geom s.writeRuns i blk

/-- The mount is MOUNTED or DRAINING. -/
def State.writesBack (s : State) : Bool := s.mount.state == .mounted || s.mount.state == .draining

/-! ## Bytes of a block (R152) -/

/-- Line `i` itself supplies the image bytes 128 q..128 q + 127: they lie in a sector of its own that is no hole and is CLEAN,
DIRTY, FLUSH or CAPTURE. Every sector and track begins and ends on a multiple of 128 bytes (R3, R22), so a block is four
such quarters. -/
def Cache.supplies (c : Cache) (g : Geometry) (i q : Nat) : Bool :=
  match (c.line i).tag with
  | none => false
  | some tr =>
    decide (g.trackOffset tr ≤ 128 * q) &&
      match (c.line i).sectors[(128 * q - g.trackOffset tr) / (g.layoutAt tr).sectorSize]? with
      | none => false
      | some x => !x.hole && (x.state == .clean || x.state.nonClean)

/-- The quarters of an image block. -/
def quarters (blk : Nat) : List Nat := [4 * blk, 4 * blk + 1, 4 * blk + 2, 4 * blk + 3]

/-- The outside quarters of a block for line `i` (R152). -/
def Cache.outside (c : Cache) (g : Geometry) (i blk : Nat) : List Nat :=
  (quarters blk).filter (fun q => !c.supplies g i q)

/-- Another line that holds every outside byte of the block (R152). -/
def Cache.otherSource (c : Cache) (g : Geometry) (i blk : Nat) : Option Nat :=
  (List.range 8).find? (fun k => k != i && (c.outside g i blk).all (c.supplies g k))

/-- The block needs a merge (R152). -/
def Cache.needsMerge (c : Cache) (g : Geometry) (i blk : Nat) : Bool :=
  !(c.outside g i blk).isEmpty && (c.otherSource g i blk).isNone

/-- The 128 bytes of a quarter as line `k` holds them. -/
def Cache.quarterBytes (c : Cache) (g : Geometry) (k q : Nat) : List Byte :=
  match (c.line k).tag with
  | none => List.replicate 128 0#8
  | some tr => memSlice c.ram (lineBase k + (128 * q - g.trackOffset tr)) 128

/-- The 512 bytes of a block, fixed when its write run is built: the line's own bytes, and outside bytes from the merge
buffer or from the other line (R152, R153). -/
def Cache.fixBlock (c : Cache) (g : Geometry) (i blk : Nat) (mergeBuf : Option (List Byte)) : List Byte :=
  (quarters blk).flatMap (fun q =>
    if c.supplies g i q then c.quarterBytes g i q
    else
      match mergeBuf with
      | some buf => (List.range 128).map (fun k => byteAt buf (128 * (q - 4 * blk) + k))
      | none =>
        match c.otherSource g i blk with
        | some k => c.quarterBytes g k q
        | none => List.replicate 128 0#8)

/-! ## Offers (R147) -/

/-- Work that a class offers: the line, its first block, and for a fill the last block of the pass; or the panel's block. -/
inductive Offer where
  | fill (cls : RunClass) (line blk last : Nat)
  | flush (cls : RunClass) (line blk : Nat)
  | panel
  deriving DecidableEq, Repr

/-- The class of an offer. -/
def Offer.cls : Offer → RunClass
  | .fill c _ _ _ => c
  | .flush c _ _ => c
  | .panel => .panel

/-- A block of line `i` that may begin or continue a fill run: fill work that stands in no run of the line, of whatever kind (R73, R147,
R151). -/
def State.fillFree (s : State) (i blk : Nat) : Bool := s.fillWork i blk && !s.heldBy (fun _ => true) i blk

/-- A block of line `i` that may begin or continue a write run: write-back work that stands in no fill and no merge read of the line. A
write run does not hold back a block of it that is DIRTY again: a second run may stand behind the first (R147, R152). R147 says so of the
same sector; that it holds when another sector of the block has become DIRTY is the model's reading (log 13). -/
def State.writeFree (s : State) (i blk : Nat) : Bool := s.writeWork i blk && !s.heldBy (fun k => k != .flush) i blk

/-- The active line's fill, in its demand order: pass one from the start block to the track's last, then pass two (R74). -/
def State.offerDemandFill (s : State) : Option Offer :=
  match s.cache.active with
  | none => none
  | some i =>
    let blocks := s.cache.lineBlocks s.geom i
    let one := blocks.filter (fun b => decide (s.cache.demandStart ≤ b))
    let two := blocks.filter (fun b => decide (b < s.cache.demandStart))
    match one.find? (s.fillFree i) with
    | some b => some (.fill .demand i b (one.getLastD b))
    | none =>
      match two.find? (s.fillFree i) with
      | some b => some (.fill .demand i b (two.getLastD b))
      | none => none

/-- The write-back of line `i`: its lowest block of work; not offered while that block needs a merge and the merge buffer is
taken (R147, R152). -/
def State.offerFlush (s : State) (cls : RunClass) (i : Nat) : Option Offer :=
  match (s.cache.lineBlocks s.geom i).find? (s.writeFree i) with
  | none => none
  | some b => if s.cache.needsMerge s.geom i b && s.mergeBusy then none else some (.flush cls i b)

/-- DEMAND work (R147). -/
def State.offerDemand (s : State) : Option Offer :=
  if !s.isMounted then none
  else
    match s.offerDemandFill with
    | some o => some o
    | none =>
      match s.cache.forced with
      | some f => s.offerFlush .demand f
      | none => none

/-- PANEL work (R147). -/
def State.offerPanel (s : State) : Option Offer :=
  if s.card.panel.isSome && !s.card.runs.any (fun r => r.kind.isPanel) then some .panel else none

/-- WRITEBACK work: the line at the front of the flush queue (R147). -/
def State.offerWriteback (s : State) : Option Offer :=
  if !s.writesBack then none
  else
    match s.cache.flushQ with
    | [] => none
    | i :: _ => s.offerFlush .writeback i

/-- The read-ahead fill of line `i`: its lowest block that is fill work and in no run (R75, R151). -/
def State.offerAheadLine (s : State) (i : Nat) : Option Offer :=
  if (s.cache.line i).pinned then none
  else
    match (s.cache.lineBlocks s.geom i).find? (s.fillFree i) with
    | none => none
    | some b => some (.fill .ahead i b ((s.cache.lineBlocks s.geom i).getLastD b))

/-- AHEAD work: the unpinned FILLING lines, nearest the front of the LRU order first (R147). -/
def State.offerAhead (s : State) : Option Offer :=
  if !s.isMounted then none else s.cache.lru.findSome? s.offerAheadLine

/-- The highest class that offers work not held by a run in a slot (R147); while the card is not READY nothing is built
(R144). -/
def State.offer (s : State) : Option Offer :=
  if s.card.state != .ready then none
  else
    match s.offerDemand with
    | some o => some o
    | none =>
      match s.offerPanel with
      | some o => some o
      | none =>
        match s.offerWriteback with
        | some o => some o
        | none => s.offerAhead

/-! ## Building runs (R150 to R153) -/

/-- How many blocks from `b` on pass a test, at most `room`. -/
def extendRun (ok : Nat → Bool) : Nat → Nat → Nat
  | _, 0 => 0
  | b, room + 1 => if ok b then 1 + extendRun ok (b + 1) room else 0

/-- The extent number of an image block (R48, R150). -/
def Mount.extentOf (m : Mount) (blk : Nat) : Option Nat := (m.mapBlock blk).map Prod.snd

/-- A run of `count` blocks of line `i` from image block `blk`, its record taken from the mapping (R150). -/
def State.runFor (s : State) (cls : RunClass) (kind : RunKind) (i blk count : Nat) : Run :=
  { cls := cls, kind := kind, start := ((s.mount.mapBlock blk).map Prod.fst).getD 0, count := count,
    firstImage := some blk, extent := s.mount.extentOf blk, line := some i, track := (s.cache.line i).tag,
    mount := some s.mount.serial, attempt := 1, base := 0, received := 0, status := .queued, data := [], members := [], merged := false }

/-- A FILL run (R151). -/
def State.fillRun (s : State) (cls : RunClass) (i blk last : Nat) : Run :=
  let ok := fun b => decide (b ≤ last) && s.fillFree i b && s.mount.extentOf b == s.mount.extentOf blk
  s.runFor cls .fill i blk (1 + extendRun ok (blk + 1) (s.link.options.burstCap - 1))

/-- The blocks of a write run whose first block needs no merge (R152). -/
def State.flushCount (s : State) (i blk : Nat) : Nat :=
  let ok := fun b =>
    s.writeFree i b && !s.cache.needsMerge s.geom i b && s.mount.extentOf b == s.mount.extentOf blk
  1 + extendRun ok (blk + 1) (s.link.options.burstCap - 1)

/-- A write run is made: the cache moves its DIRTY sectors to FLUSH (R79) and the bytes of its blocks are fixed (R152). -/
def State.makeFlush (s : State) (cls : RunClass) (i blk count : Nat) (mergeBuf : Option (List Byte)) : State × Run :=
  let r := s.runFor cls .flush i blk count
  match (s.cache.line i).tag with
  | none => (s, r)
  | some tr =>
    let cache := s.cache.toFlush s.geom i tr r
    ({ s with cache := cache },
      { r with
        data := (List.range count).flatMap (fun k => s.cache.fixBlock s.geom i (blk + k) mergeBuf)
        members := cache.flushMembers s.geom i tr r
        merged := mergeBuf.isSome })

/-- The run of one panel block (R159, R160). -/
def PanelWork.run (w : PanelWork) : Run :=
  { cls := .panel, kind := if w.write then .panelWrite else .panelRead, start := w.block, count := 1, firstImage := none,
    extent := none, line := none, track := none, mount := none, attempt := 1, base := 0, received := 0, status := .queued,
    data := w.data, members := [], merged := false }

/-- A run is placed in the queued slot (R144). -/
def State.enqueueRun (s : State) (r : Run) : State := { s with card := { s.card with queued := some r } }

/-- The arbiter builds a run from an offer and places it in the queued slot (R147, R151, R152). -/
def State.build (s : State) (o : Offer) : State :=
  match o with
  | .fill cls i blk last => s.enqueueRun (s.fillRun cls i blk last)
  | .flush cls i blk =>
    if s.cache.needsMerge s.geom i blk then s.enqueueRun (s.runFor cls .mergeRead i blk 1)
    else
      let p := s.makeFlush cls i blk (s.flushCount i blk) none
      p.1.enqueueRun p.2
  | .panel =>
    match s.card.panel with
    | some w => s.enqueueRun w.run
    | none => s

/-! ## The slots (R144, R148) -/

/-- A write run's FLUSH sectors return to DIRTY (R79), while its mount stands and its line carries its track. -/
def State.unflush (s : State) (r : Run) : State :=
  match r.line, r.track with
  | some i, some tr =>
    if s.runEnded r || !s.cache.carries i r.track then s
    else { s with cache := s.cache.fromFlush s.geom i tr r }
  | _, _ => s

/-- In MOUNTED the line of a withdrawn write run joins the flush queue again at once (R78, R79). -/
def State.rejoin (s : State) (r : Run) : State :=
  match r.line with
  | some i => if s.isMounted then { s with cache := s.cache.join (fun k => k == i && s.cache.hasWriteWork s.geom s.writeRuns k) } else s
  | none => s

/-- The run in the queued slot is withdrawn with no transfer; its owner keeps the work (R148, R79). -/
def State.withdraw (s : State) : State :=
  match s.card.queued with
  | none => s
  | some r =>
    let s := { s with card := { s.card with queued := none } }
    if r.kind = .flush then (s.unflush r).rejoin r else s

/-- A queued fill whose blocks have all ceased to be fill work is withdrawn (R151). -/
def State.dropDeadFill (s : State) : State :=
  match s.card.queued with
  | none => s
  | some r =>
    match r.kind, r.line, r.firstImage with
    | .fill, some i, some f =>
      if !s.runEnded r && s.cache.carries i r.track && (List.range r.count).any (fun k => s.fillWork i (f + k)) then s
      else s.withdraw
    | _, _, _ => s

/-- The queued run is displaced when a higher class offers work that no run in a slot holds (R148). -/
def State.displace (s : State) : State :=
  match s.card.queued, s.offer with
  | some r, some o => if o.cls.rank < (s.runClass r).rank then s.withdraw else s
  | _, _ => s

/-- A run takes the active slot and starts its first block (R144, R145). -/
def State.start (s : State) (r : Run) : State :=
  { s with card := { s.card with active := some { r with status := .inProgress }, blockLimit := some r.kind.limit } }

/-- With the active slot empty, the queued run moves up (R144). -/
def State.promote (s : State) : State :=
  match s.card.active, s.card.queued with
  | none, some r => { s with card := { s.card with queued := none } }.start r
  | _, _ => s

/-- With the queued slot empty, the arbiter fills it from the highest class that offers work (R144, R147). -/
def State.fillQueued (s : State) : State :=
  match s.card.queued, s.offer with
  | none, some o => s.build o
  | _, _ => s

/-- Lines without write-back work leave the flush queue; in DRAINING every line that has some joins it (R78). -/
def State.tendQueue (s : State) : State :=
  let s := { s with cache := s.cache.trimQueue s.geom s.writeRuns }
  if s.mount.state = .draining then { s with cache := s.cache.joinAll s.geom s.writeRuns } else s

/-- One pass of the arbiter. -/
def State.arbitrateOnce (s : State) : State := s.tendQueue.dropDeadFill.displace.promote.fillQueued

/-- The arbiter until both slots stand: an empty engine fills in two passes, and one displacement needs one more. That it makes four passes
is the model's means (log 38). -/
def State.arbitrate (s : State) : State := s.arbitrateOnce.arbitrateOnce.arbitrateOnce.arbitrateOnce.tendQueue

/-- The class part of the runs in the slots follows the work they serve (R148). -/
def State.refreshClasses (s : State) : State :=
  { s with card := { s.card with
      active := s.card.active.map (fun r => { r with cls := s.runClass r })
      queued := s.card.queued.map (fun r => { r with cls := s.runClass r }) } }

/-! ## What the cache does by itself -/

/-- The waiting allocation is tried when a line has changed state or its non-clean sectors since `old` (R70, log 19). -/
def State.reactWaiting (s : State) (old : Cache) : State :=
  match s.cache.waiting with
  | none => s
  | some tr =>
    if s.isMounted && decide (old.watch ≠ s.cache.watch) then
      { s with cache := s.cache.retryWaiting s.geom s.mount s.link.options.fillLead s.rot.t tr }
    else s

/-- Read-ahead is considered, in MOUNTED with the option on (R71). -/
def State.lookAhead (s : State) : State :=
  if s.isMounted && s.link.options.readAhead then { s with cache := s.cache.considerAhead s.geom s.mount s.drive.lastIn } else s

/-- Read-ahead is considered when a moment of R71 lies between `old` and now (log 20). -/
def State.reactAhead (s : State) (old : Cache) : State := if aheadMoment old s.cache then s.lookAhead else s

/-- The cache's own reactions to a change of its lines since `old` (R70, R71). -/
def State.react (s : State) (old : Cache) : State := (s.reactWaiting old).reactAhead old

/-- A part of a command's effect to which the cache reacts before the next part: an arrival, the end of a capture, a rise of the gate, the
failure of a run (R70, R71, log 20). -/
def reacting (f : State → State) (s : State) : State := (f s).react s.cache

/-- While READ DATA does not flow, the decision record is cleared and the encoder at rest (R90). -/
def State.tendStream (s : State) : State := if s.flowing then s else { s with pres := Present.reset }

/-- The arbiter and the stream at the end of a command to whose parts the cache has reacted. -/
def State.tend (s : State) : State := s.arbitrate.refreshClasses.tendStream

/-- What follows a command that can change a line, a slot, the mount or the drive: the cache's reactions to what has changed since `old`,
the arbiter and the stream. -/
def State.settle (old s : State) : State := (s.react old.cache).tend

end Sys2Proof.Machine
end

