-- ==== Sys2Proof/Machine/Drive.lean ====
section
/-! DEFINITION. The drive interface and the rotation state machine (02): selection, steps, side changes, arrivals, spin demand
and the write gate, and the values after power-on and after a reset (R38, R192). -/

namespace Sys2Proof.Machine

/-! ## Arrivals (R28, R104) -/

/-- The decision record is cleared, and the stream goes on with the next byte cell; the previous data bit is kept (R104). The check
register of a field that is cut short becomes idle and its count 0 (log 29). -/
def Present.arrived (p : Present) : Present := { Present.reset with prevBit := p.prevBit }

/-- The cache and the stream take an arrival at the current track (R28, R104). -/
def State.arrive (s : State) : State :=
  { s with
    cache := s.cache.arrive s.geom s.mount s.link.options.fillLead s.rot.t s.currentTrack
    pres := s.pres.arrived }

/-- The arrival that follows a change of the current track from `old`, and read-ahead considered at it (R28, R71). Outside MOUNTED there is
none, and one that finds the same current track does nothing. -/
def State.arrival (s : State) (old : Option Track) : State :=
  if !s.isMounted || decide (s.currentTrack = old) then s else reacting State.arrive s

/-! ## Spin demand (R34, R35) -/

/-- The motor-off trigger: in MOUNTED every line with write-back work joins the flush queue (R35, R78). -/
def State.motorOff (s : State) : State :=
  if s.isMounted then { s with cache := s.cache.joinAll s.geom s.writeRuns } else s

/-- The rotation state. -/
def State.setRotation (s : State) (st : RotState) (timer : Option Nat) : State :=
  { s with rot := { s.rot with state := st, spinTimer := timer } }

/-- Spin demand is worked out again, and a rise or a fall reaches the rotation state machine (R34, R35). The rotation is
STOPPED exactly while there is no demand. -/
def State.reworkSpin (s : State) : State :=
  match s.spinDemand, s.rot.state with
  | true, .stopped =>
    if s.link.options.spinUp = 0 then s.setRotation .atSpeed none else s.setRotation .spinningUp (some (ms s.link.options.spinUp))
  | false, .spinningUp => s.setRotation .stopped none
  | false, .atSpeed => (s.setRotation .stopped none).motorOff
  | _, _ => s

/-- The spin-up timer expires (R35). -/
def State.spinUpExpiry (s : State) : State :=
  match s.rot.state with
  | .spinningUp => s.setRotation .atSpeed none
  | .stopped | .atSpeed => { s with rot := { s.rot with spinTimer := none } }

/-! ## Write gate (R39) -/

/-- The condition "write gate active" follows the flag and the line; its rise and its fall reach the capture unit (R39). -/
def State.reworkGate (s : State) : State :=
  let now := s.drive.selected && s.inputs.writeGate
  if now = s.drive.gateActive then s
  else
    let s := { s with drive := { s.drive with gateActive := now } }
    reacting (if now then State.captureRise else State.captureFall) s

/-! ## Side (R26) -/

/-- The side follows the SIDE line; a side change runs the arrival, and then ends a capture in progress, whose line goes ahead of the new
active line in the LRU order at a match (R26, R124, R136). -/
def State.reworkSide (s : State) : State :=
  if s.inputs.side = s.drive.side then s
  else
    let old := s.currentTrack
    let s := { s with drive := { s.drive with side := s.inputs.side } }
    reacting State.captureSideChange (s.arrival old)

/-! ## Selection (R24) -/

/-- The select line named by the option is asserted (R24). -/
def State.addressed (s : State) : Bool := selectLevel s.inputs s.link.options.selectLine

/-- What a selection brings: the side is sampled, spin demand and the gate are worked out again. Only those that change
something are listed, and their order is free (R24, R26, R34, R39, log 16). -/
def State.selectionEffects (s : State) : List (State → State) :=
  (if s.drive.selected && decide (s.inputs.side ≠ s.drive.side) then [State.reworkSide] else [])
  ++ (if decide (s.spinDemand ≠ (s.rot.state != .stopped)) then [State.reworkSpin] else [])
  ++ (if decide ((s.drive.selected && s.inputs.writeGate) ≠ s.drive.gateActive) then [State.reworkGate] else [])

/-- The selected flag follows its line; a change is a selection or a deselection (R24). -/
def State.reworkSelect (s : State) : State :=
  if s.addressed = s.drive.selected then s
  else
    let s := { s with drive := { s.drive with selected := s.addressed } }
    inFreeOrder s.selectionEffects s

/-! ## Steps (R25) -/

/-- The head position after a step: one in or out, within 0..83 (R25). -/
def stepHead (head : Nat) (dirIn : Bool) : Nat := if dirIn then min 83 (head + 1) else head - 1

/-- A step that is taken (R25). -/
def State.stepTaken (s : State) (dirIn : Bool) : State :=
  let old := s.currentTrack
  let s := { s with drive := { s.drive with
    lastIn := dirIn, head := stepHead s.drive.head dirIn, latch := s.drive.latch && !s.isMounted } }
  s.arrival old

/-- A leading edge on STEP is taken (R25). -/
def State.takesStep (s : State) : Bool := s.drive.selected && !s.drive.gateActive

/-- A leading edge on STEP (R25). -/
def State.stepEdge (s : State) (dirIn : Bool) : State := if s.takesStep then s.stepTaken dirIn else s

/-- The disk-change latch is set (R31). -/
def State.setLatch (s : State) : State := { s with drive := { s.drive with latch := true } }

/-! ## Power-on and reset (R38, R162, R192, R193) -/

/-- The drive interface after a reset that finds the lines so (R38, R192). -/
def Drive.after (x : Inputs) : Drive where
  selected := selectLevel x 0
  head := 0
  side := selectLevel x 0 && x.side
  lastIn := false
  latch := true
  gateActive := selectLevel x 0 && x.writeGate

/-- The card engine after a reset that finds the card-detect switch so (R162, R140). -/
def Card.after (detect : Bool) : Card :=
  if detect then { Card.reset with state := .initialising, bringUp := some (ms 1000) } else Card.reset

/-- Every block takes its values after reset, with the input lines as they stand (R192, R188). The queue of commands and the
count of free values are the model's own and stay. -/
def State.restart (s : State) (x : Inputs) : State :=
  { State.reset with
    pending := s.pending, free := s.free, inputs := x, drive := Drive.after x, card := Card.after x.cardDetect,
    link := Link.reset x.fastStrap }

/-- The supply has fallen: nothing is held (R193). -/
def State.dark (s : State) : State :=
  { State.reset with powered := false, pending := s.pending, free := s.free }

end Sys2Proof.Machine
end

