-- ==== Sys2Proof/Machine/Stream.lean ====
section
/-! DEFINITION. The presentation unit (05): encoding, the decisions at the units' first cells, and the stream on READ DATA. -/

namespace Sys2Proof.Machine

/-! ## Encoding (R91 to R94) -/

/-- Cells, the first sent at the top. -/
def packCells (cells : List Bool) : Check := BitVec.ofNat 16 (cells.foldl (fun acc b => 2 * acc + b.toNat) 0)

/-- The cells of MFM data bits after a previous data bit: the clock is 1 between two zero bits (R92). -/
def mfmCells : Bool → List Bool → List Bool
  | _, [] => []
  | prev, b :: bs => (!prev && !b) :: b :: mfmCells b bs

/-- The cells of FM data bits with their clock pattern, bit 7 first (R94). -/
def fmCells (clock data : Byte) : List Bool := (byteBits clock).zip (byteBits data) |>.flatMap (fun p => [p.1, p.2])

/-- The marks bytes are sent as (R93, R94). -/
inductive MarkByte where
  /-- An ordinary byte. -/
  | plain
  /-- A1 hex of an ID mark or data mark (MFM), FE hex or FB hex (FM): the address marks. -/
  | address
  /-- C2 hex of the index mark (MFM), FC hex (FM). -/
  | index
  deriving DecidableEq, Repr

/-- The sixteen encoded cells of a byte (R91 to R94). -/
def encodeByte (e : Encoding) (prev : Bool) (m : MarkByte) (b : Byte) : Check :=
  match e, m with
  | .mfm, .plain => packCells (mfmCells prev (byteBits b))
  | .mfm, .address => 0x4489#16
  | .mfm, .index => 0x5224#16
  | .fm, .plain => packCells (fmCells 0xFF#8 b)
  | .fm, .address => packCells (fmCells 0xC7#8 b)
  | .fm, .index => packCells (fmCells 0xD7#8 b)

/-! ## Decisions (R95, R96, R98, R100) -/

/-- The zone under the head (R15). -/
def State.zoneHere (s : State) : Zone := s.geom.zone s.headZone

/-- The layout under the head (R15). -/
def State.layoutHere (s : State) : Layout := s.geom.layout s.headZone

/-- The region of the byte cell under the head (R21). -/
def State.regionHere (s : State) : Region := regionAt s.zoneHere s.layoutHere s.cell

/-- Rotation ticks since the byte cell under the head began. -/
def State.cellAge (s : State) : Nat := s.rot.t - s.cell * s.layoutHere.byteTime

/-- The first instant of a byte cell: its first rotation tick, at its first fine tick. -/
def State.atCellStart (s : State) : Bool := s.rot.fine == 0 && s.cellAge == 0

/-- A byte cell begins and the decision record stands for another unit than `u` or for none: at the start of its first cell the unit is to
be decided, once (R95). -/
def State.undecided (s : State) (u : PresUnit) : Bool := s.atCellStart && s.pres.decision.unit != u

/-- A sector state that is sent FULL (R96). -/
def SectorState.full : SectorState → Bool
  | .clean | .dirty | .flush | .capture => true
  | .pending | .missing => false

/-- The decision for slot `j` of a track whose line is `i` (R96, R98). R89 and R96 give the defective part for a slot decided FULL alone: no
for a BLANK one is the model's choice (log 5). -/
def State.slotRecord (s : State) (tr : Track) (i j : Nat) : Decision :=
  let l := s.zoneHere.logicalOf j
  match s.cache.sector i l with
  | none => { unit := .slot j, track := some tr, line := some i, full := false, logical := l, defective := false }
  | some x =>
    { unit := .slot j, track := some tr, line := some i, full := x.state.full, logical := l,
      defective := x.state.full && x.defective }

/-- A decision is recorded. -/
def State.record (s : State) (d : Decision) : State := { s with pres := { s.pres with decision := d } }

/-- The decision at the start of the first cell of a slot, while the stream flows and the current track has an active line; once taken it
stands (R95, R96). Commanded at any other time, which cannot occur, it does nothing (logs 9 and 30). -/
def State.decideSlot (s : State) : State :=
  match s.flowing, s.currentTrack, s.cache.active, s.regionHere with
  | true, some tr, some i, .slot j 0 => if s.undecided (.slot j) then s.record (s.slotRecord tr i j) else s
  | _, _, _, _ => s

/-- The decision at the start of the first cell of the index field; once taken it stands (R95, R100), and commanded at any other time, which
cannot occur, it does nothing (logs 9 and 30). Its logical sector 0 and not defective are the model's choice (log 5). -/
def State.decideIndex (s : State) : State :=
  match s.flowing, s.currentTrack, s.cache.active, s.regionHere with
  | true, some tr, some i, .indexField 0 =>
    if s.undecided .indexField then
      s.record { unit := .indexField, track := some tr, line := some i, full := true, logical := 0, defective := false }
    else s
  | _, _, _, _ => s

/-! ## The content of a byte cell (R97 to R103) -/

/-- What a byte does to the check register of the field being sent (R97). -/
inductive CheckUse where
  /-- The byte stands outside every checked field. -/
  | outside
  /-- The register is preset before the byte enters it. -/
  | preset
  /-- The byte enters the register. -/
  | enter
  /-- The high byte of the register is sent. -/
  | high
  /-- The low byte of the register is sent, inverted when the sector is defective (R98); the register is idle after it. -/
  | low (invert : Bool)
  deriving DecidableEq, Repr

/-- A byte to send: its value where it is not a check byte, how it is marked, and what the register does. -/
structure Sent where
  byte : Byte
  mark : MarkByte
  use  : CheckUse
  deriving DecidableEq, Repr

/-- A gap byte of a zone. -/
def Sent.gap (z : Zone) : Sent := { byte := gapByte z.encoding, mark := .plain, use := .outside }

/-- A check byte. -/
def Sent.check (k : Nat) (invert : Bool) : Sent :=
  { byte := 0#8, mark := .plain, use := if k = 0 then .high else .low invert }

/-- Byte `k` of a four-byte mark whose last byte is `last`; an FM mark is its last byte alone (R93, R94, R97). -/
def Sent.mark4 (z : Zone) (k : Nat) (last : Byte) : Sent :=
  match z.encoding with
  | .mfm => { byte := if k < 3 then 0xA1#8 else last, mark := if k < 3 then .address else .plain,
              use := if k = 0 then .preset else .enter }
  | .fm => { byte := last, mark := .address, use := .preset }

/-- Byte `k` of the index field: sync, then the index mark (R16, R100). -/
def Sent.indexByte (z : Zone) (k : Nat) : Sent :=
  match z.encoding with
  | .mfm =>
    if k < 12 then { byte := 0#8, mark := .plain, use := .outside }
    else if k < 15 then { byte := 0xC2#8, mark := .index, use := .outside }
    else { byte := 0xFC#8, mark := .plain, use := .outside }
  | .fm =>
    if k < 6 then { byte := 0#8, mark := .plain, use := .outside }
    else { byte := 0xFC#8, mark := .index, use := .outside }

/-- A byte of a FULL slot at an offset, as the decision record has it (R97, R98). -/
def State.slotByte (s : State) (z : Zone) (j off : Nat) : Sent :=
  let d := s.pres.decision
  let tr := d.track.getD ⟨0, 0⟩
  match slotField z.encoding z.sectorSize off with
  | .sync => { byte := 0#8, mark := .plain, use := .outside }
  | .idMark k => Sent.mark4 z k 0xFE#8
  | .id k => { byte := byteAt (z.idBytes tr j) k, mark := .plain, use := .enter }
  | .idCheck k => Sent.check k false
  | .gap2 => Sent.gap z
  | .dataMark k => Sent.mark4 z k 0xFB#8
  | .data i =>
    { byte := memRead s.cache.ram (dataAddr (d.line.getD 0) z.sectorSize d.logical i), mark := .plain, use := .enter }
  | .dataCheck k => Sent.check k d.defective
  | .gap3 => Sent.gap z

/-- The byte of the byte cell under the head (R97, R99, R100, R102, R103): a unit is sent FULL when the decision record says so
for that unit, and as gap bytes otherwise. -/
def State.sentByte (s : State) : Sent :=
  let z := s.zoneHere
  let d := s.pres.decision
  match s.regionHere with
  | .indexField k => if d.unit = .indexField ∧ d.full = true then Sent.indexByte z k else Sent.gap z
  | .slot j off => if d.unit = .slot j ∧ d.full = true then s.slotByte z j off else Sent.gap z
  | .gap4a | .gap1 | .gap4b => Sent.gap z

/-- The unit that holds the byte cell under the head. -/
def State.unitHere (s : State) : PresUnit :=
  match s.regionHere with
  | .indexField _ => .indexField
  | .slot j _ => .slot j
  | .gap4a | .gap1 | .gap4b => .none

/-- The value on the track of a byte to send, given the check register (R97, R98). -/
def Sent.value (x : Sent) (r : Check) : Byte :=
  match x.use with
  | .outside | .preset | .enter => x.byte
  | .high => byteAt (checkBytes r) 0
  | .low invert => if invert then ~~~ (byteAt (checkBytes r) 1) else byteAt (checkBytes r) 1

/-- The encoder's register and count after a byte (R89, R97). The count of field bytes begins with the mark bytes that enter the
register and leaves the two check bytes out (log 34). -/
def Present.afterByte (p : Present) (x : Sent) : Present :=
  match x.use with
  | .outside => p
  | .preset => { p with crc := some (crcByte crcPreset x.byte), fieldCount := 1 }
  | .enter => { p with crc := p.crc.map (fun r => crcByte r x.byte), fieldCount := p.fieldCount + 1 }
  | .high => p
  | .low _ => { p with crc := none, fieldCount := 0 }

/-- A byte cell begins on READ DATA (R90, R91): a decision whose unit has passed is cleared, the byte is fetched and encoded. -/
def State.beginByte (s : State) : State :=
  let s := if s.pres.decision.unit = s.unitHere then s else s.record Decision.none
  let x := s.sentByte
  let cells := encodeByte s.zoneHere.encoding s.pres.prevBit x.mark (x.value (s.pres.crc.getD 0#16))
  { s with pres := { s.pres.afterByte x with inCell := true, cells := cells } }

/-! ## Encoded cells (R91) -/

/-- The number of the encoded cell that begins at this instant, none between two (R91). -/
def State.encodedCell (s : State) : Option Nat :=
  let w := s.layoutHere.byteTime / 16
  if s.rot.fine = 0 ∧ s.cellAge % w = 0 ∧ s.cellAge / w < 16 then some (s.cellAge / w) else none

/-- The stream at this instant: a byte cell begins with its first encoded cell; at the first instant of a data cell the previous data bit
takes its value, so that a data bit whose cell an arrival or the end of the stream cuts counts as sent (R91, R92, log 36). -/
def State.present (s : State) : State :=
  if !s.flowing then s
  else
    match s.encodedCell with
    | none => s
    | some m =>
      let s := if m = 0 then s.beginByte else s
      if m % 2 = 1 ∧ s.pres.inCell = true then { s with pres := { s.pres with prevBit := s.pres.cells.getLsbD (15 - m) } } else s

/-- READ DATA pulses at this instant: the encoded cell that begins is a 1 (R91). -/
def State.readDataOut (s : State) : Bool :=
  match s.encodedCell with
  | none => false
  | some m => s.flowing && s.present.pres.inCell && s.present.pres.cells.getLsbD (15 - m)

end Sys2Proof.Machine
end

