-- ==== Sys2Proof/Machine/Clock.lean ====
section
/-! DEFINITION. The crystal (00 section 6.2): what falls due by itself, and one fine tick of 1/24 µs (log 1, 2). -/

namespace Sys2Proof.Machine

/-! ## What is due at this instant -/

/-- A timer that has run out. -/
def ranOut (timer : Option Nat) : Bool := timer == some 0

/-- A slot's first cell begins and its decision is still to be taken (R95, R96). -/
def State.slotDue (s : State) : Bool :=
  s.flowing && s.currentTrack.isSome && s.cache.active.isSome &&
    match s.regionHere with
    | .slot j 0 => s.undecided (.slot j)
    | _ => false

/-- The index field's first cell begins and its decision is still to be taken (R95, R100). -/
def State.indexDue (s : State) : Bool :=
  s.flowing && s.currentTrack.isSome && s.cache.active.isSome &&
    match s.regionHere with
    | .indexField 0 => s.undecided .indexField
    | _ => false

/-- The capture's byte cell under the head, at its first instant. -/
def State.capCellStart (s : State) : Bool :=
  s.rot.fine == 0 && s.rot.t == s.capLayout.cellAt s.rot.t * s.capLayout.byteTime

/-- The deadline cell of a sector write begins in HUNT (R116). -/
def State.deadlineDue (s : State) : Bool :=
  s.cap.st == .hunt && s.capCellStart
    && s.capLayout.cellAt s.rot.t == s.capLayout.slotStart s.cap.slot + deadlineOffset s.capZone.encoding

/-- The slot of a sector write ends: the next slot's first cell begins, or the index for the last slot (R123). The index is reached
at the wrap and stands at the first instant after it, so that the end of the last slot comes whichever of the two is taken first. -/
def State.slotEndDue (s : State) : Bool :=
  (s.cap.st == .sectorTail || s.cap.st == .sectorData) && !s.cap.pastSlot &&
    if s.cap.slot + 1 < s.capZone.n then
      s.capCellStart && s.capLayout.cellAt s.rot.t == s.capLayout.slotStart (s.cap.slot + 1)
    else s.rot.fine == 8 || (s.rot.t == 0 && s.rot.fine == 0)

/-- An open flux interval has reached its next half-cell mark (R110). -/
def State.emptyDue (s : State) : Bool :=
  match s.cap.fluxOpen with
  | none => false
  | some x => s.cap.st.measures && decide (nextEmpty s.capZone.rate.cellTicks s.cap.empties ≤ x)

/-- The last character of the frame in sending has gone (R171). -/
def State.sentDue (s : State) : Bool :=
  match s.link.tx with
  | none => false
  | some f => f.left == 0

/-- The commands that are due at this instant, whatever their order. -/
def State.due (s : State) : List Instr :=
  (if s.rot.fine == 8 then [.rotationWrap] else [])
  ++ (if ranOut s.rot.spinTimer then [.spinUpTimerExpiry] else [])
  ++ (if s.indexDue then [.indexFieldDecision] else [])
  ++ (if s.slotDue then [.slotDecision] else [])
  ++ (if s.deadlineDue then [.huntDeadline] else [])
  ++ (if s.slotEndDue then [.slotEndDuringCapture] else [])
  ++ (if s.emptyDue then [.emptyCell] else [])
  ++ (if ranOut s.cache.idleTimer then [.idleFlushTimerExpiry] else [])
  ++ (if ranOut s.card.bringUp then [.bringUpLimitExpiry] else [])
  ++ (if ranOut s.card.blockLimit then [.blockLimitExpiry] else [])
  ++ (if ranOut s.link.rxTimer then [.interCharacterTimeout] else [])
  ++ (if s.sentDue then [.frameSent] else [])
  ++ (if s.link.resetDue then [.resetTakesEffect (Config.strapAt s.free)] else [])

/-! ## One fine tick -/

/-- A timer one fine tick later. -/
def countDown (by' : Nat) (timer : Option Nat) : Option Nat := timer.map (fun n => n - by')

/-- The rotation one fine tick later. The last fine tick of a revolution leaves the wrap due, marked by `fine` at 8 (R36). -/
def Rotation.tick (r : Rotation) (period : Nat) : Rotation :=
  let r := { r with spinTimer := countDown 1 r.spinTimer }
  if r.fine < 7 then { r with fine := r.fine + 1 }
  else if r.t + 1 < period then { r with t := r.t + 1, fine := 0 }
  else { r with fine := 8 }

/-- The link's timers one fine tick later, in twelfths (log 21). -/
def Link.tick (l : Link) : Link :=
  { l with rxTimer := countDown 12 l.rxTimer, tx := l.tx.map (fun f => { f with left := f.left - 12 }) }

/-- The capture's open interval one fine tick later (R109). -/
def Capture.tick (c : Capture) : Capture :=
  if c.st.measures then { c with fluxOpen := c.fluxOpen.map (· + 1) } else c

/-- The index pulse ends when t reaches 6,000 (R37). -/
def State.pulseEnds (s : State) : List Instr := if s.rot.t = 6000 ∧ s.rot.fine = 0 then [.indexPulseEnd] else []

/-- The stream of this instant is sent and time goes on by one fine tick. -/
def State.advance (s : State) : State :=
  let s := s.present
  let s := { s with
    rot := s.rot.tick s.prof.profile.rpm.period
    cap := s.cap.tick
    cache := { s.cache with idleTimer := countDown 1 s.cache.idleTimer }
    card := { s.card with bringUp := countDown 1 s.card.bringUp, blockLimit := countDown 1 s.card.blockLimit }
    link := s.link.tick }
  { s with pending := s.pulseEnds }

/-- With nothing waiting: one of the commands that are due goes into the queue, which one of several being free; with none due,
time goes on (log 1, 2). -/
def State.tick (s : State) : State :=
  if !s.powered then s
  else
    match s.due with
    | [] => s.advance
    | [c] => { s with pending := [c], free := if s.link.resetDue then s.free + 1 else s.free }
    | c :: d :: cs => { s with pending := (arrange (Config.tie s.free) (c :: d :: cs)).take 1, free := s.free + 1 }

end Sys2Proof.Machine
end

