-- ==== Sys2Proof/Machine/Rows.lean ====
section
/-! DEFINITION. How a command acts: nothing happens while the supply is down, and a command that can change a line, a slot, the mount or
the drive is followed by what the cache and the card engine do by themselves. -/

namespace Sys2Proof.Machine

/-- A command's effect, while the supply is present (R193). -/
def whenPowered (f : State → State) (s : State) : State := if s.powered then f s else s

/-- A command's effect, and where the command is taken, as `p` says, the cache's reactions to it, the arbiter and the stream; one that is
not taken changes nothing that they could react to (log 32). -/
def settlingWhen (p : State → Bool) (f : State → State) (s : State) : State := if p s then State.settle s (f s) else f s

/-- A command's effect, to whose parts the cache has reacted one by one, and where the command is taken the arbiter and the stream
(logs 20 and 32). -/
def tendingWhen (p : State → Bool) (f : State → State) (s : State) : State := if p s then (f s).tend else f s

/-- `tendingWhen` of a command that is always taken. -/
def tending (f : State → State) (s : State) : State := (f s).tend

end Sys2Proof.Machine
end

