-- ==== Sys2Proof/Machine/CacheRows.lean ====
section
/-! DEFINITION. The idle-flush timer of the track cache (04). -/

namespace Sys2Proof.Machine

/-- The idle-flush timer expires: in MOUNTED every line with write-back work joins the flush queue (R80). -/
def State.idleExpires (s : State) : State :=
  if s.cache.idleTimer.isNone then s
  else
    let s := { s with cache := { s.cache with idleTimer := none } }
    if s.isMounted then { s with cache := s.cache.joinAll s.geom s.writeRuns } else s

/-- IDLE_FLUSH_TIMER_EXPIRY (R80). -/
def execIdleFlushTimerExpiry (s : State) : Host.Outcome State Fault Refusal :=
  .next (whenPowered (settlingWhen (fun t => t.cache.idleTimer.isSome) State.idleExpires) s)

end Sys2Proof.Machine
end

