-- ==== Sys2Proof/Machine/CaptureRows.lean ====
section
/-! DEFINITION. The write gate and WRITE DATA (06, 07). -/

namespace Sys2Proof.Machine

/-- A level of WRITE GATE (R39). -/
def State.gateLevel (s : State) (asserted : Bool) : State :=
  { s with inputs := { s.inputs with writeGate := asserted } }.reworkGate

/-- WRITE_GATE_RISE (R113). -/
def execWriteGateRise (s : State) : Host.Outcome State Fault Refusal :=
  .next (whenPowered (tending (fun t => t.gateLevel true)) s)

/-- WRITE_DATA_FLUX_CHANGE (R110). -/
def execWriteDataFluxChange (s : State) : Host.Outcome State Fault Refusal :=
  .next (whenPowered (settlingWhen (fun t => t.cap.st.measures) State.fluxChange) s)

/-- EMPTY_CELL (R110). -/
def execEmptyCell (s : State) : Host.Outcome State Fault Refusal :=
  .next (whenPowered (settlingWhen (fun t => t.cap.st.measures) State.emptyCell) s)

/-- HUNT_DEADLINE (R116). -/
def execHuntDeadline (s : State) : Host.Outcome State Fault Refusal :=
  .next (whenPowered (settlingWhen (fun t => t.cap.st == .hunt) State.captureDeadline) s)

/-- SLOT_END_DURING_CAPTURE (R123). -/
def execSlotEndDuringCapture (s : State) : Host.Outcome State Fault Refusal :=
  .next (whenPowered (settlingWhen State.takesSlotEnd State.captureSlotEnd) s)

/-- WRITE_GATE_FALL (R121). -/
def execWriteGateFall (s : State) : Host.Outcome State Fault Refusal :=
  .next (whenPowered (tending (fun t => t.gateLevel false)) s)

end Sys2Proof.Machine
end

