-- ==== Sys2Proof/Machine/Operands.lean ====
section
/-! DEFINITION. The operands of the requests: payload lengths and flag checks (R178), the encoded options, profile, extent
chain and block requests (R182 to R188), and the profile store's checks (R7 to R12, R19). -/

namespace Sys2Proof.Machine

/-! ## Encoded profile (R183) -/

/-- A zone record as its bytes give it, before any check (R183). -/
structure RawZone where
  firstCyl    : Nat
  lastCyl     : Nat
  headSet     : Nat
  encoding    : Nat
  rate        : Nat
  n           : Nat
  sizeCode    : Nat
  firstSector : Nat
  flags       : Byte
  gap3        : Nat
  gap4a       : Nat
  gap1        : Nat
  fill        : Byte
  order       : Option (List Nat)
  deriving DecidableEq, Repr

/-- A profile as its bytes give it, before any check (R183). -/
structure RawProfile where
  cylinders : Nat
  heads     : Nat
  stepRatio : Nat
  rotation  : Nat
  zones     : List RawZone
  deriving DecidableEq, Repr

/-- Walk the zone records in order; none when the bytes do not end with the last record and its order list (R178). -/
def parseZones : Nat → List Byte → Option (List RawZone)
  | 0, bs => if bs.length = 0 then some [] else none
  | k + 1, bs =>
    let num := fun i => (byteAt bs i).toNat
    let len := if (byteAt bs 8).getLsbD 0 then num 5 else 0
    if bs.length < 13 + len then none
    else
      (parseZones k (bs.drop (13 + len))).map (fun rest =>
        { firstCyl := num 0, lastCyl := num 1, headSet := num 2, encoding := num 3, rate := num 4, n := num 5,
          sizeCode := num 6, firstSector := num 7, flags := byteAt bs 8, gap3 := num 9, gap4a := num 10, gap1 := num 11,
          fill := byteAt bs 12,
          order := if (byteAt bs 8).getLsbD 0 then some ((bytesAt bs 13 len).map BitVec.toNat) else none } :: rest)

/-- The encoded profile; none for a wrong payload length (R178, R183). -/
def parseProfile (p : List Byte) : Option RawProfile :=
  if p.length < 5 then none
  else
    (parseZones (byteAt p 4).toNat (p.drop 5)).map (fun zs =>
      { cylinders := (byteAt p 0).toNat, heads := (byteAt p 1).toNat, stepRatio := (byteAt p 2).toNat,
        rotation := (byteAt p 3).toNat, zones := zs })

/-- A zone record with its codes resolved; none when a code lies outside its list (R183). -/
def RawZone.resolve (r : RawZone) : Option Zone :=
  match (match r.headSet with | 0 => some HeadSet.head0 | 1 => some .head1 | 2 => some .both | _ => none),
    (match r.encoding with | 0 => some Encoding.fm | 1 => some .mfm | _ => none),
    (match r.rate with | 0 => some Rate.k125 | 1 => some .k250 | 2 => some .k300 | 3 => some .k500 | _ => none) with
  | some hs, some e, some rt =>
    some { firstCyl := r.firstCyl, lastCyl := r.lastCyl, heads := hs, encoding := e, rate := rt, n := r.n,
           sizeCode := r.sizeCode, firstSector := r.firstSector, order := r.order, gap3 := r.gap3, gap4a := r.gap4a,
           gap1 := r.gap1, indexMark := r.flags.getLsbD 1, idZero := r.flags.getLsbD 2, fill := r.fill }
  | _, _, _ => none

/-! ## Profile checks (R7 to R12) -/

/-- The checks that can refuse a profile (R7). -/
inductive ProfileCheck where
  | range | rate | dataSize | order | overlap | uncovered | layoutOverflow
  deriving DecidableEq, Repr

/-- R179, detail codes of the profile checks. -/
def ProfileCheck.code : ProfileCheck → Byte
  | .range => 0x01#8
  | .rate => 0x02#8
  | .dataSize => 0x03#8
  | .order => 0x04#8
  | .overlap => 0x05#8
  | .uncovered => 0x06#8
  | .layoutOverflow => 0x07#8

/-- The range check of the profile record (R8, R2). -/
def recordInRange (p : RawProfile) : Bool :=
  decide (1 ≤ p.cylinders ∧ p.cylinders ≤ 84) && decide (1 ≤ p.heads ∧ p.heads ≤ 2)
    && (p.stepRatio == 1 || p.stepRatio == 2) && decide (p.rotation ≤ 1)
    && decide (1 ≤ p.zones.length ∧ p.zones.length ≤ 8) && !(p.stepRatio == 2 && decide (42 < p.cylinders))

/-- The range check of a zone record whose codes are in their lists (R8, R3). -/
def zoneInRange (p : RawProfile) (z : Zone) : Bool :=
  decide (z.firstCyl ≤ 83) && decide (z.lastCyl ≤ 83) && decide (1 ≤ z.n ∧ z.n ≤ 32) && decide (z.sizeCode ≤ 6)
    && decide (z.firstSector ≤ 255) && decide (8 ≤ z.gap3 ∧ z.gap3 ≤ 255) && decide (8 ≤ z.gap4a ∧ z.gap4a ≤ 255)
    && decide (8 ≤ z.gap1 ∧ z.gap1 ≤ 255)
    && decide (z.firstCyl ≤ z.lastCyl) && decide (z.lastCyl < p.cylinders)
    && !(p.heads == 1 && (z.heads == .head1 || z.heads == .both)) && decide (z.firstSector + z.n - 1 ≤ 255)

/-- The allowed combinations of rotation, encoding and rate (R9). -/
def rateAllowed : Rpm → Encoding → Rate → Bool
  | .rpm300, .fm, .k125 | .rpm300, .fm, .k250 | .rpm300, .mfm, .k250 | .rpm300, .mfm, .k500 => true
  | .rpm360, .mfm, .k300 | .rpm360, .mfm, .k500 => true
  | _, _, _ => false

/-- A list is a permutation of 0..n - 1 (R11). -/
def isOrderList (n : Nat) (l : List Nat) : Bool :=
  decide (l.length = n) && (List.range n).all (fun x => l.contains x)

/-- The checks of one zone record, in the order of R7 step 2; none when all pass. -/
def zoneFault (p : RawProfile) (rpm : Rpm) (r : RawZone) : Option ProfileCheck :=
  match r.resolve with
  | none => some .range
  | some z =>
    if !zoneInRange p z then some .range
    else if !rateAllowed rpm z.encoding z.rate then some .rate
    else if 12288 < z.n * z.sectorSize then some .dataSize
    else
      match z.order with
      | some l => if isOrderList z.n l then none else some .order
      | none => none

/-- The first zone, in zone order, that fails a check. -/
def firstZoneFault (p : RawProfile) (rpm : Rpm) : List RawZone → Nat → Option (ProfileCheck × Nat)
  | [], _ => none
  | r :: rs, k =>
    match zoneFault p rpm r with
    | some c => some (c, k)
    | none => firstZoneFault p rpm rs (k + 1)

/-- Every track of an image of so many cylinders and heads, in order of cylinder and then head (R12). -/
def allTracks (cylinders heads : Nat) : List Track :=
  (List.range cylinders).flatMap (fun c => (List.range heads).map (fun h => ⟨c, h⟩))

/-- The coverage check (R12). -/
def coverageFault (zs : List Zone) (tracks : List Track) : Option (ProfileCheck × Option Nat) :=
  match tracks.find? (fun tr => decide (2 ≤ zs.countP (fun z => z.has tr))) with
  | some tr => some (.overlap, some (zs.findIdx (fun z => z.has tr)))
  | none => if tracks.any (fun tr => zs.all (fun z => !z.has tr)) then some (.uncovered, none) else none

/-- The first zone, in zone order, whose fit overflows (R7 step 4, R19). -/
def firstOverflow (rpm : Rpm) : List Zone → Nat → Option Nat
  | [], _ => none
  | z :: zs, k => if (fitGap3 rpm z).isNone then some k else firstOverflow rpm zs (k + 1)

/-- The profile store's answer: the new geometry, or the check that failed and its zone, none for "none" (R7). -/
inductive ProfileResult where
  | accepted (g : Geometry)
  | refused (check : ProfileCheck) (zone : Option Nat)
  deriving DecidableEq, Repr

/-- The rotation that a profile record names (R183). -/
def rpmOf (rotation : Nat) : Rpm := if rotation = 0 then .rpm300 else .rpm360

/-- The checks of R7, in its order. -/
def checkProfile (p : RawProfile) : ProfileResult :=
  let rpm := rpmOf p.rotation
  let zs := p.zones.filterMap RawZone.resolve
  if !recordInRange p then .refused .range none
  else
    match firstZoneFault p rpm p.zones 0 with
    | some (c, k) => .refused c (some k)
    | none =>
      match coverageFault zs (allTracks p.cylinders p.heads) with
      | some (c, k) => .refused c k
      | none =>
        match firstOverflow rpm zs 0 with
        | some k => .refused .layoutOverflow (some k)
        | none =>
          .accepted
            { profile := { cylinders := p.cylinders, heads := p.heads, stepRatio := p.stepRatio, rpm := rpm, zones := zs }
              layouts := zs.filterMap (layoutOf rpm) }

/-! ## Encoded chain (R184) -/

/-- The extent records of a chain, 7 bytes each (R184). -/
def parseExtents : Nat → List Byte → List Extent
  | 0, _ => []
  | k + 1, bs =>
    { start := ofLe (bytesAt bs 0 4), count := ofLe (bytesAt bs 4 2), skip := (byteAt bs 6).getLsbD 0,
      notify := (byteAt bs 6).getLsbD 1 } :: parseExtents k (bs.drop 7)

/-- The flag bytes of a MOUNT payload: byte 0 and byte 6 of each extent record (R184). -/
def mountFlagBytes (p : List Byte) : List Byte :=
  byteAt p 0 :: (List.range (byteAt p 1).toNat).map (fun k => byteAt p (2 + 7 * k + 6))

/-! ## Length and flag checks (R178) -/

/-- The payload length of a request is right for its kind (R178). -/
def lengthOk (kind : Nat) (p : List Byte) : Bool :=
  match kind with
  | 1 | 5 | 6 => p.length == 0
  | 2 => p.length == 13
  | 3 => (parseProfile p).isSome
  | 4 => decide (2 ≤ p.length) && p.length == 2 + 7 * (byteAt p 1).toNat
  | 7 => p.length == 4
  | 8 => p.length == 516
  | 9 | 10 => p.length == 1
  | _ => false

/-- No flag byte, and not the set mask of OPTIONS, has a bit set that chapter 10 does not name (R177, R178). -/
def flagsOk (kind : Nat) (p : List Byte) : Bool :=
  match kind with
  | 2 => decide (ofLe (bytesAt p 0 2) < 512)
  | 3 =>
    match parseProfile p with
    | none => true
    | some r => r.zones.all (fun z => decide (z.flags.toNat < 8))
  | 4 => (mountFlagBytes p).all (fun b => decide (b.toNat < 4))
  | 9 | 10 => decide ((byteAt p 0).toNat < 2)
  | _ => true

/-! ## OPTIONS (R182) -/

/-- The set mask names option `k`. -/
def setBit (p : List Byte) (k : Nat) : Bool := (ofLe (bytesAt p 0 2)).testBit k

/-- A number clamped into a range (R182). -/
def clamp (lo hi v : Nat) : Nat := max lo (min hi v)

/-- The first enumerated field, in the order of the table, whose bit is set and whose value lies outside its list, as its
detail code (R182, R179). -/
def enumFault (p : List Byte) : Option Byte :=
  if setBit p 0 && decide (3 < (byteAt p 2).toNat) then some 0x23#8
  else if setBit p 1 && decide (1 < (byteAt p 3).toNat) then some 0x24#8
  else if setBit p 2 && decide (1 < (byteAt p 4).toNat) then some 0x25#8
  else if setBit p 7 && decide (1 < (byteAt p 11).toNat) then some 0x26#8
  else none

/-- The options after the set bits have taken their new values together, numbers clamped (R182). -/
def applyOptions (o : Options) (p : List Byte) : Options :=
  { selectLine := if setBit p 0 then (byteAt p 2).toNat else o.selectLine
    line34 := if setBit p 1 then (if byteAt p 3 = 0#8 then .ready else .diskChange) else o.line34
    motorSource := if setBit p 2 then (if byteAt p 4 = 0#8 then .motorLine else .select) else o.motorSource
    spinUp := if setBit p 3 then clamp 0 1000 (ofLe (bytesAt p 5 2)) else o.spinUp
    idleFlush := if setBit p 4 then clamp 100 60000 (ofLe (bytesAt p 7 2)) else o.idleFlush
    burstCap := if setBit p 5 then clamp 1 24 (byteAt p 9).toNat else o.burstCap
    fillLead := if setBit p 6 then clamp 0 100 (byteAt p 10).toNat else o.fillLead
    readAhead := if setBit p 7 then byteAt p 11 == 1#8 else o.readAhead
    noticeMask := if setBit p 8 then byteAt p 12 else o.noticeMask }

/-! ## MOUNT checks (R42 to R46) -/

/-- R179, detail codes of the mount checks. -/
inductive MountCheck where
  | extentCount | zeroCount | capacity | extentOverlap | length
  deriving DecidableEq, Repr

/-- R179. -/
def MountCheck.code : MountCheck → Byte
  | .extentCount => 0x10#8
  | .zeroCount => 0x11#8
  | .capacity => 0x12#8
  | .extentOverlap => 0x13#8
  | .length => 0x14#8

/-- Two extents' card blocks share a block (R45). -/
def Extent.overlaps (a b : Extent) : Bool :=
  !a.skip && !b.skip && decide (a.start < b.start + b.count) && decide (b.start < a.start + a.count)

/-- The checks of one extent against the card and the extents before it (R42 step 4). -/
def extentFault (capacity : Nat) (before : List Extent) (e : Extent) : Option MountCheck :=
  if e.count = 0 then some .zeroCount
  else if !e.skip && decide (capacity < e.start + e.count) then some .capacity
  else if before.any (fun a => a.overlaps e) then some .extentOverlap
  else none

/-- The first extent in chain order that fails, with its number (R42 step 4). -/
def firstExtentFault (capacity : Nat) : List Extent → List Extent → Option (MountCheck × Nat)
  | _, [] => none
  | before, e :: es =>
    match extentFault capacity before e with
    | some c => some (c, before.length)
    | none => firstExtentFault capacity (before ++ [e]) es

/-- The chain total T (R40). -/
def chainTotal (chain : List Extent) : Nat := (chain.map Extent.count).sum

/-- Checks 3 to 5 of R42: the failing check and its extent, none for "none". -/
def chainFault (g : Geometry) (capacity : Nat) (shortOk : Bool) (chain : List Extent) : Option (MountCheck × Option Nat) :=
  if chain.length = 0 ∨ 64 < chain.length then some (.extentCount, none)
  else
    match firstExtentFault capacity [] chain with
    | some (c, k) => some (c, some k)
    | none =>
      if chainTotal chain = g.imageBlocks ∨ (chainTotal chain < g.imageBlocks ∧ shortOk = true) then none
      else some (.length, none)

/-- A position byte: a zone or extent number, or FF hex for "none" (R179). -/
def positionByte : Option Nat → Byte
  | none => 0xFF#8
  | some k => byteOf k

end Sys2Proof.Machine
end

