-- ==== Sys2Proof/Machine/Mount.lean ====
section
/-! DEFINITION. The mount table (03): accepting a mount, the drain, the loss of a mount, and the end of a mount. -/

namespace Sys2Proof.Machine

/-- The mount is MOUNTED or DRAINING, in which it reacts to the card's loss and to a third write failure (R54, R55). -/
def State.mountStands (s : State) : Bool := s.mount.state == .mounted || s.mount.state == .draining

/-! ## Leaving MOUNTED or DRAINING -/

/-- The mount takes another state: a capture in progress is abandoned, the active line unpinned, the wait and the idle-flush
timer end, a queued fill is withdrawn, the latch is set and spin demand falls (R52, R54, R56, R31). -/
def State.leaveMounted (s : State) (st : MountState) : State :=
  let s := s.captureAbandon
  let s := { s with mount := { s.mount with state := st }, cache := s.cache.leaveMounted }
  (s.dropDeadFill.setLatch).reworkSpin

/-! ## Entering UNMOUNTED (R53, R54, R57) -/

/-- The lines become FREE, the defect list is emptied, the mount record is cleared and the latch is set. -/
def State.clearMount (s : State) : State :=
  { s with cache := s.cache.release, mount := Mount.cleared s.mount.serial }.setLatch

/-- The mount enters UNMOUNTED, and MOUNT_STATE reports it with the discarded-sector count (R58). -/
def State.endMount (s : State) (discarded : Nat) : State := s.clearMount.post (.mountState .unmounted discarded)

/-- The drain ends when no sector is non-clean (R53). -/
def State.drainCheck (s : State) : State :=
  if s.mount.state = .draining ∧ s.cache.nonClean = 0 then s.endMount 0 else s

/-! ## FLUSH_DONE (R81) -/

/-- An armed FLUSH_DONE is posted and the arming cleared. -/
def State.postFlushDone (s : State) (ok : Bool) : State :=
  if s.cache.armed then { s with cache := { s.cache with armed := false } }.post (.flushDone ok) else s

/-- FLUSH_DONE with OK when no sector of any line is non-clean (R81). -/
def State.flushDoneCheck (s : State) : State := if s.cache.nonClean = 0 then s.postFlushDone true else s

/-! ## Draining (R52) -/

/-- The mount enters DRAINING; a drain with nothing to do ends at once (R52, R53). -/
def State.enterDraining (s : State) : State :=
  let s := s.leaveMounted .draining
  { s with cache := s.cache.joinAll s.geom s.writeRuns }.drainCheck

/-! ## Loss (R54 to R56) -/

/-- A queued run of the mount is withdrawn; panel work is not the mount's (R56). -/
def State.withdrawMountRun (s : State) : State :=
  match s.card.queued with
  | some r => if r.kind.isPanel then s else s.withdraw
  | none => s

/-- MOUNT_STATE LOST with the non-clean sectors held (R56, R58). -/
def State.postLost (s : State) : State := s.post (.mountState .lost s.cache.nonClean)

/-- FLUSH_DONE FAILED at the entry to LOST (R81). -/
def State.flushLost (s : State) : State := s.postFlushDone false

/-- The mount enters LOST (R56). The order of an armed FLUSH_DONE and of MOUNT_STATE is free (log 15). -/
def State.enterLost (s : State) : State :=
  let s := s.leaveMounted .lost
  let s := { s with cache := { s.cache with flushQ := [] } }.withdrawMountRun
  inFreeOrder ((if s.cache.armed then [State.flushLost] else []) ++ [State.postLost]) s

/-- The card has left READY (R54). -/
def State.cardDeparts (s : State) : State :=
  if !s.mountStands then s
  else if s.cache.nonClean = 0 then (s.leaveMounted .unmounted).endMount 0
  else s.enterLost

/-! ## Accepting a mount (R42 to R47) -/

/-- The answer of the mount table to a chain (R42). -/
inductive MountAnswer where
  | wrongState | cardNotReady
  | badField (check : MountCheck) (extent : Option Nat)
  | accepted
  deriving DecidableEq, Repr

/-- The checks of R42, in order. -/
def State.checkMount (s : State) (shortOk : Bool) (chain : List Extent) : MountAnswer :=
  if s.mount.state ≠ .unmounted then .wrongState
  else if s.card.state ≠ .ready then .cardNotReady
  else
    match chainFault s.prof s.card.capacity shortOk chain with
    | some (c, k) => .badField c k
    | none => .accepted

/-- The mount record of an accepted mount (R47 step 1). -/
def State.mountRecord (s : State) (readOnly shortOk : Bool) (chain : List Extent) : Mount where
  state := .mounted
  geom := some s.prof
  chain := chain
  readOnly := readOnly
  shortOk := shortOk
  imageSize := s.prof.imageSize
  blocks := s.prof.imageBlocks
  total := chainTotal chain
  serial := s.mount.serial + 1

/-- An accepted mount: record, defect list, latch, arrival and spin demand (R47, R34). -/
def State.acceptMount (s : State) (readOnly shortOk : Bool) (chain : List Extent) : State :=
  let s := { s with mount := s.mountRecord readOnly shortOk chain, cache := s.cache.setDefects s.prof [] }
  (s.setLatch.arrival none).reworkSpin

end Sys2Proof.Machine
end

