-- ==== Sys2Proof/Machine/Transfers.lean ====
section
/-! DEFINITION. The card (08): bring-up, removal, block transfers, and what the end of a run hands to its owner. -/

namespace Sys2Proof.Machine

/-! ## Card state (R139, R140) -/

/-- CARD_STATE is posted with the state and the capacity that holds (R139). -/
def State.postCard (s : State) : State := s.post (.cardState s.card.state s.card.capacity)

/-- The card-detect switch closes (R140). -/
def State.cardInsert (s : State) : State :=
  let s := { s with inputs := { s.inputs with cardDetect := true } }
  if s.card.state = .absent then
    { s with card := { s.card with
        state := .initialising, capacity := 0, wp := false, failCount := 0, bringUp := some (ms 1000) } }.postCard
  else s

/-- Bring-up fails: the card is FAILED without ever having been READY (R139, R140). -/
def State.bringUpFails (s : State) : State :=
  { s with card := { s.card with state := .failed, bringUp := none } }.postCard

/-- The largest capacity a card may report (R140). -/
def maxCapacity : Nat := 4294967295

/-- Bring-up ends with an answer of the card; one that comes late is disregarded (R140). -/
def State.bringUpEnds (s : State) (ok : Bool) (capacity : Nat) (wp : Bool) : State :=
  if s.card.state ≠ .initialising then s
  else if ok = true ∧ 1 ≤ capacity ∧ capacity ≤ maxCapacity then
    { s with card := { s.card with state := .ready, capacity := capacity, wp := wp, bringUp := none } }.postCard
  else s.bringUpFails

/-- The bring-up limit expires (R140). -/
def State.bringUpExpires (s : State) : State :=
  if s.card.state = .initialising then s.bringUpFails else { s with card := { s.card with bringUp := none } }

/-! ## Replies to panel work (R159 to R161) -/

/-- The panel work is answered and gone. -/
def State.answerPanel (s : State) (st : ReplyStatus) (detail : Byte) (data : List Byte) : State :=
  { s with card := { s.card with panel := none }, link := s.link.answer st detail data }

/-- STALE: the block holds an image block of which some line holds a non-clean sector (R50, R159). -/
def State.stale (s : State) (blk : Nat) : Bool :=
  match s.mount.imageBlockOf blk with
  | none => false
  | some i => s.cache.lines.any (fun ln =>
      match ln.tag with
      | none => false
      | some tr => ln.sectors.zipIdx.any (fun (x, l) => x.state.nonClean && s.geom.covers tr l i))

/-- Panel work that waits, built or not, is answered (R161). -/
def State.answerWaitingPanel (s : State) (st : ReplyStatus) (detail : Byte) : State :=
  if s.card.panel.isSome then s.answerPanel st detail [] else s

/-! ## The end of a run (R146) -/

/-- A run leaves the active slot and is recorded as the last finished run (R146). -/
def State.finishRun (s : State) (r : Run) (st : RunStatus) : State :=
  { s with card := { s.card with
      active := none, blockLimit := none, lastRun := some { r with status := st, cls := s.runClass r } } }

/-- The consecutive-failure count (R142). -/
def State.setFailures (s : State) (n : Nat) : State := { s with card := { s.card with failCount := n } }

/-! ## Runs that end DONE (R83, R153, R154, R156, R159, R160) -/

/-- EXTENT_REACHED when the extent of a DONE write run carries NOTIFY (R59, R60). -/
def State.extentReached (s : State) (r : Run) : State :=
  match r.extent with
  | none => s
  | some e =>
    match s.mount.chain[e]? with
    | none => s
    | some x => if x.notify then s.post (.extentReached s.mount.serial (1#64 <<< e)) else s

/-- A write run has ended DONE (R83, R156). FLUSH_DONE, EXTENT_REACHED and the end of a drain follow in this order (log 14). -/
def State.flushRunDone (s : State) (r : Run) : State :=
  if s.runEnded r then s
  else
    let s :=
      match r.line, r.track with
      | some i, some tr => if s.cache.carries i r.track then { s with cache := s.cache.writeDone s.geom i tr r } else s
      | _, _ => s
    ((s.flushDoneCheck).extentReached r).drainCheck

/-- A merge read has ended DONE: its write run is built and takes the active slot at once, or the buffer is disregarded
(R153). -/
def State.mergeReadDone (s : State) (r : Run) : State :=
  let buf := s.card.mergeBuf
  let s := { s with card := { s.card with mergeBuf := [] } }
  match r.line, r.firstImage with
  | some i, some blk =>
    if !s.runEnded r && s.writesBack && s.cache.carries i r.track && s.writeWork i blk then
      let p := s.makeFlush (s.runClass r) i blk 1 (some buf)
      p.1.start p.2
    else s
  | _, _ => s

/-- The outcome of a DONE run goes to its owner (R146). -/
def State.handDone (s : State) (r : Run) : State :=
  match r.kind with
  | .fill => s
  | .flush => s.flushRunDone r
  | .mergeRead => s.mergeReadDone r
  | .panelRead => s.answerPanel .ok (flagByte [s.stale r.start]) r.data
  | .panelWrite => s.answerPanel .ok 0#8 []

/-- A run ends DONE (R142, R145, R146). -/
def State.runDone (s : State) (r : Run) : State := ((s.finishRun r .done).setFailures 0).handDone r

/-! ## Block boundaries (R145, R149) -/

/-- DEMAND work waits, in the queued slot or not yet built (R149). That the forced line's write-back does not count while it is not offered,
because its first block needs a merge and the merge buffer is taken (R147, R153), is the model's choice (log 39). -/
def State.demandWaits (s : State) : Bool :=
  (match s.card.queued with
    | some q => s.runClass q == .demand
    | none => false)
  || s.offerDemand.isSome

/-- Some block of a fill run from its `k`-th on is still fill work of its line. -/
def State.workRemains (s : State) (r : Run) (k : Nat) : Bool :=
  match r.line, r.firstImage with
  | some i, some f =>
    !s.runEnded r && s.cache.carries i r.track && (List.range (r.count - k)).any (fun b => s.fillWork i (f + k + b))
  | _, _ => false

/-- The cancellation conditions of R149 for a run that has received so many of its blocks. -/
def State.cancels (s : State) (r : Run) : Bool :=
  match r.kind with
  | .fill =>
    (s.runClass r == .ahead && s.demandWaits) || !s.isMounted || s.runEnded r
      || (decide (r.delivered < r.count) && !s.workRemains r r.delivered)
  | .flush | .mergeRead => s.runEnded r
  | .panelRead | .panelWrite => false

/-- A block boundary of the active run (R145, R149). -/
def State.boundary (s : State) (r : Run) : State :=
  if s.cancels r then s.finishRun r .cancelled
  else if r.count ≤ r.delivered then s.runDone r
  else { s with card := { s.card with active := some r, blockLimit := some r.kind.limit } }

/-- A fill block reaches the cache, and the cache reacts to it before the block boundary (R76, R146, R70, R71). -/
def State.deliverFill (s : State) (r : Run) (data : List Byte) : State :=
  match r.line, r.track, r.firstImage with
  | some i, some tr, some f =>
    if s.runEnded r || !s.cache.carries i r.track then s
    else reacting (fun t => { t with cache := t.cache.deliver t.geom i tr (f + r.delivered) data }) s
  | _, _, _ => s

/-- A block's bytes are handed on (R145): to the cache, to the merge buffer, or to the panel run, whose 512 bytes are the reply's data
(R186); a byte the card did not deliver is 00 hex (log 7). That the block of a merge read whose mount has ended enters the merge buffer too
is the model's choice (log 44). -/
def State.handBlock (s : State) (r : Run) (data : List Byte) : State × Run :=
  match r.kind with
  | .fill => (s.deliverFill r data, r)
  | .mergeRead => ({ s with card := { s.card with mergeBuf := data } }, r)
  | .panelRead => (s, { r with data := (List.range 512).map (byteAt data) })
  | .flush | .panelWrite => (s, r)

/-- A block's transfer ends within its limit: the block is counted and its bytes are handed on (R145). -/
def State.blockReceived (s : State) (data : List Byte) : State :=
  match s.card.active with
  | none => s
  | some r =>
    let p := s.handBlock r data
    { p.1 with card := { p.1.card with active := some { p.2 with received := r.received + 1 } } }

/-- The block boundary of the run that stands in the active slot (R145, R149). -/
def State.blockBoundary (s : State) : State :=
  match s.card.active with
  | none => s
  | some r => s.boundary r

/-- A block's transfer ends, and the block boundary follows (R145). -/
def State.blockDone (s : State) (data : List Byte) : State := (s.blockReceived data).blockBoundary

/-- The whole step in which a block's transfer ends. What the block has brought about in the cache is considered before the boundary,
once (R71); the reactions after the boundary are to what the boundary changes. -/
def State.transferEnds (s : State) (data : List Byte) : State :=
  if s.card.active.isSome then State.settle (s.blockReceived data) (s.blockDone data) else s

/-! ## Failures (R77, R84, R155 to R158) -/

/-- The final failure of a fill (R77). -/
def State.fillFailed (s : State) (r : Run) (e : RunError) : State :=
  match r.line, r.track with
  | some i, some tr =>
    if s.runEnded r || !s.cache.carries i r.track then s
    else
      let demand := (s.cache.line i).origin == .demand
      let s := { s with cache := s.cache.failFill s.geom i tr r }
      if demand then s.post (.fillError tr e) else s
  | _, _ => s

/-- The write-failure count of the run's line rises; the third failure takes the mount to LOST (R84 step 3, R55). -/
def State.countFailure (s : State) (r : Run) : State :=
  match r.line with
  | none => s
  | some i =>
    if !s.cache.carries i r.track then s
    else
      let s := { s with cache := s.cache.countFailure i }
      if (s.cache.line i).failures = 3 ∧ s.mountStands = true then s.enterLost else s

/-- The run's line and the lines the failure made DIRTY join the flush queue again, the forced line at the front (R84 step 4,
R70). -/
def State.requeue (s : State) (r : Run) (also : List Nat) : State :=
  if !s.mountStands then s
  else
    let c := s.cache.join (fun k => (r.line == some k || also.contains k) && s.cache.hasWriteWork s.geom s.writeRuns k)
    match c.forced with
    | some f => if r.line = some f ∧ c.flushQ.contains f = true then { s with cache := { c with flushQ := toFront c.flushQ f } }
                else { s with cache := c }
    | none => { s with cache := c }

/-- R84 step 2: CLEAN sectors of every line in the run's blocks become DIRTY. -/
def State.dirtyOverlap (s : State) (r : Run) : State :=
  { s with cache := { s.cache with lines := s.cache.lines.map (Line.dirtyOverlap s.geom r) } }

/-- TRACK_WRITTEN for tracks, one after another (R66, R84 step 6). -/
def State.postWritten (s : State) (tracks : List Track) : State := tracks.foldl (fun t tr => t.post (.trackWritten tr)) s

/-- The cache takes a failed write run (R84). The lines of step 6 report in the order of their numbers (log 14). -/
def State.flushFailed (s : State) (r : Run) : State :=
  if s.runEnded r then s
  else
    let s := s.unflush r
    let touched := (List.range 8).filter (fun i => s.cache.overlapped s.geom r i)
    let tracks := touched.filterMap (fun i => if (s.cache.line i).dirty then none else (s.cache.line i).tag)
    ((((s.dirtyOverlap r).countFailure r).requeue r touched).postFlushDone false).postWritten tracks

/-- The cache takes a failed merge read (R157). -/
def State.mergeFailed (s : State) (r : Run) : State :=
  let s := { s with card := { s.card with mergeBuf := [] } }
  if s.runEnded r then s else ((s.countFailure r).requeue r []).postFlushDone false

/-- A final failure goes to the run's owner (R146). -/
def State.handFailure (s : State) (r : Run) (e : RunError) : State :=
  match r.kind with
  | .fill => s.fillFailed r e
  | .flush => s.flushFailed r
  | .mergeRead => s.mergeFailed r
  | .panelRead | .panelWrite => s.answerPanel .cardFault e.code []

/-- The card engine's own steps when the card becomes FAILED: the queued run is withdrawn, waiting panel work is answered and
CARD_STATE is posted (R142, R158). -/
def State.engineFails (s : State) : State :=
  (s.withdraw.answerWaitingPanel .cardNotReady CardState.failed.code).postCard

/-- The fourth failed attempt in a row: the card becomes FAILED and the run's failure is final. The cache takes the failure and
the mount table the departure in either order (R142, R158, log 17). -/
def State.cardFails (s : State) (r : Run) (e : RunError) : State :=
  let s := (s.finishRun r (.failed e)).setFailures 4
  let s := { s with card := { s.card with state := .failed } }
  if r.kind.isPanel || s.runEnded r || !s.mountStands then ((s.handFailure r e).engineFails).cardDeparts
  else inFreeOrder [reacting (fun t => t.handFailure r e), fun t => t.engineFails.cardDeparts] s

/-- A fill whose first attempt failed is tried again from the failed block, from which received counts anew (log 35 has the part `base`
that holds its place in the run), or ends CANCELLED when nothing of it from there on is fill work any longer (R155). -/
def State.retryFill (s : State) (r : Run) : State :=
  if s.workRemains r r.delivered then
    { s with card := { s.card with
        active := some { r with attempt := 2, base := r.delivered, received := 0 }, blockLimit := some r.kind.limit } }
  else s.finishRun r .cancelled

/-- An attempt of the active run fails with TIMEOUT or CARD_ERROR (R142, R145, R155, R156, R157, R158). -/
def State.attemptFails (s : State) (e : RunError) : State :=
  match s.card.active with
  | none => { s with card := { s.card with blockLimit := none } }
  | some r =>
    if 3 ≤ s.card.failCount then s.cardFails r e
    else
      let s := s.setFailures (s.card.failCount + 1)
      if r.kind = .fill ∧ r.attempt = 1 then s.retryFill r else (s.finishRun r (.failed e)).handFailure r e

/-! ## Removal (R141) -/

/-- The card record of an empty socket (R141 step 4). -/
def Card.removed (c : Card) : Card :=
  { c with state := .absent, capacity := 0, wp := false, failCount := 0, bringUp := none }

/-- The active run ends with CARD_GONE and the queued one is withdrawn (R141 steps 1 and 2). -/
def State.dropRuns (s : State) : State :=
  (match s.card.active with
    | some r => s.finishRun r (.failed .cardGone)
    | none => s).withdraw

/-- The cache takes the failure of the run that stood in the active slot, the mount table the departure, in either order (R141,
R54, R77, log 17). -/
def State.cardLost (s : State) (active : Option Run) : State :=
  match active with
  | none => s.cardDeparts
  | some r =>
    if r.kind.isPanel then s.cardDeparts
    else if s.runEnded r || !s.mountStands then (s.handFailure r .cardGone).cardDeparts
    else inFreeOrder [reacting (fun t => t.handFailure r .cardGone), State.cardDeparts] s

/-- The card-detect switch opens (R141). -/
def State.cardRemove (s : State) : State :=
  let active := s.card.active
  let s := { s with inputs := { s.inputs with cardDetect := false } }
  if s.card.state = .absent then s
  else
    let s := s.dropRuns.answerWaitingPanel .cardFault RunError.cardGone.code
    ({ s with card := s.card.removed }.postCard).cardLost active

end Sys2Proof.Machine
end

