-- ==== Sys2Proof/Machine/CardRows.lean ====
section
/-! DEFINITION. The card and its transfers (08). -/

namespace Sys2Proof.Machine

/-- CARD_INSERTED (R140). -/
def execCardInserted (s : State) : Host.Outcome State Fault Refusal :=
  .next (whenPowered (settlingWhen (fun t => t.card.state == .absent) State.cardInsert) s)

/-- BRING_UP_DONE (R140). -/
def execBringUpDone (ok : Bool) (capacity : Nat) (writeProtect : Bool) (s : State) : Host.Outcome State Fault Refusal :=
  .next (whenPowered (settlingWhen (fun t => t.card.state == .initialising) (fun t => t.bringUpEnds ok capacity writeProtect)) s)

/-- BRING_UP_LIMIT_EXPIRY (R140). -/
def execBringUpLimitExpiry (s : State) : Host.Outcome State Fault Refusal :=
  .next (whenPowered (settlingWhen (fun t => t.card.state == .initialising) State.bringUpExpires) s)

/-- CARD_REMOVED (R141). -/
def execCardRemoved (s : State) : Host.Outcome State Fault Refusal :=
  .next (whenPowered (settlingWhen (fun t => t.card.state != .absent) State.cardRemove) s)

/-- BLOCK_TRANSFER_DONE (R145). -/
def execBlockTransferDone (data : List Byte) (s : State) : Host.Outcome State Fault Refusal :=
  .next (whenPowered (fun t => t.transferEnds data) s)

/-- BLOCK_LIMIT_EXPIRY (R145). -/
def execBlockLimitExpiry (s : State) : Host.Outcome State Fault Refusal :=
  .next (whenPowered (settlingWhen (fun t => t.card.active.isSome) (fun t => t.attemptFails .timeout)) s)

/-- BLOCK_CARD_ERROR (R145). -/
def execBlockCardError (s : State) : Host.Outcome State Fault Refusal :=
  .next (whenPowered (settlingWhen (fun t => t.card.active.isSome) (fun t => t.attemptFails .cardError)) s)

end Sys2Proof.Machine
end

