-- ==== Sys2Proof/Machine/DriveRows.lean ====
section
/-! DEFINITION. The drive lines: selection, step, side and motor (02). -/

namespace Sys2Proof.Machine

/-- A level of a DRIVE SELECT line (R24). -/
def State.selectChange (s : State) (line : Fin 4) (asserted : Bool) : State :=
  { s with inputs := setSelectLevel s.inputs line asserted }.reworkSelect

/-- A level of SIDE, followed while the drive is selected (R26). -/
def State.sideLevel (s : State) (asserted : Bool) : State :=
  let s := { s with inputs := { s.inputs with side := asserted } }
  if s.drive.selected then s.reworkSide else s

/-- A level of MOTOR ON (R34). -/
def State.motorLevel (s : State) (asserted : Bool) : State :=
  { s with inputs := { s.inputs with motorOn := asserted } }.reworkSpin

/-- DRIVE_SELECT_CHANGE (R24). -/
def execDriveSelectChange (line : Fin 4) (asserted : Bool) (s : State) : Host.Outcome State Fault Refusal :=
  .next (whenPowered (tending (fun t => t.selectChange line asserted)) s)

/-- STEP (R25). -/
def execStep (dirIn : Bool) (s : State) : Host.Outcome State Fault Refusal :=
  .next (whenPowered (tendingWhen State.takesStep (fun t => t.stepEdge dirIn)) s)

/-- SIDE_CHANGE (R26). -/
def execSideChange (asserted : Bool) (s : State) : Host.Outcome State Fault Refusal :=
  .next (whenPowered (tendingWhen (fun t => t.drive.selected) (fun t => t.sideLevel asserted)) s)

/-- MOTOR_ON_CHANGE (R34). -/
def execMotorOnChange (asserted : Bool) (s : State) : Host.Outcome State Fault Refusal :=
  .next (whenPowered (tending (fun t => t.motorLevel asserted)) s)

end Sys2Proof.Machine
end

