-- ==== Sys2Proof/Machine/Requests.lean ====
section
/-! DEFINITION. The ten requests (10), their dispatch (R168), and the receiver's characters (R164, R165). -/

namespace Sys2Proof.Machine

/-! ## Answers -/

/-- The reply of the request in execution is made (R169, R179). -/
def State.answer (s : State) (st : ReplyStatus) (detail : Byte) (data : List Byte) : State :=
  { s with link := s.link.answer st detail data }

/-- BAD_FIELD with its detail and position (R179). -/
def State.badField (s : State) (detail position : Byte) : State := s.answer .badField detail [position]

/-- WRONG_STATE with the mount state as detail (R179). -/
def State.wrongState (s : State) : State := s.answer .wrongState s.mount.state.code []

/-- CARD_NOT_READY with the card state as detail (R179). -/
def State.cardNotReady (s : State) : State := s.answer .cardNotReady s.card.state.code []

/-! ## The requests -/

/-- STATUS (R181). -/
def State.doStatus (s : State) : State := s.answer .ok 0#8 s.statusRecord

/-- The options take their new values, and read-ahead is considered when its option is turned on (R182, R71). -/
def State.putOptions (s : State) (o : Options) : State :=
  let u := { s with link := { s.link with options := o } }
  if o.readAhead && !s.link.options.readAhead then u.lookAhead else u

/-- The options take their new values, the request is answered, and the selection and spin demand follow (R182, R24, R34, log 18). That a
read-ahead option turned on is considered before the selection is the model's choice (log 40). A deselection with WRITE GATE asserted that a
newly named line brings is a fall of the gate and ends a capture (R24, R39), against the words of R124 and R131 on OPTIONS (log 41). -/
def State.setOptions (s : State) (o : Options) : State := (((s.putOptions o).answer .ok 0#8 o.bytes).reworkSelect).reworkSpin

/-- OPTIONS (R182). -/
def State.doOptions (s : State) (p : List Byte) : State :=
  match enumFault p with
  | some detail => s.badField detail 0xFF#8
  | none => s.setOptions (applyOptions s.link.options p)

/-- The rotation time under a new profile: it restarts at 0 when it is not below the new P (R7, R36). A wrap of the old profile
that is due at this instant is no wrap of a longer revolution. -/
def Rotation.underPeriod (r : Rotation) (period : Nat) : Rotation :=
  if period ≤ r.t then { r with t := 0, fine := 0 }
  else if 8 ≤ r.fine ∧ r.t + 1 < period then { r with t := r.t + 1, fine := 0 }
  else r

/-- An accepted profile (R7). -/
def State.setProfile (s : State) (g : Geometry) : State :=
  { s with prof := g, rot := s.rot.underPeriod g.profile.rpm.period }

/-- PROFILE (R183, R7). -/
def State.doProfile (s : State) (p : List Byte) : State :=
  if s.mount.state ≠ .unmounted then s.wrongState
  else
    match parseProfile p with
    | none => s.badField 0x20#8 0xFF#8
    | some raw =>
      match checkProfile raw with
      | .refused c z => s.badField c.code (positionByte z)
      | .accepted g => (s.setProfile g).answer .ok 0#8 []

/-- The chain of a MOUNT payload (R184). -/
def mountChain (p : List Byte) : List Extent := parseExtents (byteAt p 1).toNat (p.drop 2)

/-- MOUNT (R184, R42, R47). -/
def State.doMount (s : State) (p : List Byte) : State :=
  let readOnly := (byteAt p 0).getLsbD 0
  let shortOk := (byteAt p 0).getLsbD 1
  match s.checkMount shortOk (mountChain p) with
  | .wrongState => s.wrongState
  | .cardNotReady => s.cardNotReady
  | .badField c k => s.badField c.code (positionByte k)
  | .accepted => (s.acceptMount readOnly shortOk (mountChain p)).answer .ok 0#8 (le4 s.prof.imageSize)

/-- UNMOUNT taken in LOST (R57): the reply is made before MOUNT_STATE is posted. -/
def State.unmountLost (s : State) : State :=
  let n := s.cache.nonClean
  (s.clearMount.answer .ok 0#8 []).post (.mountState .unmounted n)

/-- UNMOUNT (R51, R185, log 18). -/
def State.doUnmount (s : State) : State :=
  match s.mount.state with
  | .unmounted => s.wrongState
  | .mounted => (s.answer .ok 0#8 []).enterDraining
  | .draining => s.answer .ok 0#8 []
  | .lost => s.unmountLost

/-- FLUSH (R185, R81): the reply is made before a FLUSH_DONE that the same request posts. -/
def State.doFlush (s : State) : State :=
  if !s.mountStands then s.wrongState
  else
    let s := s.answer .ok 0#8 []
    { s with cache := { s.cache.joinAll s.geom s.writeRuns with armed := true } }.flushDoneCheck

/-- The block number of a CARD_READ or CARD_WRITE (R186). -/
def blockNumber (p : List Byte) : Nat := ofLe (bytesAt p 0 4)

/-- The block becomes PANEL work (R159, R160). -/
def State.setPanel (s : State) (write : Bool) (blk : Nat) (data : List Byte) : State :=
  { s with card := { s.card with panel := some { write := write, block := blk, data := data } } }

/-- CARD_READ (R159, R186). -/
def State.doCardRead (s : State) (p : List Byte) : State :=
  if s.card.state ≠ .ready then s.cardNotReady
  else if s.card.capacity ≤ blockNumber p then s.badField 0x22#8 0xFF#8
  else s.setPanel false (blockNumber p) []

/-- CARD_WRITE (R160, R186). -/
def State.doCardWrite (s : State) (p : List Byte) : State :=
  if s.card.state ≠ .ready then s.cardNotReady
  else if s.card.capacity ≤ blockNumber p then s.badField 0x22#8 0xFF#8
  else if s.card.wp then s.answer .writeProtected 0#8 []
  else if (s.mount.imageBlockOf (blockNumber p)).isSome then s.answer .inImage 0#8 []
  else s.setPanel true (blockNumber p) (p.drop 4)

/-- One record of the defect list (R187). -/
def Defect.bytes (d : Defect) : List Byte := [byteOf d.track.cyl, byteOf d.track.head, byteOf d.sector, d.reason.code]

/-- DEFECTS (R187): the list as it stands, then the removal that CLEAR asks for. -/
def State.doDefects (s : State) (p : List Byte) : State :=
  let s := s.answer .ok (byteOf s.cache.defects.length) (s.cache.defects.flatMap Defect.bytes)
  if (byteAt p 0).getLsbD 0 then { s with cache := s.cache.setDefects s.geom [] } else s

/-- The request in execution is a RESET that was answered OK (R188). -/
def Link.markReset (l : Link) : Link := { l with executing := l.executing.map (fun q => { q with resets := true }) }

/-- RESET (R188). -/
def State.doReset (s : State) (p : List Byte) : State :=
  if s.cache.nonClean ≠ 0 ∧ (byteAt p 0).getLsbD 0 = false then s.wrongState
  else { s with link := s.link.markReset }.answer .ok 0#8 []

/-! ## Dispatch (R168, R178) -/

/-- What a request does once it is in execution: the length check, the flag check, then the request itself (R178). -/
def State.checked (s : State) (kind : Nat) (p : List Byte) (body : State → State) : State :=
  if !lengthOk kind p then s.badField 0x20#8 0xFF#8
  else if !flagsOk kind p then s.badField 0x21#8 0xFF#8
  else body s

/-- A request enters execution on arrival (R168, R175). -/
def State.takesRequest (s : State) : Bool := !s.link.breakLow && s.link.executing.isNone

/-- A request frame with a good check has arrived (R165, R168): BUSY while another is in execution, else it enters execution. The
receiver takes nothing while a link break lasts (R175). -/
def State.request (s : State) (kind : Nat) (tag : Byte) (p : List Byte) (body : State → State) : State :=
  if s.link.breakLow then s
  else
    let s := { s with link := s.link.rxIdle }
    if s.link.executing.isSome then { s with link := s.link.offer (0x80#8 + byteOf kind) tag .busy }
    else { s with link := s.link.enter (byteOf kind) tag }.checked kind p body

/-- STATUS: the arrival of a whole frame of the kind (R168), as in the nine after it. Where a request can change a line, a slot, the mount or
the drive, the reactions of its step follow (log 32). -/
def State.takeStatus (s : State) (tag : Byte) (p : List Byte) : State := s.request 1 tag p State.doStatus

/-- OPTIONS. -/
def State.takeOptions (s : State) (tag : Byte) (p : List Byte) : State :=
  tendingWhen State.takesRequest (fun t => t.request 2 tag p (fun u => u.doOptions p)) s

/-- PROFILE. -/
def State.takeProfile (s : State) (tag : Byte) (p : List Byte) : State := s.request 3 tag p (fun t => t.doProfile p)

/-- MOUNT. -/
def State.takeMount (s : State) (tag : Byte) (p : List Byte) : State :=
  tendingWhen State.takesRequest (fun t => t.request 4 tag p (fun u => u.doMount p)) s

/-- UNMOUNT. -/
def State.takeUnmount (s : State) (tag : Byte) (p : List Byte) : State :=
  settlingWhen State.takesRequest (fun t => t.request 5 tag p State.doUnmount) s

/-- FLUSH. -/
def State.takeFlush (s : State) (tag : Byte) (p : List Byte) : State :=
  settlingWhen State.takesRequest (fun t => t.request 6 tag p State.doFlush) s

/-- CARD_READ. -/
def State.takeCardRead (s : State) (tag : Byte) (p : List Byte) : State :=
  settlingWhen State.takesRequest (fun t => t.request 7 tag p (fun u => u.doCardRead p)) s

/-- CARD_WRITE. -/
def State.takeCardWrite (s : State) (tag : Byte) (p : List Byte) : State :=
  settlingWhen State.takesRequest (fun t => t.request 8 tag p (fun u => u.doCardWrite p)) s

/-- DEFECTS. -/
def State.takeDefects (s : State) (tag : Byte) (p : List Byte) : State := s.request 9 tag p (fun t => t.doDefects p)

/-- RESET. -/
def State.takeReset (s : State) (tag : Byte) (p : List Byte) : State := s.request 10 tag p (fun t => t.doReset p)

/-- A frame of an unknown kind is answered UNKNOWN_KIND (R168, R191). -/
def State.takeUnknown (s : State) (tag : Byte) : State :=
  if s.link.breakLow then s else { s with link := s.link.rxIdle.offer 0x80#8 tag .unknownKind }

/-- A frame whose check fails is answered FRAME_ERROR (R165, R191). -/
def State.takeBadFrame (s : State) : State :=
  if s.link.breakLow then s else { s with link := s.link.rxIdle.offer 0x80#8 0xFF#8 .frameError }

/-- A partial frame is discarded silently (R164, R166, R167). -/
def State.discardFrame (s : State) : State := { s with link := s.link.rxIdle }

/-- Dispatch by kind (R168). -/
def State.dispatch (s : State) (kind tag : Byte) (p : List Byte) : State :=
  match kind.toNat with
  | 1 => s.takeStatus tag p
  | 2 => s.takeOptions tag p
  | 3 => s.takeProfile tag p
  | 4 => s.takeMount tag p
  | 5 => s.takeUnmount tag p
  | 6 => s.takeFlush tag p
  | 7 => s.takeCardRead tag p
  | 8 => s.takeCardWrite tag p
  | 9 => s.takeDefects tag p
  | 10 => s.takeReset tag p
  | _ => s.takeUnknown tag

/-! ## Characters (R164, R165) -/

/-- A whole frame, start byte left out, has been received (R165). -/
def State.frameDone (s : State) (bytes : List Byte) : State :=
  if crcBytes crcPreset bytes = 0#16 then
    s.dispatch (byteAt bytes 2) (byteAt bytes 3) (bytesAt bytes 4 (frameLength bytes - 2))
  else s.takeBadFrame

/-- The receiver goes on (R164). -/
def State.rxGoOn (s : State) (st : RxState) (bytes : List Byte) : State := { s with link := s.link.rxGoOn st bytes }

/-- RX_LENGTH takes a character (R164). -/
def State.rxLength (s : State) (bytes : List Byte) : State :=
  if bytes.length < 2 then s.rxGoOn .length bytes
  else if 2 ≤ frameLength bytes ∧ frameLength bytes ≤ 530 then s.rxGoOn .body bytes
  else s.discardFrame

/-- A character without a framing fault is received (R164, R165); none is taken while a link break lasts (R175). -/
def State.character (s : State) (c : Byte) : State :=
  if s.link.breakLow then s
  else
    let bytes := s.link.rxBytes ++ [c]
    match s.link.rx with
    | .hunt => if c = 0xC5#8 then s.rxGoOn .length [] else s
    | .length => s.rxLength bytes
    | .body => s.rxGoOn (if frameLength bytes + 2 ≤ bytes.length then .check else .body) bytes
    | .check => if frameLength bytes + 4 ≤ bytes.length then s.discardFrame.frameDone bytes else s.rxGoOn .check bytes

end Sys2Proof.Machine
end

