-- ==== Sys2Proof/Machine/LinkRows.lean ====
section
/-! DEFINITION. The service link: frames, characters, the transmitter and the link break (09). -/

namespace Sys2Proof.Machine

/-- UNKNOWN_KIND (R168). -/
def execUnknownKind (_kind : Byte) (tag : Byte) (s : State) : Host.Outcome State Fault Refusal :=
  .next (whenPowered (fun t => t.takeUnknown tag) s)

/-- FRAME_ERROR (R165). -/
def execFrameError (s : State) : Host.Outcome State Fault Refusal :=
  .next (whenPowered State.takeBadFrame s)

/-- BAD_LENGTH_DISCARD (R164). -/
def execBadLengthDiscard (s : State) : Host.Outcome State Fault Refusal :=
  .next (whenPowered (fun t => t.discardFrame) s)

/-- FRAMING_FAULT (R167): in RX_HUNT the character is discarded, elsewhere the partial frame. -/
def execFramingFault (s : State) : Host.Outcome State Fault Refusal :=
  .next (whenPowered (fun t => t.discardFrame) s)

/-- INTER_CHARACTER_TIMEOUT (R166). -/
def execInterCharacterTimeout (s : State) : Host.Outcome State Fault Refusal :=
  .next (whenPowered (fun t => t.discardFrame) s)

/-- The transmitter has sent the last character of its frame (R169, R171). -/
def State.linkSent (s : State) : State := { s with link := s.link.frameSent }

/-- A link break is taken, unless one lasts already (R174, R175). -/
def State.linkBreaks (s : State) : State := if s.link.breakLow then s else { s with link := s.link.takeBreak }

/-- The receive line returns high (R175). -/
def State.linkReturns (s : State) : State := if s.link.breakLow then { s with link := s.link.endBreak } else s

/-- FRAME_SENT (R171). -/
def execFrameSent (s : State) : Host.Outcome State Fault Refusal :=
  .next (whenPowered State.linkSent s)

/-- LINK_BREAK (R174). -/
def execLinkBreak (s : State) : Host.Outcome State Fault Refusal :=
  .next (whenPowered State.linkBreaks s)

/-- LINK_BREAK_END (R175). -/
def execLinkBreakEnd (s : State) : Host.Outcome State Fault Refusal :=
  .next (whenPowered State.linkReturns s)

/-- CHARACTER_RECEIVED (R164): the last character of a frame dispatches it. -/
def execCharacterReceived (char : Byte) (s : State) : Host.Outcome State Fault Refusal :=
  .next (whenPowered (fun t => t.character char) s)

end Sys2Proof.Machine
end

