-- ==== Sys2Proof/Machine/PowerRows.lean ====
section
/-! DEFINITION. Power and reset: POWER_ON, POWER_FAIL, RESET_TAKES_EFFECT (R188, R192, R193). -/

namespace Sys2Proof.Machine

/-- POWER_ON (R192): every block takes its values after reset, with the input lines and the strap as they stand. -/
def execPowerOn (x : Inputs) (s : State) : Host.Outcome State Fault Refusal :=
  .next (s.restart x)

/-- POWER_FAIL (R193): everything held is lost and the outputs float. -/
def execPowerFail (s : State) : Host.Outcome State Fault Refusal :=
  .next s.dark

/-- Every block takes its values after reset, the strap sampled again (R188, R163); a link break goes on while the receive line stays low
(R175). -/
def State.restartInBreak (s : State) (fastStrap : Bool) : State :=
  let t := s.restart { s.inputs with fastStrap := fastStrap }
  { t with link := { t.link with breakLow := s.link.breakLow } }

/-- The reset of a RESET request takes effect; it comes only after its reply has gone or was dropped (R169, R188). -/
def State.resetNow (s : State) (fastStrap : Bool) : State := if s.link.resetDue then s.restartInBreak fastStrap else s

/-- RESET_TAKES_EFFECT (R188). -/
def execResetTakesEffect (fastStrap : Bool) (s : State) : Host.Outcome State Fault Refusal :=
  .next (whenPowered (fun t => t.resetNow fastStrap) s)

end Sys2Proof.Machine
end

