-- ==== Sys2Proof/Machine/RequestRows.lean ====
section
/-! DEFINITION. The ten requests of the panel processor (10). -/

namespace Sys2Proof.Machine

/-- STATUS (R181). -/
def execStatus (tag : Byte) (payload : List Byte) (s : State) : Host.Outcome State Fault Refusal :=
  .next (whenPowered (fun t => t.takeStatus tag payload) s)

/-- OPTIONS (R182). -/
def execOptions (tag : Byte) (payload : List Byte) (s : State) : Host.Outcome State Fault Refusal :=
  .next (whenPowered (fun t => t.takeOptions tag payload) s)

/-- PROFILE (R183). -/
def execProfile (tag : Byte) (payload : List Byte) (s : State) : Host.Outcome State Fault Refusal :=
  .next (whenPowered (fun t => t.takeProfile tag payload) s)

/-- MOUNT (R184). -/
def execMount (tag : Byte) (payload : List Byte) (s : State) : Host.Outcome State Fault Refusal :=
  .next (whenPowered (fun t => t.takeMount tag payload) s)

/-- UNMOUNT (R51). -/
def execUnmount (tag : Byte) (payload : List Byte) (s : State) : Host.Outcome State Fault Refusal :=
  .next (whenPowered (fun t => t.takeUnmount tag payload) s)

/-- FLUSH (R185). -/
def execFlush (tag : Byte) (payload : List Byte) (s : State) : Host.Outcome State Fault Refusal :=
  .next (whenPowered (fun t => t.takeFlush tag payload) s)

/-- CARD_READ (R159). -/
def execCardRead (tag : Byte) (payload : List Byte) (s : State) : Host.Outcome State Fault Refusal :=
  .next (whenPowered (fun t => t.takeCardRead tag payload) s)

/-- CARD_WRITE (R160). -/
def execCardWrite (tag : Byte) (payload : List Byte) (s : State) : Host.Outcome State Fault Refusal :=
  .next (whenPowered (fun t => t.takeCardWrite tag payload) s)

/-- DEFECTS (R187). -/
def execDefects (tag : Byte) (payload : List Byte) (s : State) : Host.Outcome State Fault Refusal :=
  .next (whenPowered (fun t => t.takeDefects tag payload) s)

/-- RESET (R188). -/
def execReset (tag : Byte) (payload : List Byte) (s : State) : Host.Outcome State Fault Refusal :=
  .next (whenPowered (fun t => t.takeReset tag payload) s)

end Sys2Proof.Machine
end

