-- ==== Sys2Proof/Machine/RotationRows.lean ====
section
/-! DEFINITION. The rotation timer and the presentation decisions (02, 05). -/

namespace Sys2Proof.Machine

/-- The rotation time wraps to 0, which ends a track write (R36, R131). -/
def State.wrap (s : State) : State := { s with rot := { s.rot with t := 0, fine := 0 } }.captureWrap

/-- t reaches 6,000, from which INDEX is inactive (R37). -/
def State.pulseEnd (s : State) : State :=
  if s.rot.t < 6000 then { s with rot := { s.rot with t := 6000, fine := 0 } } else s

/-- SPIN_UP_TIMER_EXPIRY (R35). -/
def execSpinUpTimerExpiry (s : State) : Host.Outcome State Fault Refusal :=
  .next (whenPowered State.spinUpExpiry s)

/-- ROTATION_WRAP (R36). -/
def execRotationWrap (s : State) : Host.Outcome State Fault Refusal :=
  .next (whenPowered (settlingWhen (fun t => t.cap.st == .track) State.wrap) s)

/-- INDEX_PULSE_END (R37). -/
def execIndexPulseEnd (s : State) : Host.Outcome State Fault Refusal :=
  .next (whenPowered State.pulseEnd s)

/-- INDEX_FIELD_DECISION (R100). -/
def execIndexFieldDecision (s : State) : Host.Outcome State Fault Refusal :=
  .next (whenPowered State.decideIndex s)

/-- SLOT_DECISION (R96). -/
def execSlotDecision (s : State) : Host.Outcome State Fault Refusal :=
  .next (whenPowered State.decideSlot s)

end Sys2Proof.Machine
end

