-- ==== Sys2Proof/Machine/Dispatch.lean ====
section
/-! DEFINITION. The meaning of every command: one arm for each row of the table. -/

namespace Sys2Proof.Machine

/-- The effect of a command on everything but the queue. -/
def exec (i : Instr) (s : State) : Host.Outcome State Fault Refusal :=
  match i with
  | .powerOn x => Sys2Proof.Machine.execPowerOn x s
  | .powerFail => Sys2Proof.Machine.execPowerFail s
  | .status tag p => Sys2Proof.Machine.execStatus tag p s
  | .options tag p => Sys2Proof.Machine.execOptions tag p s
  | .profile tag p => Sys2Proof.Machine.execProfile tag p s
  | .mount tag p => Sys2Proof.Machine.execMount tag p s
  | .unmount tag p => Sys2Proof.Machine.execUnmount tag p s
  | .flush tag p => Sys2Proof.Machine.execFlush tag p s
  | .cardRead tag p => Sys2Proof.Machine.execCardRead tag p s
  | .cardWrite tag p => Sys2Proof.Machine.execCardWrite tag p s
  | .defects tag p => Sys2Proof.Machine.execDefects tag p s
  | .reset tag p => Sys2Proof.Machine.execReset tag p s
  | .unknownKind kind tag => Sys2Proof.Machine.execUnknownKind kind tag s
  | .frameError => Sys2Proof.Machine.execFrameError s
  | .badLengthDiscard => Sys2Proof.Machine.execBadLengthDiscard s
  | .framingFault => Sys2Proof.Machine.execFramingFault s
  | .interCharacterTimeout => Sys2Proof.Machine.execInterCharacterTimeout s
  | .frameSent => Sys2Proof.Machine.execFrameSent s
  | .resetTakesEffect fastStrap => Sys2Proof.Machine.execResetTakesEffect fastStrap s
  | .linkBreak => Sys2Proof.Machine.execLinkBreak s
  | .linkBreakEnd => Sys2Proof.Machine.execLinkBreakEnd s
  | .driveSelectChange line asserted => Sys2Proof.Machine.execDriveSelectChange line asserted s
  | .step dirIn => Sys2Proof.Machine.execStep dirIn s
  | .sideChange asserted => Sys2Proof.Machine.execSideChange asserted s
  | .motorOnChange asserted => Sys2Proof.Machine.execMotorOnChange asserted s
  | .spinUpTimerExpiry => Sys2Proof.Machine.execSpinUpTimerExpiry s
  | .rotationWrap => Sys2Proof.Machine.execRotationWrap s
  | .indexPulseEnd => Sys2Proof.Machine.execIndexPulseEnd s
  | .indexFieldDecision => Sys2Proof.Machine.execIndexFieldDecision s
  | .slotDecision => Sys2Proof.Machine.execSlotDecision s
  | .writeGateRise => Sys2Proof.Machine.execWriteGateRise s
  | .writeDataFluxChange => Sys2Proof.Machine.execWriteDataFluxChange s
  | .huntDeadline => Sys2Proof.Machine.execHuntDeadline s
  | .slotEndDuringCapture => Sys2Proof.Machine.execSlotEndDuringCapture s
  | .writeGateFall => Sys2Proof.Machine.execWriteGateFall s
  | .idleFlushTimerExpiry => Sys2Proof.Machine.execIdleFlushTimerExpiry s
  | .cardInserted => Sys2Proof.Machine.execCardInserted s
  | .bringUpDone ok capacity wp => Sys2Proof.Machine.execBringUpDone ok capacity wp s
  | .bringUpLimitExpiry => Sys2Proof.Machine.execBringUpLimitExpiry s
  | .cardRemoved => Sys2Proof.Machine.execCardRemoved s
  | .blockTransferDone data => Sys2Proof.Machine.execBlockTransferDone data s
  | .blockLimitExpiry => Sys2Proof.Machine.execBlockLimitExpiry s
  | .blockCardError => Sys2Proof.Machine.execBlockCardError s
  | .emptyCell => Sys2Proof.Machine.execEmptyCell s
  | .characterReceived char => Sys2Proof.Machine.execCharacterReceived char s

end Sys2Proof.Machine
end

