-- ==== Sys2Proof/Safety.lean ====
section
/-! DEFINITION. What holds of every state that a run from reset can reach, block by block, and the terms in which claims speak of
the service link. -/

namespace Sys2Proof.Machine

/-- The head position lies in 0..83 (R25). -/
structure Drive.Sound (d : Drive) : Prop where
  head : d.head ≤ 83

/-- The rotation time lies below the revolution period of the profile in force (R36); `fine` at 8 marks a wrap that is due. -/
structure Rotation.Sound (r : Rotation) (period : Nat) : Prop where
  inRevolution : r.t < period
  fine : r.fine ≤ 8

/-- Every option lies in its range (R182). -/
structure Options.Sound (o : Options) : Prop where
  selectLine : o.selectLine ≤ 3
  spinUp : o.spinUp ≤ 1000
  idleFlushLow : 100 ≤ o.idleFlush
  idleFlushHigh : o.idleFlush ≤ 60000
  burstLow : 1 ≤ o.burstCap
  burstHigh : o.burstCap ≤ 24
  fillLead : o.fillLead ≤ 100

/-- Replies of the request in execution that wait or are being sent. -/
def Link.requestReplies (l : Link) : Nat :=
  l.replies.countP (fun r => r.ofRequest) + (match l.tx with | some f => f.ofRequest.toNat | none => 0)

/-- How many such replies the request in execution has made: one at most. -/
def Link.repliesMade (l : Link) : Nat :=
  match l.executing with
  | some q => q.made.toNat
  | none => 0

/-- The queues stay within their places: 16 notices (R172), three replies of the link unit's own and one of the request in
execution (R170); the options stay in range. -/
structure Link.Sound (l : Link) : Prop where
  notices : l.notices.length ≤ maxNotices
  own : l.replies.countP (fun r => !r.ofRequest) ≤ maxOwnReplies
  request : l.requestReplies ≤ l.repliesMade
  options : l.options.Sound

/-- `new` is the defect list `old` once an entry has been added: at the end, the one that named the same sector gone; with 32 entries and
none of that sector the oldest is dropped, which `dropped` says (R85, R86). -/
def DefectAdded (old new : List Defect) (d : Defect) (dropped : Bool) : Prop :=
  let same := fun e : Defect => e.track = d.track ∧ e.sector = d.sector
  ((∃ e ∈ old, same e) → new = old.filter (fun e => decide (¬ same e)) ++ [d] ∧ dropped = false) ∧
  ((∀ e ∈ old, ¬ same e) → old.length < 32 → new = old ++ [d] ∧ dropped = false) ∧
  ((∀ e ∈ old, ¬ same e) → 32 ≤ old.length → new = old.drop 1 ++ [d] ∧ dropped = true)

/-- The defective part of every sector of a line that holds a track is true exactly while the defect list names the sector (R63). -/
def Cache.FollowsDefects (c : Cache) (g : Geometry) : Prop :=
  ∀ k l tr x, (c.line k).tag = some tr → c.sector k l = some x →
    (x.defective = true ↔ ∃ d ∈ c.defects, d.track = tr ∧ d.sector = (g.zone (c.line k).zone).firstSector + l)

/-- Lines that are pinned. -/
def Cache.pins (c : Cache) : Nat := c.lines.countP (fun l => l.pinned)

/-- The track cache: eight lines in one LRU order (R67), at most one of them pinned (R68), no two with the same tag (R69), no line
twice in the flush queue (R78), none pinned and none carrying the track while a track waits (R70), at most 32 defects (R85), and
the track RAM in its canonical form. -/
structure Cache.Sound (c : Cache) : Prop where
  lines : c.lines.length = 8
  lru : c.lru.Perm (List.range 8)
  pins : c.pins ≤ 1
  tags : (c.lines.filterMap Line.tag).Nodup
  queue : c.flushQ.Nodup
  queued : ∀ i ∈ c.flushQ, i < 8
  waits : ∀ tr, c.waiting = some tr → c.pins = 0 ∧ c.carrier tr = none
  defects : c.defects.length ≤ maxDefects
  ram : c.ram.wf

/-- The capture unit: it names one of the eight lines, at most 32 found IDs (R129), the scratch in its canonical form. -/
structure Capture.Sound (c : Capture) : Prop where
  line : ∀ i, c.line = some i → i < 8
  found : c.found.length ≤ maxFound
  scratch : c.scratch.wf

/-- The consecutive-failure count lies in 0..4 (R142). -/
structure Card.Sound (c : Card) : Prop where
  failures : c.failCount ≤ 4

/-- What holds of every block. -/
structure State.Sound (s : State) : Prop where
  drive : s.drive.Sound
  rot : s.rot.Sound s.prof.profile.rpm.period
  link : s.link.Sound
  cache : s.cache.Sound
  cap : s.cap.Sound
  card : s.card.Sound

/-! ## The lines of the drive connector -/

/-- The drive interface follows its lines, the rotation follows spin demand and READ DATA rests while it does not flow: the selected
flag (R24), the condition "write gate active" (R39), the side while selected (R26), STOPPED exactly without spin demand (R34, R35),
the spin-up timer in SPINNING_UP alone (R35), no recording of cells without an active gate and a MOUNTED image (R39, R112, R125), the
decision record cleared and the encoder at rest while the stream does not flow (R90). -/
structure State.Follows (s : State) : Prop where
  selected : s.drive.selected = s.addressed
  gate : s.drive.gateActive = (s.drive.selected && s.inputs.writeGate)
  side : s.drive.selected = true → s.drive.side = s.inputs.side
  spin : (s.rot.state != .stopped) = s.spinDemand
  timer : s.rot.spinTimer ≠ none → s.rot.state = .spinningUp
  records : s.cap.st.measures = true → s.drive.gateActive = true ∧ s.isMounted = true
  stream : s.flowing = false → s.pres = Present.reset

/-! ## What the cache and the arbiter do after a command -/

/-- No reaction of the cache itself can follow: the mount is not MOUNTED, or no track waits and read-ahead is off (R70, R71). -/
def State.Quiet (s : State) : Prop := s.isMounted = false ∨ (s.cache.waiting = none ∧ s.link.options.readAhead = false)

/-- `t` differs from `s` in the cache, the two slots with the per-block limit, and the stream at most. -/
structure Settled (s t : State) : Prop where
  outside : t = { s with cache := t.cache, card := t.card, pres := t.pres }
  card : t.card = { s.card with active := t.card.active, queued := t.card.queued, blockLimit := t.card.blockLimit }

/-- A sector record with DIRTY and FLUSH told apart no longer. -/
def Sector.calm (x : Sector) : Sector :=
  match x.state with
  | .dirty | .flush => { x with state := .dirty, progress := [], stamp := 0 }
  | .pending | .clean | .capture | .missing => x

/-- A line with its DIRTY and FLUSH sectors told apart no longer. -/
def Line.calm (l : Line) : Line := { l with sectors := l.sectors.map Sector.calm }

/-- `d` differs from `c` in the flush queue, the stamps, and in which non-clean sectors are DIRTY and which FLUSH at most. -/
structure Cache.Tended (c d : Cache) : Prop where
  rest : d = { c with lines := d.lines, flushQ := d.flushQ, flushSerial := d.flushSerial }
  lines : d.lines.map Line.calm = c.lines.map Line.calm

/-- `t` is what the cache, the arbiter and the stream make of `u` by themselves at the end of a command, in the same step (log 32): they
touch the cache, the slots and the stream alone; they leave the defect list, the idle-flush timer and the arming; a run in the active slot
stays there; where the cache has nothing to react to, only the flush queue and the DIRTY and FLUSH states of sectors change, and no byte
of the track RAM; a stream that does not flow rests, its decision record cleared (R90) and its encoder idle (log 29) (R70, R71, R78, R79,
R90, R144, R148). They are `State.settle old u`: the cache reacts to what has changed since `old`, the state before the command, or `u`
itself where it has reacted to each part of the command's effect already (log 20). -/
structure Reacted (old u t : State) : Prop where
  reactions : t = State.settle old u
  settled : Settled u t
  defects : t.cache.defects = u.cache.defects
  idleTimer : t.cache.idleTimer = u.cache.idleTimer
  armed : t.cache.armed = u.cache.armed
  active : ∀ r, u.card.active = some r → ∃ cls, t.card.active = some { r with cls := cls }
  quiet : u.Quiet → u.cache.Tended t.cache
  stream : t.pres = if u.flowing then u.pres else Present.reset

/-! ## The capture unit at the end of a mount -/

/-- The capture unit's state once the mount has left MOUNTED: a capture in progress is abandoned, and the unit enters DISCARD while the gate
is active and IDLE if not (R125, R137). -/
def State.abandoned (s : State) : CaptureState := if s.cap.st ≠ .idle ∧ s.drive.gateActive = true then .discard else .idle

/-! ## Selection -/

/-- `u` is `s` once the selected flag has followed the line that the select line option names: `s` itself when the flag stands right, and
otherwise what the side, spin demand and the gate make of the selection or deselection, in any order (R24, log 16). -/
def State.Selects (s u : State) : Prop :=
  let v := { s with drive := { s.drive with selected := selectLevel s.inputs s.link.options.selectLine } }
  (v.drive.selected = s.drive.selected → u = s) ∧
  (v.drive.selected ≠ s.drive.selected →
    ∃ (order : List (State → State)) (n : Nat), order.Perm v.selectionEffects ∧ u = order.foldl (fun t effect => effect t) { v with free := n })

/-! ## The service link as the panel processor sees it -/

/-- A reply has been made: it waits in the reply queue, or its frame is in sending (R170, R171). -/
def Link.hasReply (l : Link) (kind tag : Byte) (payload : List Byte) : Prop :=
  { kind := kind, tag := tag, payload := payload, ofRequest := true } ∈ l.replies ∨
    ∃ f, l.tx = some f ∧ f.bytes = frameBytes kind tag payload ∧ f.ofRequest = true

/-- The 2240 takes a request at once: the supply is present, no request is in execution and no link break lasts (R168, R175). -/
def State.takesRequests (s : State) : Prop :=
  s.powered = true ∧ s.link.executing = none ∧ s.link.breakLow = false

/-- A reply that the link unit makes itself waits or is in sending (R170, R191). -/
def Link.hasOwnReply (l : Link) (kind tag : Byte) (st : ReplyStatus) : Prop :=
  { kind := kind, tag := tag, payload := [st.code, 0#8], ofRequest := false } ∈ l.replies ∨
    ∃ f, l.tx = some f ∧ f.bytes = frameBytes kind tag [st.code, 0#8] ∧ f.ofRequest = false

/-- The link unit once a request, taken into execution, has been answered: the receiver in RX_HUNT with nothing received, `q` in execution,
its reply at the back of the queue, from which an idle transmitter takes the oldest at once (R164, R168 to R171); notices, options, break
and rate are as they were. -/
def Link.answered (l : Link) (q : Request) (payload : List Byte) : Link :=
  Link.startTx { l with
    rx := .hunt, rxBytes := [], rxTimer := none, executing := some q
    replies := l.replies ++ [{ kind := 0x80#8 + q.kind, tag := q.tag, payload := payload, ofRequest := true }] }

/-- The link unit once it has made a reply of its own: the receiver in RX_HUNT with nothing received, the reply at the back of the queue, from
which an idle transmitter takes the oldest at once (R170, R171, R191); nothing else of it changes. -/
def Link.ownReplied (l : Link) (kind tag : Byte) (st : ReplyStatus) : Link :=
  Link.startTx { l with
    rx := .hunt, rxBytes := [], rxTimer := none
    replies := l.replies ++ [{ kind := kind, tag := tag, payload := [st.code, 0#8], ofRequest := false }] }

/-- The command of request kind `k`, 1..10 (R180): the arrival of a whole frame of that kind with a good check. -/
def requestRow (k : Nat) (tag : Byte) (p : List Byte) : Option Instr :=
  match k with
  | 1 => some (.status tag p)
  | 2 => some (.options tag p)
  | 3 => some (.profile tag p)
  | 4 => some (.mount tag p)
  | 5 => some (.unmount tag p)
  | 6 => some (.flush tag p)
  | 7 => some (.cardRead tag p)
  | 8 => some (.cardWrite tag p)
  | 9 => some (.defects tag p)
  | 10 => some (.reset tag p)
  | _ => none

/-- `u` is `s` after a request of a kind and tag has been taken into execution and answered at once, and nothing else. -/
structure State.Answers (s u : State) (kind tag : Byte) (payload : List Byte) : Prop where
  state : u = { s with link := s.link.answered { kind := kind, tag := tag, made := true, drop := false, resets := false } payload }
  executing : u.link.executing = some { kind := kind, tag := tag, made := true, drop := false, resets := false }
  reply : u.link.hasReply (0x80#8 + kind) tag payload

/-- A command whose own effect is `u` ends in `t`: `u` itself, or what the reactions of the same step to the changes since `old` make of
it. -/
def Ends (old u t : State) : Prop := t = u ∨ Reacted old u t

/-- A notice has been posted and waits: it is in the notice queue, or its frame is in sending. -/
def Link.hasNotice (l : Link) (b : NoticeBody) : Prop :=
  (∃ n ∈ l.notices, n.body = b) ∨
    ∃ f d, l.tx = some f ∧ f.bytes = Notice.frame { body := b, dropped := d }

/-! ## Options as a request asks for them -/

/-- The nine options that a set mask of 13 payload bytes asks for, numbers limited to their ranges (R182). -/
def Options.asked (o : Options) (p : List Byte) : Options :=
  let bit := fun k => (ofLe (bytesAt p 0 2)).testBit k
  { selectLine := if bit 0 then (byteAt p 2).toNat else o.selectLine
    line34 := if bit 1 then (if byteAt p 3 = 0x00#8 then .ready else .diskChange) else o.line34
    motorSource := if bit 2 then (if byteAt p 4 = 0x00#8 then .motorLine else .select) else o.motorSource
    spinUp := if bit 3 then min 1000 ((byteAt p 5).toNat + 256 * (byteAt p 6).toNat) else o.spinUp
    idleFlush := if bit 4 then max 100 (min 60000 ((byteAt p 7).toNat + 256 * (byteAt p 8).toNat)) else o.idleFlush
    burstCap := if bit 5 then max 1 (min 24 (byteAt p 9).toNat) else o.burstCap
    fillLead := if bit 6 then min 100 (byteAt p 10).toNat else o.fillLead
    readAhead := if bit 7 then decide (byteAt p 11 = 0x01#8) else o.readAhead
    noticeMask := if bit 8 then byteAt p 12 else o.noticeMask }

end Sys2Proof.Machine
end

