-- ==== Sys2Proof/Certificates/Slice0/Obligations.lean ====
section
/-! DEFINITION. The statements for the provers. A command that can change a line, a slot, the mount or the drive is followed, in the same
step, by what the cache and the arbiter do by themselves (log 32): a statement gives the command's own effect `u` in full and says of the
state `t` that the step ends in that it is what the reactions make of `u` (`Reacted old u t`, whose parts say what they can touch). The
cache compares `u` with `old`, the state before the command; where a command has parts to which the cache reacts one by one (an arrival,
the end of a capture, a rise of the gate), `u` holds these reactions already (`State.react`, which `ArrivalsAndTheWaitingTrack` and
`AllocationSetsUpOneLine` describe) and `old` is `u` itself (log 20). -/

open Sys2Proof Sys2Proof.Machine

/-! ## The machine -/

/-- A step runs the command at the front of the queue, on the state with the queue's rest: each row is whole and indivisible (95); the queue
itself is the model's choice (log 1). -/
def Obligations.StepRunsTheFrontCommand : Prop :=
  ∀ (c : Instr) (s : State) (rest : List Instr), s.pending = c :: rest → step s = exec c { s with pending := rest }

/-- With nothing waiting the crystal ticks, which is the model's choice (logs 1 and 2): without supply nothing happens; with commands due
one of them goes into the queue and nothing else changes; with none due the rotation time, every running timer, the open flux interval
(R109) and the sending time left of the frame in sending go on by one fine tick, the link's timers counting in twelfths (log 21), and the
end of the index pulse goes into the queue when t reaches 6,000 (R36, R37). Due are: the wrap after the last tick of the revolution, which
`fine` at 8 marks (R36); every timer that has run out (R35, R80, R140, R145, R166); the decision of a slot or of the index field at the start
of its first cell, while none stands for it, READ DATA flows and the track has an active line (R95); the hunt deadline when the cell at offset
72 (MFM) or 40 (FM) of the capture's slot begins (R116); the end of that slot, once, when the next slot's first cell begins, or for the last
slot at the index, which stands at both sides of the wrap so that neither order of the two loses it (R123, log 2); the next half-cell mark
that an open interval has reached (R110); the last character of the frame in sending gone (R171); and the reset that a RESET has made due,
with the strap's position free (R188, log 10). -/
def Obligations.EmptyQueueTicksTheCrystal : Prop :=
  ∀ s : State, s.pending = [] →
    step s = .next s.tick ∧
    (let first := fun (y : Layout) (p : Nat) => s.rot.fine = 0 ∧ y.cellAt s.rot.t = p ∧ s.rot.t = p * y.byteTime
     let decides := fun u => s.flowing = true ∧ first s.layoutHere s.cell ∧ s.currentTrack ≠ none ∧ s.cache.active ≠ none ∧
       s.pres.decision.unit ≠ u
     let begins := s.capLayout.slotStart
     ∀ c, c ∈ s.due ↔
      (c = .rotationWrap ∧ s.rot.fine = 8) ∨
      (c = .spinUpTimerExpiry ∧ s.rot.spinTimer = some 0) ∨ (c = .idleFlushTimerExpiry ∧ s.cache.idleTimer = some 0) ∨
      (c = .bringUpLimitExpiry ∧ s.card.bringUp = some 0) ∨ (c = .blockLimitExpiry ∧ s.card.blockLimit = some 0) ∨
      (c = .interCharacterTimeout ∧ s.link.rxTimer = some 0) ∨
      (c = .indexFieldDecision ∧ s.regionHere = .indexField 0 ∧ decides .indexField) ∨
      (c = .slotDecision ∧ ∃ j, s.regionHere = .slot j 0 ∧ decides (.slot j)) ∨
      (c = .huntDeadline ∧ s.cap.st = .hunt ∧
        first s.capLayout (begins s.cap.slot + match s.capZone.encoding with | .mfm => 72 | .fm => 40)) ∨
      (c = .slotEndDuringCapture ∧ (s.cap.st = .sectorTail ∨ s.cap.st = .sectorData) ∧ s.cap.pastSlot = false ∧
        (s.cap.slot + 1 < s.capZone.n ∧ first s.capLayout (begins (s.cap.slot + 1)) ∨
         s.capZone.n ≤ s.cap.slot + 1 ∧ (s.rot.fine = 8 ∨ s.rot.t = 0 ∧ s.rot.fine = 0))) ∨
      (c = .emptyCell ∧ s.cap.st.measures = true ∧
        ∃ x, s.cap.fluxOpen = some x ∧ (2 * s.cap.empties + 3) * (12000 / s.capZone.rate.kbit) / 2 ≤ x) ∨
      (c = .frameSent ∧ ∃ f, s.link.tx = some f ∧ f.left = 0) ∨
      (c = .resetTakesEffect (Config.strapAt s.free) ∧ s.link.resetDue = true)) ∧
    (s.powered = false → s.tick = s) ∧
    (s.powered = true → s.due ≠ [] →
      ∃ c ∈ s.due, s.tick = { s with pending := [c], free := s.tick.free } ∧ s.free ≤ s.tick.free) ∧
    (s.powered = true → s.due = [] →
      (s.tick.rot.t = if 7 ≤ s.rot.fine ∧ s.rot.t + 1 < s.prof.profile.rpm.period then s.rot.t + 1 else s.rot.t) ∧
      (s.tick.rot.fine = if s.rot.fine < 7 then s.rot.fine + 1 else if s.rot.t + 1 < s.prof.profile.rpm.period then 0 else 8) ∧
      s.tick.rot.state = s.rot.state ∧
      s.tick.rot.spinTimer = s.rot.spinTimer.map (fun n => n - 1) ∧
      s.tick.cache = { s.cache with idleTimer := s.cache.idleTimer.map (fun n => n - 1) } ∧
      s.tick.card = { s.card with bringUp := s.card.bringUp.map (fun n => n - 1), blockLimit := s.card.blockLimit.map (fun n => n - 1) } ∧
      (s.tick.pending = if s.tick.rot.t = 6000 ∧ s.tick.rot.fine = 0 then [.indexPulseEnd] else []) ∧
      s.tick.powered = true ∧ s.tick.free = s.free ∧ s.tick.inputs = s.inputs ∧ s.tick.prof = s.prof ∧ s.tick.drive = s.drive ∧
      s.tick.mount = s.mount ∧
      s.tick.link = { s.link with
        rxTimer := s.link.rxTimer.map (fun n => n - 12), tx := s.link.tx.map (fun f => { f with left := f.left - 12 }) } ∧
      (s.cap.st.measures = true → s.tick.cap = { s.cap with fluxOpen := s.cap.fluxOpen.map (fun n => n + 1) }) ∧
      (s.cap.st.measures = false → s.tick.cap = s.cap) ∧ s.tick.pres = s.present.pres)

/-- Every command answers a next state in every state, and leaves the queue of commands alone (log 9: no rule stops the part). -/
def Obligations.EveryCommandAnswersANextState : Prop :=
  ∀ (c : Instr) (s : State), ∃ t, exec c s = .next t ∧ t.pending = s.pending

/-- What Safety.lean says of every block, and of the lines of the drive connector, holds after reset. -/
def Obligations.SoundAndFollowingAtReset : Prop := State.reset.Sound ∧ State.reset.Follows

/-- What Safety.lean says of every block is kept by every step: the head position in 0..83 (R25), t below the revolution period (R36),
the options in range (R182), the queues within their places (R170, R172), eight lines in one LRU order with at most one pinned and no
tag twice (R67, R68, R69), the flush queue without a line twice (R78), at most 32 defects (R85) and 32 found IDs (R129), the
consecutive-failure count in 0..4 (R142), the track RAM and the capture scratch in canonical form. -/
def Obligations.EveryStepKeepsTheBlocksSound : Prop :=
  ∀ s t : State, s.Sound → step s = .next t → t.Sound

/-- The drive interface, the rotation, the capture unit and the stream go on following the lines, the mount and the options through every
step (R24, R26, R34, R35, R39, R90, R112, R125), whatever the order of coincident parts. That a stream which does not flow has, beside the
cleared decision record and the previous data bit 0 of R90, its check register idle, its count 0 and no byte cell is the model's choice
(log 29). -/
def Obligations.EveryStepFollowsTheLines : Prop :=
  ∀ s t : State, s.Follows → step s = .next t → t.Follows

/-! ## Power and reset -/

/-- The values that every block holds after power-on, with the input lines and the strap as they stand (R38, R61, R88, R89, R108, R162,
R176, R192); the values without a rule are those of logs 5 and 7, and that no link break lasts is log 22. -/
def Obligations.PowerOnGivesTheResetValues : Prop :=
  ∀ (x : Inputs) (s : State), ∃ t, exec (.powerOn x) s = .next t ∧
    t.powered = true ∧ t.pending = s.pending ∧ t.free = s.free ∧ t.inputs = x ∧ t.prof = d0 ∧
    t.drive = { selected := x.select0, head := 0, side := x.select0 && x.side, lastIn := false, latch := true,
                gateActive := x.select0 && x.writeGate } ∧
    t.rot = { t := 0, fine := 0, state := .stopped, spinTimer := none } ∧
    t.mount = { state := .unmounted, geom := none, chain := [], readOnly := false, shortOk := false, imageSize := 0, blocks := 0,
                total := 0, serial := 0 } ∧
    t.cache.lines = List.replicate 8 Line.free ∧ t.cache.lru = [0, 1, 2, 3, 4, 5, 6, 7] ∧ t.cache.flushQ = [] ∧ t.cache.defects = [] ∧
    t.cache.idleTimer = none ∧ t.cache.waiting = none ∧ t.cache.forced = none ∧ t.cache.armed = false ∧
    (∀ a, memRead t.cache.ram a = 0#8) ∧
    t.pres.decision = Decision.none ∧ t.pres.prevBit = false ∧ t.pres.crc = none ∧
    t.cap.st = .idle ∧ t.cap.found = [] ∧ t.cap.overflow = false ∧ (∀ a, memRead t.cap.scratch a = 0#8) ∧
    t.card = { state := if x.cardDetect then .initialising else .absent, capacity := 0, wp := false, failCount := 0, active := none,
               queued := none, mergeBuf := [], lastRun := none, panel := none,
               bringUp := if x.cardDetect then some 24000000 else none, blockLimit := none } ∧
    t.link.rx = .hunt ∧ t.link.rxBytes = [] ∧ t.link.rxTimer = none ∧ t.link.executing = none ∧ t.link.replies = [] ∧
    t.link.notices = [] ∧ t.link.dropped = false ∧ t.link.tx = none ∧ t.link.breakLow = false ∧ t.link.resetDue = false ∧
    t.link.fast = x.fastStrap ∧
    t.link.options = { selectLine := 0, line34 := .diskChange, motorSource := .motorLine, spinUp := 250, idleFlush := 1500,
                       burstCap := 8, fillLead := 20, readAhead := true, noticeMask := 0xFF#8 }

/-- The reset of a RESET request, once its reply has gone or was dropped, gives the values of power-on with the lines as they stand and
the strap as it is sampled (R176, R188, R192), but that a link break goes on while the receive line stays low (R175); before that the
command, which cannot occur then, does nothing (log 9). -/
def Obligations.ResetTakesEffectAsPowerOn : Prop :=
  ∀ (b : Bool) (s : State), s.powered = true →
    (s.link.resetDue = true →
      ∃ t, exec (.powerOn { s.inputs with fastStrap := b }) s = .next t ∧
        exec (.resetTakesEffect b) s = .next { t with link := { t.link with breakLow := s.link.breakLow } }) ∧
    (s.link.resetDue = false → exec (.resetTakesEffect b) s = .next s)

/-- When the supply falls the outputs on the drive connector are released (R193), and no command but POWER_ON and POWER_FAIL has an effect
until it returns, which is the model's reading (log 28). -/
def Obligations.PowerFailSilencesTheBlock : Prop :=
  (∀ s : State, ∃ t, exec .powerFail s = .next t ∧ t.powered = false ∧ t.pending = s.pending ∧
    t.indexOut = false ∧ t.track00Out = false ∧ t.writeProtectOut = false ∧ t.line34Out = false ∧ t.readDataOut = false) ∧
  (∀ (c : Instr) (s : State), s.powered = false → (∀ x, c ≠ .powerOn x) → c ≠ .powerFail → exec c s = .next s)

/-! ## Outputs and conditions of the drive connector -/

/-- TRACK 00 (R29), and the track-zero bit of the STATUS record, which stands whether or not the line is driven. -/
def Obligations.Track00FollowsSelectionAndHead : Prop :=
  (∀ s : State, s.powered = true → (s.track00Out = true ↔ s.drive.selected = true ∧ s.drive.head = 0)) ∧
  (∀ (s : State) (m : Mount) (c : Card) (r : Rotation),
    ({ s with mount := m, card := c, rot := r } : State).track00Out = s.track00Out) ∧
  (∀ s : State, (byteAt s.statusRecord 1).getLsbD 5 = true ↔ s.drive.head = 0)

/-- INDEX, WRITE PROTECT and line 34 follow their conditions (R30, R32, R33, R37), and READ DATA is silent unless the disk is presented with
the gate inactive (R90). -/
def Obligations.OutputsFollowTheirConditions : Prop :=
  ∀ s : State, s.powered = true →
    (s.indexOut = true ↔ (s.drive.selected = true ∧ s.mount.state = .mounted ∧ s.rot.state = .atSpeed) ∧ s.rot.t < 6000) ∧
    (s.writeProtectOut = true ↔
      s.drive.selected = true ∧ (s.mount.state ≠ .mounted ∨ s.mount.readOnly = true ∨ s.card.wp = true)) ∧
    (s.line34Out = true ↔
      (s.link.options.line34 = .ready ∧ s.drive.selected = true ∧ s.mount.state = .mounted ∧ s.rot.state = .atSpeed) ∨
      (s.link.options.line34 = .diskChange ∧ s.drive.selected = true ∧ s.drive.latch = true)) ∧
    (s.readDataOut = true →
      (s.drive.selected = true ∧ s.mount.state = .mounted ∧ s.rot.state = .atSpeed) ∧ s.drive.gateActive = false)

/-! ## The profile store -/

/-- The revolution period and the byte time (R13). -/
def Obligations.PeriodAndByteTime : Prop :=
  Rpm.period .rpm300 = 600000 ∧ Rpm.period .rpm360 = 500000 ∧
  Rate.byteTime .k125 = 192 ∧ Rate.byteTime .k250 = 96 ∧ Rate.byteTime .k300 = 80 ∧ Rate.byteTime .k500 = 48 ∧
  ∀ (rpm : Rpm) (z : Zone) (y : Layout), layoutOf rpm z = some y → y.byteTime = 24000 / z.rate.kbit ∧ y.capacity = rpm.period / y.byteTime

/-- The rate combination check (R9): a zone whose ranges pass is refused with RATE unless its encoding and rate are in the table for the
rotation; and the profile is refused for the first such zone, whatever the zones after it are. -/
def Obligations.RateCombinationTable : Prop :=
  (∀ (p : RawProfile) (rpm : Rpm) (r : RawZone) (z : Zone), r.resolve = some z → zoneInRange p z = true →
    (zoneFault p rpm r = some .rate ↔
      ¬ (rpm = .rpm300 ∧ (z.encoding, z.rate) ∈ [(Encoding.fm, Rate.k125), (.fm, .k250), (.mfm, .k250), (.mfm, .k500)] ∨
         rpm = .rpm360 ∧ (z.encoding, z.rate) ∈ [(Encoding.mfm, Rate.k300), (.mfm, .k500)]))) ∧
  (∀ (p : RawProfile) (before after : List RawZone) (r : RawZone), p.zones = before ++ r :: after → recordInRange p = true →
    (∀ q ∈ before, zoneFault p (rpmOf p.rotation) q = none) → zoneFault p (rpmOf p.rotation) r = some .rate →
    checkProfile p = .refused .rate (some before.length))

/-- The data size check (R10), with its three examples, and the order list check (R11). -/
def Obligations.DataSizeAndOrderList : Prop :=
  (∀ (p : RawProfile) (rpm : Rpm) (r : RawZone) (z : Zone), r.resolve = some z → zoneInRange p z = true →
    rateAllowed rpm z.encoding z.rate = true →
    (zoneFault p rpm r = some .dataSize ↔ 12288 < z.n * (128 * 2 ^ z.sizeCode)) ∧
    (z.n = 12 ∧ z.sizeCode = 3 → zoneFault p rpm r ≠ some .dataSize) ∧
    (z.n = 25 ∧ z.sizeCode = 2 → zoneFault p rpm r = some .dataSize) ∧
    (z.n = 1 ∧ z.sizeCode = 6 → zoneFault p rpm r ≠ some .dataSize ∧ (rpm.period / z.rate.byteTime = 6250 → fitGap3 rpm z = none)) ∧
    (z.n * (128 * 2 ^ z.sizeCode) ≤ 12288 →
      (z.order = none → zoneFault p rpm r = none) ∧
      (∀ l, z.order = some l → l.length = z.n →
        ((zoneFault p rpm r = some .order ↔ ¬ l.Perm (List.range z.n)) ∧
         (zoneFault p rpm r = some .order ↔ (∃ x ∈ l, z.n ≤ x) ∨ ¬ l.Nodup))))) ∧
  (∀ (k : Nat) (bs : List Byte) (zs : List RawZone), parseZones k bs = some zs →
    ∀ z ∈ zs, ∀ l, z.order = some l → l.length = z.n)

/-- The profile checks and their order (R7, R8, R12, R19), and what an accepted profile is. RANGE: the record's ranges, with no zone, and a
zone's ranges, with the first zone that fails a zone check; then OVERLAP, with the lower-numbered of the zones that both hold the first
such track; then UNCOVERED, with no zone; then LAYOUT_OVERFLOW, with the first zone that the fit refuses. The zones of an accepted profile
are those that its records' codes resolve to, in their order. The fit's values follow: G3' is
the requested gap 3, or what the cut of ceil(d / n) leaves of it when that is 8 or more, and gap 4b is the rest of the capacity. -/
def Obligations.ProfileChecksInOrder : Prop :=
  (∀ p : RawProfile,
    (recordInRange p = true ↔ (1 ≤ p.cylinders ∧ p.cylinders ≤ 84) ∧ (1 ≤ p.heads ∧ p.heads ≤ 2) ∧ (p.stepRatio = 1 ∨ p.stepRatio = 2) ∧
      p.rotation ≤ 1 ∧ (1 ≤ p.zones.length ∧ p.zones.length ≤ 8) ∧ ¬ (p.stepRatio = 2 ∧ 42 < p.cylinders)) ∧
    (recordInRange p = false → checkProfile p = .refused .range none)) ∧
  (∀ (p : RawProfile) (rpm : Rpm) (r : RawZone),
    (r.resolve = none ↔ 2 < r.headSet ∨ 1 < r.encoding ∨ 3 < r.rate) ∧
    (∀ z, r.resolve = some z →
      (r.headSet, z.heads) ∈ [(0, HeadSet.head0), (1, .head1), (2, .both)] ∧ (r.encoding, z.encoding) ∈ [(0, Encoding.fm), (1, .mfm)] ∧
      (r.rate, z.rate) ∈ [(0, Rate.k125), (1, .k250), (2, .k300), (3, .k500)] ∧ z.firstCyl = r.firstCyl ∧ z.lastCyl = r.lastCyl ∧
      z.n = r.n ∧ z.sizeCode = r.sizeCode ∧ z.firstSector = r.firstSector ∧ z.gap3 = r.gap3 ∧ z.gap4a = r.gap4a ∧ z.gap1 = r.gap1 ∧
      z.order = r.order ∧ z.indexMark = r.flags.getLsbD 1 ∧ z.idZero = r.flags.getLsbD 2 ∧ z.fill = r.fill ∧
      (zoneInRange p z = true ↔ z.firstCyl ≤ 83 ∧ z.lastCyl ≤ 83 ∧ (1 ≤ z.n ∧ z.n ≤ 32) ∧ z.sizeCode ≤ 6 ∧ z.firstSector ≤ 255 ∧
        (8 ≤ z.gap3 ∧ z.gap3 ≤ 255) ∧ (8 ≤ z.gap4a ∧ z.gap4a ≤ 255) ∧ (8 ≤ z.gap1 ∧ z.gap1 ≤ 255) ∧ z.firstCyl ≤ z.lastCyl ∧
        z.lastCyl < p.cylinders ∧ ¬ (p.heads = 1 ∧ z.heads ≠ .head0) ∧ z.firstSector + z.n - 1 ≤ 255)) ∧
    (zoneFault p rpm r = some .range ↔ ∀ z, r.resolve = some z → zoneInRange p z = false)) ∧
  (∀ (p : RawProfile) (before after : List RawZone) (r : RawZone) (c : ProfileCheck), p.zones = before ++ r :: after → recordInRange p = true →
    (∀ q ∈ before, zoneFault p (rpmOf p.rotation) q = none) → zoneFault p (rpmOf p.rotation) r = some c →
    checkProfile p = .refused c (some before.length)) ∧
  (∀ (p : RawProfile) (zs : List Zone), recordInRange p = true → (∀ r ∈ p.zones, zoneFault p (rpmOf p.rotation) r = none) →
    p.zones.map RawZone.resolve = zs.map some →
    let held := fun c h => zs.countP (fun z => z.has ⟨c, h⟩)
    (∀ k, checkProfile p = .refused .overlap k ↔
      ∃ c h i z, c < p.cylinders ∧ h < p.heads ∧ 2 ≤ held c h ∧
        (∀ c' h', h' < p.heads → c' < c ∨ (c' = c ∧ h' < h) → held c' h' < 2) ∧
        k = some i ∧ zs[i]? = some z ∧ z.has ⟨c, h⟩ = true ∧ ∀ j < i, ∀ y, zs[j]? = some y → y.has ⟨c, h⟩ = false) ∧
    (∀ k, checkProfile p = .refused .uncovered k ↔
      k = none ∧ (∀ c h, c < p.cylinders → h < p.heads → held c h < 2) ∧ ∃ c h, c < p.cylinders ∧ h < p.heads ∧ held c h = 0) ∧
    (∀ k, checkProfile p = .refused .layoutOverflow k ↔
      (∀ c h, c < p.cylinders → h < p.heads → held c h = 1) ∧
      ∃ i z, k = some i ∧ zs[i]? = some z ∧ fitGap3 (rpmOf p.rotation) z = none ∧
        ∀ j < i, ∀ y, zs[j]? = some y → fitGap3 (rpmOf p.rotation) y ≠ none)) ∧
  (∀ (z : Zone) (c h : Nat), z.has ⟨c, h⟩ = true ↔
    z.firstCyl ≤ c ∧ c ≤ z.lastCyl ∧ ((h = 0 ∧ z.heads ≠ .head1) ∨ (h = 1 ∧ z.heads ≠ .head0))) ∧
  (∀ (rpm : Rpm) (z : Zone), 1 ≤ z.n → 8 ≤ z.gap3 →
    let cap := rpm.period / z.rate.byteTime
    let base := match z.encoding with | .mfm => 62 | .fm => 33
    let pre := z.gap4a + (if z.indexMark then (match z.encoding with | .mfm => 16 | .fm => 7) else 0) + z.gap1
    let total := fun g3 => pre + z.n * (base + 128 * 2 ^ z.sizeCode + g3)
    (total z.gap3 ≤ cap → fitGap3 rpm z = some z.gap3) ∧
    (∀ cut, cap < total z.gap3 → z.n * (cut - 1) < total z.gap3 - cap → total z.gap3 - cap ≤ z.n * cut →
      fitGap3 rpm z = if z.gap3 < cut + 8 then none else some (z.gap3 - cut)) ∧
    (∀ y, layoutOf rpm z = some y → ∃ g3, fitGap3 rpm z = some g3 ∧ 8 ≤ g3 ∧ g3 ≤ z.gap3 ∧ (cap < total z.gap3 → cap - total g3 < z.n) ∧
      total g3 ≤ cap ∧
      y = { byteTime := z.rate.byteTime, capacity := cap, pre := pre, base := base, sectorSize := 128 * 2 ^ z.sizeCode, gap3 := g3,
            slotLen := base + 128 * 2 ^ z.sizeCode + g3, slotsEnd := total g3, gap4b := cap - total g3,
            trackBytes := z.n * (128 * 2 ^ z.sizeCode) })) ∧
  (∀ (p : RawProfile) (g : Geometry), checkProfile p = .accepted g →
    recordInRange p = true ∧ (∀ r ∈ p.zones, zoneFault p (rpmOf p.rotation) r = none) ∧
    g.profile.cylinders = p.cylinders ∧ g.profile.heads = p.heads ∧ g.profile.stepRatio = p.stepRatio ∧
    g.profile.rpm = rpmOf p.rotation ∧ p.zones.map RawZone.resolve = g.profile.zones.map some ∧ g.layouts.length = p.zones.length ∧
    (∀ c h, c < p.cylinders → h < p.heads → (g.profile.zones.filter (fun z => z.has ⟨c, h⟩)).length = 1) ∧
    (∀ (k : Nat) (z : Zone) (y : Layout), g.profile.zones[k]? = some z → g.layouts[k]? = some y →
      layoutOf g.profile.rpm z = some y ∧ y.slotsEnd ≤ y.capacity ∧ 8 ≤ y.gap3))

/-- PROFILE (R7, R183): the bytes of the profile record and of each zone record, with its order list, as they are read. PROFILE accepted: the
profile in force is replaced, the rotation time restarts at 0 when it is not below the new period, the request is answered OK, and nothing
else changes. At the instant at which a wrap of the old profile is due, a longer revolution goes on with its next tick, which is the
model's reading (log 33). -/
def Obligations.ProfileAccepted : Prop :=
  (∀ (p : List Byte) (recs : List (List Byte)), 5 ≤ p.length → recs.length = (byteAt p 4).toNat → recs.flatten = p.drop 5 →
    (∀ r ∈ recs, r.length = 13 + (if (byteAt r 8).getLsbD 0 then (byteAt r 5).toNat else 0)) →
    parseProfile p = some {
      cylinders := (byteAt p 0).toNat, heads := (byteAt p 1).toNat, stepRatio := (byteAt p 2).toNat, rotation := (byteAt p 3).toNat
      zones := recs.map (fun r =>
        { firstCyl := (byteAt r 0).toNat, lastCyl := (byteAt r 1).toNat, headSet := (byteAt r 2).toNat, encoding := (byteAt r 3).toNat,
          rate := (byteAt r 4).toNat, n := (byteAt r 5).toNat, sizeCode := (byteAt r 6).toNat, firstSector := (byteAt r 7).toNat,
          flags := byteAt r 8, gap3 := (byteAt r 9).toNat, gap4a := (byteAt r 10).toNat, gap1 := (byteAt r 11).toNat, fill := byteAt r 12,
          order := if (byteAt r 8).getLsbD 0 then some ((r.drop 13).map BitVec.toNat) else none }) }) ∧
  rpmOf 0 = .rpm300 ∧ rpmOf 1 = .rpm360 ∧
  ∀ (s : State) (tag : Byte) (p : List Byte) (raw : RawProfile) (g : Geometry), s.takesRequests → s.mount.state = .unmounted →
    parseProfile p = some raw → (∀ z ∈ raw.zones, z.flags.toNat < 8) → checkProfile raw = .accepted g →
    ∃ t, exec (.profile tag p) s = .next t ∧
      t = { s with
        prof := g
        rot := if g.profile.rpm.period ≤ s.rot.t then { s.rot with t := 0, fine := 0 }
               else if 8 ≤ s.rot.fine ∧ s.rot.t + 1 < g.profile.rpm.period then { s.rot with t := s.rot.t + 1, fine := 0 }
               else s.rot
        link := s.link.answered ⟨0x03#8, tag, true, false, false⟩ [0x00#8, 0x00#8] } ∧
      t.link.hasReply 0x83#8 tag [0x00#8, 0x00#8]

/-- PROFILE refused (R183, R7): WRONG_STATE with the mount state while an image is mounted, BAD_FIELD with the check and its zone
otherwise; nothing but the link changes. -/
def Obligations.ProfileRefused : Prop :=
  ∀ (s : State) (tag : Byte) (p : List Byte) (raw : RawProfile), s.takesRequests → parseProfile p = some raw →
    (∀ z ∈ raw.zones, z.flags.toNat < 8) →
    (s.mount.state ≠ .unmounted →
      ∃ t, exec (.profile tag p) s = .next t ∧ s.Answers t 0x03#8 tag [0x03#8, s.mount.state.code]) ∧
    (∀ c z, s.mount.state = .unmounted → checkProfile raw = .refused c z →
      ∃ t, exec (.profile tag p) s = .next t ∧ s.Answers t 0x03#8 tag [0x02#8, c.code, positionByte z])

/-! ## Requests: what every kind has in common -/

/-- The payload lengths of R178, PROFILE's by the walk over its zone records, and the flag bits that each kind names; the BAD_FIELD replies
of the length check and of the flag check, which comes after it; nothing but the link changes. -/
def Obligations.WrongLengthsAndFlagsAreBadField : Prop :=
  (∀ p : List Byte,
    (∀ k ∈ [1, 5, 6], (lengthOk k p = true ↔ p.length = 0)) ∧ (lengthOk 2 p = true ↔ p.length = 13) ∧
    (lengthOk 4 p = true ↔ 2 ≤ p.length ∧ p.length = 2 + 7 * (byteAt p 1).toNat) ∧ (lengthOk 7 p = true ↔ p.length = 4) ∧
    (lengthOk 8 p = true ↔ p.length = 516) ∧ (∀ k ∈ [9, 10], (lengthOk k p = true ↔ p.length = 1)) ∧
    (let zoneRecords := fun recs : List (List Byte) => recs.length = (byteAt p 4).toNat ∧ recs.flatten = p.drop 5 ∧
        ∀ r ∈ recs, r.length = 13 + (if (byteAt r 8).getLsbD 0 then (byteAt r 5).toNat else 0)
     (lengthOk 3 p = true ↔ 5 ≤ p.length ∧ ∃ recs, zoneRecords recs) ∧
     (∀ recs, 5 ≤ p.length → zoneRecords recs → (flagsOk 3 p = true ↔ ∀ r ∈ recs, (byteAt r 8).toNat < 8))) ∧
    (∀ k ∈ [1, 5, 6, 7, 8], flagsOk k p = true) ∧ (flagsOk 2 p = true ↔ (byteAt p 1).toNat < 2) ∧
    (flagsOk 4 p = true ↔ (byteAt p 0).toNat < 4 ∧ ∀ k < (byteAt p 1).toNat, (byteAt p (7 * k + 8)).toNat < 4) ∧
    (∀ k ∈ [9, 10], (flagsOk k p = true ↔ (byteAt p 0).toNat < 2))) ∧
  (∀ (s : State) (k : Nat) (tag : Byte) (p : List Byte) (c : Instr), s.takesRequests → requestRow k tag p = some c →
    (lengthOk k p = false →
      ∃ u t, exec c s = .next t ∧ Ends s u t ∧ s.Answers u (byteOf k) tag [0x02#8, 0x20#8, 0xFF#8]) ∧
    (lengthOk k p = true → flagsOk k p = false →
      ∃ u t, exec c s = .next t ∧ Ends s u t ∧ s.Answers u (byteOf k) tag [0x02#8, 0x21#8, 0xFF#8]))

/-- While a request is in execution any other is answered BUSY and has no other effect; with three replies of the link unit's own waiting
the BUSY reply is not made either (R168, R170). -/
def Obligations.BusyWhileARequestIsInExecution : Prop :=
  ∀ (s : State) (k : Nat) (tag : Byte) (p : List Byte) (c : Instr) (q : Request), s.powered = true → s.link.breakLow = false →
    s.link.executing = some q → requestRow k tag p = some c →
    (s.link.replies.countP (fun r => !r.ofRequest) < 3 →
      ∃ t, exec c s = .next t ∧ t = { s with link := s.link.ownReplied (0x80#8 + byteOf k) tag .busy } ∧ t.link.executing = some q ∧
        t.link.hasOwnReply (0x80#8 + byteOf k) tag .busy) ∧
    (3 ≤ s.link.replies.countP (fun r => !r.ofRequest) → exec c s = .next { s with link := s.link.rxIdle })

/-! ## STATUS -/

/-- STATUS (R181): in every state of every block it is answered at once with OK, detail 0 and the record of that moment, and nothing but the
link changes; with a payload it is answered BAD_FIELD. -/
def Obligations.StatusAnswersInEveryState : Prop :=
  ∀ (s : State) (tag : Byte), s.takesRequests →
    (∃ t, exec (.status tag []) s = .next t ∧ s.Answers t 0x01#8 tag (0x00#8 :: 0x00#8 :: s.statusRecord)) ∧
    (∀ p, p ≠ [] → ∃ t, exec (.status tag p) s = .next t ∧ s.Answers t 0x01#8 tag [0x02#8, 0x20#8, 0xFF#8])

/-- The STATUS record part by part (R189): the presence byte and the drive part bit by bit, then the card, mount, operation and last-run
parts while they are present, the layout part of the profile in force, and the cache part; and the record's length. -/
def Obligations.StatusRecordHead : Prop :=
  ∀ s : State,
    ((byteAt s.statusRecord 0).getLsbD 0 = true ↔ s.card.state ≠ .absent) ∧
    ((byteAt s.statusRecord 0).getLsbD 1 = true ↔ s.mount.state ≠ .unmounted) ∧
    ((byteAt s.statusRecord 0).getLsbD 2 = true ↔ s.card.active ≠ none ∨ s.card.queued ≠ none) ∧
    ((byteAt s.statusRecord 0).getLsbD 3 = true ↔ s.card.lastRun ≠ none) ∧ (byteAt s.statusRecord 0).toNat < 16 ∧
    (byteAt s.statusRecord 1).getLsbD 0 = s.drive.selected ∧ (byteAt s.statusRecord 1).getLsbD 1 = s.inputs.motorOn ∧
    (byteAt s.statusRecord 1).getLsbD 2 = s.drive.side ∧ (byteAt s.statusRecord 1).getLsbD 3 = s.drive.lastIn ∧
    (byteAt s.statusRecord 1).getLsbD 4 = s.drive.latch ∧
    ((byteAt s.statusRecord 1).getLsbD 6 = true ↔ s.mount.state ≠ .mounted ∨ s.mount.readOnly = true ∨ s.card.wp = true) ∧
    ((byteAt s.statusRecord 1).getLsbD 7 = true ↔ s.link.options.line34 = .diskChange) ∧
    byteAt s.statusRecord 2 = s.rot.state.code ∧ byteAt s.statusRecord 3 = byteOf s.drive.head ∧
    (s.card.state ≠ .absent → bytesAt s.statusRecord 4 7 =
      [s.card.state.code] ++ le4 s.card.capacity ++ [if s.card.wp then 0x01#8 else 0x00#8, byteOf s.card.failCount]) ∧
    (let entry := fun r : Run =>
        [match r.cls with | .demand => 0x01#8 | .panel => 0x02#8 | .writeback => 0x03#8 | .ahead => 0x04#8,
          match r.kind with | .fill => 0x01#8 | .flush => 0x02#8 | .mergeRead => 0x03#8 | .panelRead => 0x04#8 | .panelWrite => 0x05#8]
        ++ le4 r.start ++ [byteOf r.count] ++
        (match r.status with
          | .queued => [0x00#8, 0x00#8] | .inProgress => [0x01#8, 0x00#8] | .done => [0x02#8, 0x00#8] | .cancelled => [0x03#8, 0x00#8]
          | .failed .timeout => [0x04#8, 0x01#8] | .failed .cardError => [0x04#8, 0x02#8] | .failed .cardGone => [0x04#8, 0x03#8])
     let slot := fun r : Option Run => match r with | none => List.replicate 9 0x00#8 | some r => entry r
     let lineEntry := fun i : Nat =>
       let ln := s.cache.line i
       match ln.tag with
       | none => [0x00#8, 0xFF#8, 0xFF#8, 0xFF#8, 0x00#8, 0x00#8, 0x00#8]
       | some tr =>
         [if ∃ x ∈ ln.sectors, x.state = .pending then 0x01#8 else if ∃ x ∈ ln.sectors, x.state = .missing then 0x03#8 else 0x02#8,
           byteOf tr.cyl, byteOf tr.head, byteOf ln.zone,
           byteOf ((if ln.origin = .ahead then 1 else 0) + (if ln.pinned = true then 2 else 0) + (if i ∈ s.cache.flushQ then 4 else 0) +
             (if s.cache.forced = some i then 8 else 0)),
           byteOf (ln.sectors.countP (fun x => x.state = .dirty ∨ x.state = .capture ∨ x.state = .flush)),
           byteOf (ln.sectors.countP (fun x => x.state = .missing))]
     s.statusRecord.drop (4 + (if s.card.state = .absent then 0 else 7)) =
      (if s.mount.state = .unmounted then []
       else [match s.mount.state with | .unmounted => 0x00#8 | .mounted => 0x01#8 | .draining => 0x02#8 | .lost => 0x03#8,
              byteOf ((if s.mount.readOnly = true then 1 else 0) + (if s.mount.shortOk = true then 2 else 0))] ++ le4 s.mount.imageSize ++
            [byteOf s.mount.chain.length] ++ le2 s.cache.nonClean ++ [byteOf s.cache.defects.length]) ++
      (if s.card.active = none ∧ s.card.queued = none then [] else slot s.card.active ++ slot s.card.queued) ++
      (match s.card.lastRun with | none => [] | some r => entry r) ++
      ([byteOf s.prof.profile.cylinders, byteOf s.prof.profile.heads, byteOf s.prof.profile.stepRatio,
          match s.prof.profile.rpm with | .rpm300 => 0x00#8 | .rpm360 => 0x01#8, byteOf s.prof.profile.zones.length] ++
        s.prof.layouts.flatMap (fun y => le2 y.capacity ++ le2 y.pre ++ [byteOf y.gap3] ++ le2 y.gap4b)) ++
      ([0, 1, 2, 3, 4, 5, 6, 7].flatMap lineEntry ++ s.cache.lru.map byteOf ++
        (match s.cache.waiting with | none => [0xFF#8, 0xFF#8] | some tr => [byteOf tr.cyl, byteOf tr.head]))) ∧
    (s.cache.lru.length = 8 → s.statusRecord.length =
      4 + (if s.card.state = .absent then 0 else 7) + (if s.mount.state = .unmounted then 0 else 10) +
        (if s.card.active = none ∧ s.card.queued = none then 0 else 18) + (if s.card.lastRun = none then 0 else 9) +
        (5 + 7 * s.prof.layouts.length) + 66)

/-! ## OPTIONS -/

/-- OPTIONS accepted (R182, R24, R34, R71): the options named by the mask take their values together, read-ahead is considered when its
option is turned on (log 20), before the selection (log 40), the reply carries the options in force (made before what follows, log 18), the
selected flag follows the newly named line, with the side's arrival and the rise or fall of the gate that a selection or deselection brings
(`Selects`, as for a DRIVE SELECT line; a fall ends a capture, log 41), and the rotation follows spin demand; the drive's head, direction
and latch, the rotation time, the mount, the card and the profile stay. -/
def Obligations.OptionsAccepted : Prop :=
  ∀ (s : State) (tag : Byte) (p : List Byte), s.takesRequests → s.Follows → p.length = 13 → ofLe (bytesAt p 0 2) < 512 →
    ((ofLe (bytesAt p 0 2)).testBit 0 = true → (byteAt p 2).toNat ≤ 3) →
    ((ofLe (bytesAt p 0 2)).testBit 1 = true → (byteAt p 3).toNat ≤ 1) →
    ((ofLe (bytesAt p 0 2)).testBit 2 = true → (byteAt p 4).toNat ≤ 1) →
    ((ofLe (bytesAt p 0 2)).testBit 7 = true → (byteAt p 11).toNat ≤ 1) →
    let o := s.link.options.asked p
    ∃ w x u t : State, exec (.options tag p) s = .next t ∧ Reacted u u t ∧
      w = { s with
        cache := if s.mount.state = .mounted ∧ s.link.options.readAhead = false ∧ o.readAhead = true
          then s.cache.considerAhead s.geom s.mount s.drive.lastIn else s.cache
        link := ({ s.link with options := o } : Link).answered ⟨0x02#8, tag, true, false, false⟩ (0x00#8 :: 0x00#8 :: o.bytes) } ∧
      w.Selects x ∧ u = x.reworkSpin ∧
      u.link.options = o ∧ u.link.hasReply 0x82#8 tag (0x00#8 :: 0x00#8 :: o.bytes) ∧
      u.drive.selected = selectLevel s.inputs o.selectLine ∧
      u.drive.gateActive = (u.drive.selected && s.inputs.writeGate) ∧
      (u.drive.selected = true → u.drive.side = s.inputs.side) ∧ (u.drive.selected = false → u.drive.side = s.drive.side) ∧
      (u.rot.state ≠ .stopped ↔ u.spinDemand = true) ∧
      u.drive.head = s.drive.head ∧ u.drive.lastIn = s.drive.lastIn ∧ u.drive.latch = s.drive.latch ∧ u.rot.t = s.rot.t ∧
      u.mount = s.mount ∧ u.card = s.card ∧ u.prof = s.prof ∧ u.inputs = s.inputs ∧ u.powered = true ∧ u.pending = s.pending

/-- OPTIONS refused (R182): for the first enumerated field, in the order select line, line 34, motor source, read-ahead, whose bit is set
and whose value lies outside its list; no option changes, and nothing but the link does. -/
def Obligations.OptionsRefused : Prop :=
  ∀ (s : State) (tag : Byte) (p : List Byte), s.takesRequests → p.length = 13 → ofLe (bytesAt p 0 2) < 512 →
    let bad := fun k i m => (ofLe (bytesAt p 0 2)).testBit k = true ∧ m < (byteAt p i).toNat
    let refused := fun d : Byte => ∃ u t, exec (.options tag p) s = .next t ∧ Reacted s u t ∧ s.Answers u 0x02#8 tag [0x02#8, d, 0xFF#8]
    (bad 0 2 3 → refused 0x23#8) ∧ (¬ bad 0 2 3 → bad 1 3 1 → refused 0x24#8) ∧
    (¬ bad 0 2 3 → ¬ bad 1 3 1 → bad 2 4 1 → refused 0x25#8) ∧
    (¬ bad 0 2 3 → ¬ bad 1 3 1 → ¬ bad 2 4 1 → bad 7 11 1 → refused 0x26#8)

/-! ## MOUNT and the chain checks -/

/-- The zero count and capacity checks (R43, R44), by the capacity that the card engine read, with R44's example; a MOUNT whose first
faulty extent fails one of them is refused with that check and the extent's number, and nothing but the link changes. The chain that a
MOUNT payload gives: 7 bytes an extent, in order (R184). -/
def Obligations.ZeroCountAndCapacityChecks : Prop :=
  (∀ p : List Byte, p.length = 2 + 7 * (byteAt p 1).toNat →
    (mountChain p).length = (byteAt p 1).toNat ∧
    ∀ k < (byteAt p 1).toNat,
      let b := fun i => byteAt p (2 + 7 * k + i)
      (mountChain p)[k]? = some {
        start := (b 0).toNat + 256 * (b 1).toNat + 65536 * (b 2).toNat + 16777216 * (b 3).toNat, count := (b 4).toNat + 256 * (b 5).toNat
        skip := (b 6).getLsbD 0, notify := (b 6).getLsbD 1 }) ∧
  (∀ (capacity : Nat) (before : List Extent) (e : Extent),
    (extentFault capacity before e = some .zeroCount ↔ e.count = 0) ∧
    (extentFault capacity before e = some .capacity ↔ e.count ≠ 0 ∧ e.skip = false ∧ capacity < e.start + e.count)) ∧
  (∀ before : List Extent, extentFault 3862528 before ⟨3862000, 528, false, false⟩ ≠ some .capacity ∧
    extentFault 3862528 before ⟨3862000, 600, false, false⟩ = some .capacity) ∧
  (∀ (s : State) (tag : Byte) (p : List Byte) (before after : List Extent) (e : Extent) (check : MountCheck), s.takesRequests →
    lengthOk 4 p = true → flagsOk 4 p = true → s.mount.state = .unmounted → s.card.state = .ready →
    mountChain p = before ++ e :: after → before.length + after.length < 64 →
    (∀ k, ∀ a ∈ before[k]?, extentFault s.card.capacity (before.take k) a = none) →
    extentFault s.card.capacity before e = some check →
    ∃ u t, exec (.mount tag p) s = .next t ∧ Reacted s u t ∧ s.Answers u 0x04#8 tag [0x02#8, check.code, byteOf before.length])

/-- The overlap and length checks (R45, R46) with their examples: the blocks of two non-SKIP extents, and the chain total against the image
blocks of the profile in force, 1,440 for D0. A MOUNT whose extents pass and whose total fails is refused with LENGTH and no extent, and
nothing but the link changes. -/
def Obligations.OverlapAndLengthChecks : Prop :=
  (∀ (capacity : Nat) (before : List Extent) (e : Extent), (∀ a ∈ before, a.count ≠ 0) →
    (extentFault capacity before e = some .extentOverlap ↔
      e.count ≠ 0 ∧ (e.skip = false → e.start + e.count ≤ capacity) ∧
      ∃ a ∈ before, a.skip = false ∧ e.skip = false ∧ ∃ b, (a.start ≤ b ∧ b < a.start + a.count) ∧ (e.start ≤ b ∧ b < e.start + e.count))) ∧
  (Extent.overlaps ⟨10000, 9, false, false⟩ ⟨10009, 1431, false, false⟩ = false ∧
    Extent.overlaps ⟨10000, 40, false, false⟩ ⟨10030, 1400, false, false⟩ = true) ∧
  (∀ (g : Geometry) (capacity : Nat) (shortOk : Bool) (chain : List Extent), 1 ≤ chain.length → chain.length ≤ 64 →
    firstExtentFault capacity [] chain = none →
    (chainFault g capacity shortOk chain = some (.length, none) ↔
      (chainTotal chain < g.imageBlocks ∧ shortOk = false) ∨ g.imageBlocks < chainTotal chain)) ∧
  (∀ (s : State) (tag : Byte) (p : List Byte), s.takesRequests → lengthOk 4 p = true → flagsOk 4 p = true → s.mount.state = .unmounted →
    s.card.state = .ready → 1 ≤ (mountChain p).length → (mountChain p).length ≤ 64 →
    firstExtentFault s.card.capacity [] (mountChain p) = none →
    let total := ((mountChain p).map (fun e => e.count)).sum
    (total < s.prof.imageBlocks ∧ (byteAt p 0).getLsbD 1 = false) ∨ s.prof.imageBlocks < total →
    ∃ u t, exec (.mount tag p) s = .next t ∧ Reacted s u t ∧ s.Answers u 0x04#8 tag [0x02#8, 0x14#8, 0xFF#8]) ∧
  d0.imageBlocks = 1440

/-- MOUNT refused by the first two checks and by the extent count (R42): WRONG_STATE with the mount state, CARD_NOT_READY with the card
state, EXTENT_COUNT for a chain of none or of more than 64 extents; nothing but the link changes. -/
def Obligations.MountRefused : Prop :=
  ∀ (s : State) (tag : Byte) (p : List Byte), s.takesRequests → lengthOk 4 p = true → flagsOk 4 p = true →
    let answers := fun bs => ∃ u t, exec (.mount tag p) s = .next t ∧ Reacted s u t ∧ s.Answers u 0x04#8 tag bs
    (s.mount.state ≠ .unmounted → answers [0x03#8, s.mount.state.code]) ∧
    (s.mount.state = .unmounted → s.card.state ≠ .ready → answers [0x04#8, s.card.state.code]) ∧
    (s.mount.state = .unmounted → s.card.state = .ready →
      (byteAt p 1).toNat = 0 ∨ 64 < (byteAt p 1).toNat → answers [0x02#8, 0x10#8, 0xFF#8])

/-- MOUNT accepted (R47, R28, R34, R71): the mount record with the chain and the flags of the payload (R184; the chain's bytes are those of
`ZeroCountAndCapacityChecks`), an empty defect list, the latch set, the arrival at the track under the head, at which read-ahead is
considered (log 20), spin-up when the motor source is active, and OK with the image size. That the stream's encoder rests is log 29. -/
def Obligations.MountAccepted : Prop :=
  ∀ (s : State) (tag : Byte) (p : List Byte), s.takesRequests → s.Follows → lengthOk 4 p = true → flagsOk 4 p = true →
    s.mount.state = .unmounted → s.card.state = .ready →
    chainFault s.prof s.card.capacity ((byteAt p 0).getLsbD 1) (mountChain p) = none →
    let mount : Mount := {
      state := .mounted, geom := some s.prof, chain := mountChain p, readOnly := (byteAt p 0).getLsbD 0,
      shortOk := (byteAt p 0).getLsbD 1, imageSize := s.prof.imageSize, blocks := (s.prof.imageSize + 511) / 512,
      total := ((mountChain p).map Extent.count).sum, serial := s.mount.serial + 1 }
    let fresh := s.cache.setDefects s.prof []
    let v : State := { s with mount := mount, cache := fresh, drive := { s.drive with latch := true } }
    ∃ u t, exec (.mount tag p) s = .next t ∧ Reacted u u t ∧
      fresh.defects = [] ∧
      u = { s with
        mount := mount, drive := { s.drive with latch := true }, cache := u.cache, rot := u.rot
        link := s.link.answered ⟨0x04#8, tag, true, false, false⟩ (0x00#8 :: 0x00#8 :: le4 s.prof.imageSize) } ∧
      (s.prof.locate s.drive.head s.drive.side = none → u.cache = fresh) ∧
      (∀ tr, s.prof.locate s.drive.head s.drive.side = some tr →
        u.cache = (({ v with
          cache := fresh.arrive s.prof mount s.link.options.fillLead s.rot.t (some tr) } : State).react fresh).cache) ∧
      u.rot = (if s.motorActive = false then s.rot
               else if s.link.options.spinUp = 0 then { s.rot with state := .atSpeed, spinTimer := none }
               else { s.rot with state := .spinningUp, spinTimer := some (24000 * s.link.options.spinUp) }) ∧
      u.link.hasReply 0x84#8 tag (0x00#8 :: 0x00#8 :: le4 s.prof.imageSize)

/-! ## UNMOUNT, FLUSH, card blocks, DEFECTS, RESET -/

/-- UNMOUNT in each mount state (R51, R52, R53, R57, R58, R185). WRONG_STATE in UNMOUNTED; OK and nothing else in DRAINING. In MOUNTED OK at
once, the latch set, spin demand fallen, the active line unpinned; with a non-clean sector, CAPTURE counted, the mount is DRAINING, every
line keeps its track and its bytes, the sector of a capture in progress is DIRTY and every line with write-back work stands in the flush
queue; with none it is UNMOUNTED, every line FREE, and MOUNT_STATE reports a count of 0 (a sector write in progress holds a CAPTURE sector,
R114, so that none is in progress then). In LOST every line FREE, the defect list and the mount record cleared and MOUNT_STATE posted with
the count of non-clean sectors. A capture in progress is abandoned, the unit in DISCARD while the gate is active, else IDLE (R125, R137); the
arming of FLUSH_DONE stays in DRAINING and is cleared without a notice at UNMOUNTED (R81).
DEFECTS (R187, R87): the count as detail and four bytes for each entry in order; with CLEAR the list is then empty and the defective part
of every sector of a line that holds a track is false; every other part of every line and sector, and everything else outside the link, is
as before. -/
def Obligations.UnmountAndDefectsRequests : Prop :=
  (∀ (s : State) (tag : Byte), s.takesRequests → s.Follows →
    ∃ u t, exec (.unmount tag []) s = .next t ∧ Reacted s u t ∧
      (s.mount.state = .unmounted → s.Answers u 0x05#8 tag [0x03#8, 0x00#8]) ∧
      (s.mount.state = .draining → s.Answers u 0x05#8 tag [0x00#8, 0x00#8]) ∧
      (s.mount.state = .mounted →
        u.link.hasReply 0x85#8 tag [0x00#8, 0x00#8] ∧ u.drive = { s.drive with latch := true } ∧
        u.rot = { s.rot with state := .stopped, spinTimer := none } ∧ u.cap.st = s.abandoned ∧ u.cache.idleTimer = none ∧
        u.cache.waiting = none ∧ u.cache.forced = none ∧ u.cache.pins = 0 ∧ u.cache.lru = s.cache.lru ∧ u.cache.ram = s.cache.ram ∧
        ((∃ i l x, s.cache.sector i l = some x ∧ (x.state = .dirty ∨ x.state = .capture ∨ x.state = .flush)) → s.cache.nonClean ≠ 0) ∧
        (s.cache.nonClean ≠ 0 →
          u.mount = { s.mount with state := .draining } ∧ u.cache.defects = s.cache.defects ∧ u.cache.armed = s.cache.armed ∧
          (∀ k, (u.cache.line k).tag = (s.cache.line k).tag) ∧
          (∀ k l, (∀ i, (s.cap.st = .hunt ∨ s.cap.st = .sectorData) → s.cap.line = some i → k ≠ i ∨ l ≠ s.cap.logical) →
            u.cache.sector k l = s.cache.sector k l) ∧
          (∀ i x, (s.cap.st = .hunt ∨ s.cap.st = .sectorData) → s.cap.line = some i → s.cache.sector i s.cap.logical = some x →
            ∃ y, u.cache.sector i s.cap.logical = some y ∧ y.state = .dirty) ∧
          (s.cache.lru.Perm (List.range 8) → ∀ k < 8, u.cache.hasWriteWork u.geom u.writeRuns k = true → k ∈ u.cache.flushQ)) ∧
        (s.cache.nonClean = 0 → s.cap.st ≠ .hunt → s.cap.st ≠ .sectorData →
          u.mount = Mount.cleared s.mount.serial ∧ u.cache.lines = s.cache.lines.map (fun _ => Line.free) ∧ u.cache.defects = [] ∧
          u.cache.flushQ = [] ∧ u.cache.armed = false ∧
          (s.link.options.noticeMask.getLsbD 1 = true → s.link.notices.length < 16 → u.link.hasNotice (.mountState .unmounted 0)))) ∧
      (s.mount.state = .lost →
        u.link.hasReply 0x85#8 tag [0x00#8, 0x00#8] ∧ u.mount = Mount.cleared s.mount.serial ∧
        u.cache.lines = s.cache.lines.map (fun _ => Line.free) ∧ u.cache.defects = [] ∧ u.cache.flushQ = [] ∧ u.cache.armed = false ∧
        u.cache.lru = s.cache.lru ∧ u.cache.ram = s.cache.ram ∧ u.drive = { s.drive with latch := true } ∧ u.rot = s.rot ∧
        u.cap = s.cap ∧ (s.link.options.noticeMask.getLsbD 1 = true → s.link.notices.length < 16 →
          u.link.hasNotice (.mountState .unmounted s.cache.nonClean))) ∧
      u.card.state = s.card.state ∧ u.card.capacity = s.card.capacity ∧ u.prof = s.prof ∧ u.inputs = s.inputs ∧ u.powered = true ∧
      u.pending = s.pending ∧ u.link.options = s.link.options) ∧
  (∀ (s : State) (tag : Byte) (b : Byte), s.takesRequests → b.toNat ≤ 1 →
    let data := s.cache.defects.flatMap (fun d => [byteOf d.track.cyl, byteOf d.track.head, byteOf d.sector, d.reason.code])
    ∃ t, exec (.defects tag [b]) s = .next t ∧
      t = { s with
        cache := t.cache
        link := s.link.answered ⟨0x09#8, tag, true, false, false⟩ (0x00#8 :: byteOf s.cache.defects.length :: data) } ∧
      t.link.hasReply 0x89#8 tag (0x00#8 :: byteOf s.cache.defects.length :: data) ∧
      (b = 0x00#8 → t.cache = s.cache) ∧
      (b = 0x01#8 → t.cache = { s.cache with
        defects := []
        lines := s.cache.lines.map (fun ln => if ln.tag = none then ln
          else { ln with sectors := ln.sectors.map (fun x => { x with defective := false }) }) }))

/-- FLUSH (R185, R81, R78): WRONG_STATE outside MOUNTED and DRAINING; otherwise OK at once, every line with write-back work stands in the
flush queue, once, those that stood there in their order, and FLUSH_DONE is armed, or posted at once, after the reply, when no sector is
non-clean; nothing else of the cache or the link changes. -/
def Obligations.FlushRequest : Prop :=
  ∀ (s : State) (tag : Byte), s.takesRequests →
    (s.mount.state ≠ .mounted → s.mount.state ≠ .draining →
      ∃ u t, exec (.flush tag []) s = .next t ∧ Reacted s u t ∧ s.Answers u 0x06#8 tag [0x03#8, s.mount.state.code]) ∧
    (s.mount.state = .mounted ∨ s.mount.state = .draining →
      ∃ u t, exec (.flush tag []) s = .next t ∧ Reacted s u t ∧ u = { s with cache := u.cache, link := u.link } ∧
        u.cache = { s.cache with flushQ := u.cache.flushQ, armed := decide (s.cache.nonClean ≠ 0) } ∧
        (s.cache.lru.Perm (List.range 8) →
          ∀ i, i ∈ u.cache.flushQ ↔ i ∈ s.cache.flushQ ∨ (i < 8 ∧ s.cache.hasWriteWork s.geom s.writeRuns i = true)) ∧
        s.cache.flushQ.Sublist u.cache.flushQ ∧ (s.cache.flushQ.Nodup → s.cache.lru.Nodup → u.cache.flushQ.Nodup) ∧
        (let answered := s.link.answered ⟨0x06#8, tag, true, false, false⟩ [0x00#8, 0x00#8]
         u.link = if s.cache.nonClean = 0 then answered.post (.flushDone true) else answered) ∧
        u.link.hasReply 0x86#8 tag [0x00#8, 0x00#8] ∧
        (s.cache.nonClean = 0 → s.link.options.noticeMask.getLsbD 6 = true → s.link.notices.length < 16 →
          u.link.hasNotice (.flushDone true)))

/-- CARD_READ (R159, R186): CARD_NOT_READY, BLOCK_RANGE, or the block becomes PANEL work with no reply yet; nothing else changes. -/
def Obligations.CardReadRequest : Prop :=
  ∀ (s : State) (tag : Byte) (p : List Byte), s.takesRequests → p.length = 4 →
    let block := (byteAt p 0).toNat + 256 * (byteAt p 1).toNat + 65536 * (byteAt p 2).toNat + 16777216 * (byteAt p 3).toNat
    let answers := fun bs => ∃ u t, exec (.cardRead tag p) s = .next t ∧ Reacted s u t ∧ s.Answers u 0x07#8 tag bs
    (s.card.state ≠ .ready → answers [0x04#8, s.card.state.code]) ∧
    (s.card.state = .ready → s.card.capacity ≤ block → answers [0x02#8, 0x22#8, 0xFF#8]) ∧
    (s.card.state = .ready → block < s.card.capacity →
      ∃ u t, exec (.cardRead tag p) s = .next t ∧ Reacted s u t ∧
        u = { s with card := { s.card with panel := some { write := false, block := block, data := [] } },
                     link := { s.link with rx := .hunt, rxBytes := [], rxTimer := none, executing := some ⟨0x07#8, tag, false, false, false⟩ } })

/-- CARD_WRITE (R160, R186): CARD_NOT_READY, BLOCK_RANGE, WRITE_PROTECTED, IN_IMAGE for a block of the mount's chain, in this order, or the
block and its 512 bytes become PANEL work with no reply yet; nothing else changes. -/
def Obligations.CardWriteRequest : Prop :=
  ∀ (s : State) (tag : Byte) (p : List Byte), s.takesRequests → p.length = 516 →
    let block := (byteAt p 0).toNat + 256 * (byteAt p 1).toNat + 65536 * (byteAt p 2).toNat + 16777216 * (byteAt p 3).toNat
    let inImage := s.mount.state ≠ .unmounted ∧ ∃ e ∈ s.mount.chain, e.skip = false ∧ e.start ≤ block ∧ block < e.start + e.count
    let answers := fun bs => ∃ u t, exec (.cardWrite tag p) s = .next t ∧ Reacted s u t ∧ s.Answers u 0x08#8 tag bs
    (s.card.state ≠ .ready → answers [0x04#8, s.card.state.code]) ∧
    (s.card.state = .ready → s.card.capacity ≤ block → answers [0x02#8, 0x22#8, 0xFF#8]) ∧
    (s.card.state = .ready → block < s.card.capacity → s.card.wp = true → answers [0x07#8, 0x00#8]) ∧
    (s.card.state = .ready → block < s.card.capacity → s.card.wp = false → inImage → answers [0x06#8, 0x00#8]) ∧
    (s.card.state = .ready → block < s.card.capacity → s.card.wp = false → ¬ inImage →
      ∃ u t, exec (.cardWrite tag p) s = .next t ∧ Reacted s u t ∧
        u = { s with card := { s.card with panel := some { write := true, block := block, data := p.drop 4 } },
                     link := { s.link with rx := .hunt, rxBytes := [], rxTimer := none, executing := some ⟨0x08#8, tag, false, false, false⟩ } })

/-- RESET (R188): WRONG_STATE while a sector is non-clean and FORCE is clear; otherwise OK, and the reset then waits for the reply to go:
nothing but the link changes, and the request in execution is marked. -/
def Obligations.ResetRequest : Prop :=
  ∀ (s : State) (tag : Byte) (b : Byte), s.takesRequests → b.toNat ≤ 1 →
    (s.cache.nonClean ≠ 0 → b = 0x00#8 →
      ∃ t, exec (.reset tag [b]) s = .next t ∧ s.Answers t 0x0A#8 tag [0x03#8, s.mount.state.code]) ∧
    (s.cache.nonClean = 0 ∨ b = 0x01#8 →
      ∃ t, exec (.reset tag [b]) s = .next t ∧
        t = { s with link := s.link.answered ⟨0x0A#8, tag, true, false, true⟩ [0x00#8, 0x00#8] } ∧
        t.link.hasReply 0x8A#8 tag [0x00#8, 0x00#8] ∧ t.link.executing = some ⟨0x0A#8, tag, true, false, true⟩)

/-! ## The service link -/

/-- UNKNOWN_KIND and FRAME_ERROR (R165, R168, R191): the receiver goes to RX_HUNT and the reply is made, or not made when three replies of the
link unit's own wait; the request in execution, the rest of the link and everything outside it stay; during a link break nothing is taken
(R175). A length outside 2..530, a framing fault and the inter-character timer's expiry discard the partial frame silently (R164, R166, R167). -/
def Obligations.BadFramesAndDiscards : Prop :=
  (∀ (s : State) (c : Instr) (tag : Byte) (st : ReplyStatus), s.powered = true →
    ((∃ k, c = .unknownKind k tag ∧ st = .unknownKind) ∨ (c = .frameError ∧ tag = 0xFF#8 ∧ st = .frameError)) →
    (s.link.breakLow = true → exec c s = .next s) ∧
    (s.link.breakLow = false → s.link.replies.countP (fun r => !r.ofRequest) < 3 →
      ∃ t, exec c s = .next t ∧ t = { s with link := s.link.ownReplied 0x80#8 tag st } ∧
        t.link.executing = s.link.executing ∧ t.link.hasOwnReply 0x80#8 tag st) ∧
    (s.link.breakLow = false → 3 ≤ s.link.replies.countP (fun r => !r.ofRequest) →
      exec c s = .next { s with link := { s.link with rx := .hunt, rxBytes := [], rxTimer := none } })) ∧
  (∀ s : State, s.powered = true →
    ∀ c ∈ [Instr.badLengthDiscard, .framingFault, .interCharacterTimeout],
      exec c s = .next { s with link := { s.link with rx := .hunt, rxBytes := [], rxTimer := none } })

/-- The characters of a frame (R164, R165, R166): the start byte, the two length bytes, the body by count and the two check bytes; the timer
restarts at each, at 20 ms and one character time, the model's choice (log 21); during a link break none is taken (R175). A character that
does not complete a frame changes the receiver alone; the one that does leaves the receiver in RX_HUNT and hands the frame on, whose row
`FramesArriveAsTheyWereSent` names. -/
def Obligations.CharactersMoveTheReceiver : Prop :=
  ∀ (s : State) (c : Byte), s.powered = true →
    let takes := fun (rx : RxState) (bytes : List Byte) =>
      exec (.characterReceived c) s =
        .next { s with link := { s.link with rx := rx, rxBytes := bytes,
                                             rxTimer := some (12 * 480000 + (if s.link.fast then 6250 else 25000)) } }
    (s.link.breakLow = true → s.link.rx = .hunt → exec (.characterReceived c) s = .next s) ∧
    (s.link.breakLow = false → s.link.rx = .hunt → c ≠ 0xC5#8 → exec (.characterReceived c) s = .next s) ∧
    (s.link.breakLow = false → s.link.rx = .hunt → c = 0xC5#8 → takes .length []) ∧
    (s.link.breakLow = false → s.link.rx = .length → s.link.rxBytes = [] → takes .length [c]) ∧
    (∀ low, s.link.breakLow = false → s.link.rx = .length → s.link.rxBytes = [low] →
      (2 ≤ low.toNat + 256 * c.toNat ∧ low.toNat + 256 * c.toNat ≤ 530 → takes .body [low, c]) ∧
      (¬ (2 ≤ low.toNat + 256 * c.toNat ∧ low.toNat + 256 * c.toNat ≤ 530) →
        exec (.characterReceived c) s = .next { s with link := { s.link with rx := .hunt, rxBytes := [], rxTimer := none } })) ∧
    (s.link.breakLow = false → s.link.rx = .body → 2 ≤ s.link.rxBytes.length →
      (s.link.rxBytes.length + 1 < frameLength s.link.rxBytes + 2 → takes .body (s.link.rxBytes ++ [c])) ∧
      (frameLength s.link.rxBytes + 2 ≤ s.link.rxBytes.length + 1 → takes .check (s.link.rxBytes ++ [c]))) ∧
    (s.link.breakLow = false → s.link.rx = .check → 2 ≤ s.link.rxBytes.length →
      s.link.rxBytes.length + 1 < frameLength s.link.rxBytes + 4 → takes .check (s.link.rxBytes ++ [c])) ∧
    (s.link.breakLow = false → s.link.rx = .check → 2 ≤ s.link.rxBytes.length →
      frameLength s.link.rxBytes + 4 ≤ s.link.rxBytes.length + 1 →
      exec (.characterReceived c) s = .next (s.discardFrame.frameDone (s.link.rxBytes ++ [c])))

/-- A frame as R180 lays it out, received character by character from RX_HUNT, is dispatched with its kind, its tag and its payload, whatever
they are, and leaves the receiver in RX_HUNT: no byte is dropped, and its check is good (R23, R164, R165). What a dispatched frame does is
what the row of its kind does, of UNKNOWN_KIND for a kind that is none of the ten (R168), and what a frame with any other check bytes does
is what FRAME_ERROR does (R165). -/
def Obligations.FramesArriveAsTheyWereSent : Prop :=
  (∀ (s : State) (kind tag : Byte) (payload : List Byte), s.link.breakLow = false → s.link.rx = .hunt → payload.length ≤ 528 →
    (frameBytes kind tag payload).foldl State.character s = s.discardFrame.dispatch kind tag payload) ∧
  (∀ (s : State) (kind tag : Byte) (payload : List Byte), s.powered = true →
    (∀ c, requestRow kind.toNat tag payload = some c → exec c s = .next (s.dispatch kind tag payload)) ∧
    (requestRow kind.toNat tag payload = none → exec (.unknownKind kind tag) s = .next (s.dispatch kind tag payload))) ∧
  (∀ (s : State) (bytes : List Byte), s.powered = true → crcBytes crcPreset bytes ≠ 0#16 → exec .frameError s = .next (s.frameDone bytes))

/-- FRAME_SENT (R169, R171, R188): the transmitter takes the oldest reply, else the oldest notice, else it is idle; a request whose reply has
gone leaves execution, and a RESET answered OK takes effect next, the transmitter silent. With no frame in sending, where it cannot occur,
it does nothing (log 9). While a link break lasts (R174, R175) a frame
that ends, which is cut off and no reply, leaves the transmitter silent, whatever is queued, until the line returns high. The sending time
left counts in twelfths of a fine tick (log 21). The transmit line (R163): high while the transmitter is idle; while a frame is in
sending, bit k of character n for the tenth of a character time that has begun: low for the start bit, the eight data bits least
significant first, high for the stop bit, one character directly after the other. That an idle transmitter's line is high without
supply too is the model's choice (log 37). -/
def Obligations.FrameSentChoosesTheNext : Prop :=
  (∀ l : Link,
    (l.tx ≠ none ∨ l.breakLow = true ∨ l.resetDue = true → l.startTx = l) ∧
    (l.tx = none → l.breakLow = false → l.resetDue = false →
      (∀ r rest, l.replies = r :: rest → l.startTx = { l with
        replies := rest, tx := some { bytes := frameBytes r.kind r.tag r.payload, ofRequest := r.ofRequest,
                                      left := (frameBytes r.kind r.tag r.payload).length * l.charTime } }) ∧
      (∀ n rest, l.replies = [] → l.notices = n :: rest → l.startTx = { l with
        notices := rest, tx := some { bytes := n.frame, ofRequest := false, left := n.frame.length * l.charTime } }) ∧
      (l.replies = [] → l.notices = [] → l.startTx = l))) ∧
  (∀ s : State, s.powered = true →
    (s.link.tx = none → exec .frameSent s = .next s) ∧
    (∀ f, s.link.tx = some f → f.ofRequest = false ∨ s.link.executing = none →
      exec .frameSent s = .next { s with link := Link.startTx { s.link with tx := none } }) ∧
    (∀ f q, s.link.tx = some f → f.ofRequest = true → s.link.executing = some q → q.resets = false →
      exec .frameSent s = .next { s with link := Link.startTx { s.link with tx := none, executing := none } }) ∧
    (∀ f q, s.link.tx = some f → f.ofRequest = true → s.link.executing = some q → q.resets = true →
      exec .frameSent s = .next { s with link := { s.link with tx := none, resetDue := true } }) ∧
    (∀ f, s.link.breakLow = true → s.link.tx = some f → f.ofRequest = false →
      exec .frameSent s = .next { s with link := { s.link with tx := none } })) ∧
  (∀ l : Link,
    (l.charTime = if l.fast then 6250 else 25000) ∧ (l.tx = none → l.txLine = true) ∧
    (∀ f n k rest, l.tx = some f → n < f.bytes.length → k < 10 → rest < l.charTime / 10 →
      f.left + n * l.charTime + k * (l.charTime / 10) + rest = f.bytes.length * l.charTime →
      l.txLine = if k = 0 then false else if k = 9 then true else (byteAt f.bytes n).getLsbD (k - 1)))

/-- A posted notice (R172, R173): masked off it leaves no mark; with fewer than 16 waiting it joins at the back with the DROPPED bit as the
mark stands, which clears the mark, and may begin to be sent; with 16 waiting it is dropped and sets the mark. An EXTENT_REACHED (R60):
while one that was posted for the same mount waits, its extents are added to that one's set and nothing else changes, also with 16
waiting; one of another mount, and one that has begun to be sent, takes no addition; with none of the mount waiting it is queued or
dropped as any other, with its own set. -/
def Obligations.NoticesAreMaskedQueuedOrDropped : Prop :=
  (∀ (l : Link) (b : NoticeBody), (∀ m set, b ≠ .extentReached m set) →
    (l.options.noticeMask.getLsbD (b.code - 1) = false → l.post b = l) ∧
    (l.options.noticeMask.getLsbD (b.code - 1) = true → 16 ≤ l.notices.length → l.post b = { l with dropped := true }) ∧
    (l.options.noticeMask.getLsbD (b.code - 1) = true → l.notices.length < 16 →
      l.post b = Link.startTx { l with notices := l.notices ++ [{ body := b, dropped := l.dropped }], dropped := false } ∧
      (l.post b).dropped = false ∧ (l.post b).hasNotice b)) ∧
  (∀ (l : Link) (m : Nat) (set : BitVec 64),
    let waits := ∃ n ∈ l.notices, ∃ old, n.body = .extentReached m old
    (l.options.noticeMask.getLsbD 5 = false → l.post (.extentReached m set) = l) ∧
    (l.options.noticeMask.getLsbD 5 = true → waits →
      l.post (.extentReached m set) = { l with notices := l.notices.map (fun n =>
        match n.body with
        | .extentReached k old => if k = m then { n with body := .extentReached k (old ||| set) } else n
        | _ => n) }) ∧
    (l.options.noticeMask.getLsbD 5 = true → ¬ waits → 16 ≤ l.notices.length → l.post (.extentReached m set) = { l with dropped := true }) ∧
    (l.options.noticeMask.getLsbD 5 = true → ¬ waits → l.notices.length < 16 →
      l.post (.extentReached m set) =
        Link.startTx { l with notices := l.notices ++ [{ body := .extentReached m set, dropped := l.dropped }], dropped := false } ∧
      (l.post (.extentReached m set)).hasNotice (.extentReached m set)))

/-- LINK_BREAK (R174) and LINK_BREAK_END (R175): receiver in RX_HUNT, both queues empty and the mark cleared, options kept, nothing outside
the link; a frame in sending is cut off after the character in progress, at once between two characters (log 31), and what is left of it
is no reply of a request; a request whose reply was made leaves execution, or resets when it is a RESET answered OK; a reply still to be
made is marked to be dropped. A break lasts until its end; then a character still in sending goes on to its end, and with none the
transmitter chooses its next frame. A break during a break, and the end of one that does not last, cannot occur and do nothing (log 9). -/
def Obligations.LinkBreakAndItsEnd : Prop :=
  ∀ s : State, s.powered = true →
    (s.link.breakLow = true → exec .linkBreak s = .next s) ∧
    (s.link.breakLow = false →
      ∃ t, exec .linkBreak s = .next t ∧
        t = { s with link := { s.link with
          rx := .hunt, rxBytes := [], rxTimer := none, tx := t.link.tx, breakLow := true, replies := [], notices := [], dropped := false,
          executing := t.link.executing, resetDue := t.link.resetDue } } ∧
        (s.link.tx = none → t.link.tx = none) ∧
        (∀ f n rest, s.link.tx = some f → rest < (if s.link.fast then 6250 else 25000) →
          f.left = n * (if s.link.fast then 6250 else 25000) + rest →
          (rest = 0 → t.link.tx = none) ∧
          (rest ≠ 0 → t.link.tx = some { bytes := f.bytes.take (f.bytes.length - n), ofRequest := false, left := rest })) ∧
        (s.link.executing = none → t.link.executing = none ∧ t.link.resetDue = s.link.resetDue) ∧
        (∀ q, s.link.executing = some q → q.made = false →
          t.link.executing = some { q with drop := true } ∧ t.link.resetDue = s.link.resetDue) ∧
        (∀ q, s.link.executing = some q → q.made = true → q.resets = false →
          t.link.executing = none ∧ t.link.resetDue = s.link.resetDue) ∧
        (∀ q, s.link.executing = some q → q.made = true → q.resets = true →
          t.link.executing = some q ∧ t.link.resetDue = true)) ∧
    (s.link.breakLow = false → exec .linkBreakEnd s = .next s) ∧
    (s.link.breakLow = true → s.link.tx ≠ none → exec .linkBreakEnd s = .next { s with link := { s.link with breakLow := false } }) ∧
    (s.link.breakLow = true → s.link.tx = none →
      exec .linkBreakEnd s = .next { s with link := Link.startTx { s.link with breakLow := false } })

/-! ## The cyclic check and the encodings -/

/-- A field followed by its own check ends at 0000 hex, and any other pair of check bytes does not (R23); after the three A1 hex bytes the
register holds CDB4 hex; the text "123456789" gives 29B1 hex. -/
def Obligations.CheckOfAFieldWithItsCheck : Prop :=
  (∀ (bs : List Byte) (hi lo : Byte), crcBytes crcPreset (bs ++ [hi, lo]) = 0#16 ↔ [hi, lo] = checkBytes (crcBytes crcPreset bs)) ∧
  (∀ bs : List Byte, crcBytes crcPreset ([0xA1#8, 0xA1#8, 0xA1#8] ++ bs) = crcBytes 0xCDB4#16 bs) ∧
  crcBytes crcPreset [0x31#8, 0x32#8, 0x33#8, 0x34#8, 0x35#8, 0x36#8, 0x37#8, 0x38#8, 0x39#8] = 0x29B1#16

/-- A byte sent by the presentation unit is the byte that the capture unit reads from the same sixteen cells, in both encodings, for ordinary
bytes and for marks (R91 to R94, R110). Cell 2 k + 1 of a byte carries its bit 7 - k; cell 2 k is its clock: in MFM 1 exactly between two
zero bits, the bit before the first being the previous data bit, whatever that is (R92); in FM the bit 7 - k of the clock pattern, FF hex
for an ordinary byte, C7 and D7 hex for the marks (R94). The marks' cells are those of R93, R94 and R111, the gap and sync bytes' those of
R92 and R94. -/
def Obligations.CellsCarryTheByte : Prop :=
  (∀ (e : Encoding) (prev : Bool) (m : MarkByte) (b : Byte) (before : BitVec 48),
    (e = .mfm → m = .address → b = 0xA1#8) → (e = .mfm → m = .index → b = 0xC2#8) →
    dataByte (before ++ encodeByte e prev m b) = b) ∧
  (∀ (prev : Bool) (b : Byte) (k : Nat), k < 8 →
    let before := fun k => if k = 0 then prev else b.getLsbD (8 - k)
    (encodeByte .mfm prev .plain b).getLsbD (14 - 2 * k) = b.getLsbD (7 - k) ∧
    ((encodeByte .mfm prev .plain b).getLsbD (15 - 2 * k) = true ↔ before k = false ∧ b.getLsbD (7 - k) = false) ∧
    (∀ mark clock, (mark, clock) ∈ [(MarkByte.plain, 0xFF#8), (.address, 0xC7#8), (.index, 0xD7#8)] →
      (encodeByte .fm prev mark b).getLsbD (14 - 2 * k) = b.getLsbD (7 - k) ∧
      (encodeByte .fm prev mark b).getLsbD (15 - 2 * k) = clock.getLsbD (7 - k))) ∧
  (∀ prev, encodeByte .fm prev .plain 0xFF#8 = 0xFFFF#16 ∧ encodeByte .fm prev .plain 0x00#8 = 0xAAAA#16) ∧
  encodeByte .mfm false .plain 0x4E#8 = 0x9254#16 ∧ encodeByte .mfm false .plain 0x00#8 = 0xAAAA#16 ∧
  (∀ prev, encodeByte .mfm prev .address 0xA1#8 = 0x4489#16 ∧ encodeByte .mfm prev .index 0xC2#8 = 0x5224#16 ∧
    encodeByte .fm prev .address 0xFE#8 = 0xF57E#16 ∧ encodeByte .fm prev .address 0xFB#8 = 0xF56F#16 ∧
    encodeByte .fm prev .index 0xFC#8 = 0xF77A#16)

/-! ## Selection, steps, sides, motor and rotation -/

/-- DRIVE_SELECT_CHANGE (R24, R26, R34, R39, R121): only the line that the select line option names has an effect; the selected flag follows
it, a selection samples SIDE, the gate condition and spin demand are worked out again, in any order (log 16); head, direction, latch,
rotation time, mount, card and options stay, and so does the active line unless the side changed or a track waited. What the parts of a
selection or deselection are: a side that differs from the line's is a side change, which runs the arrival and ends a capture in progress;
with WRITE GATE asserted the gate condition rises or falls, and the capture unit takes that as a rise or a fall of the gate. The cache
reacts to each of them (log 20); `SideChangeIsFollowed`, `WriteGateRiseIsClassified` and `SectorWritesEnd` say what they do. -/
def Obligations.DriveSelectChange : Prop :=
  (∀ v : State,
    let now := v.drive.selected && v.inputs.writeGate
    let gated : State := { v with drive := { v.drive with gateActive := now } }
    let turned := ({ v with drive := { v.drive with side := v.inputs.side } } : State).arrival v.currentTrack
    v.selectionEffects =
      (if v.drive.selected = true ∧ v.inputs.side ≠ v.drive.side then [State.reworkSide] else []) ++
        (if v.spinDemand ≠ decide (v.rot.state ≠ .stopped) then [State.reworkSpin] else []) ++
        (if now ≠ v.drive.gateActive then [State.reworkGate] else []) ∧
    (v.inputs.side ≠ v.drive.side → v.reworkSide = turned.captureSideChange.react turned.cache) ∧
    (now = true → v.drive.gateActive = false → v.reworkGate = gated.captureRise.react v.cache) ∧
    (now = false → v.drive.gateActive = true → v.reworkGate = gated.captureFall.react v.cache)) ∧
  ∀ (s : State) (line : Fin 4) (asserted : Bool), s.powered = true → s.Follows →
    ∃ u t, exec (.driveSelectChange line asserted) s = .next t ∧ Reacted u u t ∧
      ({ s with inputs := u.inputs } : State).Selects u ∧
      (∀ n : Fin 4, selectLevel u.inputs n = if n = line then asserted else selectLevel s.inputs n) ∧
      (u.inputs = { s.inputs with
        select0 := u.inputs.select0, select1 := u.inputs.select1, select2 := u.inputs.select2, select3 := u.inputs.select3 }) ∧
      (s.link.options.selectLine ≠ line.val → u = { s with inputs := u.inputs }) ∧
      (s.link.options.selectLine = line.val →
        u.drive = { s.drive with
          selected := asserted, side := if asserted then s.inputs.side else s.drive.side,
          gateActive := asserted && s.inputs.writeGate }) ∧
      (u.rot.state ≠ .stopped ↔ u.spinDemand = true) ∧ (s.link.options.motorSource = .motorLine → u.rot = s.rot) ∧
      u.rot.t = s.rot.t ∧ u.rot.fine = s.rot.fine ∧ u.mount = s.mount ∧ u.card = s.card ∧ u.prof = s.prof ∧
      u.link.options = s.link.options ∧ u.powered = true ∧ u.pending = s.pending ∧
      (u.drive.side = s.drive.side → s.cache.waiting = none → u.cache.active = s.cache.active)

/-- STEP (R25, R28, R71, R104): an edge while deselected or with the gate active has no effect on any state; a taken one sets the direction,
moves the head by one within 0..83, clears the latch in MOUNTED, and runs the arrival when the current track changes. The arrival clears
the decision record and keeps the previous data bit (R104); that it leaves the check register idle, the count 0 and no byte cell is the
model's choice (log 29). The cache reacts to it at once (log 20). -/
def Obligations.StepMovesTheHead : Prop :=
  ∀ (s : State) (dirIn : Bool), s.powered = true →
    (s.drive.selected = false ∨ s.drive.gateActive = true → exec (.step dirIn) s = .next s) ∧
    (s.drive.selected = true → s.drive.gateActive = false →
      let v : State := { s with drive := { s.drive with
        lastIn := dirIn
        head := if dirIn then (if s.drive.head < 83 then s.drive.head + 1 else 83) else s.drive.head - 1
        latch := if s.mount.state = .mounted then false else s.drive.latch } }
      let a : State := { v with
        cache := s.cache.arrive s.geom s.mount s.link.options.fillLead s.rot.t v.currentTrack
        pres := { Present.reset with prevBit := s.pres.prevBit } }
      ∃ u t, exec (.step dirIn) s = .next t ∧ Reacted u u t ∧
        (s.mount.state ≠ .mounted ∨ v.currentTrack = s.currentTrack → u = v) ∧
        (s.mount.state = .mounted → v.currentTrack ≠ s.currentTrack → u = a.react s.cache))

/-- SIDE_CHANGE (R26, R28, R71, R104, R124, R136): not followed while deselected; a level equal to the side held changes nothing; a side change runs
the arrival, and then ends a capture in progress as a fall of the gate would: a HUNT quietly before the data mark's place, else with
NO_MARK; SECTOR_DATA torn, with the bytes received and the bits of a byte begun; a track write by its comparison; SECTOR_TAIL and DISCARD
without a store or a notice. The unit is then in DISCARD while the gate is active, else IDLE (record, scratch and found-ID list are kept in
DISCARD and cleared in IDLE, log 26).
The cache reacts to the arrival before the capture ends, and then to its end (log 20). The arrival clears the decision record and keeps
the previous data bit (R104); that it leaves the check register idle, the count 0 and no byte cell is log 29. Head, latch, direction,
rotation, mount and card stay. -/
def Obligations.SideChangeIsFollowed : Prop :=
  ∀ (s : State) (b : Bool), s.powered = true →
    let x := { s.inputs with side := b }
    (s.drive.selected = false → exec (.sideChange b) s = .next { s with inputs := x }) ∧
    (s.drive.selected = true → b = s.drive.side →
      ∃ t, exec (.sideChange b) s = .next t ∧ Reacted { s with inputs := x } { s with inputs := x } t) ∧
    (s.drive.selected = true → b ≠ s.drive.side →
      let v : State := { s with inputs := x, drive := { s.drive with side := b } }
      ∃ a u t, exec (.sideChange b) s = .next t ∧ Reacted u u t ∧
        (s.mount.state ≠ .mounted ∨ v.currentTrack = s.currentTrack → a = v) ∧
        (s.mount.state = .mounted → v.currentTrack ≠ s.currentTrack →
          a = ({ v with
            cache := s.cache.arrive s.geom s.mount s.link.options.fillLead s.rot.t v.currentTrack
            pres := { Present.reset with prevBit := s.pres.prevBit } } : State).react s.cache) ∧
        a = v.arrival s.currentTrack ∧ u = a.captureSideChange.react a.cache ∧
        (let aside := fun v : State =>
          { v with cap := if s.drive.gateActive then { v.cap with st := .discard, fluxOpen := none, empties := 0 } else Capture.idle }
         (s.cap.st = .idle → u = a) ∧
         (s.cap.st = .sectorTail ∨ s.cap.st = .discard → u = aside a) ∧
         (s.cap.st = .hunt →
           u = (aside (a.endSectorWrite [] (if s.capOffset < (match s.capZone.encoding with | .mfm => 56 | .fm => 30)
             then .quiet else .faulty .noMark))).react a.cache) ∧
         (s.cap.st = .sectorData → s.cap.valid < 16 →
           ∃ bs : List Byte, u = (aside (a.endSectorWrite bs (.faulty .torn))).react a.cache ∧
             (∀ k, k < min s.cap.received s.capLayout.sectorSize → byteAt bs k = memRead s.cap.scratch k) ∧
             (s.capLayout.sectorSize ≤ s.cap.received → bs.length = s.capLayout.sectorSize) ∧
             (s.cap.received < s.capLayout.sectorSize → s.cap.valid < 2 → bs.length = s.cap.received) ∧
             (s.cap.received < s.capLayout.sectorSize → 2 ≤ s.cap.valid → bs.length = s.cap.received + 1 ∧
               ∀ k < 8, (byteAt bs s.cap.received).getLsbD (7 - k) =
                 (decide (k < s.cap.valid / 2) && s.cap.shift.getLsbD (s.cap.valid - 2 - 2 * k)))) ∧
         (s.cap.st = .track → u = (aside a.endTrackWrite).react a.cache)) ∧
        u.inputs = x ∧ u.drive = { s.drive with side := b } ∧ u.rot = s.rot ∧
        u.mount = s.mount ∧ u.card = s.card ∧ u.prof = s.prof ∧ u.free = s.free ∧ u.powered = true ∧ u.pending = s.pending ∧
        u.link.options = s.link.options ∧ u.link.executing = s.link.executing ∧
        (s.cap.st ≠ .idle → u.cap.st = if s.drive.gateActive then .discard else .idle))

/-- MOTOR_ON_CHANGE, SPIN_UP_TIMER_EXPIRY, ROTATION_WRAP outside a track write, and INDEX_PULSE_END (R34 to R37): the table of the
rotation state machine; a fall of spin demand from AT_SPEED puts every line with write-back work into the flush queue (R78); nothing else
changes. An expiry outside SPINNING_UP, which cannot occur, only stops the timer (log 9). The rotation time restarts at 0 at a wrap; from
6,000 on INDEX is inactive. Commanded before its time either
sets the rotation time there, which is the model's choice (log 2). -/
def Obligations.MotorAndRotationTimer : Prop :=
  (∀ (s : State) (b : Bool), s.powered = true → s.Follows →
    let demand := s.mount.state = .mounted ∧ (if s.link.options.motorSource = .motorLine then b = true else s.drive.selected = true)
    ∃ u t, exec (.motorOnChange b) s = .next t ∧ Reacted u u t ∧
      u = ({ s with inputs := { s.inputs with motorOn := b } } : State).reworkSpin ∧
      u = { s with inputs := { s.inputs with motorOn := b }, rot := u.rot, cache := { s.cache with flushQ := u.cache.flushQ } } ∧
      (demand → s.rot.state = .stopped →
        u.rot = (if s.link.options.spinUp = 0 then { s.rot with state := .atSpeed, spinTimer := none }
                 else { s.rot with state := .spinningUp, spinTimer := some (24000 * s.link.options.spinUp) })) ∧
      (demand → s.rot.state ≠ .stopped → u.rot = s.rot) ∧
      (¬ demand → u.rot = { s.rot with state := .stopped, spinTimer := none }) ∧
      (demand ∨ s.rot.state ≠ .atSpeed → u.cache = s.cache) ∧
      (¬ demand → s.rot.state = .atSpeed → s.cache.lru.Perm (List.range 8) →
        ∀ i, i ∈ u.cache.flushQ ↔ i ∈ s.cache.flushQ ∨ (i < 8 ∧ s.cache.hasWriteWork s.geom s.writeRuns i = true))) ∧
  (∀ s : State, s.powered = true →
    (s.rot.state = .spinningUp →
      exec .spinUpTimerExpiry s = .next { s with rot := { s.rot with state := .atSpeed, spinTimer := none } }) ∧
    (s.rot.state ≠ .spinningUp → exec .spinUpTimerExpiry s = .next { s with rot := { s.rot with spinTimer := none } }) ∧
    (s.cap.st ≠ .track → exec .rotationWrap s = .next { s with rot := { s.rot with t := 0, fine := 0 } }) ∧
    (∃ t, exec .indexPulseEnd s = .next t ∧ t.indexOut = false ∧
      t = { s with rot := if s.rot.t < 6000 then { s.rot with t := 6000, fine := 0 } else s.rot }))

/-! ## The track cache -/

/-- An arrival (R28, R69, R70, R74). At a track that a line carries, that line is the active one; at a track without a line, the FREE line
that stands furthest back in the LRU order is taken, and with none FREE the line furthest back that is evictable: neither FILLING nor
holding a non-clean sector (nothing is pinned at that moment). The line taken is the only one pinned, of origin DEMAND, at the front of the
order, without a MISSING sector, and set up as `AllocationSetsUpOneLine` says; the demand order starts at the first slot at or after the
target cell; every other line keeps its track and sectors, and its origin but for a line that is unpinned while FILLING with origin DEMAND,
which becomes AHEAD. Only when no line is FREE and none evictable the track waits, with nothing
pinned, and the unpinned line with a DIRTY sector that stands furthest back, if there is one, is the forced line at the front of the flush
queue. Off the image nothing is pinned. While a track waits, the allocation is tried again when a line has changed its state or its
non-clean sectors (log 19); a try that fails keeps a forced line with a DIRTY or FLUSH sector, and chooses afresh otherwise. The cache's
reactions to a change are this try and then read-ahead (`AllocationSetsUpOneLine`), in the order of log 20. -/
def Obligations.ArrivalsAndTheWaitingTrack : Prop :=
  (∀ (c : Cache) (g : Geometry) (m : Mount) (lead t : Nat), c.Sound →
    let furthest := fun (p : Nat → Prop) (i : Nat) => ∃ before after, c.lru = before ++ i :: after ∧ p i ∧ ∀ k ∈ after, ¬ p k
    let free := fun k => (c.line k).tag = none
    let evictable := fun k => (c.line k).tag ≠ none ∧ ∀ x ∈ (c.line k).sectors, x.state = .clean ∨ x.state = .missing
    let unsaved := fun k => ∃ x ∈ (c.line k).sectors, x.state = .dirty
    let choice := fun i => furthest free i ∨ ((∀ k < 8, ¬ free k) ∧ furthest evictable i)
    let kept := fun (d : Cache) (k : Nat) => (d.line k).tag = (c.line k).tag ∧ (d.line k).zone = (c.line k).zone ∧
      (d.line k).failures = (c.line k).failures ∧ (d.line k).sectors = (c.line k).sectors ∧
      (let falls := (c.line k).pinned = true ∧ (c.line k).lineState = .filling ∧ (c.line k).origin = .demand
       (falls → (d.line k).origin = .ahead) ∧ (¬ falls → (d.line k).origin = (c.line k).origin))
    let active := fun (d : Cache) (tr : Track) (i : Nat) =>
      i < 8 ∧ d.active = some i ∧ d.pins = 1 ∧ (d.line i).tag = some tr ∧ (d.line i).origin = .demand ∧
      d.lru = i :: c.lru.filter (· != i) ∧ d.waiting = none ∧ d.forced = none ∧ d.flushQ = c.flushQ ∧ d.defects = c.defects ∧
      (∀ k < 8, k ≠ i → kept d k) ∧
      (∀ q j, let y := g.layoutAt tr
        let p := y.cellAt t + lead * 3000 / y.byteTime
        q = (if p < y.capacity then p else p - y.capacity) →
        (j < (g.zoneAt tr).n ∧ q ≤ y.slotStart j ∧ ∀ b < j, y.slotStart b < q) ∨ (j = 0 ∧ ∀ b < (g.zoneAt tr).n, y.slotStart b < q) →
        d.demandStart = g.sectorOffset tr ((g.zoneAt tr).logicalOf j) / 512)
    let allocated := fun (d : Cache) (tr : Track) (i : Nat) =>
      active d tr i ∧ (d.line i).sectors = ((c.occupy g m i tr .demand).line i).sectors ∧ d.ram = (c.occupy g m i tr .demand).ram
    let forces := fun (d : Cache) =>
      (∀ f, furthest unsaved f → d.forced = some f ∧ d.flushQ = f :: c.flushQ.filter (· != f)) ∧
      ((∀ k < 8, ¬ unsaved k) → d.forced = none ∧ d.flushQ = c.flushQ)
    (let d := c.arrive g m lead t none
     d.pins = 0 ∧ d.waiting = none ∧ d.forced = none ∧ d.ram = c.ram ∧ d.lru = c.lru ∧ ∀ k < 8, kept d k) ∧
    (∀ tr, let d := c.arrive g m lead t (some tr)
      (∀ i, c.carrier tr = some i →
        active d tr i ∧ d.ram = c.ram ∧
        (d.line i).sectors = (c.line i).sectors.map (fun x => if x.state = .missing then { x with state := .pending, progress := [] } else x)) ∧
      (c.carrier tr = none →
        (∀ i, choice i → allocated d tr i) ∧
        ((∀ k < 8, ¬ free k ∧ ¬ evictable k) →
          d.waiting = some tr ∧ d.pins = 0 ∧ d.ram = c.ram ∧ d.lru = c.lru ∧ (∀ k < 8, kept d k) ∧ forces d) ∧
        ((∃ i, choice i) ∨ ∀ k < 8, ¬ free k ∧ ¬ evictable k))) ∧
    (∀ tr, c.waiting = some tr → let d := c.retryWaiting g m lead t tr
      (∀ i, choice i → allocated d tr i) ∧
      ((∀ k < 8, ¬ free k ∧ ¬ evictable k) →
        d = { c with forced := d.forced, flushQ := d.flushQ } ∧ (c.forced = none → forces d) ∧
        (∀ f, c.forced = some f →
          ((∃ x ∈ (c.line f).sectors, x.state = .dirty ∨ x.state = .flush) → d = c) ∧
          ((∀ x ∈ (c.line f).sectors, x.state ≠ .dirty ∧ x.state ≠ .flush) → forces d))))) ∧
  (∀ (s : State) (old : Cache), s.cache.Sound → old.Sound →
    let changed := ∃ k < 8, (old.line k).lineState ≠ (s.cache.line k).lineState ∨
      (old.line k).sectors.map (fun x => x.state.nonClean) ≠ (s.cache.line k).sectors.map (fun x => x.state.nonClean)
    (∀ tr, s.cache.waiting = some tr → s.mount.state = .mounted → changed →
      s.reactWaiting old = { s with cache := s.cache.retryWaiting s.geom s.mount s.link.options.fillLead s.rot.t tr }) ∧
    (s.cache.waiting = none ∨ s.mount.state ≠ .mounted ∨ ¬ changed → s.reactWaiting old = s) ∧
    s.react old = (s.reactWaiting old).reactAhead old)

/-- A line taken for a track (R69, R49): every hole sector CLEAN and filled with the zone's fill byte, every other PENDING, a defective part
for each entry of the defect list; bytes outside its data area stay. A sector is a hole when one of the image blocks it covers maps to no
card block (R49): an image block maps into the extent that holds it, counted from that extent's start, and a block of a SKIP extent or
past the chain's end maps to none (R48). Line states (R64). Read-ahead (R71, R72): with the mount MOUNTED, the option on and the active
line RESIDENT, it is considered (log 20) when that line has become so or has become
the active one, when another line has left FILLING, and when the
option has been turned on; the other head, then the next cylinder in the last step direction, head 0 and head 1, are tried in order. A
candidate off the image or that a line carries is passed over; otherwise the FREE line furthest back in the LRU order, or with none the
evictable one, from the third place on, is taken for it, unpinned with origin AHEAD, and moves to the second place; with none nothing
changes. -/
def Obligations.AllocationSetsUpOneLine : Prop :=
  (∀ (c : Cache) (g : Geometry) (m : Mount) (i : Nat) (tr : Track) (origin : Origin), i < c.lines.length →
    let d := c.occupy g m i tr origin
    d = { c with lines := d.lines, ram := d.ram } ∧ (∀ k, k ≠ i → d.line k = c.line k) ∧ (d.line i).tag = some tr ∧
      (d.line i).origin = origin ∧ (d.line i).pinned = false ∧ (d.line i).failures = 0 ∧ (d.line i).zone = g.zoneOf tr ∧
      (d.line i).sectors.length = (g.zoneAt tr).n ∧
      (∀ l x, d.sector i l = some x →
        x.hole = sectorHole g m tr l ∧ x.state = (if sectorHole g m tr l then .clean else .pending) ∧ x.progress = [] ∧
        x.defective = names c.defects tr ((g.zoneAt tr).firstSector + l)) ∧
      (c.ram.wf → ∀ a, a < i * 12288 ∨ i * 12288 + (g.zoneAt tr).n * (g.layoutAt tr).sectorSize ≤ a → memRead d.ram a = memRead c.ram a) ∧
      (c.ram.wf → ∀ l b, l < (g.zoneAt tr).n → b < (g.layoutAt tr).sectorSize → sectorHole g m tr l = true →
        memRead d.ram (i * 12288 + l * (g.layoutAt tr).sectorSize + b) = (g.zoneAt tr).fill)) ∧
  (∀ (g : Geometry) (m : Mount) (tr : Track) (l : Nat),
    let first := g.trackOffset tr + l * (g.layoutAt tr).sectorSize
    let covered := fun blk => first / 512 ≤ blk ∧ blk ≤ (first + (g.layoutAt tr).sectorSize - 1) / 512
    (sectorHole g m tr l = true ↔ ∃ blk, covered blk ∧ m.mapBlock blk = none) ∧
    ∀ blk, (g.covers tr l blk = true ↔ covered blk) ∧ (blk ∈ g.sectorBlocks tr l ↔ covered blk)) ∧
  (∀ (m : Mount) (blk : Nat),
    (∀ before e after, m.chain = before ++ e :: after →
      let sum := (before.map (fun x => x.count)).sum
      sum ≤ blk → blk < sum + e.count → m.mapBlock blk = if e.skip then none else some (e.start + (blk - sum), before.length)) ∧
    ((m.chain.map (fun x => x.count)).sum ≤ blk → m.mapBlock blk = none)) ∧
  (∀ ln : Line,
    let has := fun st => ∃ x ∈ ln.sectors, x.state = st
    (ln.lineState = .free ↔ ln.tag = none) ∧ (ln.lineState = .filling ↔ ln.tag ≠ none ∧ has .pending) ∧
    (ln.lineState = .failed ↔ ln.tag ≠ none ∧ ¬ has .pending ∧ has .missing) ∧
    (ln.lineState = .resident ↔ ln.tag ≠ none ∧ ¬ has .pending ∧ ¬ has .missing) ∧
    (ln.dirty = true ↔ has .dirty ∨ has .capture ∨ has .flush)) ∧
  (∀ (s : State) (old : Cache),
    let resident := fun (c : Cache) (i : Nat) (tr : Track) => c.active = some i ∧ (c.line i).lineState = .resident ∧ (c.line i).tag = some tr
    let moment := (∃ i tr, resident s.cache i tr ∧ ¬ resident old i tr) ∨
      ∃ k < 8, s.cache.active ≠ some k ∧ (old.line k).lineState = .filling ∧ (s.cache.line k).lineState ≠ .filling
    let may := s.mount.state = .mounted ∧ s.link.options.readAhead = true ∧ ∃ i tr, resident s.cache i tr
    let considers := fun u : State => ∀ i tr, resident s.cache i tr →
      u = { s with
        cache := (aheadCandidates s.geom.profile tr s.drive.lastIn).foldl (fun c x => Cache.tryAhead s.geom s.mount c x) s.cache }
    (may → considers s.lookAhead) ∧ (¬ may → s.lookAhead = s) ∧
    (may → moment → considers (s.reactAhead old)) ∧ (¬ (may ∧ moment) → s.reactAhead old = s) ∧
    (∀ i tr, resident s.cache i tr → considers { s with cache := s.cache.considerAhead s.geom s.mount s.drive.lastIn }) ∧
    ((∀ i tr, ¬ resident s.cache i tr) → s.cache.considerAhead s.geom s.mount s.drive.lastIn = s.cache)) ∧
  (∀ (p : Profile) (c h : Nat),
    let onImage := fun tracks : List Track => tracks.filter (fun x => decide (x.cyl < p.cylinders ∧ x.head < p.heads))
    aheadCandidates p ⟨c, h⟩ true = onImage [⟨c, 1 - h⟩, ⟨c + 1, 0⟩, ⟨c + 1, 1⟩] ∧
    aheadCandidates p ⟨0, h⟩ false = onImage [⟨0, 1 - h⟩] ∧
    aheadCandidates p ⟨c + 1, h⟩ false = onImage [⟨c + 1, 1 - h⟩, ⟨c, 0⟩, ⟨c, 1⟩]) ∧
  (∀ (c : Cache) (g : Geometry) (m : Mount) (tr : Track), c.Sound →
    let d := Cache.tryAhead g m c tr
    let furthest := fun (p : Nat → Prop) (i : Nat) =>
      ∃ before after, c.lru = before ++ i :: after ∧ 2 ≤ before.length ∧ p i ∧ ∀ k ∈ after, ¬ p k
    let free := fun k => (c.line k).tag = none
    let evictable := fun k =>
      (c.line k).tag ≠ none ∧ (c.line k).pinned = false ∧ ∀ x ∈ (c.line k).sectors, x.state = .clean ∨ x.state = .missing
    let choice := fun i => furthest free i ∨ ((∀ k ∈ c.lru.drop 2, ¬ free k) ∧ furthest evictable i)
    ((∃ k < 8, (c.line k).tag = some tr) → d = c) ∧ ((∀ k ∈ c.lru.drop 2, ¬ free k ∧ ¬ evictable k) → d = c) ∧
    ((∀ k < 8, (c.line k).tag ≠ some tr) → ∀ i first rest, choice i → c.lru = first :: rest →
      d = { c.occupy g m i tr .ahead with lru := first :: i :: rest.filter (· != i) }))

/-- IDLE_FLUSH_TIMER_EXPIRY (R80, R78): in MOUNTED every line with write-back work that does not stand in the flush queue joins it, once: the
forced line at its front, the others behind those that stand there, the line furthest back in the LRU order first; the timer stops; nothing
else changes. Write-back work is an image block of the line's track with a byte of a DIRTY sector, or of a FLUSH sector whose progress
lacks it while no write run of the standing mount in a slot holds it (log 13). Without a running timer nothing happens (log 2). -/
def Obligations.IdleFlushTimerExpiry : Prop :=
  ∀ s : State, s.powered = true →
    (s.cache.idleTimer = none → exec .idleFlushTimerExpiry s = .next s) ∧
    (s.cache.idleTimer ≠ none →
      ∃ u t, exec .idleFlushTimerExpiry s = .next t ∧ Reacted s u t ∧
        u = { s with cache := { s.cache with idleTimer := none, flushQ := u.cache.flushQ } } ∧
        (s.mount.state ≠ .mounted → u.cache.flushQ = s.cache.flushQ) ∧
        (s.mount.state = .mounted →
          (let joining := s.cache.lru.reverse.filter (fun i => s.cache.hasWriteWork s.geom s.writeRuns i && decide (i ∉ s.cache.flushQ))
           u.cache.flushQ = joining.filter (fun i => decide (s.cache.forced = some i)) ++ s.cache.flushQ ++
             joining.filter (fun i => decide (s.cache.forced ≠ some i))) ∧
          s.cache.flushQ.Sublist u.cache.flushQ ∧ (s.cache.flushQ.Nodup → s.cache.lru.Nodup → u.cache.flushQ.Nodup) ∧
          (s.cache.lru.Perm (List.range 8) →
            ∀ i, i ∈ u.cache.flushQ ↔ i ∈ s.cache.flushQ ∨ (i < 8 ∧ s.cache.hasWriteWork s.geom s.writeRuns i = true)) ∧
          (s.cache.forced = none → s.cache.flushQ <+: u.cache.flushQ))) ∧
    (let written := fun blk => ∃ r f, (s.card.active = some r ∨ s.card.queued = some r) ∧ r.kind = .flush ∧
        s.mount.state ≠ .unmounted ∧ r.mount = some s.mount.serial ∧ r.firstImage = some f ∧ f ≤ blk ∧ blk < f + r.count
     (∀ i blk, s.writeWork i blk = true ↔
      ∃ tr l x, (s.cache.line i).tag = some tr ∧ s.cache.sector i l = some x ∧ s.geom.covers tr l blk = true ∧
        (x.state = .dirty ∨ (x.state = .flush ∧ blk ∉ x.progress ∧ ¬ written blk))) ∧
     (∀ i, s.cache.hasWriteWork s.geom s.writeRuns i = true ↔
      ∃ tr blk, (s.cache.line i).tag = some tr ∧ s.geom.firstBlock tr ≤ blk ∧ blk ≤ s.geom.lastBlock tr ∧ s.writeWork i blk = true))

/-! ## Presentation decisions -/

/-- SLOT_DECISION and INDEX_FIELD_DECISION (R95, R96, R98, R100): at the start of the first cell of a slot, while READ DATA flows on a track
with an active line, the decision record takes the slot, the track, the line, FULL when the sector is CLEAN, DIRTY, FLUSH or CAPTURE, and the
defective part of a FULL one; at the start of the index field's first cell it takes FULL; nothing else ever changes. A decision that has
been taken stands. At any other time, and while a decision for the unit stands, neither command can occur, and nothing happens (logs 9 and
30). Not defective for a BLANK slot, and logical sector 0 and not defective in an INDEX_FIELD record, are log 5.
The stream (R90, R91, R97 to R103): an encoded cell begins every sixteenth of the byte time from the byte cell's start; with the first of
them the byte is fetched, and READ DATA pulses at each that is 1; the previous data bit takes a bit's value as its data cell begins (R92;
that the bit then counts as sent is log 36). A cell of a unit with a FULL decision carries the unit's field: of a slot
sync, ID mark, the ID bytes, their check, gap 2, sync, data mark, the sector's bytes as the line holds them then, their check with the low
byte inverted for a defective sector, gap 3, cell by cell; of the index field sync and the index mark. The check register is preset at the
first byte of a mark (MFM) or at the mark (FM) and takes every byte from there to its check; that the count of field bytes runs with it
and ends with the check is log 34. Any other cell, of a BLANK or undecided unit, of a gap, off the image or of a track without a line,
carries the gap byte, and a decision whose unit has passed is cleared. -/
def Obligations.DecisionsAtTheFirstCell : Prop :=
  (∀ s : State, s.powered = true →
    let opens := fun u => s.flowing = true ∧ s.rot.fine = 0 ∧ s.rot.t = s.cell * s.layoutHere.byteTime ∧ s.pres.decision.unit ≠ u
    (∀ tr i j x, opens (.slot j) → s.currentTrack = some tr → s.cache.active = some i → s.regionHere = .slot j 0 →
      s.cache.sector i (s.zoneHere.logicalOf j) = some x →
      let full := decide (x.state = .clean ∨ x.state = .dirty ∨ x.state = .flush ∨ x.state = .capture)
      exec .slotDecision s = .next { s with pres := { s.pres with
        decision := { unit := .slot j, track := some tr, line := some i, full := full, logical := s.zoneHere.logicalOf j,
                      defective := full && x.defective } } }) ∧
    (∀ tr i, opens .indexField → s.currentTrack = some tr → s.cache.active = some i → s.regionHere = .indexField 0 →
      exec .indexFieldDecision s = .next { s with pres := { s.pres with
        decision := { unit := .indexField, track := some tr, line := some i, full := true, logical := 0, defective := false } } }) ∧
    (s.currentTrack = none ∨ s.cache.active = none ∨ (∀ j, s.regionHere = .slot j 0 → ¬ opens (.slot j)) →
      exec .slotDecision s = .next s) ∧
    (s.currentTrack = none ∨ s.cache.active = none ∨ (s.regionHere = .indexField 0 → ¬ opens .indexField) →
      exec .indexFieldDecision s = .next s)) ∧
  (∀ s : State,
    let z := s.zoneHere
    let y := s.layoutHere
    let d := s.pres.decision
    let p := s.cell
    (s.currentTrack = none → z = s.geom.zone 0 ∧ y = s.geom.layout 0) ∧
    (∀ tr, s.currentTrack = some tr → z = s.geom.zoneAt tr ∧ y = s.geom.layoutAt tr) ∧
    (∀ j off, s.regionHere = .slot j off ↔ y.pre ≤ p ∧ p < y.slotsEnd ∧ j = (p - y.pre) / y.slotLen ∧ off = (p - y.pre) % y.slotLen) ∧
    (∀ k, s.regionHere = .indexField k ↔
      p < y.pre ∧ z.indexMark = true ∧ z.gap4a ≤ p ∧ k = p - z.gap4a ∧ k < (match z.encoding with | .mfm => 16 | .fm => 7)) ∧
    (s.unitHere = (match s.regionHere with | .slot j _ => .slot j | .indexField _ => .indexField | _ => .none)) ∧
    (let begins := fun m => m < 16 ∧ s.rot.fine = 0 ∧ s.rot.t = p * y.byteTime + m * (y.byteTime / 16)
     let u := fun m => if m = 0 then s.beginByte else s
     (s.flowing = false → s.present = s ∧ s.readDataOut = false) ∧
     (16 ≤ y.byteTime → s.flowing = true →
       (∀ m, begins m → (u m).pres.inCell = true →
         (s.readDataOut = (u m).pres.cells.getLsbD (15 - m)) ∧
         s.present = if m % 2 = 1 then { u m with pres := { (u m).pres with prevBit := (u m).pres.cells.getLsbD (15 - m) } } else u m) ∧
       (∀ m, begins m → (u m).pres.inCell = false → s.present = s ∧ s.readDataOut = false) ∧
       ((∀ m, ¬ begins m) → s.present = s ∧ s.readDataOut = false))) ∧
    (let sends := fun (byte : Byte) (mark : MarkByte) (crc : Option Check) (count : Nat) =>
       s.beginByte = { s with pres := { s.pres with
         decision := if d.unit = s.unitHere then d else Decision.none
         crc := crc, fieldCount := count, inCell := true, cells := encodeByte z.encoding s.pres.prevBit mark byte } }
     let outside := fun byte mark => sends byte mark s.pres.crc s.pres.fieldCount
     let presets := fun byte mark => sends byte mark (some (crcByte 0xFFFF#16 byte)) 1
     let enters := fun byte mark => sends byte mark (s.pres.crc.map (fun r => crcByte r byte)) (s.pres.fieldCount + 1)
     let gap := match z.encoding with | .mfm => 0x4E#8 | .fm => 0xFF#8
     (¬ (d.unit = s.unitHere ∧ d.full = true) ∨ s.unitHere = .none → outside gap .plain) ∧
     (∀ k, s.regionHere = .indexField k → d.unit = .indexField → d.full = true →
       match z.encoding with
       | .mfm => if k < 12 then outside 0x00 .plain else if k < 15 then outside 0xC2 .index else outside 0xFC .plain
       | .fm => if k < 6 then outside 0x00 .plain else outside 0xFC .index) ∧
     (∀ j off tr i r, s.regionHere = .slot j off → d.unit = .slot j → d.full = true → d.track = some tr → d.line = some i →
       s.pres.crc.getD 0#16 = r →
       let size := 128 * 2 ^ z.sizeCode
       let id := [byteOf tr.cyl, byteOf (if z.idZero then 0 else tr.head), byteOf (z.firstSector + z.logicalOf j), byteOf z.sizeCode]
       let datum := fun k => memRead s.cache.ram (i * 12288 + d.logical * size + k)
       let high := byteOf (r.toNat / 256)
       let low := byteOf r.toNat
       match z.encoding with
       | .mfm =>
         (off < 12 ∨ (44 ≤ off ∧ off < 56) → outside 0x00 .plain) ∧
         (off = 12 ∨ off = 56 → presets 0xA1 .address) ∧ (off = 13 ∨ off = 14 ∨ off = 57 ∨ off = 58 → enters 0xA1 .address) ∧
         (off = 15 → enters 0xFE .plain) ∧ (off = 59 → enters 0xFB .plain) ∧
         (16 ≤ off → off < 20 → enters (byteAt id (off - 16)) .plain) ∧
         (off = 20 → outside high .plain) ∧ (off = 21 → sends low .plain none 0) ∧
         ((22 ≤ off ∧ off < 44) ∨ 62 + size ≤ off → outside gap .plain) ∧
         (60 ≤ off → off < 60 + size → enters (datum (off - 60)) .plain) ∧
         (off = 60 + size → outside high .plain) ∧
         (off = 61 + size → sends (if d.defective then ~~~ low else low) .plain none 0)
       | .fm =>
         (off < 6 ∨ (24 ≤ off ∧ off < 30) → outside 0x00 .plain) ∧
         (off = 6 → presets 0xFE .address) ∧ (off = 30 → presets 0xFB .address) ∧
         (7 ≤ off → off < 11 → enters (byteAt id (off - 7)) .plain) ∧
         (off = 11 → outside high .plain) ∧ (off = 12 → sends low .plain none 0) ∧
         ((13 ≤ off ∧ off < 24) ∨ 33 + size ≤ off → outside gap .plain) ∧
         (31 ≤ off → off < 31 + size → enters (datum (off - 31)) .plain) ∧
         (off = 31 + size → outside high .plain) ∧
         (off = 32 + size → sends (if d.defective then ~~~ low else low) .plain none 0))))

/-! ## The write gate and sector writes -/

/-- WRITE_GATE_RISE (R39, R112 to R115): while deselected, or with the condition active already, nothing follows; without the conditions of
R112 the rise is ignored; otherwise the first of the checks of R113 decides: STRAY off the image, NO_LINE, a track write within the index
pulse, and in a write window HOLE, NOT_READY or a sector write, STRAY anywhere else. A discard posts CAPTURE_FAULT and nothing else; a
sector write takes the sector to CAPTURE, to which the cache reacts (log 20), and posts TRACK_WRITTEN when the line held no non-clean
sector; a selection with WRITE GATE asserted is the same rise (`DriveSelectChange`). The write window is cells 22 to 50
of a slot for MFM, 13 to 26 for FM (R114). -/
def Obligations.WriteGateRiseIsClassified : Prop :=
  (∀ off, (inWriteWindow .mfm off = true ↔ 22 ≤ off ∧ off ≤ 50) ∧ (inWriteWindow .fm off = true ↔ 13 ≤ off ∧ off ≤ 26)) ∧
  ∀ s : State, s.powered = true → s.Follows →
    let x := { s.inputs with writeGate := true }
    let v : State := { s with inputs := x, drive := { s.drive with gateActive := true } }
    let ends := fun u : State => ∃ t, exec .writeGateRise s = .next t ∧ Reacted u u t
    let discards := fun (c h sec : Nat) (r : FaultReason) =>
      ∃ u, ends u ∧ u = { v with cap := u.cap, link := s.link.post (.captureFault c h sec r false) } ∧ u.cap.st = .discard
    let starts := s.mount.state = .mounted ∧ s.mount.readOnly = false ∧ s.card.wp = false ∧ s.rot.state = .atSpeed
    (s.drive.selected = false ∨ s.drive.gateActive = true → ends { s with inputs := x }) ∧
    (s.drive.selected = true → s.drive.gateActive = false →
      ends (v.captureRise.react s.cache) ∧ (¬ starts → ends v) ∧
      (starts → s.currentTrack = none → discards 0xFF s.drive.side.toNat 0xFF .stray) ∧
      (∀ tr, starts → s.currentTrack = some tr → s.cache.active = none → discards tr.cyl tr.head 0xFF .noLine) ∧
      (∀ tr i, starts → s.currentTrack = some tr → s.cache.active = some i → s.rot.t < 6000 →
        ∃ u, ends u ∧ u = { v with cap := u.cap } ∧ u.cap.st = .track ∧ u.cap.track = some tr ∧ u.cap.line = some i ∧ u.cap.found = [] ∧
          u.cap.overflow = false ∧ u.cap.phase = .seek ∧ u.cap.scratch = []) ∧
      (∀ tr i, starts → s.currentTrack = some tr → s.cache.active = some i → 6000 ≤ s.rot.t →
        (∀ j off, regionAt (s.geom.zoneAt tr) (s.geom.layoutAt tr) ((s.geom.layoutAt tr).cellAt s.rot.t) = .slot j off →
          inWriteWindow (s.geom.zoneAt tr).encoding off = false) → discards tr.cyl tr.head 0xFF .stray) ∧
      (∀ tr i j off y, starts → s.currentTrack = some tr → s.cache.active = some i → 6000 ≤ s.rot.t →
        regionAt (s.geom.zoneAt tr) (s.geom.layoutAt tr) ((s.geom.layoutAt tr).cellAt s.rot.t) = .slot j off →
        inWriteWindow (s.geom.zoneAt tr).encoding off = true → s.cache.sector i ((s.geom.zoneAt tr).logicalOf j) = some y →
        let l := (s.geom.zoneAt tr).logicalOf j
        (y.hole = true → discards tr.cyl tr.head ((s.geom.zoneAt tr).firstSector + l) .hole) ∧
        (y.hole = false → y.state = .pending ∨ y.state = .missing →
          discards tr.cyl tr.head ((s.geom.zoneAt tr).firstSector + l) .notReady) ∧
        (y.hole = false → y.state = .clean ∨ y.state = .dirty ∨ y.state = .flush →
          ∃ u : State, ends (u.react s.cache) ∧ u = { v with cap := u.cap, cache := u.cache, link := u.link } ∧ u.cap.st = .hunt ∧
            u.cap.track = some tr ∧ u.cap.line = some i ∧ u.cap.slot = j ∧ u.cap.logical = l ∧ u.cap.received = 0 ∧ u.cap.violation = false ∧
            u.cache = s.cache.modSector i l (fun z => { z with state := .capture, progress := [] }) ∧
            u.link = if (s.cache.line i).dirty then s.link else s.link.post (.trackWritten tr))))

/-- WRITE_DATA_FLUX_CHANGE and EMPTY_CELL (R109, R110): without a measuring state nothing happens; the first change gives a 1 cell; an
interval of class m gives m - 1 cells of 0, those that the open interval has given already left out, and a 1 cell; one below half a cell
gives none; classes outside 2..4 (MFM) or 1..2 (FM) are violations, which count in SECTOR_DATA: by the state that stands when the change comes, even
where the interval passed its upper bound in HUNT (log 42); an open interval that reaches its next half-cell mark gives a 0 cell, and at
that bound a violation. Where a violation and a cell come at one instant the violation is set first (log 43). EMPTY_CELL commanded before
that mark lengthens the interval to it, the model's choice (log 2); with no
open interval it cannot occur and does nothing (log 9). -/
def Obligations.FluxChangesGiveCells : Prop :=
  ∀ s : State, s.powered = true →
    let w := 12000 / s.capZone.rate.kbit
    let counts := fun bad : Prop => s.cap.st = .sectorData ∧ bad
    let ends := fun (c : Instr) (u : State) => ∃ t, exec c s = .next t ∧ Reacted s u t
    let fresh := fun bad : Bool => ({ s with cap := { s.cap with fluxOpen := some 0, empties := 0, violation := bad } } : State)
    (s.cap.st.measures = false → exec .writeDataFluxChange s = .next s ∧ exec .emptyCell s = .next s) ∧
    (s.cap.st.measures = true → s.cap.fluxOpen = none →
      ends .writeDataFluxChange ((fresh s.cap.violation).captureCell true) ∧ ends .emptyCell s) ∧
    (∀ x, s.cap.st.measures = true → s.cap.fluxOpen = some x → 2 * x < w →
      ∃ bad, (bad = true ↔ s.cap.violation = true ∨ counts True) ∧ ends .writeDataFluxChange (fresh bad)) ∧
    (∀ x m, s.cap.st.measures = true → s.cap.fluxOpen = some x → 1 ≤ m → (2 * m - 1) * w ≤ 2 * x → 2 * x < (2 * m + 1) * w →
      ∃ bad, (bad = true ↔ s.cap.violation = true ∨
          counts (match s.capZone.encoding with | .mfm => m < 2 ∨ 4 < m | .fm => m < 1 ∨ 2 < m)) ∧
        ends .writeDataFluxChange ((State.zeroCells (m - 1 - s.cap.empties) (fresh bad)).captureCell true)) ∧
    (∀ x, s.cap.st.measures = true → s.cap.fluxOpen = some x →
      ∃ bad, (bad = true ↔ s.cap.violation = true ∨
          counts (s.cap.empties + 1 = match s.capZone.encoding with | .mfm => 4 | .fm => 2)) ∧
        ends .emptyCell (({ s with cap := { s.cap with
          fluxOpen := some (max x ((2 * s.cap.empties + 3) * w / 2)), empties := s.cap.empties + 1, violation := bad } } : State).captureCell false))

/-- The cells of a sector write (R111, R116, R118, R119, R120, R123). In HUNT three groups 4489 hex and FB or F8 hex (MFM), or F56F or F56A hex
(FM), start SECTOR_DATA with the check register over the mark, and F8 hex posts DELETED_MARK; three groups with another byte, FE hex
included, restart the search with the byte's sixteen cells as its first (log 25), as the FM group F57E does; any other cell goes into the
shift register. In SECTOR_DATA each sixteen cells give one byte, which enters the register, and the scratch while it is a data byte; the
last check byte stores the sector with DECODE, CRC or a good outcome, and the unit goes to SECTOR_TAIL, or to DISCARD past its slot, with
its record kept (log 26). -/
def Obligations.MarksAndDataBytes : Prop :=
  ∀ (s : State) (bit : Bool) (tr : Track), s.cap.track = some tr →
    let c := s.cap.shiftIn bit
    let found := fun (r : Check) => ({ s with cap := { c with
      st := .sectorData, shift := 0#64, valid := 0, received := 0, violation := false, crc := r } } : State)
    let told := fun u : State =>
      { u with link := s.link.post (.captureFault tr.cyl tr.head (s.capZone.firstSector + s.cap.logical) .deletedMark false) }
    let three := c.valid = 64 ∧ c.shift >>> 16 = 0x448944894489#64
    (s.cap.st = .hunt → s.capZone.encoding = .mfm →
      (three → dataByte c.shift = 0xFB#8 → s.captureCell bit = found (crcByte 0xCDB4#16 0xFB#8)) ∧
      (three → dataByte c.shift = 0xF8#8 → s.captureCell bit = told (found (crcByte 0xCDB4#16 0xF8#8))) ∧
      (three → dataByte c.shift ≠ 0xFB#8 → dataByte c.shift ≠ 0xF8#8 → s.captureCell bit = { s with cap := { c with valid := 16 } }) ∧
      (¬ three → s.captureCell bit = { s with cap := c })) ∧
    (s.cap.st = .hunt → s.capZone.encoding = .fm →
      (16 ≤ c.valid → c.shift.setWidth 16 = 0xF56F#16 → s.captureCell bit = found (crcByte 0xFFFF#16 0xFB#8)) ∧
      (16 ≤ c.valid → c.shift.setWidth 16 = 0xF56A#16 → s.captureCell bit = told (found (crcByte 0xFFFF#16 0xF8#8))) ∧
      (16 ≤ c.valid → c.shift.setWidth 16 = 0xF57E#16 → s.captureCell bit = { s with cap := { c with valid := 16 } }) ∧
      (16 ≤ c.valid → c.shift.setWidth 16 ∉ [0xF56F#16, 0xF56A#16, 0xF57E#16] → s.captureCell bit = { s with cap := c }) ∧
      (c.valid < 16 → s.captureCell bit = { s with cap := c })) ∧
    (s.cap.st = .sectorData → c.valid < 16 → s.captureCell bit = { s with cap := c }) ∧
    (s.cap.st = .sectorData → 16 ≤ c.valid →
      let size := s.capLayout.sectorSize
      let b := dataByte c.shift
      let r := crcByte s.cap.crc b
      let scratch := if s.cap.received < size then memStore s.cap.scratch s.cap.received [b] else s.cap.scratch
      let cap := { c with shift := 0#64, valid := 0, scratch := scratch, crc := r, received := s.cap.received + 1 }
      (s.cap.received + 1 < size + 2 → s.captureCell bit = { s with cap := cap }) ∧
      (s.cap.received + 1 = size + 2 →
        s.captureCell bit =
          { ({ s with cap := cap } : State).endSectorWrite (memSlice scratch 0 size)
              (if s.cap.violation then .faulty .decode else if r = 0#16 then .good else .faulty .crc) with
            cap := { cap with st := if s.cap.pastSlot then .discard else .sectorTail, fluxOpen := none, empties := 0 } }))

/-- The end of a sector write (R117, R120 to R122): the bytes given go to the sector's place and no other byte of the track RAM changes; the
sector goes DIRTY and every other sector keeps its state; the defect list takes the sector's entry at its end, in place of one it had or,
when 32 stand there, of the oldest, which the notice says, or loses it, the others in their order (R85 to R87), and the defective part of
every sector follows the list (R63); the line goes to the front of the LRU order, the idle-flush timer starts from its full interval, and
CAPTURE_FAULT is posted for a fault. -/
def Obligations.SectorWriteStores : Prop :=
  ∀ (s : State) (tr : Track) (i : Nat) (bs : List Byte) (o : WriteOutcome) (x : Sector), s.cap.track = some tr → s.cap.line = some i →
    s.cache.Sound → s.cache.sector i s.cap.logical = some x →
    let u := s.endSectorWrite bs o
    let sector := s.capZone.firstSector + s.cap.logical
    let base := i * 12288 + s.cap.logical * s.capLayout.sectorSize
    u = { s with cache := u.cache, link := u.link } ∧
    (∃ y, u.cache.sector i s.cap.logical = some y ∧ y.state = .dirty ∧ y.hole = x.hole) ∧
    (∀ k l y, k ≠ i ∨ l ≠ s.cap.logical → s.cache.sector k l = some y →
      ∃ z, u.cache.sector k l = some z ∧ z.state = y.state ∧ z.progress = y.progress ∧ z.hole = y.hole) ∧
    (∀ a, a < base ∨ base + bs.length ≤ a → memRead u.cache.ram a = memRead s.cache.ram a) ∧
    (∀ b, b < bs.length → memRead u.cache.ram (base + b) = byteAt bs b) ∧
    u.cache.lru = i :: s.cache.lru.filter (· != i) ∧ u.cache.idleTimer = some (24000 * s.link.options.idleFlush) ∧
    u.cache.flushQ = s.cache.flushQ ∧
    (o = .quiet → u.cache.defects = s.cache.defects ∧ u.link = s.link ∧
      ∀ k l y, s.cache.sector k l = some y → ∃ z, u.cache.sector k l = some z ∧ z.defective = y.defective) ∧
    (o = .good → u.cache.defects = s.cache.defects.filter (fun d => decide (¬ (d.track = tr ∧ d.sector = sector))) ∧
      u.cache.FollowsDefects s.geom ∧ u.link = s.link) ∧
    (∀ r, o = .faulty r →
      ∃ dropped, DefectAdded s.cache.defects u.cache.defects ⟨tr, sector, r⟩ dropped ∧ u.cache.defects.length ≤ 32 ∧
        u.cache.FollowsDefects s.geom ∧ u.link = s.link.post (.captureFault tr.cyl tr.head sector r.fault dropped))

/-- WRITE_GATE_FALL, HUNT_DEADLINE and SLOT_END_DURING_CAPTURE (R39, R116, R117, R121, R123, R131): a fall ends the capture and leaves the
unit IDLE: in HUNT quietly before the data mark's place, else with NO_MARK; in SECTOR_DATA torn, with the bytes received and the bits of a
byte begun; a track write by its comparison; in the other states without effect. The deadline ends a HUNT with NO_MARK, the slot's end
marks the next slot's sector OVERRUN when it holds data, once: the defect list and the defective parts as in `SectorWriteStores`; either,
which cannot occur in the other states, does nothing there (log 9). That the record, the scratch and the
found-ID list are cleared on the entry to IDLE and kept in DISCARD is the model's choice (log 26). The cache reacts to a fall's effect (log
20); a deselection with WRITE GATE asserted is the same fall (`DriveSelectChange`). -/
def Obligations.SectorWritesEnd : Prop :=
  ∀ s : State, s.powered = true →
    let x := { s.inputs with writeGate := false }
    let v : State := { s with inputs := x, drive := { s.drive with gateActive := false } }
    let ends := fun (c : Instr) (u : State) => ∃ t, exec c s = .next t ∧ Reacted s u t
    let falls := fun u : State => ∃ t, exec .writeGateFall s = .next t ∧ Reacted (u.react s.cache) (u.react s.cache) t
    let aside := fun u : State =>
      { u with cap := if s.drive.gateActive then { s.cap with st := .discard, fluxOpen := none, empties := 0 } else Capture.idle }
    (s.drive.gateActive = false → falls { s with inputs := x }) ∧
    (s.drive.gateActive = true →
      falls v.captureFall ∧
      (s.cap.st = .idle ∨ s.cap.st = .sectorTail ∨ s.cap.st = .discard → falls { v with cap := Capture.idle }) ∧
      (s.cap.st = .hunt →
        falls { v.endSectorWrite [] (if s.capOffset < (match s.capZone.encoding with | .mfm => 56 | .fm => 30)
          then .quiet else .faulty .noMark) with cap := Capture.idle }) ∧
      (s.cap.st = .sectorData → s.cap.valid < 16 →
        ∃ bs : List Byte, falls { v.endSectorWrite bs (.faulty .torn) with cap := Capture.idle } ∧
          (∀ b, b < min s.cap.received s.capLayout.sectorSize → byteAt bs b = memRead s.cap.scratch b) ∧
          (s.capLayout.sectorSize ≤ s.cap.received → bs.length = s.capLayout.sectorSize) ∧
          (s.cap.received < s.capLayout.sectorSize → s.cap.valid < 2 → bs.length = s.cap.received) ∧
          (s.cap.received < s.capLayout.sectorSize → 2 ≤ s.cap.valid → bs.length = s.cap.received + 1 ∧
            ∀ k < 8, (byteAt bs s.cap.received).getLsbD (7 - k) =
              (decide (k < s.cap.valid / 2) && s.cap.shift.getLsbD (s.cap.valid - 2 - 2 * k)))) ∧
      (s.cap.st = .track → falls { v.endTrackWrite with cap := Capture.idle })) ∧
    (s.cap.st = .hunt → ends .huntDeadline (aside (s.endSectorWrite [] (.faulty .noMark)))) ∧
    (s.cap.st ≠ .hunt → exec .huntDeadline s = .next s) ∧
    ((s.cap.st ≠ .sectorTail ∧ s.cap.st ≠ .sectorData) ∨ s.cap.pastSlot = true → exec .slotEndDuringCapture s = .next s) ∧
    (∀ tr i, s.cap.st = .sectorTail ∨ s.cap.st = .sectorData → s.cap.pastSlot = false → s.cap.track = some tr → s.cap.line = some i →
      let l := s.capZone.logicalOf (s.cap.slot + 1)
      let marked := s.cap.slot + 1 < s.capZone.n ∧ ∃ y, s.cache.sector i l = some y ∧ y.hole = false ∧
        (y.state = .clean ∨ y.state = .dirty ∨ y.state = .flush)
      ∃ u, ends .slotEndDuringCapture u ∧ u = { s with cap := u.cap, cache := u.cache, link := u.link } ∧ u.cap.pastSlot = true ∧
        u.cap.st = (if s.cap.st = .sectorTail then .discard else .sectorData) ∧ u.cap.received = s.cap.received ∧
        u.cap.scratch = s.cap.scratch ∧ u.cache.ram = s.cache.ram ∧
        (∀ k l, (u.cache.sector k l).map Sector.state = (s.cache.sector k l).map Sector.state) ∧
        (¬ marked → u.cache = s.cache ∧ u.link = s.link) ∧
        (marked → ∃ dropped, DefectAdded s.cache.defects u.cache.defects ⟨tr, s.capZone.firstSector + l, .overrun⟩ dropped ∧
          u.cache.FollowsDefects s.geom ∧ u.link = s.link.post (.captureFault tr.cyl tr.head (s.capZone.firstSector + l) .overrun dropped)))

/-! ## Track writes -/

/-- The cells of a track write (R111, R128, R129, R130), in both encodings: an ID mark begins an ID field; a data mark, FB or F8 hex, begins
a data field when the newest entry waits for its data, and otherwise is passed over, as it is after an overflow (log 27); three A1 groups
with another byte restart the search with the byte's sixteen cells as its first (log 25); an FM group that is no mark is passed over; the
sixth byte of an ID field adds an entry with its check GOOD exactly when the register ends at 0000 hex, or sets the overflow mark at 32
entries; a data field goes to the scratch for the first n entries, and its last check byte makes the newest entry GOOD or BAD. Nothing
outside the capture unit changes. -/
def Obligations.TrackWriteCollects : Prop :=
  ∀ (s : State) (bit : Bool), s.cap.st = .track →
    let c := s.cap.shiftIn bit
    let b := dataByte c.shift
    let r := crcByte s.cap.crc b
    let size := s.capLayout.sectorSize
    let k := s.cap.found.length - 1
    let three := c.valid = 64 ∧ c.shift >>> 16 = 0x448944894489#64
    let becomes := fun d : Capture => s.captureCell bit = { s with cap := d }
    let waits := s.cap.overflow = false ∧ ∃ f, s.cap.found.getLast? = some f ∧ f.data = .absent
    (s.cap.phase = .seek → s.capZone.encoding = .mfm →
      (¬ three → becomes c) ∧
      (three → b = 0xFE#8 →
        becomes { c with shift := 0#64, valid := 0, phase := .idField, idBytes := [], crc := crcByte 0xCDB4#16 0xFE#8 }) ∧
      (three → b = 0xFB#8 ∨ b = 0xF8#8 → waits →
        becomes { c with shift := 0#64, valid := 0, phase := .dataField, received := 0, crc := crcByte 0xCDB4#16 b }) ∧
      (three → b = 0xFB#8 ∨ b = 0xF8#8 → ¬ waits → becomes { c with shift := 0#64, valid := 0 }) ∧
      (three → b ∉ [0xFE#8, 0xFB#8, 0xF8#8] → becomes { c with valid := 16 })) ∧
    (s.cap.phase = .seek → s.capZone.encoding = .fm →
      let group := c.shift.setWidth 16
      (c.valid < 16 → becomes c) ∧
      (16 ≤ c.valid → group = 0xF57E#16 →
        becomes { c with shift := 0#64, valid := 0, phase := .idField, idBytes := [], crc := crcByte 0xFFFF#16 0xFE#8 }) ∧
      (16 ≤ c.valid → group = 0xF56F#16 → waits →
        becomes { c with shift := 0#64, valid := 0, phase := .dataField, received := 0, crc := crcByte 0xFFFF#16 0xFB#8 }) ∧
      (16 ≤ c.valid → group = 0xF56A#16 → waits →
        becomes { c with shift := 0#64, valid := 0, phase := .dataField, received := 0, crc := crcByte 0xFFFF#16 0xF8#8 }) ∧
      (16 ≤ c.valid → group = 0xF56F#16 ∨ group = 0xF56A#16 → ¬ waits → becomes { c with shift := 0#64, valid := 0 }) ∧
      (16 ≤ c.valid → group ∉ [0xF57E#16, 0xF56F#16, 0xF56A#16] → becomes c)) ∧
    (s.cap.phase ≠ .seek → c.valid < 16 → becomes c) ∧
    (s.cap.phase = .idField → 16 ≤ c.valid → s.cap.idBytes.length < 5 →
      becomes { c with shift := 0#64, valid := 0, idBytes := s.cap.idBytes ++ [b], crc := r }) ∧
    (∀ a0 a1 a2 a3 a4, s.cap.phase = .idField → 16 ≤ c.valid → s.cap.idBytes = [a0, a1, a2, a3, a4] →
      (s.cap.found.length < 32 →
        becomes { c with shift := 0#64, valid := 0, idBytes := [], crc := r, phase := .seek,
                         found := s.cap.found ++ [⟨a0, a1, a2, a3, decide (r = 0#16), .absent⟩] }) ∧
      (32 ≤ s.cap.found.length →
        becomes { c with shift := 0#64, valid := 0, idBytes := [], crc := r, phase := .seek, overflow := true })) ∧
    (s.cap.phase = .dataField → 16 ≤ c.valid →
      let scratch := if k < s.capZone.n ∧ s.cap.received < size then memStore s.cap.scratch (k * size + s.cap.received) [b]
                     else s.cap.scratch
      (s.cap.received + 1 < size + 2 →
        becomes { c with shift := 0#64, valid := 0, scratch := scratch, crc := r, received := s.cap.received + 1 }) ∧
      (s.cap.received + 1 = size + 2 →
        becomes { c with
          shift := 0#64, valid := 0, scratch := scratch, crc := r, received := s.cap.received + 1, phase := .seek
          found := s.cap.found.modify k (fun f => { f with data := if r = 0#16 then .good else .badCheck }) }))

/-- The end of a track write (R131, R132, R133, R135, R136), and a wrap of the rotation time in TRACK: what was found matches when it is
exactly the expected IDs of the zone with good checks. A match takes every slot's bytes to the line, every sector to DIRTY and holes to
CLEAN, removes the track's defects and posts TRACK_WRITTEN; the line moves to the front of the LRU order and the idle-flush timer starts,
but on a track of holes alone, where both stay; every line's write-failure count, origin and pinned part stay; every other line keeps its
track and sectors but for defective parts, and no
byte of the track RAM outside the track's part of the line changes. A match on a line that no longer carries the track stores nothing and
posts CAPTURE_FAULT with NO_LINE. A mismatch changes no sector and posts FORMAT_MISMATCH with the found count and the first differing
slot. That the capture record, the scratch and the found-ID list are kept in DISCARD, and cleared on the entry to IDLE, is the
model's choice (log 26). -/
def Obligations.TrackWriteEnds : Prop :=
  (∀ (s : State) (tr : Track) (i : Nat), s.cap.track = some tr → s.cap.line = some i → s.cache.Sound →
    let c := s.cap.stopCollecting
    let z := s.capZone
    let size := s.capLayout.sectorSize
    let e := s.endTrackWrite
    let asExpected := fun j => ∃ f, c.found[j]? = some f ∧ f.cyl = byteOf tr.cyl ∧ f.head = byteOf (if z.idZero then 0 else tr.head) ∧
      f.sector = byteOf (z.firstSector + z.logicalOf j) ∧ f.size = byteOf z.sizeCode ∧ f.idGood = true ∧ f.data = .good
    let matching := c.found.length = z.n ∧ c.overflow = false ∧ ∀ j < z.n, asExpected j
    e = { s with cap := c, cache := e.cache, link := e.link } ∧
    (¬ matching → e.cache = s.cache ∧
      ∃ first, e.link = s.link.post (.formatMismatch tr (if c.overflow then 33 else c.found.length) first) ∧ first ≤ z.n ∧
        (∀ j < first, asExpected j) ∧ (first < z.n → ¬ asExpected first)) ∧
    (matching → (s.cache.line i).tag = some tr →
      e.link = s.link.post (.trackWritten tr) ∧
      (∀ l x, s.cache.sector i l = some x →
        ∃ y, e.cache.sector i l = some y ∧ y.state = (if x.hole then .clean else .dirty) ∧ y.progress = [] ∧ y.hole = x.hole ∧
          y.defective = false) ∧
      e.cache.defects = s.cache.defects.filter (fun d => decide (d.track ≠ tr)) ∧ e.cache.FollowsDefects s.geom ∧
      ((∃ x ∈ (s.cache.line i).sectors, x.hole = false) →
        e.cache.lru = i :: s.cache.lru.filter (· != i) ∧ e.cache.idleTimer = some (24000 * s.link.options.idleFlush)) ∧
      ((∀ x ∈ (s.cache.line i).sectors, x.hole = true) → e.cache.lru = s.cache.lru ∧ e.cache.idleTimer = s.cache.idleTimer) ∧
      (∀ k, (e.cache.line k).failures = (s.cache.line k).failures ∧ (e.cache.line k).origin = (s.cache.line k).origin ∧
        (e.cache.line k).pinned = (s.cache.line k).pinned) ∧
      ((∀ j < z.n, ∀ k < z.n, z.logicalOf j = z.logicalOf k → j = k) →
        ∀ j < z.n, ∀ b < size,
          memRead e.cache.ram (i * 12288 + z.logicalOf j * size + b) = memRead s.cap.scratch (j * size + b)) ∧
      (∀ k, (e.cache.line k).tag = (s.cache.line k).tag) ∧ e.cache.flushQ = s.cache.flushQ ∧
      (∀ k l x, k ≠ i → s.cache.sector k l = some x →
        ∃ y, e.cache.sector k l = some y ∧ y.state = x.state ∧ y.progress = x.progress ∧ y.hole = x.hole) ∧
      ((∀ j < z.n, z.logicalOf j < z.n) →
        ∀ a, a < i * 12288 ∨ i * 12288 + z.n * size ≤ a → memRead e.cache.ram a = memRead s.cache.ram a)) ∧
    (matching → (s.cache.line i).tag ≠ some tr →
      e.cache = s.cache ∧ e.link = s.link.post (.captureFault tr.cyl tr.head 0xFF .noLine false))) ∧
  (∀ s : State, s.powered = true → s.cap.st = .track →
    let e := ({ s with rot := { s.rot with t := 0, fine := 0 } } : State).endTrackWrite
    ∃ t, exec .rotationWrap s = .next t ∧
      Reacted s { e with cap := if s.drive.gateActive then { e.cap with st := .discard, fluxOpen := none, empties := 0 } else Capture.idle } t)

/-! ## The card -/

/-- CARD_INSERTED, BRING_UP_DONE and BRING_UP_LIMIT_EXPIRY (R139, R140): INITIALISING with a limit of 1,000 ms; READY with the capacity and
the switch position the card gives, or FAILED; each reported by CARD_STATE; nothing else changes. A switch that closes on a card, an answer
or a limit outside INITIALISING change no card state: such an answer comes late (R140), or cannot occur (log 9). -/
def Obligations.CardBringUp : Prop :=
  ∀ s : State, s.powered = true →
    let ends := fun (c : Instr) (u : State) => ∃ t, exec c s = .next t ∧ Reacted s u t
    let x := { s.inputs with cardDetect := true }
    let failed := { s with card := { s.card with state := .failed, bringUp := none },
                           link := s.link.post (.cardState .failed s.card.capacity) }
    (s.card.state = .absent →
      ends .cardInserted { s with
        inputs := x
        card := { s.card with state := .initialising, capacity := 0, wp := false, failCount := 0, bringUp := some 24000000 }
        link := s.link.post (.cardState .initialising 0) }) ∧
    (s.card.state ≠ .absent → exec .cardInserted s = .next { s with inputs := x }) ∧
    (∀ ok capacity wp, s.card.state = .initialising →
      (ok = true → 1 ≤ capacity → capacity ≤ 4294967295 →
        ends (.bringUpDone ok capacity wp) { s with
          card := { s.card with state := .ready, capacity := capacity, wp := wp, bringUp := none }
          link := s.link.post (.cardState .ready capacity) }) ∧
      (ok = false ∨ capacity = 0 ∨ 4294967295 < capacity → ends (.bringUpDone ok capacity wp) failed)) ∧
    (s.card.state = .initialising → ends .bringUpLimitExpiry failed) ∧
    (∀ ok capacity wp, s.card.state ≠ .initialising → exec (.bringUpDone ok capacity wp) s = .next s) ∧
    (s.card.state ≠ .initialising → exec .bringUpLimitExpiry s = .next { s with card := { s.card with bringUp := none } })

/-- CARD_REMOVED (R141, R54, R56, R58, R161): the card is ABSENT with its record cleared and both slots empty, and CARD_STATE reports it; the
run that stood in the active slot is the last finished one, FAILED with CARD_GONE; waiting panel work is answered CARD_FAULT. A mount that
stood is LOST when a sector of any line is non-clean, its lines kept and the sector of a capture in progress DIRTY, and UNMOUNTED with the
lines FREE when none is; a write run or a merge read in the active slot without any non-clean sector, which no command brings about, may
end in either (log 17). MOUNT_STATE reports the new state with the non-clean sectors held, 0 for UNMOUNTED. At LOST an armed FLUSH_DONE is
posted FAILED, before or after it (R81, log 15). A capture in progress is abandoned, the unit in DISCARD while the gate is active, else IDLE
(R125, R137). Head, options, profile and rotation time stay. With no card in the socket, where the command cannot occur, only the switch is
taken (log 9). -/
def Obligations.CardRemoved : Prop :=
  ∀ s : State, s.powered = true →
    (s.card.state = .absent → exec .cardRemoved s = .next { s with inputs := { s.inputs with cardDetect := false } }) ∧
    (s.card.state ≠ .absent →
      ∃ u t, exec .cardRemoved s = .next t ∧ Reacted s u t ∧ u.inputs = { s.inputs with cardDetect := false } ∧
        u.card.state = .absent ∧ u.card.capacity = 0 ∧ u.card.wp = false ∧ u.card.failCount = 0 ∧ u.card.bringUp = none ∧
        u.card.active = none ∧ u.card.queued = none ∧ u.card.panel = none ∧
        (s.card.active = none → u.card.lastRun = s.card.lastRun) ∧
        (∀ r, s.card.active = some r → ∃ cls, u.card.lastRun = some { r with cls := cls, status := .failed .cardGone }) ∧
        (∀ q, s.card.panel ≠ none → s.link.executing = some q → q.made = false → q.drop = false →
          u.link.hasReply (0x80#8 + q.kind) q.tag [0x05#8, 0x03#8]) ∧
        (s.link.options.noticeMask.getLsbD 0 = true → s.link.notices.length < 16 → u.link.hasNotice (.cardState .absent 0)) ∧
        (s.mount.state = .unmounted ∨ s.mount.state = .lost → u.mount = s.mount) ∧
        (s.mount.state = .mounted ∨ s.mount.state = .draining →
          let unsaved := fun x : Sector => x.state = .dirty ∨ x.state = .capture ∨ x.state = .flush
          let reports := s.link.options.noticeMask.getLsbD 1 = true ∧ s.link.notices.length ≤ 4
          let writing := ∃ r, s.card.active = some r ∧ r.kind = .flush
          let calm := s.Quiet ∨ ∀ r, s.card.active = some r → r.kind = .panelRead ∨ r.kind = .panelWrite ∨ s.runEnded r = true
          (u.mount = Mount.cleared s.mount.serial ∧ u.cache.lines = s.cache.lines.map (fun _ => Line.free) ∧ u.cache.defects = [] ∧
              (reports → u.link.hasNotice (.mountState .unmounted 0)) ∨
            u.mount = { s.mount with state := .lost } ∧ u.cache.defects = s.cache.defects ∧
              (s.cache.armed = true → s.link.options.noticeMask.getLsbD 6 = true → s.link.notices.length ≤ 4 →
                u.link.hasNotice (.flushDone false)) ∧
              (calm → ∀ k, (u.cache.line k).tag = (s.cache.line k).tag) ∧
              (∀ k tr l x, (s.cache.line k).tag = some tr → s.cache.sector k l = some x → unsaved x →
                (u.cache.line k).tag = some tr ∧ ∃ y, u.cache.sector k l = some y ∧ unsaved y) ∧
              (∀ i tr x, (s.cap.st = .hunt ∨ s.cap.st = .sectorData) → s.cap.line = some i → (s.cache.line i).tag = some tr →
                s.cache.sector i s.cap.logical = some x → calm ∨ unsaved x → ∃ y, u.cache.sector i s.cap.logical = some y ∧ y.state = .dirty) ∧
              (reports → ∃ n, u.link.hasNotice (.mountState .lost n) ∧ n ≤ u.cache.nonClean ∧ (¬ writing → n = u.cache.nonClean) ∧
                (calm → s.cache.nonClean ≤ n) ∧
                (calm → ¬ writing → s.cap.st ≠ .hunt → s.cap.st ≠ .sectorData → n = s.cache.nonClean))) ∧
          ((∃ k tr l x, (s.cache.line k).tag = some tr ∧ s.cache.sector k l = some x ∧ unsaved x) → u.mount.state = .lost) ∧
          ((∀ k l x, s.cache.sector k l = some x → ¬ unsaved x) →
            (∀ r, s.card.active = some r → r.kind ≠ .flush ∧ r.kind ≠ .mergeRead) → u.mount.state = .unmounted) ∧
          u.cache.flushQ = [] ∧ (calm → u.cache.lru = s.cache.lru ∧ u.cache.ram = s.cache.ram) ∧
          u.cache.armed = false ∧ u.drive = { s.drive with latch := true } ∧ u.cap.st = s.abandoned) ∧
        u.drive.head = s.drive.head ∧ u.rot.t = s.rot.t ∧ u.link.options = s.link.options ∧ u.prof = s.prof ∧ u.powered = true ∧
        u.pending = s.pending)

/-- BLOCK_TRANSFER_DONE, BLOCK_LIMIT_EXPIRY and BLOCK_CARD_ERROR of write, merge and panel runs (R142, R145, R146, R149, R153 to R161; fills:
`FillBlocksAndFillRuns`). A write run with blocks left goes on to its next block with the limit of 250 ms. A write run of the standing
mount that ends DONE (R83, R53, R59, R81) gives its blocks to the progress of the sectors that have stayed FLUSH since it was built
(log 6), those with every block are CLEAN, and the line's failure count is 0; FLUSH_DONE, EXTENT_REACHED and the end of a drain follow as
they apply, in this order (log 14). One that fails (R84, R55) makes its FLUSH sectors and the CLEAN ones of every line that it overlaps DIRTY, raises the
line's failure count, puts these lines into the flush queue again, and posts FLUSH_DONE FAILED and TRACK_WRITTEN for lines that held
nothing unsaved; the third failure of the line takes the mount to LOST. A merge read that ends DONE is followed by its write run in the
active slot at once while its block is write-back work, and dropped otherwise; one that fails counts against the line and its line queues
again. A panel run that ends DONE or FAILED answers its request, a CARD_READ with the 512 bytes of the block (one the card did not deliver
is 00 hex, log 7) and STALE when the card block holds an image block of which a line holds a non-clean sector (R50, R159); a reply that a link
break has marked is dropped and the request leaves execution (R175). A write run or a merge read of an ended mount is CANCELLED at its next
block boundary, the merge read's block then left in the merge buffer (log 44), and its failure changes nothing of the cache (R146, R149). Each run ends as the
last finished one and clears or raises the consecutive-failure count. The first failed attempt of a fill is repeated from the failed block
with the limit of 100 ms; that `base` takes the place of that block in the run, from which received counts anew, is log 35.
The fourth failure in a row (R142, R158) makes the card FAILED with both slots empty, reported by CARD_STATE; the run's own request is
answered CARD_FAULT, waiting panel work CARD_NOT_READY (R161). The run's failure goes to its owner as any final one, and the cache reacts to
it as a part of its own (R70, R71, log 20); the mount table takes the card's departure as `CardRemoved` has it (R54, R81, R125, log 15), in
either order for a run of a standing mount (log 17): the
mount is LOST when a sector is non-clean and UNMOUNTED when none is, but for a write run or a merge read without one, which no command
brings about. With no run in the active slot, where no such command can occur (log 9), nothing but the limit's timer changes. -/
def Obligations.BlockTransfers : Prop :=
  ∀ (s : State) (data : List Byte), s.powered = true →
    let ends := fun (c : Instr) (u : State) => ∃ t, exec c s = .next t ∧ Reacted s u t
    let finished := fun (r : Run) (st : RunStatus) (n : Nat) => { s.card with
      active := none, blockLimit := none, panel := none, failCount := n, lastRun := some { r with cls := .panel, status := st } }
    let writeClass := fun r : Run => if r.line ≠ none ∧ s.cache.forced = r.line then RunClass.demand else .writeback
    let ended := fun (r : Run) (st : RunStatus) (n : Nat) => { s.card with
      active := none, blockLimit := none, failCount := n, lastRun := some { r with cls := writeClass r, status := st } }
    let held := fun (r : Run) (blk : Nat) => ∃ f, r.firstImage = some f ∧ f ≤ blk ∧ blk < f + r.count
    let carried := fun (r : Run) (i : Nat) (tr : Track) => r.line = some i ∧ r.track = some tr ∧ (s.cache.line i).tag = some tr
    let stands := s.mount.state = .mounted ∨ s.mount.state = .draining
    let whole := (List.range 512).map (fun k => byteAt data k)
    let fails := fun (c : Instr) (e : RunError) => (c = .blockLimitExpiry ∧ e = .timeout) ∨ (c = .blockCardError ∧ e = .cardError)
    let unsaved := fun x : Sector => x.state = .dirty ∨ x.state = .capture ∨ x.state = .flush
    (∀ blk, s.stale blk = true ↔ s.mount.state ≠ .unmounted ∧
      let holds := fun e : Extent => e.skip = false ∧ e.start ≤ blk ∧ blk < e.start + e.count
      ∃ before e after, s.mount.chain = before ++ e :: after ∧ holds e ∧ (∀ a ∈ before, ¬ holds a) ∧
        ∃ k tr l x, (s.cache.line k).tag = some tr ∧ s.cache.sector k l = some x ∧ unsaved x ∧
          s.geom.covers tr l ((before.map (fun a => a.count)).sum + (blk - e.start)) = true) ∧
    (s.card.active = none → exec (.blockTransferDone data) s = .next s ∧
      exec .blockLimitExpiry s = .next { s with card := { s.card with blockLimit := none } } ∧
      exec .blockCardError s = .next { s with card := { s.card with blockLimit := none } }) ∧
    (∀ r, s.card.active = some r → r.kind = .flush → s.runEnded r = false → r.base + r.received + 1 < r.count →
      ends (.blockTransferDone data) { s with card := { s.card with
        active := some { r with received := r.received + 1 }, blockLimit := some 6000000 } }) ∧
    (∀ r, s.card.active = some r → r.kind = .flush → s.runEnded r = false → r.count ≤ r.base + r.received + 1 →
      ∃ u, ∃ c : Cache, ends (.blockTransferDone data) u ∧ c = { s.cache with lines := c.lines } ∧
        ((∀ i tr, ¬ carried r i tr) → c = s.cache) ∧
        (∀ i tr, carried r i tr →
          (∀ k, k ≠ i → c.line k = s.cache.line k) ∧ (c.line i).tag = some tr ∧ (c.line i).failures = 0 ∧
          ∀ l x, s.cache.sector i l = some x →
            let member := x.state = .flush ∧ (l, x.stamp) ∈ r.members
            let whole := ∀ p ∈ s.geom.sectorBlocks tr l, held r p ∨ p ∈ x.progress
            (¬ member → c.sector i l = some x) ∧
            (member → whole → c.sector i l = some { x with state := .clean, progress := [] }) ∧
            (member → ¬ whole → ∃ y, c.sector i l = some { x with progress := y } ∧
              ∀ p, p ∈ y ↔ p ∈ s.geom.sectorBlocks tr l ∧ (held r p ∨ p ∈ x.progress))) ∧
        (let flushDone := if s.cache.armed = true ∧ c.nonClean = 0 then [NoticeBody.flushDone true] else []
         let reached := match r.extent with
          | none => []
          | some e => match s.mount.chain[e]? with
            | none => []
            | some x => if x.notify then [NoticeBody.extentReached s.mount.serial (1#64 <<< e)] else []
         let card := ended { r with received := r.received + 1 } .done 0
         (s.mount.state ≠ .draining ∨ c.nonClean ≠ 0 →
            u = { s with card := card, cache := { c with armed := if c.nonClean = 0 then false else s.cache.armed },
                         link := s.link.postAll (flushDone ++ reached) }) ∧
         (s.mount.state = .draining → c.nonClean = 0 →
            u = { s with
              card := card
              cache := { c with lines := c.lines.map (fun _ => Line.free), flushQ := [], defects := [], idleTimer := none, waiting := none,
                                forced := none, armed := false }
              mount := Mount.cleared s.mount.serial
              drive := { s.drive with latch := true }
              link := s.link.postAll (flushDone ++ reached ++ [.mountState .unmounted 0]) }))) ∧
    (∀ r i blk, s.card.active = some r → r.kind = .mergeRead → s.runEnded r = false → r.count ≤ r.base + r.received + 1 →
      r.line = some i → r.firstImage = some blk →
      let card := { ended { r with received := r.received + 1 } .done 0 with mergeBuf := [] }
      (stands → (∃ tr, carried r i tr) → s.writeWork i blk = true →
        let w := ({ s with card := card } : State).makeFlush (writeClass r) i blk 1 (some data)
        ends (.blockTransferDone data) { w.1 with card := { card with
          active := some { w.2 with status := .inProgress }, blockLimit := some 6000000 } }) ∧
      (¬ (stands ∧ (∃ tr, carried r i tr) ∧ s.writeWork i blk = true) → ends (.blockTransferDone data) { s with card := card })) ∧
    (∀ r q, s.card.active = some r → r.kind = .panelRead → r.count ≤ r.base + r.received + 1 → s.link.executing = some q → q.made = false →
      q.drop = false →
      ∃ u, ends (.blockTransferDone data) u ∧ u = { s with card := u.card, link := u.link } ∧
        u.card = finished { r with received := r.received + 1, data := whole } .done 0 ∧
        u.link.hasReply (0x80#8 + q.kind) q.tag (0x00#8 :: (if s.stale r.start then 0x01#8 else 0x00#8) :: whole)) ∧
    (∀ r q, s.card.active = some r → r.kind = .panelWrite → r.count ≤ r.base + r.received + 1 → s.link.executing = some q → q.made = false →
      q.drop = false →
      ∃ u, ends (.blockTransferDone data) u ∧ u = { s with card := u.card, link := u.link } ∧
        u.card = finished { r with received := r.received + 1 } .done 0 ∧
        u.link.hasReply (0x80#8 + q.kind) q.tag [0x00#8, 0x00#8]) ∧
    (∀ r q, s.card.active = some r → r.kind = .panelRead ∨ r.kind = .panelWrite → s.link.executing = some q → q.made = false →
      q.drop = true →
      let dropped := { s.link with executing := none }
      (r.count ≤ r.base + r.received + 1 →
        ends (.blockTransferDone data) { s with
          card := finished { r with received := r.received + 1, data := if r.kind = .panelRead then whole else r.data } .done 0
          link := dropped }) ∧
      (∀ c e, fails c e → s.card.failCount < 3 →
        ends c { s with card := finished r (.failed e) (s.card.failCount + 1), link := dropped })) ∧
    (∀ r, s.card.active = some r → r.kind = .flush ∨ r.kind = .mergeRead → s.runEnded r = true →
      ends (.blockTransferDone data) { s with card := { ended { r with received := r.received + 1 } .cancelled s.card.failCount with
        mergeBuf := if r.kind = .mergeRead then data else s.card.mergeBuf } } ∧
      (∀ c e, fails c e → s.card.failCount < 3 →
        ends c { s with card := { ended r (.failed e) (s.card.failCount + 1) with
          mergeBuf := if r.kind = .mergeRead then [] else s.card.mergeBuf } })) ∧
    (∀ r c e, s.card.active = some r → fails c e →
      (s.card.failCount < 3 → r.kind ≠ .fill ∨ r.attempt ≠ 1 →
        ends c (({ s with card := { s.card with
          active := none, blockLimit := none, failCount := s.card.failCount + 1
          lastRun := some { r with cls := s.runClass r, status := .failed e } } } : State).handFailure r e)) ∧
      (∀ q, s.card.failCount < 3 → r.kind = .panelRead ∨ r.kind = .panelWrite → s.link.executing = some q → q.made = false →
        q.drop = false →
        ∃ u, ends c u ∧ u = { s with card := u.card, link := u.link } ∧ u.card = finished r (.failed e) (s.card.failCount + 1) ∧
          u.link.hasReply (0x80#8 + q.kind) q.tag [0x05#8, e.code]) ∧
      (s.card.failCount < 3 → r.kind = .fill → r.attempt = 1 → s.workRemains r (r.base + r.received) = true →
        ends c { s with card := { s.card with
          failCount := s.card.failCount + 1
          active := some { r with attempt := 2, base := r.base + r.received, received := 0 }, blockLimit := some 2400000 } }) ∧
      (s.card.failCount < 3 → r.kind = .flush ∨ r.kind = .mergeRead → s.runEnded r = false →
        let card := ended r (.failed e) (s.card.failCount + 1)
        let spoils := fun (k l : Nat) (x : Sector) => r.kind = .flush ∧ x.state = .clean ∧ x.hole = false ∧
          ∃ tr, (s.cache.line k).tag = some tr ∧ ∃ p ∈ s.geom.sectorBlocks tr l, held r p
        let returns := fun (k l : Nat) (x : Sector) => r.kind = .flush ∧ x.state = .flush ∧
          ∃ tr, carried r k tr ∧ ∃ p ∈ s.geom.sectorBlocks tr l, held r p
        let spoilt := fun k => ∃ l x, s.cache.sector k l = some x ∧ spoils k l x
        let lost := stands ∧ ∃ i tr, carried r i tr ∧ 2 ≤ (s.cache.line i).failures
        ∃ u, ends c u ∧ (∀ k, (u.cache.line k).tag = (s.cache.line k).tag) ∧ u.cache.ram = s.cache.ram ∧ u.cache.lru = s.cache.lru ∧
          u.card.lastRun = card.lastRun ∧ u.card.active = none ∧ u.card.failCount = card.failCount ∧ u.cache.armed = false ∧
          (∀ k, ((∃ tr, carried r k tr) → (u.cache.line k).failures = min 3 ((s.cache.line k).failures + 1)) ∧
            ((∀ tr, ¬ carried r k tr) → (u.cache.line k).failures = (s.cache.line k).failures)) ∧
          (lost → u.mount = { s.mount with state := .lost } ∧ u.cache.flushQ = [] ∧ u.drive = { s.drive with latch := true } ∧
            u.cap.st = s.abandoned ∧
            (s.cache.armed = true → s.link.options.noticeMask.getLsbD 6 = true → s.link.notices.length ≤ 14 →
              u.link.hasNotice (.flushDone false)) ∧
            (∀ k l x, s.cache.sector k l = some x → (spoils k l x ∨ returns k l x) → ∃ y, u.cache.sector k l = some y ∧ y.state = .dirty) ∧
            (s.link.options.noticeMask.getLsbD 1 = true → s.link.notices.length ≤ 14 →
              ∃ n, u.link.hasNotice (.mountState .lost n) ∧ n = u.cache.nonClean)) ∧
          (¬ lost →
            u = { s with card := if r.kind = .mergeRead then { card with mergeBuf := [] } else card, cache := u.cache, link := u.link } ∧
            (∀ k l x, s.cache.sector k l = some x →
              ((spoils k l x ∨ returns k l x) → u.cache.sector k l = some { x with state := .dirty, progress := [] }) ∧
              (¬ (spoils k l x ∨ returns k l x) → u.cache.sector k l = some x)) ∧
            (∃ written : List Nat, written.Pairwise (· < ·) ∧
              (∀ k, k ∈ written ↔ k < 8 ∧ spoilt k ∧ ∀ x ∈ (s.cache.line k).sectors, x.state.nonClean = false) ∧
              u.link = s.link.postAll ((if s.cache.armed then [.flushDone false] else []) ++
                (written.filterMap (fun k => (s.cache.line k).tag)).map (fun tr => .trackWritten tr))) ∧
            (¬ stands → u.cache.flushQ = s.cache.flushQ) ∧
            (stands → s.cache.lru.Perm (List.range 8) →
              ∃ joining : List Nat, joining.Sublist s.cache.lru.reverse ∧
                (∀ k, k ∈ joining ↔ k < 8 ∧ k ∉ s.cache.flushQ ∧ (r.line = some k ∨ spoilt k) ∧
                  u.cache.hasWriteWork u.geom u.writeRuns k = true) ∧
                (let queue := joining.filter (fun k => decide (s.cache.forced = some k)) ++ s.cache.flushQ ++
                    joining.filter (fun k => decide (s.cache.forced ≠ some k))
                 (∀ f, s.cache.forced = some f → r.line = some f → f ∈ queue → u.cache.flushQ = f :: queue.filter (· != f)) ∧
                 (¬ (∃ f, s.cache.forced = some f ∧ r.line = some f ∧ f ∈ queue) → u.cache.flushQ = queue))))) ∧
      (3 ≤ s.card.failCount →
        let v := fun n : Nat => ({ s with
          free := n
          card := { s.card with
            state := .failed, active := none, blockLimit := none, failCount := 4
            lastRun := some { r with cls := s.runClass r, status := .failed e } } } : State)
        let panel := r.kind = .panelRead ∨ r.kind = .panelWrite
        let reports := s.link.notices.length ≤ 4
        ∃ u, ends c u ∧
          (panel ∨ s.runEnded r = true ∨ ¬ stands → u = (((v s.free).handFailure r e).engineFails).cardDeparts) ∧
          (¬ panel → s.runEnded r = false → stands → ∃ n,
            u = ((((v n).handFailure r e).react s.cache).engineFails).cardDeparts ∨
            ∃ w, w = ((v n).engineFails).cardDeparts ∧ u = (w.handFailure r e).react w.cache) ∧
          u.card.state = .failed ∧ u.card.failCount = 4 ∧ u.card.active = none ∧ u.card.queued = none ∧ u.card.panel = none ∧
          u.card.capacity = s.card.capacity ∧ u.card.wp = s.card.wp ∧
          u.card.lastRun = some { r with cls := s.runClass r, status := .failed e } ∧
          (∀ q, panel ∨ s.card.panel ≠ none → s.link.executing = some q → q.made = false → q.drop = false →
            u.link.hasReply (0x80#8 + q.kind) q.tag (if panel then [0x05#8, e.code] else [0x04#8, 0x03#8])) ∧
          (s.link.options.noticeMask.getLsbD 0 = true → reports → u.link.hasNotice (.cardState .failed s.card.capacity)) ∧
          (¬ stands → u.mount = s.mount) ∧
          (stands →
            (u.mount = Mount.cleared s.mount.serial ∧ u.cache.lines = s.cache.lines.map (fun _ => Line.free) ∧ u.cache.defects = [] ∧
                (s.link.options.noticeMask.getLsbD 1 = true → reports → u.link.hasNotice (.mountState .unmounted 0)) ∨
              u.mount = { s.mount with state := .lost } ∧ u.cache.defects = s.cache.defects ∧
                (s.cache.armed = true → s.link.options.noticeMask.getLsbD 6 = true → reports → u.link.hasNotice (.flushDone false)) ∧
                (s.link.options.noticeMask.getLsbD 1 = true → reports → ∃ n, u.link.hasNotice (.mountState .lost n))) ∧
            ((∃ k tr l x, (s.cache.line k).tag = some tr ∧ s.cache.sector k l = some x ∧ unsaved x) → u.mount.state = .lost) ∧
            ((∀ k l x, s.cache.sector k l = some x → ¬ unsaved x) → r.kind ≠ .flush → r.kind ≠ .mergeRead → u.mount.state = .unmounted) ∧
            u.cache.flushQ = [] ∧ u.cache.armed = false ∧ u.drive = { s.drive with latch := true } ∧ u.cap.st = s.abandoned)))

/-- A block of a fill (R76): every byte of the block that lies in a PENDING sector which lacked the block goes to its place in the line; such
a sector is CLEAN once its progress holds every block it covers, and PENDING with the block in its progress until then; no other sector
changes, and no other byte of the track RAM: what a sector in another state, or of another track, has in the block is dropped. Fill work
(R73), in MOUNTED alone (log 12); a byte that the transfer did not carry is 00 hex (log 7). The fill run (R145, R149, R154): the block goes to
the line while it carries the run's track, and the cache reacts to it before the boundary, once (log 20); of a second attempt it is the
block that `base`, the blocks before the failed one, and what it has received count
off (log 35). At the boundary the run ends CANCELLED when the mount is not MOUNTED or the run's mount has ended, when blocks are left and
none of them is fill work (log 24), or when it is AHEAD and DEMAND work waits in the queued slot or is offered (a forced line's write-back
that waits for the merge buffer does not count, log 39); otherwise it goes on with the limit of 100 ms, or ends DONE after its last block.
What follows are the reactions to the boundary alone. An attempt that fails (R77, R155; with fewer than three failures in a row before it):
after the first the run is tried again from the failed block with the limit of 100 ms while a block from there on is fill work, and ends
CANCELLED when none is; the second is final: PENDING sectors in the run's blocks become MISSING, and FILL_ERROR reports it when the line's origin is DEMAND. -/
def Obligations.FillBlocksAndFillRuns : Prop :=
  (∀ (c : Cache) (g : Geometry) (i : Nat) (tr : Track) (blk : Nat) (data : List Byte), (c.line i).tag = some tr → c.ram.wf →
    let d := c.deliver g i tr blk data
    let size := (g.layoutAt tr).sectorSize
    let lacks := fun (l : Nat) (x : Sector) => x.state = .pending ∧ g.covers tr l blk = true ∧ blk ∉ x.progress
    let inBlock := fun (l b : Nat) => b < size ∧ 512 * blk ≤ g.sectorOffset tr l + b ∧ g.sectorOffset tr l + b < 512 * blk + 512
    d = { c with lines := d.lines, ram := d.ram } ∧ (∀ k, k ≠ i → d.line k = c.line k) ∧
    (∀ l x, c.sector i l = some x →
      (¬ lacks l x → d.sector i l = some x) ∧
      (lacks l x →
        (∀ b, inBlock l b → memRead d.ram (i * 12288 + l * size + b) = byteAt data (g.sectorOffset tr l + b - 512 * blk)) ∧
        ((∀ p ∈ g.sectorBlocks tr l, p = blk ∨ p ∈ x.progress) →
          d.sector i l = some { x with state := .clean, progress := [] }) ∧
        (¬ (∀ p ∈ g.sectorBlocks tr l, p = blk ∨ p ∈ x.progress) →
          ∃ y, d.sector i l = some { x with progress := y } ∧ ∀ p, p ∈ y ↔ p ∈ g.sectorBlocks tr l ∧ (p = blk ∨ p ∈ x.progress)))) ∧
    (∀ a, (∀ l x b, c.sector i l = some x → lacks l x → inBlock l b → a ≠ i * 12288 + l * size + b) → memRead d.ram a = memRead c.ram a)) ∧
  (∀ (s : State) (i blk : Nat), s.fillWork i blk = true ↔
    s.mount.state = .mounted ∧ ∃ tr l x, (s.cache.line i).tag = some tr ∧ s.cache.sector i l = some x ∧ x.state = .pending ∧
      s.geom.covers tr l blk = true ∧ blk ∉ x.progress) ∧
  (∀ (s : State) (data : List Byte) (r : Run) (i f : Nat) (tr : Track), s.powered = true → s.card.active = some r → r.kind = .fill →
    r.line = some i → r.track = some tr → r.firstImage = some f →
    let ends := fun (old : State) (c : Instr) (u : State) => ∃ t, exec c s = .next t ∧ Reacted old u t
    let stale := s.runEnded r = true ∨ (s.cache.line i).tag ≠ some tr
    let gone := { r with received := r.received + 1 }
    let given := if s.runEnded r = true ∨ (s.cache.line i).tag ≠ some tr then s
      else ({ s with cache := s.cache.deliver s.geom i tr (f + (r.base + r.received)) data } : State).react s.cache
    let v := { given with card := { s.card with active := some gone } }
    let active := fun (t : State) => t.cache.active = some i
    let ended := fun (t : State) (r : Run) (st : RunStatus) (n : Nat) => { t.card with
      active := none, blockLimit := none, failCount := n,
      lastRun := some { r with status := st, cls := if t.cache.active = some i then .demand else .ahead } }
    let left := fun (t : State) (k : Nat) => t.runEnded r = false ∧ (t.cache.line i).tag = some tr ∧
      ∃ b, k ≤ b ∧ b < r.count ∧ t.fillWork i (f + b) = true
    let demandWaits := (∃ q, v.card.queued = some q ∧ v.runClass q = .demand) ∨ v.offerDemand.isSome = true
    let cancels := v.mount.state ≠ .mounted ∨ s.runEnded r = true ∨ (r.base + r.received + 1 < r.count ∧ ¬ left v (r.base + r.received + 1)) ∨
      (¬ active v ∧ demandWaits)
    given = { s with cache := given.cache } ∧
    (cancels → ends v (.blockTransferDone data) { v with card := ended v gone .cancelled s.card.failCount }) ∧
    (¬ cancels → r.base + r.received + 1 < r.count →
      ends v (.blockTransferDone data) { v with card := { v.card with blockLimit := some 2400000 } }) ∧
    (¬ cancels → r.count ≤ r.base + r.received + 1 → ends v (.blockTransferDone data) { v with card := ended v gone .done 0 }) ∧
    (∀ c e, (c = .blockLimitExpiry ∧ e = .timeout) ∨ (c = .blockCardError ∧ e = .cardError) → s.card.failCount < 3 →
      (r.attempt = 1 → left s (r.base + r.received) → ends s c { s with card := { s.card with
        active := some { r with attempt := 2, base := r.base + r.received, received := 0 }, blockLimit := some 2400000
        failCount := s.card.failCount + 1 } }) ∧
      (r.attempt = 1 → ¬ left s (r.base + r.received) → ends s c { s with card := ended s r .cancelled (s.card.failCount + 1) }) ∧
      (r.attempt ≠ 1 → stale → ends s c { s with card := ended s r (.failed e) (s.card.failCount + 1) }) ∧
      (r.attempt ≠ 1 → ¬ stale → ∃ u, ends s c u ∧
        u = { s with
          card := ended s r (.failed e) (s.card.failCount + 1)
          cache := { s.cache with lines := u.cache.lines }
          link := if (s.cache.line i).origin = .demand then s.link.post (.fillError tr e) else s.link } ∧
        (∀ k, k ≠ i → u.cache.line k = s.cache.line k) ∧ (u.cache.line i).tag = some tr ∧
        ∀ l x, s.cache.sector i l = some x →
          let fails := x.state = .pending ∧ ∃ p ∈ s.geom.sectorBlocks tr l, f ≤ p ∧ p < f + r.count
          (fails → u.cache.sector i l = some { x with state := .missing, progress := [] }) ∧
          (¬ fails → u.cache.sector i l = some x))))

/-- The arbiter (R144, R147 to R153), which runs in the reactions at the end of every command (`Reacted`, log 32): four passes, each of which trims
the flush queue, withdraws a dead fill, displaces the queued run, moves it up (log 23) and fills the queued slot; that there are four of them,
enough for both slots to stand, is log 38. The offer is that of the highest
class: the active line's fill in its demand order or the forced line's write-back, then the panel's block, then the line at the front of
the flush queue, then the unpinned FILLING line nearest the front of the LRU order. A block that a run of the same line holds in a slot is
not offered, but for a block of a write run that is DIRTY again as write-back work (log 13), and work whose first block needs a merge not
while the merge buffer is taken. A run takes consecutive blocks of work up to the pass's end, the burst cap and the extent's end; a write
run ends before a block that needs a merge, its DIRTY sectors become FLUSH, which the model keeps by their stamps and the run's `members`
(log 6), and its bytes are fixed from its own line and from the other line
that holds the outside bytes, or the merge buffer. A queued run is displaced exactly by an offer of a higher class than its own, and
withdrawn; FLUSH sectors of a withdrawn write run are DIRTY again. A queued fill none of whose blocks is fill work is withdrawn. -/
def Obligations.TheArbiterFillsTheSlots : Prop :=
  (∀ old s : State,
    let pass := fun t : State => t.tendQueue.dropDeadFill.displace.promote.fillQueued
    State.settle old s =
      ((s.reactWaiting old.cache).reactAhead old.cache |> pass |> pass |> pass |> pass).tendQueue.refreshClasses.tendStream) ∧
  (∀ s : State,
    let stands := s.mount.state = .mounted ∨ s.mount.state = .draining
    let inSlot := fun r : Run => s.card.active = some r ∨ s.card.queued = some r
    let own := fun (r : Run) (i : Nat) => s.mount.state ≠ .unmounted ∧ r.mount = some s.mount.serial ∧ r.line = some i
    let has := fun (r : Run) (blk : Nat) => ∃ f, r.firstImage = some f ∧ f ≤ blk ∧ blk < f + r.count
    let holds := fun (r : Run) (i blk : Nat) => inSlot r ∧ own r i ∧ r.track = (s.cache.line i).tag ∧ has r blk
    let fillFree := fun i blk => s.fillWork i blk = true ∧
      ¬ ∃ r, (r.kind = .fill ∨ r.kind = .mergeRead ∨ r.kind = .flush) ∧ holds r i blk
    let writeFree := fun i blk => s.writeWork i blk = true ∧ ¬ ∃ r, (r.kind = .fill ∨ r.kind = .mergeRead) ∧ holds r i blk
    let mergeBusy := ∃ r, inSlot r ∧ (r.kind = .mergeRead ∨ r.merged = true)
    let supplies := fun (i q : Nat) => ∃ tr x, (s.cache.line i).tag = some tr ∧ s.geom.trackOffset tr ≤ 128 * q ∧
      s.cache.sector i ((128 * q - s.geom.trackOffset tr) / (s.geom.layoutAt tr).sectorSize) = some x ∧ x.hole = false ∧
      (x.state = .clean ∨ x.state = .dirty ∨ x.state = .flush ∨ x.state = .capture)
    let other := fun (i blk k : Nat) => k < 8 ∧ k ≠ i ∧ ∀ m < 4, supplies i (4 * blk + m) ∨ supplies k (4 * blk + m)
    let needsMerge := fun (i blk : Nat) => (∃ m < 4, ¬ supplies i (4 * blk + m)) ∧ ∀ k, ¬ other i blk k
    let first := fun (blocks : List Nat) (p : Nat → Prop) (b : Nat) => ∃ before after, blocks = before ++ b :: after ∧ p b ∧ ∀ k ∈ before, ¬ p k
    let blocks := fun i => s.cache.lineBlocks s.geom i
    let order := fun i => (blocks i).filter (fun b => decide (s.cache.demandStart ≤ b)) ++
      (blocks i).filter (fun b => decide (b < s.cache.demandStart))
    -- the offers
    (∀ i tr, (s.cache.line i).tag = some tr → ∀ b, b ∈ blocks i ↔ s.geom.firstBlock tr ≤ b ∧ b ≤ s.geom.lastBlock tr) ∧
    (s.card.state ≠ .ready → s.offer = none) ∧
    (s.card.state = .ready → s.offer = s.offerDemand.or (s.offerPanel.or (s.offerWriteback.or s.offerAhead))) ∧
    (s.mount.state ≠ .mounted → s.offerDemand = none ∧ s.offerAhead = none) ∧
    (s.mount.state = .mounted →
      (∀ i tr b, s.cache.active = some i → (s.cache.line i).tag = some tr → first (order i) (fillFree i) b →
        s.offerDemand = some (.fill .demand i b
          (if s.cache.demandStart ≤ b then s.geom.lastBlock tr else min (s.cache.demandStart - 1) (s.geom.lastBlock tr)))) ∧
      ((∀ i b, s.cache.active = some i → b ∈ blocks i → ¬ fillFree i b) →
        s.offerDemand = match s.cache.forced with | some f => s.offerFlush .demand f | none => none)) ∧
    (∀ cls i, ((∀ b ∈ blocks i, ¬ writeFree i b) → s.offerFlush cls i = none) ∧
      (∀ b, first (blocks i) (writeFree i) b →
        (needsMerge i b ∧ mergeBusy → s.offerFlush cls i = none) ∧
        (¬ (needsMerge i b ∧ mergeBusy) → s.offerFlush cls i = some (.flush cls i b)))) ∧
    (s.offerPanel = some .panel ↔ s.card.panel ≠ none ∧ ∀ r, inSlot r → r.kind ≠ .panelRead ∧ r.kind ≠ .panelWrite) ∧
    (∀ o, s.offerPanel = some o → o = .panel) ∧
    (¬ stands → s.offerWriteback = none) ∧
    (stands → s.offerWriteback = match s.cache.flushQ with | [] => none | i :: _ => s.offerFlush .writeback i) ∧
    (s.mount.state = .mounted →
      (∀ i tr b, first s.cache.lru (fun k => (s.cache.line k).pinned = false ∧ ∃ b ∈ blocks k, fillFree k b) i →
        (s.cache.line i).tag = some tr → first (blocks i) (fillFree i) b →
        s.offerAhead = some (.fill .ahead i b (s.geom.lastBlock tr))) ∧
      ((∀ k ∈ s.cache.lru, (s.cache.line k).pinned = true ∨ ∀ b ∈ blocks k, ¬ fillFree k b) → s.offerAhead = none)) ∧
    -- the runs built
    (let cap := s.link.options.burstCap
     let extent := fun blk => (s.mount.mapBlock blk).map Prod.snd
     let record := fun (cls : RunClass) (kind : RunKind) (i blk n : Nat) (r : Run) =>
       r.cls = cls ∧ r.kind = kind ∧ r.line = some i ∧ r.track = (s.cache.line i).tag ∧ r.mount = some s.mount.serial ∧ r.firstImage = some blk ∧
       r.count = n ∧ (∀ b e, s.mount.mapBlock blk = some (b, e) → r.start = b ∧ r.extent = some e) ∧ r.attempt = 1 ∧ r.base = 0 ∧ r.received = 0 ∧
       r.status = .queued
     let longest := fun (ok : Nat → Prop) (blk n : Nat) => 1 ≤ n ∧ n ≤ cap ∧ (∀ k, 1 ≤ k → k < n → ok (blk + k)) ∧ (n < cap → ¬ ok (blk + n))
     (1 ≤ cap →
      (∀ cls i blk last, ∃ r n, s.build (.fill cls i blk last) = { s with card := { s.card with queued := some r } } ∧
        record cls .fill i blk n r ∧ longest (fun b => b ≤ last ∧ fillFree i b ∧ extent b = extent blk) blk n) ∧
      (∀ cls i blk, needsMerge i blk →
        ∃ r, s.build (.flush cls i blk) = { s with card := { s.card with queued := some r } } ∧ record cls .mergeRead i blk 1 r ∧
          r.merged = false) ∧
      (∀ cls i blk, ¬ needsMerge i blk →
        ∃ n, longest (fun b => writeFree i b ∧ ¬ needsMerge i b ∧ extent b = extent blk) blk n ∧
          let w := s.makeFlush cls i blk n none
          s.build (.flush cls i blk) = { w.1 with card := { s.card with queued := some w.2 } })) ∧
     (∀ w, s.card.panel = some w → ∃ r, s.build .panel = { s with card := { s.card with queued := some r } } ∧ r.cls = .panel ∧
        r.kind = (if w.write then .panelWrite else .panelRead) ∧ r.start = w.block ∧ r.count = 1 ∧ r.data = w.data ∧ r.mount = none) ∧
     (∀ cls i blk n buf tr, (s.cache.line i).tag = some tr →
        let w := s.makeFlush cls i blk n buf
        let inRun := fun l => ∃ p ∈ s.geom.sectorBlocks tr l, blk ≤ p ∧ p < blk + n
        w.1 = { s with cache := { s.cache with lines := w.1.cache.lines, flushSerial := s.cache.flushSerial + 1 } } ∧
        (∀ k, k ≠ i → w.1.cache.line k = s.cache.line k) ∧ (w.1.cache.line i).tag = some tr ∧
        (∀ l x, s.cache.sector i l = some x →
          (x.state = .dirty ∧ inRun l →
            w.1.cache.sector i l = some { x with state := .flush, progress := [], stamp := s.cache.flushSerial + 1 }) ∧
          (¬ (x.state = .dirty ∧ inRun l) → w.1.cache.sector i l = some x)) ∧
        record cls .flush i blk n w.2 ∧ w.2.merged = buf.isSome ∧ w.2.data.length = 512 * n ∧
        (∀ l stamp, (l, stamp) ∈ w.2.members ↔
          inRun l ∧ ∃ x, w.1.cache.sector i l = some x ∧ x.state = .flush ∧ x.stamp = stamp) ∧
        (∀ j m b, j < n → m < 4 → b < 128 →
          let q := 4 * (blk + j) + m
          let byte := byteAt w.2.data (512 * j + 128 * m + b)
          let lineByte := fun k => ∃ y, (s.cache.line k).tag = some y ∧
            byte = memRead s.cache.ram (k * 12288 + (128 * q - s.geom.trackOffset y) + b)
          (supplies i q → lineByte i) ∧
          (∀ bs, ¬ supplies i q → buf = some bs → byte = byteAt bs (128 * m + b)) ∧
          (∀ k, ¬ supplies i q → buf = none → other i (blk + j) k → ∃ k, other i (blk + j) k ∧ lineByte k)))) ∧
    -- the slots
    s.refreshClasses = { s with card := { s.card with
      active := s.card.active.map (fun r => { r with cls := s.runClass r }), queued := s.card.queued.map (fun r => { r with cls := s.runClass r }) } } ∧
    (let work := fun k => s.cache.hasWriteWork s.geom s.writeRuns k
     let kept := s.cache.flushQ.filter work
     let joining := s.cache.lru.reverse.filter (fun k => work k && decide (k ∉ kept))
     let all := joining.filter (fun k => decide (s.cache.forced = some k)) ++ kept ++
       joining.filter (fun k => decide (s.cache.forced ≠ some k))
     s.tendQueue = { s with cache := { s.cache with flushQ := if s.mount.state = .draining then all else kept } }) ∧
    (s.card.queued = none → s.displace = s ∧ s.dropDeadFill = s ∧ s.withdraw = s ∧ s.promote = s ∧
      s.fillQueued = (match s.offer with | some o => s.build o | none => s)) ∧
    (∀ r, s.card.queued = some r →
      let rank := fun cls : RunClass => match cls with | .demand => 1 | .panel => 2 | .writeback => 3 | .ahead => 4
      let isActive := r.line ≠ none ∧ s.cache.active = r.line
      let isForced := r.line ≠ none ∧ s.cache.forced = r.line
      let out := { s with card := { s.card with queued := none } }
      s.fillQueued = s ∧
      (r.kind = .fill → s.runClass r = if isActive then .demand else .ahead) ∧
      (r.kind = .flush ∨ r.kind = .mergeRead → s.runClass r = if isForced then .demand else .writeback) ∧
      (r.kind = .panelRead ∨ r.kind = .panelWrite → s.runClass r = .panel) ∧
      (∀ o, s.offer = some o → rank o.cls < rank (s.runClass r) → s.displace = s.withdraw) ∧
      ((∀ o, s.offer = some o → rank (s.runClass r) ≤ rank o.cls) → s.displace = s) ∧
      (r.kind ≠ .fill → s.dropDeadFill = s) ∧
      (∀ i f tr, r.kind = .fill → r.line = some i → r.firstImage = some f → r.track = some tr →
        let alive := s.mount.state ≠ .unmounted ∧ r.mount = some s.mount.serial ∧ (s.cache.line i).tag = some tr ∧
          ∃ k < r.count, s.fillWork i (f + k) = true
        (alive → s.dropDeadFill = s) ∧ (¬ alive → s.dropDeadFill = s.withdraw)) ∧
      (∀ a, s.card.active = some a → s.promote = s) ∧
      (s.card.active = none → s.promote = { s with card := { s.card with
        active := some { r with status := .inProgress }, queued := none,
        blockLimit := some (if r.kind = .flush ∨ r.kind = .panelWrite then 6000000 else 2400000) } }) ∧
      (r.kind ≠ .flush → s.withdraw = out) ∧
      (r.kind = .flush →
        s.withdraw = { out with cache := { s.cache with lines := s.withdraw.cache.lines, flushQ := s.withdraw.cache.flushQ } } ∧
        (s.mount.state ≠ .mounted → s.withdraw.cache.flushQ = s.cache.flushQ) ∧
        (∀ i, s.mount.state = .mounted → r.line = some i → i ∈ s.cache.lru → s.withdraw.cache.hasWriteWork s.geom s.withdraw.writeRuns i = true →
          i ∈ s.withdraw.cache.flushQ) ∧
        (∀ k l x, s.cache.sector k l = some x →
          let returns := x.state = .flush ∧ s.runEnded r = false ∧ r.line = some k ∧
            ∃ tr, r.track = some tr ∧ (s.cache.line k).tag = some tr ∧ ∃ p ∈ s.geom.sectorBlocks tr l, has r p
          (returns → s.withdraw.cache.sector k l = some { x with state := .dirty, progress := [] }) ∧
          (¬ returns → s.withdraw.cache.sector k l = some x)))))
end

