-- ==== Sys2Proof/Laws/Ops.lean ====
section
/-! SUPPORT. What the operations over byte memories and the choice of an order can do. -/

namespace Sys2Proof.Machine

/-! ## Byte memories: the canonical form is kept -/

theorem cellsFrom_mem {a : Nat} {bs : List Byte} {c : Host.Cell} (h : c ∈ cellsFrom a bs) :
    a ≤ c.1 ∧ c.1 < a + bs.length ∧ c.2 ≠ unlisted := by
  induction bs generalizing a with
  | nil => simp [cellsFrom] at h
  | cons b bs ih =>
    unfold cellsFrom at h
    split at h
    · have := ih h
      simp only [List.length_cons]
      exact ⟨by omega, by omega, this.2.2⟩
    · rcases List.mem_cons.mp h with h | h
      · subst h
        simp_all
      · have := ih h
        simp only [List.length_cons]
        exact ⟨by omega, by omega, this.2.2⟩

theorem cellsFrom_sorted (a : Nat) (bs : List Byte) : ((cellsFrom a bs).map Prod.fst).Pairwise (· < ·) := by
  induction bs generalizing a with
  | nil => simp [cellsFrom]
  | cons b bs ih =>
    unfold cellsFrom
    split
    · exact ih _
    · rw [List.map_cons, List.pairwise_cons]
      refine ⟨fun x hx => ?_, ih _⟩
      obtain ⟨c, hc, rfl⟩ := List.mem_map.mp hx
      have := cellsFrom_mem hc
      simp only
      omega

/-- Storing keeps the canonical form. -/
theorem memStore_wf {m : Memory} (h : m.wf) (a : Nat) (bs : List Byte) : (memStore m a bs).wf := by
  obtain ⟨hs, hv⟩ := h
  unfold memStore
  refine ⟨?_, fun c hc => ?_⟩
  · have hsub : ∀ p : Host.Cell → Bool, ((m.filter p).map Prod.fst).Pairwise (· < ·) :=
      fun p => hs.sublist (List.filter_sublist.map _)
    simp only [List.map_append, List.pairwise_append, List.mem_append, List.mem_map, List.mem_filter, decide_eq_true_eq]
    refine ⟨⟨hsub _, cellsFrom_sorted a bs, ?_⟩, hsub _, ?_⟩
    · rintro x ⟨c, ⟨-, hc⟩, rfl⟩ y ⟨d, hd, rfl⟩
      have := cellsFrom_mem hd
      omega
    · rintro x (⟨c, ⟨-, hc⟩, rfl⟩ | ⟨c, hc, rfl⟩) y ⟨d, ⟨-, hd⟩, rfl⟩
      · omega
      · have := cellsFrom_mem hc
        omega
  · simp only [List.mem_append, List.mem_filter] at hc
    rcases hc with (⟨hc, -⟩ | hc) | ⟨hc, -⟩
    · exact hv c hc
    · exact (cellsFrom_mem hc).2.2
    · exact hv c hc

/-- The empty memory is canonical. -/
theorem Memory.wf_nil : Memory.wf [] := ⟨List.Pairwise.nil, fun _ h => by simp at h⟩

/-! ## Byte memories: reading after storing -/

theorem find?_eq_none_of_ne {m : Memory} {a : Nat} (h : ∀ c ∈ m, c.1 ≠ a) : m.find? (fun c => c.1 == a) = none := by
  simp only [List.find?_eq_none, beq_iff_eq]
  exact h

theorem find?_filter_eq {m : Memory} {a : Nat} {p : Host.Cell → Bool} (h : ∀ c : Host.Cell, c.1 = a → p c = true) :
    (m.filter p).find? (fun c => c.1 == a) = m.find? (fun c => c.1 == a) := by
  rw [List.find?_filter]
  congr 1
  funext c
  by_cases hc : c.1 = a
  · simp [h c hc, hc]
  · simp [hc]

/-- An address outside the stored bytes reads as before. -/
theorem memRead_memStore_outside (m : Memory) (a : Nat) (bs : List Byte) (x : Nat) (h : x < a ∨ a + bs.length ≤ x) :
    memRead (memStore m a bs) x = memRead m x := by
  unfold memRead memStore
  have hmid : (cellsFrom a bs).find? (fun c => c.1 == x) = none :=
    find?_eq_none_of_ne (fun c hc => by have := cellsFrom_mem hc; omega)
  rcases h with h | h
  · have hhi : (m.filter (fun c => decide (a + bs.length ≤ c.1))).find? (fun c => c.1 == x) = none :=
      find?_eq_none_of_ne (fun c hc => by simp at hc; omega)
    have hlo : (m.filter (fun c => decide (c.1 < a))).find? (fun c => c.1 == x) = m.find? (fun c => c.1 == x) :=
      find?_filter_eq (fun c hc => by simp [hc, h])
    simp only [List.find?_append, hmid, hhi, hlo, Option.or_none]
  · have hlo : (m.filter (fun c => decide (c.1 < a))).find? (fun c => c.1 == x) = none :=
      find?_eq_none_of_ne (fun c hc => by simp at hc; omega)
    have hhi : (m.filter (fun c => decide (a + bs.length ≤ c.1))).find? (fun c => c.1 == x) = m.find? (fun c => c.1 == x) :=
      find?_filter_eq (fun c hc => by simp [hc, h])
    simp only [List.find?_append, hmid, hhi, hlo, Option.or_none, Option.none_or]

theorem find?_cellsFrom (a : Nat) (bs : List Byte) (k : Nat) (h : k < bs.length) :
    memRead (cellsFrom a bs) (a + k) = bs[k] := by
  induction bs generalizing a k with
  | nil => simp at h
  | cons b bs ih =>
    cases k with
    | zero =>
      by_cases hb : b = unlisted
      · have : (cellsFrom (a + 1) bs).find? (fun c => c.1 == a + 0) = none :=
          find?_eq_none_of_ne (fun c hc => by have := cellsFrom_mem hc; omega)
        simp only [memRead, cellsFrom, if_pos hb, this]
        simp [hb]
      · simp [memRead, cellsFrom, if_neg hb]
    | succ k =>
      have hk : k < bs.length := by simpa using h
      have e : a + (k + 1) = a + 1 + k := by omega
      have := ih (a + 1) k hk
      rw [e]
      by_cases hb : b = unlisted
      · simpa [cellsFrom, if_pos hb] using this
      · have hne : (a == a + 1 + k) = false := by simp; omega
        simp only [cellsFrom, if_neg hb, memRead, List.find?_cons, hne]
        simpa [memRead] using this

/-- A stored byte reads back. -/
theorem memRead_memStore_inside (m : Memory) (a : Nat) (bs : List Byte) (k : Nat) (h : k < bs.length) :
    memRead (memStore m a bs) (a + k) = bs[k] := by
  rw [← find?_cellsFrom a bs k h]
  unfold memStore
  have hlo : (m.filter (fun c => decide (c.1 < a))).find? (fun c => c.1 == a + k) = none :=
    find?_eq_none_of_ne (fun c hc => by simp at hc; omega)
  have hhi : (m.filter (fun c => decide (a + bs.length ≤ c.1))).find? (fun c => c.1 == a + k) = none :=
    find?_eq_none_of_ne (fun c hc => by simp at hc; omega)
  simp only [memRead, List.find?_append, hlo, hhi, Option.or_none, Option.none_or]

theorem memSlice_length (m : Memory) (a k : Nat) : (memSlice m a k).length = k := by simp [memSlice]

/-! ## A free order -/

theorem arrange_perm {α : Type} (k : Nat) (xs : List α) : (arrange k xs).Perm xs := by
  induction xs generalizing k with
  | nil => simp [arrange]
  | cons x xs ih =>
    unfold arrange
    have hlen : (arrange (k / (xs.length + 1)) xs).length = xs.length := (ih _).length_eq
    refine (List.perm_insertIdx x _ ?_).trans ((ih _).cons x)
    rw [hlen]
    exact Nat.le_of_lt_succ (Nat.mod_lt k (by omega))

theorem foldl_preserves {α β : Type} (P : α → Prop) (f : α → β → α) (xs : List β) (a : α) (h : P a)
    (step : ∀ a, ∀ x ∈ xs, P a → P (f a x)) : P (xs.foldl f a) := by
  induction xs generalizing a with
  | nil => exact h
  | cons x xs ih =>
    exact ih _ (step a x (by simp) h) (fun a y hy => step a y (by simp [hy]))

/-- Whatever the order, what every effect keeps is kept; drawing the order must not matter either. -/
theorem inFreeOrder_keeps (P : State → Prop) (fs : List (State → State)) (s : State) (h : P s)
    (draw : ∀ t : State, P t → P { t with free := t.free + 1 }) (step : ∀ f ∈ fs, ∀ t, P t → P (f t)) :
    P (inFreeOrder fs s) := by
  unfold inFreeOrder
  split
  · exact foldl_preserves P _ fs s h (fun t f hf ht => step f hf t ht)
  · refine foldl_preserves P _ _ _ (draw s h) (fun t f hf ht => step f ?_ t ht)
    exact (arrange_perm _ _).subset hf

theorem foldl_brings {α : Type} (P : α → Prop) (fs : List (α → α)) (a : α) (keep : ∀ f ∈ fs, ∀ a, P a → P (f a))
    (h : P a ∨ ∃ f ∈ fs, ∀ a, P (f a)) : P (fs.foldl (fun t f => f t) a) := by
  induction fs generalizing a with
  | nil =>
    rcases h with h | ⟨f, hf, -⟩
    · exact h
    · exact absurd hf (by simp)
  | cons g gs ih =>
    refine ih (g a) (fun f hf => keep f (by simp [hf])) ?_
    rcases h with h | ⟨f, hf, hb⟩
    · exact .inl (keep g (by simp) a h)
    · rcases List.mem_cons.mp hf with rfl | hf
      · exact .inl (hb a)
      · exact .inr ⟨f, hf, hb⟩

/-- Whatever the order, what one effect brings about and the others keep holds at the end. -/
theorem inFreeOrder_brings (P : State → Prop) (fs : List (State → State)) (s : State)
    (draw : ∀ t : State, P t → P { t with free := t.free + 1 }) (keep : ∀ f ∈ fs, ∀ t, P t → P (f t))
    (h : P s ∨ ∃ f ∈ fs, ∀ t, P (f t)) : P (inFreeOrder fs s) := by
  unfold inFreeOrder
  split
  · exact foldl_brings P fs s keep h
  · have hm : ∀ f, f ∈ arrange (Config.tie s.free) fs ↔ f ∈ fs := fun f => (arrange_perm _ fs).mem_iff
    refine foldl_brings P _ _ (fun f hf => keep f ((hm f).mp hf)) ?_
    rcases h with h | ⟨f, hf, hb⟩
    · exact .inl (draw s h)
    · exact .inr ⟨f, (hm f).mpr hf, hb⟩

/-- With one effect no order is drawn. -/
theorem inFreeOrder_one (f : State → State) (s : State) : inFreeOrder [f] s = f s := rfl

/-- With none nothing happens. -/
theorem inFreeOrder_nil (s : State) : inFreeOrder [] s = s := rfl

end Sys2Proof.Machine
end

