-- ==== Sys2Proof/Laws/Cache.lean ====
section
/-! SUPPORT. The track cache keeps its shape: eight lines, at most one pinned, no tag twice, the LRU order a permutation of the line
numbers, the flush queue without a line twice, the track RAM canonical. -/

namespace Sys2Proof.Machine

/-! ## The shape of the lines -/

/-- The tags and pins of the lines. -/
def Cache.shape (c : Cache) : List (Option Track × Bool) := c.lines.map (fun l => (l.tag, l.pinned))

theorem Cache.shape_length (c : Cache) : c.shape.length = c.lines.length := by simp [Cache.shape]

theorem Cache.pins_shape (c : Cache) : c.pins = c.shape.countP (fun x => x.2) := by
  simp [Cache.pins, Cache.shape, List.countP_map, Function.comp_def]

theorem Cache.tags_shape (c : Cache) : c.lines.filterMap Line.tag = c.shape.filterMap (fun x => x.1) := by
  simp [Cache.shape, List.filterMap_map]

theorem Cache.carrier_shape (c : Cache) (tr : Track) : c.carrier tr = c.shape.findIdx? (fun x => x.1 == some tr) := by
  simp [Cache.carrier, Cache.findLine, Cache.shape, List.findIdx?_map, Function.comp_def]

theorem Cache.active_shape (c : Cache) : c.active = c.shape.findIdx? (fun x => x.2) := by
  simp [Cache.active, Cache.findLine, Cache.shape, List.findIdx?_map, Function.comp_def]

/-- Soundness carries over to a cache of the same shape. -/
theorem Cache.Sound.reshape {c d : Cache} (h : c.Sound) (hs : d.shape = c.shape) (hl : d.lru.Perm c.lru) (hq : d.flushQ.Nodup)
    (hm : ∀ i ∈ d.flushQ, i < 8) (hw : d.waiting = c.waiting ∨ d.waiting = none) (hd : d.defects.length ≤ maxDefects)
    (hr : d.ram.wf) : d.Sound where
  lines := by rw [← Cache.shape_length, hs, Cache.shape_length]; exact h.lines
  lru := hl.trans h.lru
  pins := by rw [Cache.pins_shape, hs, ← Cache.pins_shape]; exact h.pins
  tags := by rw [Cache.tags_shape, hs, ← Cache.tags_shape]; exact h.tags
  queue := hq
  queued := hm
  waits := by
    intro tr htr
    rcases hw with hw | hw
    · rw [Cache.pins_shape, Cache.carrier_shape, hs, ← Cache.pins_shape, ← Cache.carrier_shape]
      exact h.waits tr (hw ▸ htr)
    · rw [hw] at htr
      exact absurd htr (by simp)
  defects := hd
  ram := hr

/-- A cache that differs in the lines alone, in no tag and no pin. -/
theorem Cache.Sound.relines {c : Cache} (h : c.Sound) (ls : List Line)
    (hs : ls.map (fun l => (l.tag, l.pinned)) = c.shape) : ({ c with lines := ls } : Cache).Sound :=
  h.reshape hs (List.Perm.refl _) h.queue h.queued (.inl rfl) h.defects h.ram

theorem modify_shape (ls : List Line) (i : Nat) (f : Line → Line) (hf : ∀ l, (f l).tag = l.tag ∧ (f l).pinned = l.pinned) :
    (ls.modify i f).map (fun l => (l.tag, l.pinned)) = ls.map (fun l => (l.tag, l.pinned)) := by
  apply List.ext_getElem
  · simp
  · intro k h1 h2
    simp only [List.getElem_map, List.getElem_modify]
    split
    · simp [hf]
    · rfl

theorem map_shape (ls : List Line) (f : Line → Line) (hf : ∀ l, (f l).tag = l.tag ∧ (f l).pinned = l.pinned) :
    (ls.map f).map (fun l => (l.tag, l.pinned)) = ls.map (fun l => (l.tag, l.pinned)) := by
  simp [hf]

theorem Cache.modLine_shape (c : Cache) (i : Nat) (f : Line → Line) (hf : ∀ l, (f l).tag = l.tag ∧ (f l).pinned = l.pinned) :
    (c.modLine i f).shape = c.shape := modify_shape _ _ _ hf

theorem Cache.Sound.modLine {c : Cache} (h : c.Sound) (i : Nat) (f : Line → Line)
    (hf : ∀ l, (f l).tag = l.tag ∧ (f l).pinned = l.pinned) : (c.modLine i f).Sound :=
  h.relines _ (modify_shape _ _ _ hf)

theorem Cache.Sound.modSector {c : Cache} (h : c.Sound) (i l : Nat) (f : Sector → Sector) : (c.modSector i l f).Sound :=
  h.modLine i _ (fun _ => ⟨rfl, rfl⟩)

theorem Cache.Sound.mapSectors {c : Cache} (h : c.Sound) (i : Nat) (f : Nat → Sector → Sector) : (c.mapSectors i f).Sound :=
  h.modLine i _ (fun _ => ⟨rfl, rfl⟩)

theorem Cache.Sound.withRam {c : Cache} (h : c.Sound) {m : Memory} (hm : m.wf) : ({ c with ram := m } : Cache).Sound :=
  h.reshape rfl (List.Perm.refl _) h.queue h.queued (.inl rfl) h.defects hm

theorem Cache.Sound.storeLine {c : Cache} (h : c.Sound) (i off : Nat) (bs : List Byte) : (c.storeLine i off bs).Sound :=
  h.withRam (memStore_wf h.ram _ _)

theorem Cache.Sound.withIdle {c : Cache} (h : c.Sound) (t : Option Nat) : ({ c with idleTimer := t } : Cache).Sound :=
  h.reshape rfl (List.Perm.refl _) h.queue h.queued (.inl rfl) h.defects h.ram

theorem Cache.Sound.withArmed {c : Cache} (h : c.Sound) (b : Bool) : ({ c with armed := b } : Cache).Sound :=
  h.reshape rfl (List.Perm.refl _) h.queue h.queued (.inl rfl) h.defects h.ram

theorem Cache.Sound.withSerial {c : Cache} (h : c.Sound) (n : Nat) : ({ c with flushSerial := n } : Cache).Sound :=
  h.reshape rfl (List.Perm.refl _) h.queue h.queued (.inl rfl) h.defects h.ram

theorem Cache.Sound.withForced {c : Cache} (h : c.Sound) (f : Option Nat) : ({ c with forced := f } : Cache).Sound :=
  h.reshape rfl (List.Perm.refl _) h.queue h.queued (.inl rfl) h.defects h.ram

theorem Cache.Sound.withQueue {c : Cache} (h : c.Sound) {q : List Nat} (hq : q.Nodup) (hm : ∀ i ∈ q, i < 8) :
    ({ c with flushQ := q } : Cache).Sound :=
  h.reshape rfl (List.Perm.refl _) hq hm (.inl rfl) h.defects h.ram

theorem Cache.Sound.noWait {c : Cache} (h : c.Sound) (f : Option Nat) :
    ({ c with waiting := none, forced := f } : Cache).Sound :=
  h.reshape rfl (List.Perm.refl _) h.queue h.queued (.inr rfl) h.defects h.ram

/-! ## Orders and queues -/

theorem Cache.Sound.lru_mem {c : Cache} (h : c.Sound) {i : Nat} : i ∈ c.lru ↔ i < 8 := by
  rw [h.lru.mem_iff, List.mem_range]

theorem Cache.Sound.lru_nodup {c : Cache} (h : c.Sound) : c.lru.Nodup := h.lru.nodup_iff.mpr List.nodup_range

theorem toFront_nodup {q : List Nat} (h : q.Nodup) (i : Nat) : (toFront q i).Nodup := by
  unfold toFront
  rw [List.nodup_cons]
  exact ⟨by simp, h.filter _⟩

theorem toFront_mem {q : List Nat} {i k : Nat} (h : k ∈ toFront q i) : k = i ∨ k ∈ q := by
  unfold toFront at h
  simp only [List.mem_cons, List.mem_filter] at h
  tauto

theorem toFront_perm {q : List Nat} (h : q.Nodup) {i : Nat} (hi : i ∈ q) : (toFront q i).Perm q := by
  rw [List.perm_ext_iff_of_nodup (toFront_nodup h i) h]
  intro k
  unfold toFront
  simp only [List.mem_cons, List.mem_filter, bne_iff_ne]
  constructor
  · rintro (rfl | ⟨hk, -⟩) <;> assumption
  · intro hk
    by_cases e : k = i
    · exact .inl e
    · exact .inr ⟨hk, e⟩

theorem toSecond_perm_toFront (q : List Nat) (i : Nat) : (toSecond q i).Perm (toFront q i) := by
  unfold toSecond toFront
  split
  · rename_i h
    rw [h]
  · rename_i h
    rw [h]
    exact List.Perm.swap _ _ _

theorem Cache.Sound.withLru {c : Cache} (h : c.Sound) {q : List Nat} (hq : q.Perm c.lru) : ({ c with lru := q } : Cache).Sound :=
  h.reshape rfl hq h.queue h.queued (.inl rfl) h.defects h.ram

theorem Cache.Sound.touch {c : Cache} (h : c.Sound) {i : Nat} (hi : i < 8) : (c.touch i).Sound :=
  h.withLru (toFront_perm h.lru_nodup (h.lru_mem.mpr hi))

/-- The lines of a join are in the LRU order and not yet in the queue. -/
theorem Cache.mem_joining {c : Cache} {p : Nat → Bool} {i : Nat} (h : i ∈ c.joining p) : i ∈ c.lru ∧ p i = true ∧ i ∉ c.flushQ := by
  unfold Cache.joining at h
  simp only [List.mem_filter, List.mem_reverse, Bool.and_eq_true, Bool.not_eq_true', List.contains_eq_mem, decide_eq_false_iff_not] at h
  exact h

theorem Cache.Sound.join {c : Cache} (h : c.Sound) (p : Nat → Bool) : (c.join p).Sound := by
  have hn : (c.joining p).Nodup := (List.nodup_reverse.mpr h.lru_nodup).filter _
  refine h.withQueue ?_ ?_
  · rw [List.nodup_append, List.nodup_append]
    refine ⟨⟨hn.filter _, h.queue, ?_⟩, hn.filter _, ?_⟩
    · intro a ha b hb e
      exact (Cache.mem_joining (List.mem_filter.mp ha).1).2.2 (e ▸ hb)
    · intro a ha b hb e
      rcases List.mem_append.mp ha with ha | ha
      · have h1 := (List.mem_filter.mp ha).2
        have h2 := (List.mem_filter.mp hb).2
        rw [e] at h1
        rw [bne, h1] at h2
        exact absurd h2 (by simp)
      · exact (Cache.mem_joining (List.mem_filter.mp hb).1).2.2 (e ▸ ha)
  · intro i hi
    rcases List.mem_append.mp hi with hi | hi
    · rcases List.mem_append.mp hi with hi | hi
      · exact h.lru_mem.mp (Cache.mem_joining (List.mem_filter.mp hi).1).1
      · exact h.queued i hi
    · exact h.lru_mem.mp (Cache.mem_joining (List.mem_filter.mp hi).1).1

theorem Cache.Sound.joinAll {c : Cache} (h : c.Sound) (g : Geometry) (rs : List Run) : (c.joinAll g rs).Sound := h.join _

theorem Cache.Sound.trimQueue {c : Cache} (h : c.Sound) (g : Geometry) (rs : List Run) : (c.trimQueue g rs).Sound :=
  h.withQueue (h.queue.filter _) (fun i hi => h.queued i (List.mem_filter.mp hi).1)

theorem Cache.Sound.queueFront {c : Cache} (h : c.Sound) {f : Nat} (hf : f < 8) :
    ({ c with flushQ := toFront c.flushQ f } : Cache).Sound :=
  h.withQueue (toFront_nodup h.queue f) (fun i hi => (toFront_mem hi).elim (fun e => e ▸ hf) (h.queued i))

theorem furthestBack_mem {order : List Nat} {p : Nat → Bool} {i : Nat} (h : furthestBack order p = some i) :
    i ∈ order ∧ p i = true := by
  unfold furthestBack at h
  exact ⟨List.mem_reverse.mp (List.mem_of_find?_eq_some h), List.find?_some h⟩

theorem Cache.Sound.chooseForced {c : Cache} (h : c.Sound) : c.chooseForced.Sound := by
  unfold Cache.chooseForced
  split
  · exact h.withForced none
  · rename_i f hf
    exact (h.queueFront (h.lru_mem.mp (furthestBack_mem hf).1)).withForced (some f)

/-! ## The defect list -/

theorem syncDefects_shape (g : Geometry) (ds : List Defect) (l : Line) :
    (Line.syncDefects g ds l).tag = l.tag ∧ (Line.syncDefects g ds l).pinned = l.pinned := by
  unfold Line.syncDefects
  cases hx : l.tag <;> simp [hx]

theorem Cache.Sound.setDefects {c : Cache} (h : c.Sound) (g : Geometry) {ds : List Defect} (hd : ds.length ≤ maxDefects) :
    (c.setDefects g ds).Sound :=
  h.reshape (map_shape _ _ (syncDefects_shape g ds)) (List.Perm.refl _) h.queue h.queued (.inl rfl) hd h.ram

theorem addToDefects_length {ds : List Defect} (h : ds.length ≤ maxDefects) (d : Defect) :
    (addToDefects ds d).1.length ≤ maxDefects := by
  unfold addToDefects
  split
  · rename_i hn
    simp only [List.length_append, List.length_singleton]
    obtain ⟨e, he, hp⟩ := List.any_eq_true.mp hn
    have : (ds.filter (fun e => !(e.track == d.track && e.sector == d.sector))).length < ds.length := by
      rw [List.length_filter_lt_length_iff_exists]
      exact ⟨e, he, by simpa using hp⟩
    omega
  · split
    · simp only [List.length_append, List.length_singleton]
      omega
    · simp only [List.length_append, List.length_singleton, List.length_drop]
      have : 1 ≤ maxDefects := by decide
      omega

theorem Cache.Sound.addDefect {c : Cache} (h : c.Sound) (g : Geometry) (d : Defect) : (c.addDefect g d).1.Sound :=
  h.setDefects g (addToDefects_length h.defects d)

theorem Cache.Sound.removeDefect {c : Cache} (h : c.Sound) (g : Geometry) (tr : Track) (k : Nat) : (c.removeDefect g tr k).Sound :=
  h.setDefects g ((List.length_filter_le _ _).trans h.defects)

theorem Cache.Sound.removeTrackDefects {c : Cache} (h : c.Sound) (g : Geometry) (tr : Track) : (c.removeTrackDefects g tr).Sound :=
  h.setDefects g ((List.length_filter_le _ _).trans h.defects)

/-! ## Pins and tags -/

theorem countP_set_le (ls : List (Option Track × Bool)) (i : Nat) (t : Option Track) :
    (ls.set i (t, false)).countP (fun x => x.2) ≤ ls.countP (fun x => x.2) := by
  induction ls generalizing i with
  | nil => simp
  | cons a ls ih =>
    cases i with
    | zero => simp [List.countP_cons]
    | succ i =>
      simp only [List.set_cons_succ, List.countP_cons]
      have := ih i
      omega

/-- The line that carries a track is one of the eight and has that tag. -/
theorem Cache.carrier_some {c : Cache} {tr : Track} {i : Nat} (h : c.carrier tr = some i) :
    i < c.lines.length ∧ (c.line i).tag = some tr := by
  unfold Cache.carrier Cache.findLine at h
  obtain ⟨hi, hp, -⟩ := List.findIdx?_eq_some_iff_getElem.mp h
  refine ⟨hi, ?_⟩
  have : c.line i = c.lines[i] := by simp [Cache.line, List.getElem?_eq_getElem hi]
  rw [this]
  simpa using hp

theorem Cache.carrier_none {c : Cache} {tr : Track} (h : c.carrier tr = none) {l : Line} (hl : l ∈ c.lines) : l.tag ≠ some tr := by
  unfold Cache.carrier Cache.findLine at h
  rw [List.findIdx?_eq_none_iff] at h
  simpa using h l hl

/-- The active line is one of the eight and is pinned. -/
theorem Cache.active_some {c : Cache} {i : Nat} (h : c.active = some i) : i < c.lines.length ∧ (c.line i).pinned = true := by
  unfold Cache.active Cache.findLine at h
  obtain ⟨hi, hp, -⟩ := List.findIdx?_eq_some_iff_getElem.mp h
  refine ⟨hi, ?_⟩
  have : c.line i = c.lines[i] := by simp [Cache.line, List.getElem?_eq_getElem hi]
  rw [this]
  exact hp

theorem Cache.active_none_iff (c : Cache) : c.active = none ↔ c.pins = 0 := by
  unfold Cache.active Cache.findLine Cache.pins
  rw [List.findIdx?_eq_none_iff, List.countP_eq_zero]
  constructor <;> intro h x hx <;> simpa using h x hx

theorem nodup_tags_set {ls : List (Option Track × Bool)} (h : (ls.filterMap (fun x => x.1)).Nodup) (i : Nat) (tr : Track) (b : Bool)
    (hn : ∀ x ∈ ls, x.1 ≠ some tr) : ((ls.set i (some tr, b)).filterMap (fun x => x.1)).Nodup := by
  induction ls generalizing i with
  | nil => simp
  | cons a ls ih =>
    have hn' : ∀ x ∈ ls, x.1 ≠ some tr := fun x hx => hn x (by simp [hx])
    have hls : (ls.filterMap (fun x => x.1)).Nodup :=
      List.Nodup.sublist (List.Sublist.filterMap _ (List.sublist_cons_self a ls)) h
    cases i with
    | zero =>
      simp only [List.set_cons_zero, List.filterMap_cons]
      rw [List.nodup_cons]
      refine ⟨?_, hls⟩
      rw [List.mem_filterMap]
      rintro ⟨x, hx, e⟩
      exact hn' x hx e
    | succ i =>
      simp only [List.set_cons_succ]
      cases ha : a.1 with
      | none =>
        rw [List.filterMap_cons_none ha]
        exact ih hls i hn'
      | some t =>
        rw [List.filterMap_cons_some ha]
        rw [List.filterMap_cons_some ha, List.nodup_cons] at h
        rw [List.nodup_cons]
        refine ⟨?_, ih hls i hn'⟩
        rw [List.mem_filterMap]
        rintro ⟨x, hx, e⟩
        rcases List.mem_or_eq_of_mem_set hx with hx | hx
        · exact h.1 (List.mem_filterMap.mpr ⟨x, hx, e⟩)
        · rw [hx] at e
          simp only [Option.some.injEq] at e
          exact hn a (by simp) (by rw [ha, e])

theorem fillHoles_wf (g : Geometry) (i : Nat) (tr : Track) (secs : List Sector) {m : Memory} (h : m.wf) : (fillHoles g i tr secs m).wf := by
  unfold fillHoles
  refine foldl_preserves Memory.wf _ _ _ h (fun m x _ hm => ?_)
  obtain ⟨x, l⟩ := x
  simp only
  split
  · exact memStore_wf hm _ _
  · exact hm

theorem Cache.occupy_shape (c : Cache) (g : Geometry) (m : Mount) (i : Nat) (tr : Track) (o : Origin) :
    (c.occupy g m i tr o).shape = c.shape.set i (some tr, false) := by
  simp [Cache.shape, Cache.occupy, List.map_set]

/-- A line is set up for a track that none carries, while none waits for it. -/
theorem Cache.Sound.occupy {c : Cache} (h : c.Sound) (g : Geometry) (m : Mount) (i : Nat) {tr : Track} (o : Origin)
    (hc : c.carrier tr = none) (hw : ∀ t, c.waiting = some t → t ≠ tr) : (c.occupy g m i tr o).Sound where
  lines := by rw [← Cache.shape_length, Cache.occupy_shape, List.length_set, Cache.shape_length]; exact h.lines
  lru := h.lru
  pins := by
    rw [Cache.pins_shape, Cache.occupy_shape]
    exact (countP_set_le _ _ _).trans (by rw [← Cache.pins_shape]; exact h.pins)
  tags := by
    rw [Cache.tags_shape, Cache.occupy_shape]
    refine nodup_tags_set (by rw [← Cache.tags_shape]; exact h.tags) _ _ _ ?_
    intro x hx
    obtain ⟨l, hl, rfl⟩ := List.mem_map.mp hx
    exact Cache.carrier_none hc hl
  queue := h.queue
  queued := h.queued
  waits := by
    intro t ht
    obtain ⟨h0, h1⟩ := h.waits t ht
    constructor
    · have := countP_set_le c.shape i (some tr)
      rw [← Cache.pins_shape, h0] at this
      rw [Cache.pins_shape, Cache.occupy_shape]
      omega
    · rw [Cache.carrier_shape, Cache.occupy_shape, List.findIdx?_eq_none_iff]
      intro x hx
      rcases List.mem_or_eq_of_mem_set hx with hx | hx
      · obtain ⟨l, hl, rfl⟩ := List.mem_map.mp hx
        simpa using Cache.carrier_none h1 hl
      · rw [hx]
        have hne := hw t ht
        simp only [beq_eq_false_iff_ne, ne_eq, Option.some.injEq]
        exact fun e => hne e.symm
  defects := h.defects
  ram := fillHoles_wf _ _ _ _ h.ram

theorem Cache.Sound.unpinAll {c : Cache} (h : c.Sound) : c.unpinAll.Sound ∧ c.unpinAll.pins = 0 := by
  have hz : c.unpinAll.pins = 0 := by
    unfold Cache.pins Cache.unpinAll
    rw [List.countP_eq_zero]
    intro l hl
    obtain ⟨k, -, rfl⟩ := List.mem_map.mp hl
    unfold Line.unpin
    split <;> simp_all
  have htag : ∀ l : Line, l.unpin.tag = l.tag := by
    intro l
    unfold Line.unpin
    split <;> rfl
  refine ⟨⟨?_, h.lru, by omega, ?_, h.queue, h.queued, ?_, h.defects, h.ram⟩, hz⟩
  · simpa [Cache.unpinAll] using h.lines
  · have : (c.unpinAll.lines.filterMap Line.tag) = c.lines.filterMap Line.tag := by
      simp [Cache.unpinAll, List.filterMap_map, htag]
    rw [this]
    exact h.tags
  · intro tr htr
    refine ⟨hz, ?_⟩
    have := (h.waits tr htr).2
    unfold Cache.carrier Cache.findLine at this ⊢
    simpa [Cache.unpinAll, List.findIdx?_map, Function.comp_def, htag] using this

theorem countP_modify_le (ls : List Line) (i : Nat) (f : Line → Line) :
    (ls.modify i f).countP (fun l => l.pinned) ≤ ls.countP (fun l => l.pinned) + 1 := by
  induction ls generalizing i with
  | nil => simp
  | cons a ls ih =>
    cases i with
    | zero =>
      simp only [List.modify_zero_cons, List.countP_cons]
      split <;> split <;> omega
    | succ i =>
      simp only [List.modify_succ_cons, List.countP_cons]
      have := ih i
      omega

/-- A line becomes the active line while none is pinned. -/
theorem Cache.Sound.activate {c : Cache} (h : c.Sound) (hz : c.pins = 0) (g : Geometry) (lead t : Nat) {i : Nat} (hi : i < 8)
    (tr : Track) : (c.activate g lead t i tr).Sound := by
  unfold Cache.activate
  refine ⟨?_, ?_, ?_, ?_, h.queue, h.queued, by simp, h.defects, h.ram⟩
  · simpa [Cache.modLine] using h.lines
  · exact (toFront_perm h.lru_nodup (h.lru_mem.mpr hi)).trans h.lru
  · simp only [Cache.pins, Cache.modLine]
    refine (countP_modify_le _ _ _).trans ?_
    have : c.lines.countP (fun l => l.pinned) = 0 := hz
    omega
  · have e : ∀ ls : List Line, ∀ f : Line → Line, (∀ l, (f l).tag = l.tag) → (ls.modify i f).map Line.tag = ls.map Line.tag := by
      intro ls f hf
      apply List.ext_getElem
      · simp
      · intro k h1 h2
        simp only [List.getElem_map, List.getElem_modify]
        split
        · exact hf _
        · rfl
    have key : ∀ ls : List Line, ls.filterMap Line.tag = (ls.map Line.tag).filterMap id := by
      intro ls
      simp [List.filterMap_map]
    have ht := h.tags
    rw [key] at ht ⊢
    simp only [Cache.modLine]
    rw [e]
    · exact ht
    · intro l
      rfl

theorem Cache.pickLine_lt {c : Cache} {order : List Nat} (ho : ∀ i ∈ order, i < 8) {i : Nat} (h : c.pickLine order = some i) : i < 8 := by
  unfold Cache.pickLine at h
  split at h
  · rename_i k hk
    have : k = i := by simpa using h
    exact this ▸ ho k (furthestBack_mem hk).1
  · exact ho i (furthestBack_mem h).1

theorem Cache.occupy_pins {c : Cache} (hz : c.pins = 0) (g : Geometry) (m : Mount) (i : Nat) (tr : Track) (o : Origin) :
    (c.occupy g m i tr o).pins = 0 := by
  have := countP_set_le c.shape i (some tr)
  rw [← Cache.pins_shape, hz] at this
  rw [Cache.pins_shape, Cache.occupy_shape]
  omega

theorem Cache.Sound.demandAllocate {c : Cache} (h : c.Sound) (hz : c.pins = 0) (g : Geometry) (m : Mount) (lead t : Nat) {tr : Track}
    (hc : c.carrier tr = none) (hw : c.waiting = none) : (c.demandAllocate g m lead t tr).Sound := by
  unfold Cache.demandAllocate
  split
  · rename_i i hi
    exact (h.occupy g m i .demand hc (by simp [hw])).activate (Cache.occupy_pins hz g m i tr .demand) g lead t
      (Cache.pickLine_lt (fun k hk => h.lru_mem.mp hk) hi) tr
  · refine Cache.Sound.chooseForced ⟨h.lines, h.lru, h.pins, h.tags, h.queue, h.queued, ?_, h.defects, h.ram⟩
    intro t' ht'
    have : t' = tr := by simpa using ht'.symm
    subst this
    exact ⟨hz, hc⟩

theorem Cache.Sound.arrive {c : Cache} (h : c.Sound) (g : Geometry) (m : Mount) (lead t : Nat) (new : Option Track) :
    (c.arrive g m lead t new).Sound := by
  obtain ⟨h1, hz⟩ := h.unpinAll
  have h2 : ({ c.unpinAll with waiting := none, forced := none } : Cache).Sound := h1.noWait none
  unfold Cache.arrive
  cases new with
  | none => exact h2
  | some tr =>
    simp only
    split
    · rename_i i hi
      exact h2.activate hz g lead t (h2.lines ▸ (Cache.carrier_some hi).1) tr
    · rename_i hn
      exact h2.demandAllocate hz g m lead t hn rfl

theorem Cache.Sound.retryWaiting {c : Cache} (h : c.Sound) (g : Geometry) (m : Mount) (lead t : Nat) {tr : Track}
    (hw : c.waiting = some tr) : (c.retryWaiting g m lead t tr).Sound := by
  obtain ⟨hz, hc⟩ := h.waits tr hw
  unfold Cache.retryWaiting
  split
  · rename_i i hi
    have h' : ({ c with waiting := none, forced := c.forced } : Cache).Sound := h.noWait c.forced
    have ho := (h'.occupy g m i .demand (tr := tr) hc (by simp)).activate
      (Cache.occupy_pins (c := { c with waiting := none, forced := c.forced }) hz g m i tr .demand) g lead t
      (Cache.pickLine_lt (fun k hk => h.lru_mem.mp hk) hi) tr
    exact ho
  · split
    · exact h.chooseForced
    · split
      · exact h
      · exact (h.withForced none).chooseForced

theorem Cache.Sound.tryAhead {c : Cache} (h : c.Sound) (hw : c.waiting = none) (g : Geometry) (m : Mount) (tr : Track) :
    (Cache.tryAhead g m c tr).Sound ∧ (Cache.tryAhead g m c tr).waiting = none := by
  unfold Cache.tryAhead
  split
  · exact ⟨h, hw⟩
  · rename_i hc
    split
    · exact ⟨h, hw⟩
    · rename_i i hi
      have hlt : i < 8 := Cache.pickLine_lt (fun k hk => h.lru_mem.mp (List.mem_of_mem_drop hk)) hi
      have ho := h.occupy g m i .ahead (tr := tr) (by simpa using hc) (by simp [hw])
      exact ⟨ho.withLru ((toSecond_perm_toFront _ _).trans (toFront_perm h.lru_nodup (h.lru_mem.mpr hlt))), hw⟩

/-- While a track waits there is no active line. -/
theorem Cache.Sound.waiting_inactive {c : Cache} (h : c.Sound) (hw : c.waiting ≠ none) : c.active = none := by
  obtain ⟨tr, htr⟩ := Option.ne_none_iff_exists'.mp hw
  exact c.active_none_iff.mpr (h.waits tr htr).1

theorem Cache.Sound.considerAhead {c : Cache} (h : c.Sound) (g : Geometry) (m : Mount) (d : Bool) : (c.considerAhead g m d).Sound := by
  unfold Cache.considerAhead
  split
  · rename_i i tr ha
    have hw : c.waiting = none := by
      by_contra hw
      have := h.waiting_inactive hw
      simp [Cache.activeResident, this] at ha
    exact (foldl_preserves (fun c : Cache => c.Sound ∧ c.waiting = none) _ _ _ ⟨h, hw⟩
      (fun c x _ hc => hc.1.tryAhead hc.2 g m x)).1
  · exact h

/-! ## Completions -/

theorem Cache.Sound.deliver {c : Cache} (h : c.Sound) (g : Geometry) (i : Nat) (tr : Track) (blk : Nat) (data : List Byte) :
    (c.deliver g i tr blk data).Sound := by
  unfold Cache.deliver
  refine (h.withRam ?_).mapSectors i _
  exact foldl_preserves Memory.wf _ _ _ h.ram (fun _ _ _ hm => memStore_wf hm _ _)

theorem Cache.Sound.failFill {c : Cache} (h : c.Sound) (g : Geometry) (i : Nat) (tr : Track) (r : Run) : (c.failFill g i tr r).Sound :=
  h.mapSectors i _

theorem Cache.Sound.toFlush {c : Cache} (h : c.Sound) (g : Geometry) (i : Nat) (tr : Track) (r : Run) : (c.toFlush g i tr r).Sound :=
  (h.withSerial _).mapSectors i _

theorem Cache.Sound.fromFlush {c : Cache} (h : c.Sound) (g : Geometry) (i : Nat) (tr : Track) (r : Run) : (c.fromFlush g i tr r).Sound :=
  h.mapSectors i _

theorem Cache.Sound.writeDone {c : Cache} (h : c.Sound) (g : Geometry) (i : Nat) (tr : Track) (r : Run) : (c.writeDone g i tr r).Sound :=
  (h.mapSectors i _).modLine i _ (fun _ => ⟨rfl, rfl⟩)

theorem Cache.Sound.countFailure {c : Cache} (h : c.Sound) (i : Nat) : (c.countFailure i).Sound := h.modLine i _ (fun _ => ⟨rfl, rfl⟩)

theorem dirtyOverlap_shape (g : Geometry) (r : Run) (l : Line) :
    (Line.dirtyOverlap g r l).tag = l.tag ∧ (Line.dirtyOverlap g r l).pinned = l.pinned := by
  unfold Line.dirtyOverlap
  cases hx : l.tag <;> simp [hx]

theorem Cache.Sound.dirtyOverlap {c : Cache} (h : c.Sound) (g : Geometry) (r : Run) :
    ({ c with lines := c.lines.map (Line.dirtyOverlap g r) } : Cache).Sound :=
  h.relines _ (map_shape _ _ (dirtyOverlap_shape g r))

theorem storeSlots_wf (z : Zone) (i size : Nat) (scratch : Memory) {m : Memory} (h : m.wf) : (storeSlots z i size scratch m).wf :=
  foldl_preserves Memory.wf _ _ _ h (fun _ _ _ hm => memStore_wf hm _ _)

/-! ## The end of a mount -/

theorem Cache.Sound.leaveMounted {c : Cache} (h : c.Sound) : c.leaveMounted.Sound :=
  (h.unpinAll.1.noWait none).withIdle none

theorem Cache.Sound.release {c : Cache} (h : c.Sound) : c.release.Sound := by
  have e : c.lines.map (fun _ => Line.free) = List.replicate 8 Line.free := by
    rw [← h.lines]
    simp [List.map_const']
  refine ⟨by simp [Cache.release, h.lines], h.lru, ?_, ?_, by simp [Cache.release], by simp [Cache.release], by simp [Cache.release],
    by simp [Cache.release], h.ram⟩
  · simp only [Cache.pins, Cache.release, e]
    decide
  · simp only [Cache.release, e]
    decide

theorem Cache.reset_sound : Cache.reset.Sound :=
  ⟨by decide, List.Perm.refl _, by decide, by decide, by decide, by decide, by simp [Cache.reset], by decide, Memory.wf_nil⟩

end Sys2Proof.Machine
end

