-- ==== Sys2Proof/Laws/Link.lean ====
section
/-! SUPPORT. What the operations of the link unit leave alone, that they keep its queues within bounds, and that a reply once made
stays until it has been sent. -/

namespace Sys2Proof.Machine

/-! ## The parts that the queues and the transmitter never touch -/

/-- Two link units that differ at most in the queues, the dropped mark and the transmitter. -/
def Link.sameBase (l m : Link) : Prop :=
  m = { l with replies := m.replies, notices := m.notices, dropped := m.dropped, tx := m.tx }

theorem Link.sameBase.refl (l : Link) : l.sameBase l := rfl

theorem Link.sameBase.trans {l m n : Link} (h : l.sameBase m) (k : m.sameBase n) : l.sameBase n := by
  unfold Link.sameBase at *
  rw [k, h]

theorem Link.sameBase.options {l m : Link} (h : l.sameBase m) : m.options = l.options := by rw [h]
theorem Link.sameBase.executing {l m : Link} (h : l.sameBase m) : m.executing = l.executing := by rw [h]
theorem Link.sameBase.breakLow {l m : Link} (h : l.sameBase m) : m.breakLow = l.breakLow := by rw [h]
theorem Link.sameBase.resetDue {l m : Link} (h : l.sameBase m) : m.resetDue = l.resetDue := by rw [h]
theorem Link.sameBase.fast {l m : Link} (h : l.sameBase m) : m.fast = l.fast := by rw [h]
theorem Link.sameBase.rx {l m : Link} (h : l.sameBase m) : m.rx = l.rx := by rw [h]
theorem Link.sameBase.rxBytes {l m : Link} (h : l.sameBase m) : m.rxBytes = l.rxBytes := by rw [h]
theorem Link.sameBase.rxTimer {l m : Link} (h : l.sameBase m) : m.rxTimer = l.rxTimer := by rw [h]

/-- What starting the transmitter can do (R171). -/
theorem Link.startTx_cases (l : Link) :
    l.startTx = l ∨
    (∃ r rest, l.tx = none ∧ l.replies = r :: rest ∧ l.startTx = Link.send { l with replies := rest } r.frame r.ofRequest) ∨
    (∃ n rest, l.tx = none ∧ l.replies = [] ∧ l.notices = n :: rest ∧
      l.startTx = Link.send { l with notices := rest } n.frame false) := by
  unfold Link.startTx
  split
  · exact .inl rfl
  · rename_i h
    have htx : l.tx = none := by
      cases hx : l.tx <;> simp_all
    split
    · rename_i r rest hr
      exact .inr (.inl ⟨r, rest, htx, hr, rfl⟩)
    · rename_i hr
      split
      · rename_i n rest hn
        exact .inr (.inr ⟨n, rest, htx, hr, hn, rfl⟩)
      · exact .inl rfl

theorem Link.startTx_sameBase (l : Link) : l.sameBase l.startTx := by
  rcases l.startTx_cases with h | ⟨r, rest, -, -, h⟩ | ⟨n, rest, -, -, -, h⟩ <;> rw [h] <;> rfl

theorem Link.enqueue_sameBase (l : Link) (b : NoticeBody) : l.sameBase (l.enqueue b) := by
  unfold Link.enqueue
  split
  · exact Link.sameBase.trans (m := { l with notices := _, dropped := false }) rfl (Link.startTx_sameBase _)
  · rfl

theorem Link.post_sameBase (l : Link) (b : NoticeBody) : l.sameBase (l.post b) := by
  unfold Link.post
  split
  · rfl
  · split
    · split
      · rfl
      · exact l.enqueue_sameBase _
    · exact l.enqueue_sameBase _

theorem Link.offer_sameBase (l : Link) (k t : Byte) (st : ReplyStatus) : l.sameBase (l.offer k t st) := by
  unfold Link.offer
  split
  · exact Link.sameBase.trans (m := { l with replies := _ }) rfl (Link.startTx_sameBase _)
  · rfl

@[simp] theorem Link.post_options (l : Link) (b : NoticeBody) : (l.post b).options = l.options := (l.post_sameBase b).options
@[simp] theorem Link.post_executing (l : Link) (b : NoticeBody) : (l.post b).executing = l.executing :=
  (l.post_sameBase b).executing
@[simp] theorem Link.post_breakLow (l : Link) (b : NoticeBody) : (l.post b).breakLow = l.breakLow := (l.post_sameBase b).breakLow
@[simp] theorem Link.post_resetDue (l : Link) (b : NoticeBody) : (l.post b).resetDue = l.resetDue := (l.post_sameBase b).resetDue

/-! ## An answer -/

/-- What making the reply of the request in execution can do (R169, R170, R175). -/
theorem Link.answer_cases (l : Link) (st : ReplyStatus) (d : Byte) (bs : List Byte) :
    l.answer st d bs = l ∨
    (∃ q, l.executing = some q ∧ l.answer st d bs = { l with executing := none }) ∨
    (∃ q, l.executing = some q ∧ q.made = false ∧ q.drop = false ∧
      l.answer st d bs = Link.startTx { l with
        executing := some { q with made := true }
        replies := l.replies ++ [{ kind := 0x80#8 + q.kind, tag := q.tag, payload := st.code :: d :: bs, ofRequest := true }] }) := by
  unfold Link.answer
  split
  · exact .inl rfl
  · rename_i q hq
    split
    · exact .inl rfl
    · split
      · exact .inr (.inl ⟨q, hq, rfl⟩)
      · exact .inr (.inr ⟨q, hq, by simp_all, by simp_all, rfl⟩)

@[simp] theorem Link.answer_options (l : Link) (st : ReplyStatus) (d : Byte) (bs : List Byte) :
    (l.answer st d bs).options = l.options := by
  rcases l.answer_cases st d bs with h | ⟨q, -, h⟩ | ⟨q, -, -, -, h⟩
  · rw [h]
  · rw [h]
  · rw [h, (Link.startTx_sameBase _).options]

/-! ## The queues stay within bounds -/

/-- Replies of the request in execution in the queue and in sending, as the transmitter starts. -/
theorem Link.startTx_bounds (l : Link) :
    l.startTx.notices.length ≤ l.notices.length ∧
    l.startTx.replies.countP (fun r => !r.ofRequest) ≤ l.replies.countP (fun r => !r.ofRequest) ∧
    l.startTx.requestReplies = l.requestReplies := by
  rcases l.startTx_cases with h | ⟨r, rest, htx, hr, h⟩ | ⟨n, rest, htx, hr, hn, h⟩
  · rw [h]
    exact ⟨le_refl _, le_refl _, rfl⟩
  · rw [h]
    refine ⟨le_refl _, ?_, ?_⟩
    · simp [Link.send, hr, List.countP_cons]
    · cases hq : r.ofRequest <;> simp [Link.send, Link.requestReplies, hr, htx, hq]
  · rw [h]
    refine ⟨?_, le_refl _, ?_⟩
    · simp [Link.send, hn]
    · simp [Link.send, Link.requestReplies, hr, htx]

theorem Link.startTx_repliesMade (l : Link) : l.startTx.repliesMade = l.repliesMade := by
  unfold Link.repliesMade
  rw [l.startTx_sameBase.executing]

theorem Link.startTx_sound {l : Link} (h : l.Sound) : l.startTx.Sound where
  notices := l.startTx_bounds.1.trans h.notices
  own := l.startTx_bounds.2.1.trans h.own
  request := by rw [l.startTx_bounds.2.2, l.startTx_repliesMade]; exact h.request
  options := by rw [l.startTx_sameBase.options]; exact h.options

theorem Link.enqueue_sound {l : Link} (h : l.Sound) (b : NoticeBody) : (l.enqueue b).Sound := by
  unfold Link.enqueue
  split
  · rename_i hlt
    refine Link.startTx_sound ⟨?_, h.own, h.request, h.options⟩
    simp only [List.length_append, List.length_singleton]
    omega
  · exact ⟨h.notices, h.own, h.request, h.options⟩

theorem Link.post_sound {l : Link} (h : l.Sound) (b : NoticeBody) : (l.post b).Sound := by
  unfold Link.post
  split
  · exact h
  · split
    · split
      · exact ⟨by simpa using h.notices, h.own, h.request, h.options⟩
      · exact Link.enqueue_sound h _
    · exact Link.enqueue_sound h _

theorem Link.offer_sound {l : Link} (h : l.Sound) (k t : Byte) (st : ReplyStatus) : (l.offer k t st).Sound := by
  unfold Link.offer
  split
  · rename_i hlt
    refine Link.startTx_sound ⟨h.notices, ?_, ?_, h.options⟩
    · simp only [List.countP_append, List.countP_singleton]
      simp only [Bool.not_false, if_true]
      omega
    · simpa [Link.requestReplies, Link.repliesMade, List.countP_append] using h.request
  · exact h

theorem Link.rxIdle_sound {l : Link} (h : l.Sound) : l.rxIdle.Sound := ⟨h.notices, h.own, h.request, h.options⟩

theorem Link.rxGoOn_sound {l : Link} (h : l.Sound) (st : RxState) (bs : List Byte) : (l.rxGoOn st bs).Sound :=
  ⟨h.notices, h.own, h.request, h.options⟩

theorem Link.answer_sound {l : Link} (h : l.Sound) (st : ReplyStatus) (d : Byte) (bs : List Byte) : (l.answer st d bs).Sound := by
  have hr := h.request
  unfold Link.answer
  split
  · exact h
  · rename_i q hq
    split
    · exact h
    · rename_i hm
      have hm : q.made = false := by simpa using hm
      have h0 : l.requestReplies = 0 := by
        simpa [Link.repliesMade, hq, hm] using hr
      split
      · exact ⟨h.notices, h.own, by simpa [Link.requestReplies, Link.repliesMade] using h0, h.options⟩
      · refine Link.startTx_sound ⟨h.notices, ?_, ?_, h.options⟩
        · simpa [List.countP_append] using h.own
        · simp only [Link.requestReplies, Link.repliesMade, List.countP_append] at h0 ⊢
          simp at h0 ⊢
          split <;> simp_all

theorem Link.enter_sound {l : Link} (h : l.Sound) (hx : l.executing = none) (k t : Byte) : (l.enter k t).Sound := by
  refine ⟨h.notices, h.own, ?_, h.options⟩
  simpa [Link.enter, Link.requestReplies, Link.repliesMade, hx] using h.request

theorem Link.markReset_sound {l : Link} (h : l.Sound) : l.markReset.Sound := by
  refine ⟨h.notices, h.own, ?_, h.options⟩
  have := h.request
  cases hx : l.executing <;> simpa [Link.markReset, Link.requestReplies, Link.repliesMade, hx] using this

theorem Link.frameSent_sound {l : Link} (h : l.Sound) : l.frameSent.Sound := by
  have hr := h.request
  unfold Link.frameSent
  split
  · exact h
  · rename_i f hf
    split
    · rename_i hq
      cases hx : l.executing with
      | none =>
        simp only
        refine Link.startTx_sound ⟨h.notices, h.own, ?_, h.options⟩
        simp [Link.requestReplies, Link.repliesMade, hx, hf, hq] at hr
      | some q =>
        have h0 : l.replies.countP (fun r => r.ofRequest) = 0 := by
          simp only [Link.requestReplies, Link.repliesMade, hx, hf, hq] at hr
          have hle : q.made.toNat ≤ 1 := Bool.toNat_le _
          simp only [Bool.toNat_true] at hr
          omega
        simp only
        split
        · exact ⟨h.notices, h.own, by simp [Link.requestReplies, h0], h.options⟩
        · exact Link.startTx_sound ⟨h.notices, h.own, by simp [Link.requestReplies, h0], h.options⟩
    · rename_i hq
      refine Link.startTx_sound ⟨h.notices, h.own, ?_, h.options⟩
      simpa [Link.requestReplies, Link.repliesMade, hf, hq] using hr

/-- What a break leaves of a frame in sending is no reply of the request in execution (R174). -/
theorem Link.cutTx_ofRequest {l : Link} {f : TxFrame} (h : l.cutTx = some f) : f.ofRequest = false := by
  unfold Link.cutTx at h
  split at h
  · exact absurd h (by simp)
  · split at h
    · exact absurd h (by simp)
    · rw [← Option.some.inj h]

theorem Link.takeBreak_sound {l : Link} (h : l.Sound) : l.takeBreak.Sound := by
  have hz : ∀ (e : Option Request) (d : Bool),
      Link.Sound { l.rxIdle with tx := l.cutTx, breakLow := true, replies := [], notices := [], dropped := false, executing := e,
                                 resetDue := d } := by
    intro e d
    refine ⟨by simp, by simp, ?_, h.options⟩
    cases hc : l.cutTx with
    | none => simp [Link.requestReplies]
    | some f => simp [Link.requestReplies, Link.cutTx_ofRequest hc]
  unfold Link.takeBreak
  simp only
  split
  · exact hz _ _
  · split
    · split
      · exact hz _ _
      · exact hz _ _
    · exact hz _ _

theorem Link.endBreak_sound {l : Link} (h : l.Sound) : l.endBreak.Sound :=
  Link.startTx_sound ⟨h.notices, h.own, h.request, h.options⟩

/-- Whether a link break lasts touches no queue (R175). -/
theorem Link.Sound.withBreak {l : Link} (h : l.Sound) (b : Bool) : Link.Sound { l with breakLow := b } :=
  ⟨h.notices, h.own, h.request, h.options⟩

theorem Link.tick_sound {l : Link} (h : l.Sound) : l.tick.Sound := by
  refine ⟨h.notices, h.own, ?_, h.options⟩
  have := h.request
  cases hx : l.tx <;> simpa [Link.tick, Link.requestReplies, Link.repliesMade, hx] using this

/-- The defaults lie in range (R176, R182). -/
theorem Options.default_sound : Options.default.Sound :=
  ⟨by decide, by decide, by decide, by decide, by decide, by decide, by decide⟩

theorem Link.reset_sound (fast : Bool) : (Link.reset fast).Sound :=
  ⟨by simp [Link.reset], by simp [Link.reset], by simp [Link.reset, Link.requestReplies],
    Options.default_sound⟩

/-- Clamped numbers and values of the lists lie in range (R182). -/
theorem applyOptions_sound {o : Options} (h : o.Sound) (p : List Byte) (he : enumFault p = none) : (applyOptions o p).Sound := by
  have hsel : setBit p 0 = true → (byteAt p 2).toNat ≤ 3 := by
    intro hb
    unfold enumFault at he
    by_contra hc
    have : 3 < (byteAt p 2).toNat := by omega
    simp [hb, this] at he
  have hc : ∀ lo hi v, lo ≤ hi → lo ≤ clamp lo hi v ∧ clamp lo hi v ≤ hi := by
    intro lo hi v hle
    unfold clamp
    omega
  refine ⟨?_, ?_, ?_, ?_, ?_, ?_, ?_⟩ <;> simp only [applyOptions] <;> split
  · exact hsel (by assumption)
  · exact h.selectLine
  · exact (hc 0 1000 _ (by omega)).2
  · exact h.spinUp
  · exact (hc 100 60000 _ (by omega)).1
  · exact h.idleFlushLow
  · exact (hc 100 60000 _ (by omega)).2
  · exact h.idleFlushHigh
  · exact (hc 1 24 _ (by omega)).1
  · exact h.burstLow
  · exact (hc 1 24 _ (by omega)).2
  · exact h.burstHigh
  · exact (hc 0 100 _ (by omega)).2
  · exact h.fillLead

/-! ## A reply, once made, stays until it has been sent -/

theorem Link.startTx_hasReply {l : Link} {k t : Byte} {p : List Byte} (h : l.hasReply k t p) : l.startTx.hasReply k t p := by
  rcases l.startTx_cases with e | ⟨r, rest, htx, hr, e⟩ | ⟨n, rest, htx, hr, hn, e⟩
  · rwa [e]
  · rw [e]
    rcases h with h | ⟨f, hf, -⟩
    · rw [hr] at h
      rcases List.mem_cons.mp h with h | h
      · exact .inr ⟨_, rfl, by rw [← h]; rfl, by rw [← h]⟩
      · exact .inl h
    · rw [htx] at hf
      exact absurd hf (by simp)
  · rw [e]
    rcases h with h | ⟨f, hf, -⟩
    · rw [hr] at h
      exact absurd h (by simp)
    · rw [htx] at hf
      exact absurd hf (by simp)

theorem Link.post_hasReply {l : Link} {k t : Byte} {p : List Byte} (h : l.hasReply k t p) (b : NoticeBody) :
    (l.post b).hasReply k t p := by
  have enq : ∀ b, (l.enqueue b).hasReply k t p := by
    intro b
    unfold Link.enqueue
    split
    · exact Link.startTx_hasReply h
    · exact h
  unfold Link.post
  split
  · exact h
  · split
    · split
      · exact h
      · exact enq _
    · exact enq _

/-- The request in execution, not yet answered and not marked by a link break, gets its reply. -/
theorem Link.answer_hasReply {l : Link} {q : Request} (hq : l.executing = some q) (hm : q.made = false) (hd : q.drop = false)
    (st : ReplyStatus) (d : Byte) (bs : List Byte) :
    (l.answer st d bs).hasReply (0x80#8 + q.kind) q.tag (st.code :: d :: bs) := by
  unfold Link.answer
  simp only [hq, hm, hd, Bool.false_eq_true, if_false]
  exact Link.startTx_hasReply (.inl (by simp))

end Sys2Proof.Machine
end

