-- ==== Sys2Proof/Laws/State.lean ====
section
/-! SUPPORT. What each update of the state leaves in each field. -/

namespace Sys2Proof.Machine

@[simp] theorem State.post_powered (s : State) (b : NoticeBody) : (s.post b).powered = s.powered := rfl
@[simp] theorem State.post_pending (s : State) (b : NoticeBody) : (s.post b).pending = s.pending := rfl
@[simp] theorem State.post_free (s : State) (b : NoticeBody) : (s.post b).free = s.free := rfl
@[simp] theorem State.post_inputs (s : State) (b : NoticeBody) : (s.post b).inputs = s.inputs := rfl
@[simp] theorem State.post_prof (s : State) (b : NoticeBody) : (s.post b).prof = s.prof := rfl
@[simp] theorem State.post_drive (s : State) (b : NoticeBody) : (s.post b).drive = s.drive := rfl
@[simp] theorem State.post_rot (s : State) (b : NoticeBody) : (s.post b).rot = s.rot := rfl
@[simp] theorem State.post_mount (s : State) (b : NoticeBody) : (s.post b).mount = s.mount := rfl
@[simp] theorem State.post_cache (s : State) (b : NoticeBody) : (s.post b).cache = s.cache := rfl
@[simp] theorem State.post_pres (s : State) (b : NoticeBody) : (s.post b).pres = s.pres := rfl
@[simp] theorem State.post_cap (s : State) (b : NoticeBody) : (s.post b).cap = s.cap := rfl
@[simp] theorem State.post_card (s : State) (b : NoticeBody) : (s.post b).card = s.card := rfl
@[simp] theorem State.post_link (s : State) (b : NoticeBody) : (s.post b).link = s.link.post b := rfl

@[simp] theorem State.postFault_powered (s : State) (c h k : Nat) (r : FaultReason) (d : Bool) :
    (s.postFault c h k r d).powered = s.powered := rfl
@[simp] theorem State.postFault_pending (s : State) (c h k : Nat) (r : FaultReason) (d : Bool) :
    (s.postFault c h k r d).pending = s.pending := rfl
@[simp] theorem State.postFault_free (s : State) (c h k : Nat) (r : FaultReason) (d : Bool) :
    (s.postFault c h k r d).free = s.free := rfl
@[simp] theorem State.postFault_inputs (s : State) (c h k : Nat) (r : FaultReason) (d : Bool) :
    (s.postFault c h k r d).inputs = s.inputs := rfl
@[simp] theorem State.postFault_prof (s : State) (c h k : Nat) (r : FaultReason) (d : Bool) :
    (s.postFault c h k r d).prof = s.prof := rfl
@[simp] theorem State.postFault_drive (s : State) (c h k : Nat) (r : FaultReason) (d : Bool) :
    (s.postFault c h k r d).drive = s.drive := rfl
@[simp] theorem State.postFault_rot (s : State) (c h k : Nat) (r : FaultReason) (d : Bool) :
    (s.postFault c h k r d).rot = s.rot := rfl
@[simp] theorem State.postFault_mount (s : State) (c h k : Nat) (r : FaultReason) (d : Bool) :
    (s.postFault c h k r d).mount = s.mount := rfl
@[simp] theorem State.postFault_cache (s : State) (c h k : Nat) (r : FaultReason) (d : Bool) :
    (s.postFault c h k r d).cache = s.cache := rfl
@[simp] theorem State.postFault_pres (s : State) (c h k : Nat) (r : FaultReason) (d : Bool) :
    (s.postFault c h k r d).pres = s.pres := rfl
@[simp] theorem State.postFault_cap (s : State) (c h k : Nat) (r : FaultReason) (d : Bool) :
    (s.postFault c h k r d).cap = s.cap := rfl
@[simp] theorem State.postFault_card (s : State) (c h k : Nat) (r : FaultReason) (d : Bool) :
    (s.postFault c h k r d).card = s.card := rfl
@[simp] theorem State.postFault_link (s : State) (c h k : Nat) (r : FaultReason) (d : Bool) :
    (s.postFault c h k r d).link = s.link.post (.captureFault c h k r d) := rfl

@[simp] theorem State.answer_powered (s : State) (st : ReplyStatus) (d : Byte) (bs : List Byte) :
    (s.answer st d bs).powered = s.powered := rfl
@[simp] theorem State.answer_pending (s : State) (st : ReplyStatus) (d : Byte) (bs : List Byte) :
    (s.answer st d bs).pending = s.pending := rfl
@[simp] theorem State.answer_free (s : State) (st : ReplyStatus) (d : Byte) (bs : List Byte) :
    (s.answer st d bs).free = s.free := rfl
@[simp] theorem State.answer_inputs (s : State) (st : ReplyStatus) (d : Byte) (bs : List Byte) :
    (s.answer st d bs).inputs = s.inputs := rfl
@[simp] theorem State.answer_prof (s : State) (st : ReplyStatus) (d : Byte) (bs : List Byte) :
    (s.answer st d bs).prof = s.prof := rfl
@[simp] theorem State.answer_drive (s : State) (st : ReplyStatus) (d : Byte) (bs : List Byte) :
    (s.answer st d bs).drive = s.drive := rfl
@[simp] theorem State.answer_rot (s : State) (st : ReplyStatus) (d : Byte) (bs : List Byte) :
    (s.answer st d bs).rot = s.rot := rfl
@[simp] theorem State.answer_mount (s : State) (st : ReplyStatus) (d : Byte) (bs : List Byte) :
    (s.answer st d bs).mount = s.mount := rfl
@[simp] theorem State.answer_cache (s : State) (st : ReplyStatus) (d : Byte) (bs : List Byte) :
    (s.answer st d bs).cache = s.cache := rfl
@[simp] theorem State.answer_pres (s : State) (st : ReplyStatus) (d : Byte) (bs : List Byte) :
    (s.answer st d bs).pres = s.pres := rfl
@[simp] theorem State.answer_cap (s : State) (st : ReplyStatus) (d : Byte) (bs : List Byte) :
    (s.answer st d bs).cap = s.cap := rfl
@[simp] theorem State.answer_card (s : State) (st : ReplyStatus) (d : Byte) (bs : List Byte) :
    (s.answer st d bs).card = s.card := rfl
@[simp] theorem State.answer_link (s : State) (st : ReplyStatus) (d : Byte) (bs : List Byte) :
    (s.answer st d bs).link = s.link.answer st d bs := rfl

@[simp] theorem State.badField_powered (s : State) (d p : Byte) : (s.badField d p).powered = s.powered := rfl
@[simp] theorem State.badField_pending (s : State) (d p : Byte) : (s.badField d p).pending = s.pending := rfl
@[simp] theorem State.badField_free (s : State) (d p : Byte) : (s.badField d p).free = s.free := rfl
@[simp] theorem State.badField_inputs (s : State) (d p : Byte) : (s.badField d p).inputs = s.inputs := rfl
@[simp] theorem State.badField_prof (s : State) (d p : Byte) : (s.badField d p).prof = s.prof := rfl
@[simp] theorem State.badField_drive (s : State) (d p : Byte) : (s.badField d p).drive = s.drive := rfl
@[simp] theorem State.badField_rot (s : State) (d p : Byte) : (s.badField d p).rot = s.rot := rfl
@[simp] theorem State.badField_mount (s : State) (d p : Byte) : (s.badField d p).mount = s.mount := rfl
@[simp] theorem State.badField_cache (s : State) (d p : Byte) : (s.badField d p).cache = s.cache := rfl
@[simp] theorem State.badField_pres (s : State) (d p : Byte) : (s.badField d p).pres = s.pres := rfl
@[simp] theorem State.badField_cap (s : State) (d p : Byte) : (s.badField d p).cap = s.cap := rfl
@[simp] theorem State.badField_card (s : State) (d p : Byte) : (s.badField d p).card = s.card := rfl
@[simp] theorem State.badField_link (s : State) (d p : Byte) : (s.badField d p).link = s.link.badField d p := rfl

@[simp] theorem State.wrongState_powered (s : State) : (s.wrongState).powered = s.powered := rfl
@[simp] theorem State.wrongState_pending (s : State) : (s.wrongState).pending = s.pending := rfl
@[simp] theorem State.wrongState_free (s : State) : (s.wrongState).free = s.free := rfl
@[simp] theorem State.wrongState_inputs (s : State) : (s.wrongState).inputs = s.inputs := rfl
@[simp] theorem State.wrongState_prof (s : State) : (s.wrongState).prof = s.prof := rfl
@[simp] theorem State.wrongState_drive (s : State) : (s.wrongState).drive = s.drive := rfl
@[simp] theorem State.wrongState_rot (s : State) : (s.wrongState).rot = s.rot := rfl
@[simp] theorem State.wrongState_mount (s : State) : (s.wrongState).mount = s.mount := rfl
@[simp] theorem State.wrongState_cache (s : State) : (s.wrongState).cache = s.cache := rfl
@[simp] theorem State.wrongState_pres (s : State) : (s.wrongState).pres = s.pres := rfl
@[simp] theorem State.wrongState_cap (s : State) : (s.wrongState).cap = s.cap := rfl
@[simp] theorem State.wrongState_card (s : State) : (s.wrongState).card = s.card := rfl
@[simp] theorem State.wrongState_link (s : State) :
    (s.wrongState).link = s.link.answer .wrongState s.mount.state.code [] := rfl

@[simp] theorem State.cardNotReady_powered (s : State) : (s.cardNotReady).powered = s.powered := rfl
@[simp] theorem State.cardNotReady_pending (s : State) : (s.cardNotReady).pending = s.pending := rfl
@[simp] theorem State.cardNotReady_free (s : State) : (s.cardNotReady).free = s.free := rfl
@[simp] theorem State.cardNotReady_inputs (s : State) : (s.cardNotReady).inputs = s.inputs := rfl
@[simp] theorem State.cardNotReady_prof (s : State) : (s.cardNotReady).prof = s.prof := rfl
@[simp] theorem State.cardNotReady_drive (s : State) : (s.cardNotReady).drive = s.drive := rfl
@[simp] theorem State.cardNotReady_rot (s : State) : (s.cardNotReady).rot = s.rot := rfl
@[simp] theorem State.cardNotReady_mount (s : State) : (s.cardNotReady).mount = s.mount := rfl
@[simp] theorem State.cardNotReady_cache (s : State) : (s.cardNotReady).cache = s.cache := rfl
@[simp] theorem State.cardNotReady_pres (s : State) : (s.cardNotReady).pres = s.pres := rfl
@[simp] theorem State.cardNotReady_cap (s : State) : (s.cardNotReady).cap = s.cap := rfl
@[simp] theorem State.cardNotReady_card (s : State) : (s.cardNotReady).card = s.card := rfl
@[simp] theorem State.cardNotReady_link (s : State) :
    (s.cardNotReady).link = s.link.answer .cardNotReady s.card.state.code [] := rfl

@[simp] theorem State.setLatch_powered (s : State) : (s.setLatch).powered = s.powered := rfl
@[simp] theorem State.setLatch_pending (s : State) : (s.setLatch).pending = s.pending := rfl
@[simp] theorem State.setLatch_free (s : State) : (s.setLatch).free = s.free := rfl
@[simp] theorem State.setLatch_inputs (s : State) : (s.setLatch).inputs = s.inputs := rfl
@[simp] theorem State.setLatch_prof (s : State) : (s.setLatch).prof = s.prof := rfl
@[simp] theorem State.setLatch_drive (s : State) : (s.setLatch).drive = { s.drive with latch := true } := rfl
@[simp] theorem State.setLatch_rot (s : State) : (s.setLatch).rot = s.rot := rfl
@[simp] theorem State.setLatch_mount (s : State) : (s.setLatch).mount = s.mount := rfl
@[simp] theorem State.setLatch_cache (s : State) : (s.setLatch).cache = s.cache := rfl
@[simp] theorem State.setLatch_pres (s : State) : (s.setLatch).pres = s.pres := rfl
@[simp] theorem State.setLatch_cap (s : State) : (s.setLatch).cap = s.cap := rfl
@[simp] theorem State.setLatch_card (s : State) : (s.setLatch).card = s.card := rfl
@[simp] theorem State.setLatch_link (s : State) : (s.setLatch).link = s.link := rfl

@[simp] theorem State.setRotation_powered (s : State) (st : RotState) (timer : Option Nat) :
    (s.setRotation st timer).powered = s.powered := rfl
@[simp] theorem State.setRotation_pending (s : State) (st : RotState) (timer : Option Nat) :
    (s.setRotation st timer).pending = s.pending := rfl
@[simp] theorem State.setRotation_free (s : State) (st : RotState) (timer : Option Nat) :
    (s.setRotation st timer).free = s.free := rfl
@[simp] theorem State.setRotation_inputs (s : State) (st : RotState) (timer : Option Nat) :
    (s.setRotation st timer).inputs = s.inputs := rfl
@[simp] theorem State.setRotation_prof (s : State) (st : RotState) (timer : Option Nat) :
    (s.setRotation st timer).prof = s.prof := rfl
@[simp] theorem State.setRotation_drive (s : State) (st : RotState) (timer : Option Nat) :
    (s.setRotation st timer).drive = s.drive := rfl
@[simp] theorem State.setRotation_rot (s : State) (st : RotState) (timer : Option Nat) :
    (s.setRotation st timer).rot = { s.rot with state := st, spinTimer := timer } := rfl
@[simp] theorem State.setRotation_mount (s : State) (st : RotState) (timer : Option Nat) :
    (s.setRotation st timer).mount = s.mount := rfl
@[simp] theorem State.setRotation_cache (s : State) (st : RotState) (timer : Option Nat) :
    (s.setRotation st timer).cache = s.cache := rfl
@[simp] theorem State.setRotation_pres (s : State) (st : RotState) (timer : Option Nat) :
    (s.setRotation st timer).pres = s.pres := rfl
@[simp] theorem State.setRotation_cap (s : State) (st : RotState) (timer : Option Nat) :
    (s.setRotation st timer).cap = s.cap := rfl
@[simp] theorem State.setRotation_card (s : State) (st : RotState) (timer : Option Nat) :
    (s.setRotation st timer).card = s.card := rfl
@[simp] theorem State.setRotation_link (s : State) (st : RotState) (timer : Option Nat) :
    (s.setRotation st timer).link = s.link := rfl

@[simp] theorem State.capIdle_powered (s : State) : (s.capIdle).powered = s.powered := rfl
@[simp] theorem State.capIdle_pending (s : State) : (s.capIdle).pending = s.pending := rfl
@[simp] theorem State.capIdle_free (s : State) : (s.capIdle).free = s.free := rfl
@[simp] theorem State.capIdle_inputs (s : State) : (s.capIdle).inputs = s.inputs := rfl
@[simp] theorem State.capIdle_prof (s : State) : (s.capIdle).prof = s.prof := rfl
@[simp] theorem State.capIdle_drive (s : State) : (s.capIdle).drive = s.drive := rfl
@[simp] theorem State.capIdle_rot (s : State) : (s.capIdle).rot = s.rot := rfl
@[simp] theorem State.capIdle_mount (s : State) : (s.capIdle).mount = s.mount := rfl
@[simp] theorem State.capIdle_cache (s : State) : (s.capIdle).cache = s.cache := rfl
@[simp] theorem State.capIdle_pres (s : State) : (s.capIdle).pres = s.pres := rfl
@[simp] theorem State.capIdle_cap (s : State) : (s.capIdle).cap = Capture.idle := rfl
@[simp] theorem State.capIdle_card (s : State) : (s.capIdle).card = s.card := rfl
@[simp] theorem State.capIdle_link (s : State) : (s.capIdle).link = s.link := rfl

@[simp] theorem State.capAside_powered (s : State) : (s.capAside).powered = s.powered := rfl
@[simp] theorem State.capAside_pending (s : State) : (s.capAside).pending = s.pending := rfl
@[simp] theorem State.capAside_free (s : State) : (s.capAside).free = s.free := rfl
@[simp] theorem State.capAside_inputs (s : State) : (s.capAside).inputs = s.inputs := rfl
@[simp] theorem State.capAside_prof (s : State) : (s.capAside).prof = s.prof := rfl
@[simp] theorem State.capAside_drive (s : State) : (s.capAside).drive = s.drive := rfl
@[simp] theorem State.capAside_rot (s : State) : (s.capAside).rot = s.rot := rfl
@[simp] theorem State.capAside_mount (s : State) : (s.capAside).mount = s.mount := rfl
@[simp] theorem State.capAside_cache (s : State) : (s.capAside).cache = s.cache := rfl
@[simp] theorem State.capAside_pres (s : State) : (s.capAside).pres = s.pres := rfl
@[simp] theorem State.capAside_cap (s : State) :
    (s.capAside).cap = if s.drive.gateActive then s.cap.rest .discard else Capture.idle := rfl
@[simp] theorem State.capAside_card (s : State) : (s.capAside).card = s.card := rfl
@[simp] theorem State.capAside_link (s : State) : (s.capAside).link = s.link := rfl

@[simp] theorem State.record_powered (s : State) (d : Decision) : (s.record d).powered = s.powered := rfl
@[simp] theorem State.record_pending (s : State) (d : Decision) : (s.record d).pending = s.pending := rfl
@[simp] theorem State.record_free (s : State) (d : Decision) : (s.record d).free = s.free := rfl
@[simp] theorem State.record_inputs (s : State) (d : Decision) : (s.record d).inputs = s.inputs := rfl
@[simp] theorem State.record_prof (s : State) (d : Decision) : (s.record d).prof = s.prof := rfl
@[simp] theorem State.record_drive (s : State) (d : Decision) : (s.record d).drive = s.drive := rfl
@[simp] theorem State.record_rot (s : State) (d : Decision) : (s.record d).rot = s.rot := rfl
@[simp] theorem State.record_mount (s : State) (d : Decision) : (s.record d).mount = s.mount := rfl
@[simp] theorem State.record_cache (s : State) (d : Decision) : (s.record d).cache = s.cache := rfl
@[simp] theorem State.record_pres (s : State) (d : Decision) : (s.record d).pres = { s.pres with decision := d } := rfl
@[simp] theorem State.record_cap (s : State) (d : Decision) : (s.record d).cap = s.cap := rfl
@[simp] theorem State.record_card (s : State) (d : Decision) : (s.record d).card = s.card := rfl
@[simp] theorem State.record_link (s : State) (d : Decision) : (s.record d).link = s.link := rfl

@[simp] theorem State.writeEnded_powered (s : State) (i : Nat) : (s.writeEnded i).powered = s.powered := rfl
@[simp] theorem State.writeEnded_pending (s : State) (i : Nat) : (s.writeEnded i).pending = s.pending := rfl
@[simp] theorem State.writeEnded_free (s : State) (i : Nat) : (s.writeEnded i).free = s.free := rfl
@[simp] theorem State.writeEnded_inputs (s : State) (i : Nat) : (s.writeEnded i).inputs = s.inputs := rfl
@[simp] theorem State.writeEnded_prof (s : State) (i : Nat) : (s.writeEnded i).prof = s.prof := rfl
@[simp] theorem State.writeEnded_drive (s : State) (i : Nat) : (s.writeEnded i).drive = s.drive := rfl
@[simp] theorem State.writeEnded_rot (s : State) (i : Nat) : (s.writeEnded i).rot = s.rot := rfl
@[simp] theorem State.writeEnded_mount (s : State) (i : Nat) : (s.writeEnded i).mount = s.mount := rfl
@[simp] theorem State.writeEnded_cache (s : State) (i : Nat) :
    (s.writeEnded i).cache = { s.cache.touch i with idleTimer := some (ms s.link.options.idleFlush) } := rfl
@[simp] theorem State.writeEnded_pres (s : State) (i : Nat) : (s.writeEnded i).pres = s.pres := rfl
@[simp] theorem State.writeEnded_cap (s : State) (i : Nat) : (s.writeEnded i).cap = s.cap := rfl
@[simp] theorem State.writeEnded_card (s : State) (i : Nat) : (s.writeEnded i).card = s.card := rfl
@[simp] theorem State.writeEnded_link (s : State) (i : Nat) : (s.writeEnded i).link = s.link := rfl

@[simp] theorem State.enqueueRun_powered (s : State) (r : Run) : (s.enqueueRun r).powered = s.powered := rfl
@[simp] theorem State.enqueueRun_pending (s : State) (r : Run) : (s.enqueueRun r).pending = s.pending := rfl
@[simp] theorem State.enqueueRun_free (s : State) (r : Run) : (s.enqueueRun r).free = s.free := rfl
@[simp] theorem State.enqueueRun_inputs (s : State) (r : Run) : (s.enqueueRun r).inputs = s.inputs := rfl
@[simp] theorem State.enqueueRun_prof (s : State) (r : Run) : (s.enqueueRun r).prof = s.prof := rfl
@[simp] theorem State.enqueueRun_drive (s : State) (r : Run) : (s.enqueueRun r).drive = s.drive := rfl
@[simp] theorem State.enqueueRun_rot (s : State) (r : Run) : (s.enqueueRun r).rot = s.rot := rfl
@[simp] theorem State.enqueueRun_mount (s : State) (r : Run) : (s.enqueueRun r).mount = s.mount := rfl
@[simp] theorem State.enqueueRun_cache (s : State) (r : Run) : (s.enqueueRun r).cache = s.cache := rfl
@[simp] theorem State.enqueueRun_pres (s : State) (r : Run) : (s.enqueueRun r).pres = s.pres := rfl
@[simp] theorem State.enqueueRun_cap (s : State) (r : Run) : (s.enqueueRun r).cap = s.cap := rfl
@[simp] theorem State.enqueueRun_card (s : State) (r : Run) : (s.enqueueRun r).card = { s.card with queued := some r } := rfl
@[simp] theorem State.enqueueRun_link (s : State) (r : Run) : (s.enqueueRun r).link = s.link := rfl

@[simp] theorem State.start_powered (s : State) (r : Run) : (s.start r).powered = s.powered := rfl
@[simp] theorem State.start_pending (s : State) (r : Run) : (s.start r).pending = s.pending := rfl
@[simp] theorem State.start_free (s : State) (r : Run) : (s.start r).free = s.free := rfl
@[simp] theorem State.start_inputs (s : State) (r : Run) : (s.start r).inputs = s.inputs := rfl
@[simp] theorem State.start_prof (s : State) (r : Run) : (s.start r).prof = s.prof := rfl
@[simp] theorem State.start_drive (s : State) (r : Run) : (s.start r).drive = s.drive := rfl
@[simp] theorem State.start_rot (s : State) (r : Run) : (s.start r).rot = s.rot := rfl
@[simp] theorem State.start_mount (s : State) (r : Run) : (s.start r).mount = s.mount := rfl
@[simp] theorem State.start_cache (s : State) (r : Run) : (s.start r).cache = s.cache := rfl
@[simp] theorem State.start_pres (s : State) (r : Run) : (s.start r).pres = s.pres := rfl
@[simp] theorem State.start_cap (s : State) (r : Run) : (s.start r).cap = s.cap := rfl
@[simp] theorem State.start_card (s : State) (r : Run) :
    (s.start r).card = { s.card with active := some { r with status := .inProgress }, blockLimit := some r.kind.limit } := rfl
@[simp] theorem State.start_link (s : State) (r : Run) : (s.start r).link = s.link := rfl

@[simp] theorem State.finishRun_powered (s : State) (r : Run) (st : RunStatus) :
    (s.finishRun r st).powered = s.powered := rfl
@[simp] theorem State.finishRun_pending (s : State) (r : Run) (st : RunStatus) :
    (s.finishRun r st).pending = s.pending := rfl
@[simp] theorem State.finishRun_free (s : State) (r : Run) (st : RunStatus) : (s.finishRun r st).free = s.free := rfl
@[simp] theorem State.finishRun_inputs (s : State) (r : Run) (st : RunStatus) : (s.finishRun r st).inputs = s.inputs := rfl
@[simp] theorem State.finishRun_prof (s : State) (r : Run) (st : RunStatus) : (s.finishRun r st).prof = s.prof := rfl
@[simp] theorem State.finishRun_drive (s : State) (r : Run) (st : RunStatus) : (s.finishRun r st).drive = s.drive := rfl
@[simp] theorem State.finishRun_rot (s : State) (r : Run) (st : RunStatus) : (s.finishRun r st).rot = s.rot := rfl
@[simp] theorem State.finishRun_mount (s : State) (r : Run) (st : RunStatus) : (s.finishRun r st).mount = s.mount := rfl
@[simp] theorem State.finishRun_cache (s : State) (r : Run) (st : RunStatus) : (s.finishRun r st).cache = s.cache := rfl
@[simp] theorem State.finishRun_pres (s : State) (r : Run) (st : RunStatus) : (s.finishRun r st).pres = s.pres := rfl
@[simp] theorem State.finishRun_cap (s : State) (r : Run) (st : RunStatus) : (s.finishRun r st).cap = s.cap := rfl
@[simp] theorem State.finishRun_card (s : State) (r : Run) (st : RunStatus) :
    (s.finishRun r st).card = { s.card with active := none, blockLimit := none, lastRun := some { r with status := st, cls := s.runClass r } } := rfl
@[simp] theorem State.finishRun_link (s : State) (r : Run) (st : RunStatus) : (s.finishRun r st).link = s.link := rfl

@[simp] theorem State.setFailures_powered (s : State) (n : Nat) : (s.setFailures n).powered = s.powered := rfl
@[simp] theorem State.setFailures_pending (s : State) (n : Nat) : (s.setFailures n).pending = s.pending := rfl
@[simp] theorem State.setFailures_free (s : State) (n : Nat) : (s.setFailures n).free = s.free := rfl
@[simp] theorem State.setFailures_inputs (s : State) (n : Nat) : (s.setFailures n).inputs = s.inputs := rfl
@[simp] theorem State.setFailures_prof (s : State) (n : Nat) : (s.setFailures n).prof = s.prof := rfl
@[simp] theorem State.setFailures_drive (s : State) (n : Nat) : (s.setFailures n).drive = s.drive := rfl
@[simp] theorem State.setFailures_rot (s : State) (n : Nat) : (s.setFailures n).rot = s.rot := rfl
@[simp] theorem State.setFailures_mount (s : State) (n : Nat) : (s.setFailures n).mount = s.mount := rfl
@[simp] theorem State.setFailures_cache (s : State) (n : Nat) : (s.setFailures n).cache = s.cache := rfl
@[simp] theorem State.setFailures_pres (s : State) (n : Nat) : (s.setFailures n).pres = s.pres := rfl
@[simp] theorem State.setFailures_cap (s : State) (n : Nat) : (s.setFailures n).cap = s.cap := rfl
@[simp] theorem State.setFailures_card (s : State) (n : Nat) : (s.setFailures n).card = { s.card with failCount := n } := rfl
@[simp] theorem State.setFailures_link (s : State) (n : Nat) : (s.setFailures n).link = s.link := rfl

@[simp] theorem State.setPanel_powered (s : State) (w : Bool) (blk : Nat) (bs : List Byte) :
    (s.setPanel w blk bs).powered = s.powered := rfl
@[simp] theorem State.setPanel_pending (s : State) (w : Bool) (blk : Nat) (bs : List Byte) :
    (s.setPanel w blk bs).pending = s.pending := rfl
@[simp] theorem State.setPanel_free (s : State) (w : Bool) (blk : Nat) (bs : List Byte) :
    (s.setPanel w blk bs).free = s.free := rfl
@[simp] theorem State.setPanel_inputs (s : State) (w : Bool) (blk : Nat) (bs : List Byte) :
    (s.setPanel w blk bs).inputs = s.inputs := rfl
@[simp] theorem State.setPanel_prof (s : State) (w : Bool) (blk : Nat) (bs : List Byte) :
    (s.setPanel w blk bs).prof = s.prof := rfl
@[simp] theorem State.setPanel_drive (s : State) (w : Bool) (blk : Nat) (bs : List Byte) :
    (s.setPanel w blk bs).drive = s.drive := rfl
@[simp] theorem State.setPanel_rot (s : State) (w : Bool) (blk : Nat) (bs : List Byte) :
    (s.setPanel w blk bs).rot = s.rot := rfl
@[simp] theorem State.setPanel_mount (s : State) (w : Bool) (blk : Nat) (bs : List Byte) :
    (s.setPanel w blk bs).mount = s.mount := rfl
@[simp] theorem State.setPanel_cache (s : State) (w : Bool) (blk : Nat) (bs : List Byte) :
    (s.setPanel w blk bs).cache = s.cache := rfl
@[simp] theorem State.setPanel_pres (s : State) (w : Bool) (blk : Nat) (bs : List Byte) :
    (s.setPanel w blk bs).pres = s.pres := rfl
@[simp] theorem State.setPanel_cap (s : State) (w : Bool) (blk : Nat) (bs : List Byte) :
    (s.setPanel w blk bs).cap = s.cap := rfl
@[simp] theorem State.setPanel_card (s : State) (w : Bool) (blk : Nat) (bs : List Byte) :
    (s.setPanel w blk bs).card = { s.card with panel := some { write := w, block := blk, data := bs } } := rfl
@[simp] theorem State.setPanel_link (s : State) (w : Bool) (blk : Nat) (bs : List Byte) :
    (s.setPanel w blk bs).link = s.link := rfl

@[simp] theorem State.answerPanel_powered (s : State) (st : ReplyStatus) (d : Byte) (bs : List Byte) :
    (s.answerPanel st d bs).powered = s.powered := rfl
@[simp] theorem State.answerPanel_pending (s : State) (st : ReplyStatus) (d : Byte) (bs : List Byte) :
    (s.answerPanel st d bs).pending = s.pending := rfl
@[simp] theorem State.answerPanel_free (s : State) (st : ReplyStatus) (d : Byte) (bs : List Byte) :
    (s.answerPanel st d bs).free = s.free := rfl
@[simp] theorem State.answerPanel_inputs (s : State) (st : ReplyStatus) (d : Byte) (bs : List Byte) :
    (s.answerPanel st d bs).inputs = s.inputs := rfl
@[simp] theorem State.answerPanel_prof (s : State) (st : ReplyStatus) (d : Byte) (bs : List Byte) :
    (s.answerPanel st d bs).prof = s.prof := rfl
@[simp] theorem State.answerPanel_drive (s : State) (st : ReplyStatus) (d : Byte) (bs : List Byte) :
    (s.answerPanel st d bs).drive = s.drive := rfl
@[simp] theorem State.answerPanel_rot (s : State) (st : ReplyStatus) (d : Byte) (bs : List Byte) :
    (s.answerPanel st d bs).rot = s.rot := rfl
@[simp] theorem State.answerPanel_mount (s : State) (st : ReplyStatus) (d : Byte) (bs : List Byte) :
    (s.answerPanel st d bs).mount = s.mount := rfl
@[simp] theorem State.answerPanel_cache (s : State) (st : ReplyStatus) (d : Byte) (bs : List Byte) :
    (s.answerPanel st d bs).cache = s.cache := rfl
@[simp] theorem State.answerPanel_pres (s : State) (st : ReplyStatus) (d : Byte) (bs : List Byte) :
    (s.answerPanel st d bs).pres = s.pres := rfl
@[simp] theorem State.answerPanel_cap (s : State) (st : ReplyStatus) (d : Byte) (bs : List Byte) :
    (s.answerPanel st d bs).cap = s.cap := rfl
@[simp] theorem State.answerPanel_card (s : State) (st : ReplyStatus) (d : Byte) (bs : List Byte) :
    (s.answerPanel st d bs).card = { s.card with panel := none } := rfl
@[simp] theorem State.answerPanel_link (s : State) (st : ReplyStatus) (d : Byte) (bs : List Byte) :
    (s.answerPanel st d bs).link = s.link.answer st d bs := rfl

@[simp] theorem State.discardFrame_powered (s : State) : (s.discardFrame).powered = s.powered := rfl
@[simp] theorem State.discardFrame_pending (s : State) : (s.discardFrame).pending = s.pending := rfl
@[simp] theorem State.discardFrame_free (s : State) : (s.discardFrame).free = s.free := rfl
@[simp] theorem State.discardFrame_inputs (s : State) : (s.discardFrame).inputs = s.inputs := rfl
@[simp] theorem State.discardFrame_prof (s : State) : (s.discardFrame).prof = s.prof := rfl
@[simp] theorem State.discardFrame_drive (s : State) : (s.discardFrame).drive = s.drive := rfl
@[simp] theorem State.discardFrame_rot (s : State) : (s.discardFrame).rot = s.rot := rfl
@[simp] theorem State.discardFrame_mount (s : State) : (s.discardFrame).mount = s.mount := rfl
@[simp] theorem State.discardFrame_cache (s : State) : (s.discardFrame).cache = s.cache := rfl
@[simp] theorem State.discardFrame_pres (s : State) : (s.discardFrame).pres = s.pres := rfl
@[simp] theorem State.discardFrame_cap (s : State) : (s.discardFrame).cap = s.cap := rfl
@[simp] theorem State.discardFrame_card (s : State) : (s.discardFrame).card = s.card := rfl
@[simp] theorem State.discardFrame_link (s : State) : (s.discardFrame).link = s.link.rxIdle := rfl

@[simp] theorem State.rxGoOn_powered (s : State) (st : RxState) (bs : List Byte) :
    (s.rxGoOn st bs).powered = s.powered := rfl
@[simp] theorem State.rxGoOn_pending (s : State) (st : RxState) (bs : List Byte) :
    (s.rxGoOn st bs).pending = s.pending := rfl
@[simp] theorem State.rxGoOn_free (s : State) (st : RxState) (bs : List Byte) : (s.rxGoOn st bs).free = s.free := rfl
@[simp] theorem State.rxGoOn_inputs (s : State) (st : RxState) (bs : List Byte) : (s.rxGoOn st bs).inputs = s.inputs := rfl
@[simp] theorem State.rxGoOn_prof (s : State) (st : RxState) (bs : List Byte) : (s.rxGoOn st bs).prof = s.prof := rfl
@[simp] theorem State.rxGoOn_drive (s : State) (st : RxState) (bs : List Byte) : (s.rxGoOn st bs).drive = s.drive := rfl
@[simp] theorem State.rxGoOn_rot (s : State) (st : RxState) (bs : List Byte) : (s.rxGoOn st bs).rot = s.rot := rfl
@[simp] theorem State.rxGoOn_mount (s : State) (st : RxState) (bs : List Byte) : (s.rxGoOn st bs).mount = s.mount := rfl
@[simp] theorem State.rxGoOn_cache (s : State) (st : RxState) (bs : List Byte) : (s.rxGoOn st bs).cache = s.cache := rfl
@[simp] theorem State.rxGoOn_pres (s : State) (st : RxState) (bs : List Byte) : (s.rxGoOn st bs).pres = s.pres := rfl
@[simp] theorem State.rxGoOn_cap (s : State) (st : RxState) (bs : List Byte) : (s.rxGoOn st bs).cap = s.cap := rfl
@[simp] theorem State.rxGoOn_card (s : State) (st : RxState) (bs : List Byte) : (s.rxGoOn st bs).card = s.card := rfl
@[simp] theorem State.rxGoOn_link (s : State) (st : RxState) (bs : List Byte) :
    (s.rxGoOn st bs).link = s.link.rxGoOn st bs := rfl

@[simp] theorem State.linkSent_powered (s : State) : (s.linkSent).powered = s.powered := rfl
@[simp] theorem State.linkSent_pending (s : State) : (s.linkSent).pending = s.pending := rfl
@[simp] theorem State.linkSent_free (s : State) : (s.linkSent).free = s.free := rfl
@[simp] theorem State.linkSent_inputs (s : State) : (s.linkSent).inputs = s.inputs := rfl
@[simp] theorem State.linkSent_prof (s : State) : (s.linkSent).prof = s.prof := rfl
@[simp] theorem State.linkSent_drive (s : State) : (s.linkSent).drive = s.drive := rfl
@[simp] theorem State.linkSent_rot (s : State) : (s.linkSent).rot = s.rot := rfl
@[simp] theorem State.linkSent_mount (s : State) : (s.linkSent).mount = s.mount := rfl
@[simp] theorem State.linkSent_cache (s : State) : (s.linkSent).cache = s.cache := rfl
@[simp] theorem State.linkSent_pres (s : State) : (s.linkSent).pres = s.pres := rfl
@[simp] theorem State.linkSent_cap (s : State) : (s.linkSent).cap = s.cap := rfl
@[simp] theorem State.linkSent_card (s : State) : (s.linkSent).card = s.card := rfl
@[simp] theorem State.linkSent_link (s : State) : (s.linkSent).link = s.link.frameSent := rfl

@[simp] theorem State.clearMount_powered (s : State) : (s.clearMount).powered = s.powered := rfl
@[simp] theorem State.clearMount_pending (s : State) : (s.clearMount).pending = s.pending := rfl
@[simp] theorem State.clearMount_free (s : State) : (s.clearMount).free = s.free := rfl
@[simp] theorem State.clearMount_inputs (s : State) : (s.clearMount).inputs = s.inputs := rfl
@[simp] theorem State.clearMount_prof (s : State) : (s.clearMount).prof = s.prof := rfl
@[simp] theorem State.clearMount_drive (s : State) : (s.clearMount).drive = { s.drive with latch := true } := rfl
@[simp] theorem State.clearMount_rot (s : State) : (s.clearMount).rot = s.rot := rfl
@[simp] theorem State.clearMount_mount (s : State) : (s.clearMount).mount = Mount.cleared s.mount.serial := rfl
@[simp] theorem State.clearMount_cache (s : State) : (s.clearMount).cache = s.cache.release := rfl
@[simp] theorem State.clearMount_pres (s : State) : (s.clearMount).pres = s.pres := rfl
@[simp] theorem State.clearMount_cap (s : State) : (s.clearMount).cap = s.cap := rfl
@[simp] theorem State.clearMount_card (s : State) : (s.clearMount).card = s.card := rfl
@[simp] theorem State.clearMount_link (s : State) : (s.clearMount).link = s.link := rfl

@[simp] theorem State.setProfile_powered (s : State) (g : Geometry) : (s.setProfile g).powered = s.powered := rfl
@[simp] theorem State.setProfile_pending (s : State) (g : Geometry) : (s.setProfile g).pending = s.pending := rfl
@[simp] theorem State.setProfile_free (s : State) (g : Geometry) : (s.setProfile g).free = s.free := rfl
@[simp] theorem State.setProfile_inputs (s : State) (g : Geometry) : (s.setProfile g).inputs = s.inputs := rfl
@[simp] theorem State.setProfile_prof (s : State) (g : Geometry) : (s.setProfile g).prof = g := rfl
@[simp] theorem State.setProfile_drive (s : State) (g : Geometry) : (s.setProfile g).drive = s.drive := rfl
@[simp] theorem State.setProfile_rot (s : State) (g : Geometry) :
    (s.setProfile g).rot = s.rot.underPeriod g.profile.rpm.period := rfl
@[simp] theorem State.setProfile_mount (s : State) (g : Geometry) : (s.setProfile g).mount = s.mount := rfl
@[simp] theorem State.setProfile_cache (s : State) (g : Geometry) : (s.setProfile g).cache = s.cache := rfl
@[simp] theorem State.setProfile_pres (s : State) (g : Geometry) : (s.setProfile g).pres = s.pres := rfl
@[simp] theorem State.setProfile_cap (s : State) (g : Geometry) : (s.setProfile g).cap = s.cap := rfl
@[simp] theorem State.setProfile_card (s : State) (g : Geometry) : (s.setProfile g).card = s.card := rfl
@[simp] theorem State.setProfile_link (s : State) (g : Geometry) : (s.setProfile g).link = s.link := rfl

@[simp] theorem State.refreshClasses_powered (s : State) : (s.refreshClasses).powered = s.powered := rfl
@[simp] theorem State.refreshClasses_pending (s : State) : (s.refreshClasses).pending = s.pending := rfl
@[simp] theorem State.refreshClasses_free (s : State) : (s.refreshClasses).free = s.free := rfl
@[simp] theorem State.refreshClasses_inputs (s : State) : (s.refreshClasses).inputs = s.inputs := rfl
@[simp] theorem State.refreshClasses_prof (s : State) : (s.refreshClasses).prof = s.prof := rfl
@[simp] theorem State.refreshClasses_drive (s : State) : (s.refreshClasses).drive = s.drive := rfl
@[simp] theorem State.refreshClasses_rot (s : State) : (s.refreshClasses).rot = s.rot := rfl
@[simp] theorem State.refreshClasses_mount (s : State) : (s.refreshClasses).mount = s.mount := rfl
@[simp] theorem State.refreshClasses_cache (s : State) : (s.refreshClasses).cache = s.cache := rfl
@[simp] theorem State.refreshClasses_pres (s : State) : (s.refreshClasses).pres = s.pres := rfl
@[simp] theorem State.refreshClasses_cap (s : State) : (s.refreshClasses).cap = s.cap := rfl
@[simp] theorem State.refreshClasses_card (s : State) :
    (s.refreshClasses).card = { s.card with active := s.card.active.map (fun r => { r with cls := s.runClass r }), queued := s.card.queued.map (fun r => { r with cls := s.runClass r }) } := rfl
@[simp] theorem State.refreshClasses_link (s : State) : (s.refreshClasses).link = s.link := rfl

@[simp] theorem State.dirtyOverlap_powered (s : State) (r : Run) : (s.dirtyOverlap r).powered = s.powered := rfl
@[simp] theorem State.dirtyOverlap_pending (s : State) (r : Run) : (s.dirtyOverlap r).pending = s.pending := rfl
@[simp] theorem State.dirtyOverlap_free (s : State) (r : Run) : (s.dirtyOverlap r).free = s.free := rfl
@[simp] theorem State.dirtyOverlap_inputs (s : State) (r : Run) : (s.dirtyOverlap r).inputs = s.inputs := rfl
@[simp] theorem State.dirtyOverlap_prof (s : State) (r : Run) : (s.dirtyOverlap r).prof = s.prof := rfl
@[simp] theorem State.dirtyOverlap_drive (s : State) (r : Run) : (s.dirtyOverlap r).drive = s.drive := rfl
@[simp] theorem State.dirtyOverlap_rot (s : State) (r : Run) : (s.dirtyOverlap r).rot = s.rot := rfl
@[simp] theorem State.dirtyOverlap_mount (s : State) (r : Run) : (s.dirtyOverlap r).mount = s.mount := rfl
@[simp] theorem State.dirtyOverlap_cache (s : State) (r : Run) :
    (s.dirtyOverlap r).cache = { s.cache with lines := s.cache.lines.map (Line.dirtyOverlap s.geom r) } := rfl
@[simp] theorem State.dirtyOverlap_pres (s : State) (r : Run) : (s.dirtyOverlap r).pres = s.pres := rfl
@[simp] theorem State.dirtyOverlap_cap (s : State) (r : Run) : (s.dirtyOverlap r).cap = s.cap := rfl
@[simp] theorem State.dirtyOverlap_card (s : State) (r : Run) : (s.dirtyOverlap r).card = s.card := rfl
@[simp] theorem State.dirtyOverlap_link (s : State) (r : Run) : (s.dirtyOverlap r).link = s.link := rfl

end Sys2Proof.Machine
end

