-- ==== Sys2Proof/Laws/Settle.lean ====
section
/-! SUPPORT. What the reactions after a command can do: they touch the cache, the two slots and the stream, and nothing else; the
arbiter moves sectors between DIRTY and FLUSH and lines in and out of the flush queue, and changes nothing else of the cache. -/

namespace Sys2Proof.Machine

/-! ## Outside the cache, the slots and the stream -/

theorem Settled.refl (s : State) : Settled s s := ⟨rfl, rfl⟩

theorem Settled.trans {s t u : State} (h : Settled s t) (k : Settled t u) : Settled s u := by
  refine ⟨?_, ?_⟩
  · rw [k.outside, h.outside]
  · rw [k.card, h.card]

theorem Settled.powered {s t : State} (h : Settled s t) : t.powered = s.powered := by rw [h.outside]
theorem Settled.pending {s t : State} (h : Settled s t) : t.pending = s.pending := by rw [h.outside]
theorem Settled.free {s t : State} (h : Settled s t) : t.free = s.free := by rw [h.outside]
theorem Settled.inputs {s t : State} (h : Settled s t) : t.inputs = s.inputs := by rw [h.outside]
theorem Settled.prof {s t : State} (h : Settled s t) : t.prof = s.prof := by rw [h.outside]
theorem Settled.drive {s t : State} (h : Settled s t) : t.drive = s.drive := by rw [h.outside]
theorem Settled.rot {s t : State} (h : Settled s t) : t.rot = s.rot := by rw [h.outside]
theorem Settled.mount {s t : State} (h : Settled s t) : t.mount = s.mount := by rw [h.outside]
theorem Settled.cap {s t : State} (h : Settled s t) : t.cap = s.cap := by rw [h.outside]
theorem Settled.link {s t : State} (h : Settled s t) : t.link = s.link := by rw [h.outside]
theorem Settled.cardState {s t : State} (h : Settled s t) : t.card.state = s.card.state := by rw [h.card]
theorem Settled.capacity {s t : State} (h : Settled s t) : t.card.capacity = s.card.capacity := by rw [h.card]
theorem Settled.wp {s t : State} (h : Settled s t) : t.card.wp = s.card.wp := by rw [h.card]
theorem Settled.failCount {s t : State} (h : Settled s t) : t.card.failCount = s.card.failCount := by rw [h.card]
theorem Settled.mergeBuf {s t : State} (h : Settled s t) : t.card.mergeBuf = s.card.mergeBuf := by rw [h.card]
theorem Settled.lastRun {s t : State} (h : Settled s t) : t.card.lastRun = s.card.lastRun := by rw [h.card]
theorem Settled.panel {s t : State} (h : Settled s t) : t.card.panel = s.card.panel := by rw [h.card]
theorem Settled.bringUp {s t : State} (h : Settled s t) : t.card.bringUp = s.card.bringUp := by rw [h.card]

theorem settled_cache (s : State) (c : Cache) : Settled s { s with cache := c } := ⟨rfl, rfl⟩

theorem settled_enqueueRun (s : State) (r : Run) : Settled s (s.enqueueRun r) := ⟨rfl, rfl⟩

theorem settled_start (s : State) (r : Run) : Settled s (s.start r) := ⟨rfl, rfl⟩

theorem settled_makeFlush (s : State) (cls : RunClass) (i blk n : Nat) (buf : Option (List Byte)) :
    Settled s (s.makeFlush cls i blk n buf).1 := by
  unfold State.makeFlush
  split
  · exact .refl s
  · exact settled_cache s _

theorem settled_build (s : State) (o : Offer) : Settled s (s.build o) := by
  unfold State.build
  split
  · exact settled_enqueueRun s _
  · split
    · exact settled_enqueueRun s _
    · exact (settled_makeFlush s _ _ _ _ _).trans (settled_enqueueRun _ _)
  · split
    · exact settled_enqueueRun s _
    · exact .refl s

theorem settled_unflush (s : State) (r : Run) : Settled s (s.unflush r) := by
  unfold State.unflush
  split
  · split
    · exact .refl s
    · exact settled_cache s _
  · exact .refl s

theorem settled_rejoin (s : State) (r : Run) : Settled s (s.rejoin r) := by
  unfold State.rejoin
  split
  · split
    · exact settled_cache s _
    · exact .refl s
  · exact .refl s

theorem settled_withdraw (s : State) : Settled s s.withdraw := by
  unfold State.withdraw
  split
  · exact .refl s
  · simp only
    have h : Settled s { s with card := { s.card with queued := none } } := ⟨rfl, rfl⟩
    split
    · exact h.trans ((settled_unflush _ _).trans (settled_rejoin _ _))
    · exact h

theorem settled_dropDeadFill (s : State) : Settled s s.dropDeadFill := by
  unfold State.dropDeadFill
  split
  · exact .refl s
  · split
    · split
      · exact .refl s
      · exact settled_withdraw s
    · exact .refl s

theorem settled_displace (s : State) : Settled s s.displace := by
  unfold State.displace
  split
  · split
    · exact settled_withdraw s
    · exact .refl s
  · exact .refl s

theorem settled_promote (s : State) : Settled s s.promote := by
  unfold State.promote
  split
  · exact Settled.trans (t := { s with card := { s.card with queued := none } }) ⟨rfl, rfl⟩ (settled_start _ _)
  · exact .refl s

theorem settled_fillQueued (s : State) : Settled s s.fillQueued := by
  unfold State.fillQueued
  split
  · exact settled_build s _
  · exact .refl s

theorem settled_tendQueue (s : State) : Settled s s.tendQueue := by
  unfold State.tendQueue
  simp only
  split
  · exact ⟨rfl, rfl⟩
  · exact ⟨rfl, rfl⟩

theorem settled_arbitrateOnce (s : State) : Settled s s.arbitrateOnce :=
  (settled_tendQueue s).trans <| (settled_dropDeadFill _).trans <| (settled_displace _).trans <| (settled_promote _).trans <|
    settled_fillQueued _

theorem settled_arbitrate (s : State) : Settled s s.arbitrate :=
  (settled_arbitrateOnce s).trans <| (settled_arbitrateOnce _).trans <| (settled_arbitrateOnce _).trans <|
    (settled_arbitrateOnce _).trans <| settled_tendQueue _

theorem settled_refreshClasses (s : State) : Settled s s.refreshClasses := ⟨rfl, rfl⟩

/-- Read-ahead, when it is considered, changes the cache alone. -/
theorem lookAhead_eq (s : State) : s.lookAhead = { s with cache := s.lookAhead.cache } := by
  unfold State.lookAhead
  split <;> rfl

/-- The cache's own reactions change the cache alone. -/
theorem react_eq (s : State) (old : Cache) : s.react old = { s with cache := (s.react old).cache } := by
  obtain ⟨c, hc⟩ : ∃ c, s.reactWaiting old = { s with cache := c } := by
    unfold State.reactWaiting
    split
    · exact ⟨_, rfl⟩
    · split <;> exact ⟨_, rfl⟩
  unfold State.react State.reactAhead
  split
  · rw [lookAhead_eq, hc]
  · rw [hc]

/-- To an unchanged cache there is no reaction. -/
theorem react_self (s : State) : s.react s.cache = s := by
  have h1 : s.reactWaiting s.cache = s := by
    unfold State.reactWaiting
    split
    · rfl
    · simp
  have h2 : aheadMoment s.cache s.cache = false := by simp [aheadMoment]
  unfold State.react
  rw [h1]
  unfold State.reactAhead
  rw [h2]
  rfl

theorem settle_self (s : State) : State.settle s s = s.tend := by
  unfold State.settle
  rw [react_self]

theorem settled_react (s : State) (old : Cache) : Settled s (s.react old) := by
  rw [react_eq]
  exact settled_cache s _

theorem settled_tendStream (s : State) : Settled s s.tendStream := by
  unfold State.tendStream
  split
  · exact .refl s
  · exact ⟨rfl, rfl⟩

theorem settled_tend (s : State) : Settled s s.tend :=
  (settled_arbitrate s).trans <| (settled_refreshClasses _).trans <| settled_tendStream _

/-- The reactions after a command touch the cache, the slots and the stream alone. -/
theorem settled_settle (old s : State) : Settled s (State.settle old s) := (settled_react s _).trans (settled_tend _)

/-- Whether the stream flows depends on nothing that the reactions touch. -/
theorem Settled.flowing {s t : State} (h : Settled s t) : t.flowing = s.flowing := by
  simp only [State.flowing, State.presented, State.isMounted, h.powered, h.drive, h.mount, h.rot]

/-! ## The stream and the card through the arbiter's operations -/

theorem unflush_pres (s : State) (r : Run) : (s.unflush r).pres = s.pres := by
  unfold State.unflush
  repeat' (first | rfl | split)

theorem unflush_card (s : State) (r : Run) : (s.unflush r).card = s.card := by
  unfold State.unflush
  repeat' (first | rfl | split)

theorem rejoin_pres (s : State) (r : Run) : (s.rejoin r).pres = s.pres := by
  unfold State.rejoin
  repeat' (first | rfl | split)

theorem rejoin_card (s : State) (r : Run) : (s.rejoin r).card = s.card := by
  unfold State.rejoin
  repeat' (first | rfl | split)

theorem tendQueue_pres (s : State) : s.tendQueue.pres = s.pres := by
  unfold State.tendQueue
  simp only
  split <;> rfl

theorem tendQueue_card (s : State) : s.tendQueue.card = s.card := by
  unfold State.tendQueue
  simp only
  split <;> rfl

theorem withdraw_pres (s : State) : s.withdraw.pres = s.pres := by
  unfold State.withdraw
  split
  · rfl
  · simp only
    split
    · rw [rejoin_pres, unflush_pres]
    · rfl

theorem withdraw_active (s : State) : s.withdraw.card.active = s.card.active := by
  unfold State.withdraw
  split
  · rfl
  · simp only
    split
    · rw [rejoin_card, unflush_card]
    · rfl

theorem arbitrateOnce_pres (s : State) : s.arbitrateOnce.pres = s.pres := by
  have h1 : ∀ t : State, t.tendQueue.pres = t.pres := tendQueue_pres
  have h2 : ∀ t : State, t.dropDeadFill.pres = t.pres := by
    intro t
    unfold State.dropDeadFill
    repeat' (first | rfl | exact withdraw_pres t | split)
  have h3 : ∀ t : State, t.displace.pres = t.pres := by
    intro t
    unfold State.displace
    repeat' (first | rfl | exact withdraw_pres t | split)
  have h4 : ∀ t : State, t.promote.pres = t.pres := by
    intro t
    unfold State.promote
    repeat' (first | rfl | split)
  have h5 : ∀ t : State, t.fillQueued.pres = t.pres := by
    intro t
    unfold State.fillQueued State.build State.makeFlush
    repeat' (first | rfl | split)
  unfold State.arbitrateOnce
  rw [h5, h4, h3, h2, h1]

/-- After the reactions the stream is as the command left it while READ DATA flows, and at rest while it does not (R90). -/
theorem settle_pres (old s : State) : (State.settle old s).pres = if s.flowing then s.pres else Present.reset := by
  have hr : ∀ t : State, ∀ c, (t.react c).pres = t.pres := fun t c => by rw [react_eq]
  have ht : ∀ t : State, t.tendQueue.pres = t.pres := tendQueue_pres
  have ha : ∀ t : State, t.arbitrate.pres = t.pres := by
    intro t
    unfold State.arbitrate
    rw [ht, arbitrateOnce_pres, arbitrateOnce_pres, arbitrateOnce_pres, arbitrateOnce_pres]
  have hs : Settled s ((s.react old.cache).arbitrate.refreshClasses) :=
    (settled_react s _).trans ((settled_arbitrate _).trans (settled_refreshClasses _))
  unfold State.settle State.tend State.tendStream
  rw [hs.flowing]
  split
  · rw [State.refreshClasses_pres, ha, hr]
  · rfl

/-! ## The run in the active slot stays -/

theorem arbitrateOnce_active {s : State} {r : Run} (h : s.card.active = some r) :
    s.arbitrateOnce.card.active = some r := by
  have h1 : ∀ t : State, t.tendQueue.card.active = t.card.active := fun t => by rw [tendQueue_card]
  have h2 : ∀ t : State, t.dropDeadFill.card.active = t.card.active := by
    intro t
    unfold State.dropDeadFill
    repeat' (first | rfl | exact withdraw_active t | split)
  have h3 : ∀ t : State, t.displace.card.active = t.card.active := by
    intro t
    unfold State.displace
    repeat' (first | rfl | exact withdraw_active t | split)
  have h4 : ∀ t : State, t.card.active = some r → t.promote.card.active = some r := by
    intro t ht
    unfold State.promote
    split
    · simp_all
    · exact ht
  have h5 : ∀ t : State, t.fillQueued.card.active = t.card.active := by
    intro t
    unfold State.fillQueued State.build State.makeFlush
    repeat' (first | rfl | split)
  unfold State.arbitrateOnce
  rw [h5]
  exact h4 _ (by rw [h3, h2, h1, h])

/-- A run in the active slot stays there through the reactions; its class alone may follow the work it serves (R148). -/
theorem settle_active (old s : State) {r : Run} (h : s.card.active = some r) :
    ∃ cls, (State.settle old s).card.active = some { r with cls := cls } := by
  have hr : ∀ t : State, ∀ c, (t.react c).card = t.card := fun t c => by rw [react_eq]
  have ht : ∀ t : State, t.tendQueue.card.active = t.card.active := fun t => by rw [tendQueue_card]
  have hs : ∀ t : State, t.tendStream.card = t.card := by
    intro t
    unfold State.tendStream
    split <;> rfl
  unfold State.settle State.tend
  rw [hs]
  simp only [State.refreshClasses_card]
  unfold State.arbitrate
  rw [ht, arbitrateOnce_active (arbitrateOnce_active (arbitrateOnce_active (arbitrateOnce_active (by rw [hr]; exact h))))]
  exact ⟨_, rfl⟩

/-! ## What the arbiter does to the cache -/

theorem Cache.Tended.refl (c : Cache) : c.Tended c := ⟨rfl, rfl⟩

theorem Cache.Tended.trans {c d e : Cache} (h : c.Tended d) (k : d.Tended e) : c.Tended e :=
  ⟨by rw [k.rest, h.rest], k.lines.trans h.lines⟩

theorem Cache.Tended.ram {c d : Cache} (h : c.Tended d) : d.ram = c.ram := by rw [h.rest]
theorem Cache.Tended.lru {c d : Cache} (h : c.Tended d) : d.lru = c.lru := by rw [h.rest]
theorem Cache.Tended.defects {c d : Cache} (h : c.Tended d) : d.defects = c.defects := by rw [h.rest]
theorem Cache.Tended.idleTimer {c d : Cache} (h : c.Tended d) : d.idleTimer = c.idleTimer := by rw [h.rest]
theorem Cache.Tended.waiting {c d : Cache} (h : c.Tended d) : d.waiting = c.waiting := by rw [h.rest]
theorem Cache.Tended.forced {c d : Cache} (h : c.Tended d) : d.forced = c.forced := by rw [h.rest]
theorem Cache.Tended.armed {c d : Cache} (h : c.Tended d) : d.armed = c.armed := by rw [h.rest]
theorem Cache.Tended.demandStart {c d : Cache} (h : c.Tended d) : d.demandStart = c.demandStart := by rw [h.rest]

theorem Sector.calm_enter (x : Sector) (a b : SectorState) (ha : a = .dirty ∨ a = .flush) (hb : b = .dirty ∨ b = .flush)
    (hx : x.state = a) (n : Nat) : ({ x.enter b with stamp := n } : Sector).calm = x.calm := by
  unfold Sector.enter Sector.calm
  rcases ha with rfl | rfl <;> rcases hb with rfl | rfl <;> simp [hx]

theorem Cache.tended_queue (c : Cache) (q : List Nat) : c.Tended { c with flushQ := q } := ⟨rfl, rfl⟩

theorem mapSectors_calm (c : Cache) (i : Nat) (f : Nat → Sector → Sector) (hf : ∀ l x, (f l x).calm = x.calm) :
    (c.mapSectors i f).lines.map Line.calm = c.lines.map Line.calm := by
  apply List.ext_getElem
  · simp [Cache.mapSectors, Cache.modLine]
  · intro k h1 h2
    simp only [Cache.mapSectors, Cache.modLine, List.getElem_map, List.getElem_modify]
    split
    · simp only [Line.calm, Line.mk.injEq, true_and]
      apply List.ext_getElem
      · simp
      · intro n h3 h4
        simp [hf]
    · rfl

theorem Cache.tended_toFlush (c : Cache) (g : Geometry) (i : Nat) (tr : Track) (r : Run) : c.Tended (c.toFlush g i tr r) := by
  refine ⟨rfl, ?_⟩
  unfold Cache.toFlush
  simp only
  rw [mapSectors_calm]
  intro l x
  split
  · rename_i h
    exact x.calm_enter .dirty .flush (.inl rfl) (.inr rfl) h.1 _
  · rfl

theorem Cache.tended_fromFlush (c : Cache) (g : Geometry) (i : Nat) (tr : Track) (r : Run) : c.Tended (c.fromFlush g i tr r) := by
  refine ⟨rfl, ?_⟩
  unfold Cache.fromFlush
  rw [mapSectors_calm]
  intro l x
  split
  · rename_i h
    have := x.calm_enter .flush .dirty (.inr rfl) (.inl rfl) h.1 (x.enter .dirty).stamp
    exact this
  · rfl

theorem tended_makeFlush (s : State) (cls : RunClass) (i blk n : Nat) (buf : Option (List Byte)) :
    s.cache.Tended (s.makeFlush cls i blk n buf).1.cache := by
  unfold State.makeFlush
  split
  · exact .refl _
  · exact Cache.tended_toFlush _ _ _ _ _

theorem tended_build (s : State) (o : Offer) : s.cache.Tended (s.build o).cache := by
  unfold State.build
  split
  · exact .refl _
  · split
    · exact .refl _
    · exact tended_makeFlush s _ _ _ _ _
  · split <;> exact .refl _

theorem tended_unflush (s : State) (r : Run) : s.cache.Tended (s.unflush r).cache := by
  unfold State.unflush
  split
  · split
    · exact .refl _
    · exact Cache.tended_fromFlush _ _ _ _ _
  · exact .refl _

theorem tended_rejoin (s : State) (r : Run) : s.cache.Tended (s.rejoin r).cache := by
  unfold State.rejoin
  split
  · split
    · exact Cache.tended_queue _ _
    · exact .refl _
  · exact .refl _

theorem tended_withdraw (s : State) : s.cache.Tended s.withdraw.cache := by
  unfold State.withdraw
  split
  · exact .refl _
  · simp only
    split
    · exact (tended_unflush { s with card := { s.card with queued := none } } _).trans (tended_rejoin _ _)
    · exact .refl _

theorem tended_dropDeadFill (s : State) : s.cache.Tended s.dropDeadFill.cache := by
  unfold State.dropDeadFill
  split
  · exact .refl _
  · split
    · split
      · exact .refl _
      · exact tended_withdraw s
    · exact .refl _

theorem tended_displace (s : State) : s.cache.Tended s.displace.cache := by
  unfold State.displace
  split
  · split
    · exact tended_withdraw s
    · exact .refl _
  · exact .refl _

theorem tended_promote (s : State) : s.cache.Tended s.promote.cache := by
  unfold State.promote
  split <;> exact .refl _

theorem tended_fillQueued (s : State) : s.cache.Tended s.fillQueued.cache := by
  unfold State.fillQueued
  split
  · exact tended_build s _
  · exact .refl _

theorem tended_tendQueue (s : State) : s.cache.Tended s.tendQueue.cache := by
  unfold State.tendQueue
  simp only
  split
  · exact ⟨rfl, rfl⟩
  · exact ⟨rfl, rfl⟩

theorem tended_arbitrateOnce (s : State) : s.cache.Tended s.arbitrateOnce.cache :=
  (tended_tendQueue s).trans <| (tended_dropDeadFill _).trans <| (tended_displace _).trans <| (tended_promote _).trans <|
    tended_fillQueued _

theorem tended_arbitrate (s : State) : s.cache.Tended s.arbitrate.cache :=
  (tended_arbitrateOnce s).trans <| (tended_arbitrateOnce _).trans <| (tended_arbitrateOnce _).trans <|
    (tended_arbitrateOnce _).trans <| tended_tendQueue _

theorem tendStream_cache (s : State) : s.tendStream.cache = s.cache := by
  unfold State.tendStream
  split <;> rfl

/-- With no track waiting and read-ahead off, or outside MOUNTED, the cache itself does not react. -/
theorem react_quiet (s : State) (old : Cache)
    (h : s.isMounted = false ∨ (s.cache.waiting = none ∧ s.link.options.readAhead = false)) : s.react old = s := by
  have h1 : s.reactWaiting old = s := by
    unfold State.reactWaiting
    rcases h with h | ⟨h, -⟩
    · split
      · rfl
      · simp [h]
    · rw [h]
  unfold State.react
  rw [h1]
  unfold State.reactAhead State.lookAhead
  rcases h with h | ⟨-, h⟩ <;> simp [h]

/-- With no track waiting and read-ahead off, or outside MOUNTED, the reactions change only the flush queue, the stamps, and which
non-clean sectors are DIRTY and which FLUSH. -/
theorem settle_tended (old s : State)
    (h : s.isMounted = false ∨ (s.cache.waiting = none ∧ s.link.options.readAhead = false)) :
    s.cache.Tended (State.settle old s).cache := by
  unfold State.settle State.tend
  rw [tendStream_cache, State.refreshClasses_cache, react_quiet s _ h]
  exact tended_arbitrate s

/-! ## Lines through a tending -/

theorem Line.calm_tag (l : Line) : l.calm.tag = l.tag := rfl

theorem Cache.Tended.shape {c d : Cache} (h : c.Tended d) : d.shape = c.shape := by
  have e : ∀ ls : List Line, ls.map (fun l => (l.tag, l.pinned)) = (ls.map Line.calm).map (fun l => (l.tag, l.pinned)) := by
    intro ls
    simp [Line.calm]
  unfold Cache.shape
  rw [e, h.lines, ← e]

theorem Cache.Tended.active {c d : Cache} (h : c.Tended d) : d.active = c.active := by
  rw [Cache.active_shape, Cache.active_shape, h.shape]

theorem Cache.Tended.carrier {c d : Cache} (h : c.Tended d) (tr : Track) : d.carrier tr = c.carrier tr := by
  rw [Cache.carrier_shape, Cache.carrier_shape, h.shape]

theorem Cache.Tended.line {c d : Cache} (h : c.Tended d) (i : Nat) : (d.line i).calm = (c.line i).calm := by
  have e : ∀ ls : List Line, (ls.getD i Line.free).calm = (ls.map Line.calm).getD i Line.free := by
    intro ls
    simp only [List.getD_eq_getElem?_getD, List.getElem?_map]
    cases ls[i]? <;> rfl
  unfold Cache.line
  rw [e, e, h.lines]

/-- A sector stays non-clean or stays what it was, keeps its hole flag and its defective part. -/
theorem Cache.Tended.sector {c d : Cache} (h : c.Tended d) (i l : Nat) :
    (d.sector i l).map Sector.calm = (c.sector i l).map Sector.calm := by
  have e : ∀ ln : Line, ln.sectors[l]?.map Sector.calm = ln.calm.sectors[l]? := by
    intro ln
    simp [Line.calm]
  unfold Cache.sector
  rw [e, e, h.line i]

theorem Sector.calm_nonClean (x : Sector) : x.calm.state.nonClean = x.state.nonClean := by
  unfold Sector.calm
  split <;> simp_all [SectorState.nonClean]

theorem Cache.Tended.nonClean {c d : Cache} (h : c.Tended d) : d.nonClean = c.nonClean := by
  have e : ∀ ls : List Line, (ls.map Line.nonCleanCount) = (ls.map Line.calm).map Line.nonCleanCount := by
    intro ls
    simp only [List.map_map]
    apply List.map_congr_left
    intro l _
    simp only [Function.comp, Line.nonCleanCount, Line.calm, List.countP_map]
    congr 1
    funext x
    simp [Function.comp, Sector.calm_nonClean]
  unfold Cache.nonClean
  rw [e, h.lines, ← e]

/-! ## The shape is kept -/

theorem Cache.Tended.sound {c d : Cache} (h : c.Tended d) (hc : c.Sound) (hq : d.flushQ.Nodup) (hm : ∀ i ∈ d.flushQ, i < 8) : d.Sound :=
  hc.reshape h.shape (by rw [h.lru]) hq hm (.inl h.waiting) (by rw [h.defects]; exact hc.defects) (by rw [h.ram]; exact hc.ram)

theorem sound_makeFlush {s : State} (h : s.cache.Sound) (cls : RunClass) (i blk n : Nat) (buf : Option (List Byte)) :
    (s.makeFlush cls i blk n buf).1.cache.Sound := by
  unfold State.makeFlush
  split
  · exact h
  · exact h.toFlush _ _ _ _

theorem sound_build {s : State} (h : s.cache.Sound) (o : Offer) : (s.build o).cache.Sound := by
  unfold State.build
  split
  · exact h
  · split
    · exact h
    · exact sound_makeFlush h _ _ _ _ _
  · split <;> exact h

theorem sound_unflush {s : State} (h : s.cache.Sound) (r : Run) : (s.unflush r).cache.Sound := by
  unfold State.unflush
  split
  · split
    · exact h
    · exact h.fromFlush _ _ _ _
  · exact h

theorem sound_rejoin {s : State} (h : s.cache.Sound) (r : Run) : (s.rejoin r).cache.Sound := by
  unfold State.rejoin
  split
  · split
    · exact h.join _
    · exact h
  · exact h

theorem sound_withdraw {s : State} (h : s.cache.Sound) : s.withdraw.cache.Sound := by
  unfold State.withdraw
  split
  · exact h
  · simp only
    split
    · exact sound_rejoin (sound_unflush (s := { s with card := { s.card with queued := none } }) h _) _
    · exact h

theorem sound_dropDeadFill {s : State} (h : s.cache.Sound) : s.dropDeadFill.cache.Sound := by
  unfold State.dropDeadFill
  split
  · exact h
  · split
    · split
      · exact h
      · exact sound_withdraw h
    · exact h

theorem sound_displace {s : State} (h : s.cache.Sound) : s.displace.cache.Sound := by
  unfold State.displace
  split
  · split
    · exact sound_withdraw h
    · exact h
  · exact h

theorem sound_promote {s : State} (h : s.cache.Sound) : s.promote.cache.Sound := by
  unfold State.promote
  split <;> exact h

theorem sound_fillQueued {s : State} (h : s.cache.Sound) : s.fillQueued.cache.Sound := by
  unfold State.fillQueued
  split
  · exact sound_build h _
  · exact h

theorem sound_tendQueue {s : State} (h : s.cache.Sound) : s.tendQueue.cache.Sound := by
  unfold State.tendQueue
  simp only
  split
  · exact (h.trimQueue _ _).joinAll _ _
  · exact h.trimQueue _ _

theorem sound_arbitrateOnce {s : State} (h : s.cache.Sound) : s.arbitrateOnce.cache.Sound :=
  sound_fillQueued (sound_promote (sound_displace (sound_dropDeadFill (sound_tendQueue h))))

theorem sound_arbitrate {s : State} (h : s.cache.Sound) : s.arbitrate.cache.Sound :=
  sound_tendQueue (sound_arbitrateOnce (sound_arbitrateOnce (sound_arbitrateOnce (sound_arbitrateOnce h))))

theorem sound_lookAhead {s : State} (h : s.cache.Sound) : s.lookAhead.cache.Sound := by
  unfold State.lookAhead
  split
  · exact h.considerAhead _ _ _
  · exact h

theorem sound_react {s : State} (h : s.cache.Sound) (old : Cache) : (s.react old).cache.Sound := by
  have h1 : (s.reactWaiting old).cache.Sound := by
    unfold State.reactWaiting
    split
    · exact h
    · rename_i tr htr
      split
      · exact h.retryWaiting _ _ _ _ htr
      · exact h
  unfold State.react State.reactAhead
  split
  · exact sound_lookAhead h1
  · exact h1

theorem sound_tend {s : State} (h : s.cache.Sound) : s.tend.cache.Sound := by
  unfold State.tend
  rw [tendStream_cache, State.refreshClasses_cache]
  exact sound_arbitrate h

/-- The reactions after a command keep the shape of the cache. -/
theorem sound_settle {old s : State} (h : s.cache.Sound) : (State.settle old s).cache.Sound := sound_tend (sound_react h _)

/-! ## What the reactions leave in every state -/

theorem activate_marks (c : Cache) (g : Geometry) (lead t i : Nat) (tr : Track) :
    (c.activate g lead t i tr).defects = c.defects ∧ (c.activate g lead t i tr).idleTimer = c.idleTimer ∧
      (c.activate g lead t i tr).armed = c.armed := ⟨rfl, rfl, rfl⟩

theorem chooseForced_marks (c : Cache) :
    c.chooseForced.defects = c.defects ∧ c.chooseForced.idleTimer = c.idleTimer ∧ c.chooseForced.armed = c.armed := by
  unfold Cache.chooseForced
  split <;> exact ⟨rfl, rfl, rfl⟩

theorem retryWaiting_marks (c : Cache) (g : Geometry) (m : Mount) (lead t : Nat) (tr : Track) :
    (c.retryWaiting g m lead t tr).defects = c.defects ∧ (c.retryWaiting g m lead t tr).idleTimer = c.idleTimer ∧
      (c.retryWaiting g m lead t tr).armed = c.armed := by
  unfold Cache.retryWaiting
  split
  · exact ⟨rfl, rfl, rfl⟩
  · split
    · exact chooseForced_marks c
    · split
      · exact ⟨rfl, rfl, rfl⟩
      · exact chooseForced_marks { c with forced := none }

theorem considerAhead_marks (c : Cache) (g : Geometry) (m : Mount) (d : Bool) :
    (c.considerAhead g m d).defects = c.defects ∧ (c.considerAhead g m d).idleTimer = c.idleTimer ∧
      (c.considerAhead g m d).armed = c.armed := by
  unfold Cache.considerAhead
  split
  · refine foldl_preserves (fun x : Cache => x.defects = c.defects ∧ x.idleTimer = c.idleTimer ∧ x.armed = c.armed) _ _ _
      ⟨rfl, rfl, rfl⟩ (fun x tr _ hx => ?_)
    unfold Cache.tryAhead
    split
    · exact hx
    · split
      · exact hx
      · exact hx
  · exact ⟨rfl, rfl, rfl⟩

theorem react_marks (s : State) (old : Cache) :
    (s.react old).cache.defects = s.cache.defects ∧ (s.react old).cache.idleTimer = s.cache.idleTimer ∧
      (s.react old).cache.armed = s.cache.armed := by
  have h1 : (s.reactWaiting old).cache.defects = s.cache.defects ∧
      (s.reactWaiting old).cache.idleTimer = s.cache.idleTimer ∧ (s.reactWaiting old).cache.armed = s.cache.armed := by
    unfold State.reactWaiting
    split
    · exact ⟨rfl, rfl, rfl⟩
    · split
      · exact retryWaiting_marks _ _ _ _ _ _
      · exact ⟨rfl, rfl, rfl⟩
  unfold State.react State.reactAhead State.lookAhead
  split
  · split
    · have h2 := considerAhead_marks (s.reactWaiting old).cache (s.reactWaiting old).geom (s.reactWaiting old).mount
        (s.reactWaiting old).drive.lastIn
      exact ⟨h2.1.trans h1.1, h2.2.1.trans h1.2.1, h2.2.2.trans h1.2.2⟩
    · exact h1
  · exact h1

theorem settle_marks (old s : State) :
    (State.settle old s).cache.defects = s.cache.defects ∧ (State.settle old s).cache.idleTimer = s.cache.idleTimer ∧
      (State.settle old s).cache.armed = s.cache.armed := by
  have hr := react_marks s old.cache
  unfold State.settle State.tend
  rw [tendStream_cache, State.refreshClasses_cache]
  have ht := tended_arbitrate (s.react old.cache)
  exact ⟨ht.defects.trans hr.1, ht.idleTimer.trans hr.2.1, ht.armed.trans hr.2.2⟩

/-- What follows every settling command. -/
theorem reacted_settle (old s : State) : Reacted old s (State.settle old s) where
  reactions := rfl
  settled := settled_settle old s
  defects := (settle_marks old s).1
  idleTimer := (settle_marks old s).2.1
  armed := (settle_marks old s).2.2
  active := fun _ h => settle_active old s h
  quiet := fun h => settle_tended old s h
  stream := settle_pres old s

/-- What follows every command to whose parts the cache has reacted. -/
theorem reacted_tend (s : State) : Reacted s s s.tend := settle_self s ▸ reacted_settle s s

end Sys2Proof.Machine
end

