-- ==== Sys2Proof/Laws/Frame.lean ====
section
/-! SUPPORT. Frames: what the operations of the capture unit, the mount table, the card engine and the requests leave alone. -/

namespace Sys2Proof.Machine

/-! ## The capture unit: the cache, its own record and the queues of the link -/

/-- `t` differs from `s` in the cache, the capture unit and the queues of the link at most, and records cells only if `s` did. -/
structure CaptureOnly (s t : State) : Prop where
  outside : t = { s with cache := t.cache, cap := t.cap, link := t.link }
  link : s.link.sameBase t.link
  measures : t.cap.st.measures = true → s.cap.st.measures = true

theorem CaptureOnly.refl (s : State) : CaptureOnly s s := ⟨rfl, rfl, id⟩

theorem CaptureOnly.trans {s t u : State} (h : CaptureOnly s t) (k : CaptureOnly t u) : CaptureOnly s u :=
  ⟨by rw [k.outside, h.outside], h.link.trans k.link, fun m => h.measures (k.measures m)⟩

theorem CaptureOnly.powered {s t : State} (h : CaptureOnly s t) : t.powered = s.powered := by rw [h.outside]
theorem CaptureOnly.pending {s t : State} (h : CaptureOnly s t) : t.pending = s.pending := by rw [h.outside]
theorem CaptureOnly.free {s t : State} (h : CaptureOnly s t) : t.free = s.free := by rw [h.outside]
theorem CaptureOnly.inputs {s t : State} (h : CaptureOnly s t) : t.inputs = s.inputs := by rw [h.outside]
theorem CaptureOnly.prof {s t : State} (h : CaptureOnly s t) : t.prof = s.prof := by rw [h.outside]
theorem CaptureOnly.drive {s t : State} (h : CaptureOnly s t) : t.drive = s.drive := by rw [h.outside]
theorem CaptureOnly.rot {s t : State} (h : CaptureOnly s t) : t.rot = s.rot := by rw [h.outside]
theorem CaptureOnly.mount {s t : State} (h : CaptureOnly s t) : t.mount = s.mount := by rw [h.outside]
theorem CaptureOnly.pres {s t : State} (h : CaptureOnly s t) : t.pres = s.pres := by rw [h.outside]
theorem CaptureOnly.card {s t : State} (h : CaptureOnly s t) : t.card = s.card := by rw [h.outside]

theorem captureOnly_cache (s : State) (c : Cache) : CaptureOnly s { s with cache := c } := ⟨rfl, rfl, id⟩

theorem captureOnly_post (s : State) (b : NoticeBody) : CaptureOnly s (s.post b) := ⟨rfl, Link.post_sameBase _ _, id⟩

theorem captureOnly_cap (s : State) (c : Capture) (h : c.st.measures = true → s.cap.st.measures = true) :
    CaptureOnly s { s with cap := c } := ⟨rfl, rfl, h⟩

theorem captureOnly_capAside (s : State) : CaptureOnly s s.capAside := by
  refine captureOnly_cap s _ (fun h => ?_)
  split at h
  · exact absurd (show CaptureState.measures .discard = true from h) (by decide)
  · exact absurd (show CaptureState.measures .idle = true from h) (by decide)

theorem capAside_rests (s : State) : s.capAside.cap.st.measures = false := by
  simp only [State.capAside_cap]
  split <;> rfl

theorem captureOnly_capIdle (s : State) : CaptureOnly s s.capIdle := captureOnly_cap s _ (fun h => absurd h (by decide))

theorem captureOnly_writeEnded (s : State) (i : Nat) : CaptureOnly s (s.writeEnded i) := captureOnly_cache s _

theorem captureOnly_endSectorWrite (s : State) (bs : List Byte) (o : WriteOutcome) : CaptureOnly s (s.endSectorWrite bs o) := by
  unfold State.endSectorWrite
  split
  · unfold State.outcomeNotice
    split
    · exact ⟨rfl, rfl, id⟩
    · exact ⟨rfl, rfl, id⟩
    · exact ⟨rfl, Link.post_sameBase _ _, id⟩
  · exact .refl s

theorem endSectorWrite_cap (s : State) (bs : List Byte) (o : WriteOutcome) : (s.endSectorWrite bs o).cap = s.cap := by
  unfold State.endSectorWrite
  split
  · unfold State.outcomeNotice
    split <;> rfl
  · rfl

theorem captureOnly_exhaust (s : State) : CaptureOnly s s.exhaust := by
  have hr : ∀ b : Bool, CaptureState.measures (if b = true then .discard else .sectorTail) = false := by decide
  exact (captureOnly_endSectorWrite s _ _).trans (captureOnly_cap _ _ (fun h => absurd (h.symm.trans (hr _)) (by simp)))

theorem captureOnly_huntCell (s : State) (hs : s.cap.st = .hunt) (b : Bool) : CaptureOnly s (s.huntCell b) := by
  have hm : s.cap.st.measures = true := by rw [hs]; rfl
  unfold State.huntCell
  simp only
  split
  · exact captureOnly_cap s _ (fun _ => hm)
  · exact captureOnly_cap s _ (fun _ => hm)
  · exact captureOnly_cap s _ (fun _ => hm)
  · unfold State.dataMarkFound
    simp only
    split
    · exact ⟨rfl, Link.post_sameBase _ _, fun _ => hm⟩
    · exact ⟨rfl, rfl, fun _ => hm⟩

theorem captureOnly_dataByteTaken (s : State) (hm : s.cap.st.measures = true) (b : Byte) : CaptureOnly s (s.dataByteTaken b) := by
  unfold State.dataByteTaken
  simp only
  split
  · exact CaptureOnly.trans (captureOnly_cap s _ (fun _ => hm)) (captureOnly_exhaust _)
  · exact captureOnly_cap s _ (fun _ => hm)

theorem captureOnly_captureCell (s : State) (b : Bool) : CaptureOnly s (s.captureCell b) := by
  unfold State.captureCell
  split
  · rename_i h
    exact captureOnly_huntCell s h b
  · rename_i h
    have hm : s.cap.st.measures = true := by rw [h]; rfl
    unfold State.sectorDataCell
    simp only
    split
    · exact captureOnly_cap s _ (fun _ => hm)
    · exact CaptureOnly.trans (captureOnly_cap s _ (fun _ => hm)) (captureOnly_dataByteTaken _ hm _)
  · rename_i h
    exact captureOnly_cap s _ (fun _ => by rw [h]; rfl)
  · exact .refl s
  · exact .refl s
  · exact .refl s

theorem captureOnly_zeroCells (k : Nat) (s : State) : CaptureOnly s (State.zeroCells k s) := by
  induction k generalizing s with
  | zero => exact .refl s
  | succ k ih => exact (captureOnly_captureCell s false).trans (ih _)

theorem violate_st (c : Capture) (b : Bool) : (c.violate b).st = c.st := by
  unfold Capture.violate
  split <;> rfl

theorem captureOnly_fluxChange (s : State) : CaptureOnly s s.fluxChange := by
  unfold State.fluxChange
  split
  · exact .refl s
  · simp only
    split
    · exact CaptureOnly.trans (captureOnly_cap s { s.cap with fluxOpen := some 0, empties := 0 } id) (captureOnly_captureCell _ true)
    · split
      · exact captureOnly_cap s _ (by rw [violate_st]; exact id)
      · exact CaptureOnly.trans (t := { s with cap := _ }) (captureOnly_cap s _ (by rw [violate_st]; exact id))
          ((captureOnly_zeroCells _ _).trans (captureOnly_captureCell _ true))

theorem captureOnly_emptyCell (s : State) : CaptureOnly s s.emptyCell := by
  unfold State.emptyCell
  split
  · exact .refl s
  · split
    · exact .refl s
    · simp only
      exact CaptureOnly.trans (t := { s with cap := _ }) (captureOnly_cap s _ (by rw [violate_st]; exact id))
        (captureOnly_captureCell _ false)

theorem stopCollecting_st (c : Capture) : c.stopCollecting.st = c.st := by
  unfold Capture.stopCollecting
  split <;> rfl

theorem captureOnly_endTrackWrite (s : State) : CaptureOnly s s.endTrackWrite := by
  have h1 : CaptureOnly s { s with cap := s.cap.stopCollecting } := captureOnly_cap s _ (by rw [stopCollecting_st]; exact id)
  unfold State.endTrackWrite
  split
  · simp only
    split
    · split
      · unfold State.storeTrack
        simp only
        split
        · exact h1.trans ⟨rfl, Link.post_sameBase _ _, id⟩
        · exact h1.trans ⟨rfl, Link.post_sameBase _ _, id⟩
      · exact h1.trans (captureOnly_post _ _)
    · exact h1.trans (captureOnly_post _ _)
  · exact .refl s

theorem captureOnly_endCapture (s : State) : CaptureOnly s s.endCapture := by
  unfold State.endCapture
  split
  · exact captureOnly_endSectorWrite s _ _
  · exact captureOnly_endSectorWrite s _ _
  · exact captureOnly_endTrackWrite s
  · exact .refl s
  · exact .refl s
  · exact .refl s

theorem captureOnly_captureFall (s : State) : CaptureOnly s s.captureFall := (captureOnly_endCapture s).trans (captureOnly_capIdle _)

theorem captureOnly_captureSideChange (s : State) : CaptureOnly s s.captureSideChange := by
  unfold State.captureSideChange
  split
  · exact .refl s
  · exact (captureOnly_endCapture s).trans (captureOnly_capAside _)

theorem captureOnly_captureDeadline (s : State) : CaptureOnly s s.captureDeadline := by
  unfold State.captureDeadline
  split
  · exact (captureOnly_endSectorWrite s _ _).trans (captureOnly_capAside _)
  · exact .refl s

theorem captureOnly_markOverrun (s : State) : CaptureOnly s s.markOverrun := by
  unfold State.markOverrun
  split
  · simp only
    split
    · exact .refl s
    · split
      · exact .refl s
      · split
        · exact ⟨rfl, Link.post_sameBase _ _, id⟩
        · exact .refl s
  · exact .refl s

theorem markOverrun_cap (s : State) : s.markOverrun.cap = s.cap := by
  unfold State.markOverrun
  repeat' (first | rfl | split)
  simp only
  repeat' (first | rfl | split)

theorem captureOnly_captureSlotEnd (s : State) : CaptureOnly s s.captureSlotEnd := by
  unfold State.captureSlotEnd
  split
  · exact .refl s
  · split
    · exact (captureOnly_markOverrun s).trans (captureOnly_cap _ _ (fun h => absurd (show CaptureState.measures .discard = true from h) (by decide)))
    · exact (captureOnly_markOverrun s).trans (captureOnly_cap _ _ id)
    · exact .refl s
    · exact .refl s
    · exact .refl s
    · exact .refl s

theorem captureOnly_captureWrap (s : State) : CaptureOnly s s.captureWrap := by
  unfold State.captureWrap
  split
  · exact (captureOnly_endTrackWrite s).trans (captureOnly_capAside _)
  · exact .refl s

theorem captureOnly_captureAbandon (s : State) : CaptureOnly s s.captureAbandon := by
  unfold State.captureAbandon
  split
  · exact .refl s
  · split
    · exact (captureOnly_cache s _).trans (captureOnly_capAside _)
    · exact captureOnly_capAside s
  · split
    · exact (captureOnly_cache s _).trans (captureOnly_capAside _)
    · exact captureOnly_capAside s
  · exact captureOnly_capAside s
  · exact captureOnly_capAside s
  · exact captureOnly_capAside s

/-- An abandoned capture records no more (R125). -/
theorem captureAbandon_rests (s : State) : s.captureAbandon.cap.st.measures = false := by
  unfold State.captureAbandon
  split
  · rename_i h
    rw [h]
    rfl
  · exact capAside_rests _
  · exact capAside_rests _
  · exact capAside_rests _
  · exact capAside_rests _
  · exact capAside_rests _

/-- A rise of the gate touches the cache, the capture unit and the queues of the link, and records only in MOUNTED (R112). -/
theorem captureRise_frame (s : State) :
    s.captureRise = { s with cache := s.captureRise.cache, cap := s.captureRise.cap, link := s.captureRise.link } ∧
    s.link.sameBase s.captureRise.link ∧
    (s.captureRise.cap.st.measures = true → s.cap.st.measures = true ∨ s.isMounted = true) := by
  have hm : s.classifyRise ≠ .ignored → s.isMounted = true := by
    intro h
    unfold State.classifyRise at h
    split at h
    · exact absurd rfl h
    · rename_i hm
      simp only [State.mayCapture, Bool.not_eq_true', Bool.not_eq_false, Bool.and_eq_true] at hm
      exact hm.1.1.1.2
  unfold State.captureRise
  split
  · exact ⟨rfl, rfl, .inl⟩
  · exact ⟨rfl, Link.post_sameBase _ _, fun h => absurd (show CaptureState.measures .discard = true from h) (by decide)⟩
  · rename_i he
    exact ⟨rfl, rfl, fun _ => .inr (hm (by rw [he]; simp))⟩
  · rename_i he
    have := hm (by rw [he]; simp)
    unfold State.beginSectorWrite
    simp only
    split
    · exact ⟨rfl, rfl, fun _ => .inr this⟩
    · exact ⟨rfl, Link.post_sameBase _ _, fun _ => .inr this⟩

/-! ## The mount table, the card engine and the requests: the drive lines, the head and the rotation time stay -/

/-- The parts of `Follows` that hang on the mount, the rotation state and the capture unit. -/
structure State.Turns (s : State) : Prop where
  spin : (s.rot.state != .stopped) = s.spinDemand
  timer : s.rot.spinTimer ≠ none → s.rot.state = .spinningUp
  records : s.cap.st.measures = true → s.drive.gateActive = true ∧ s.isMounted = true

/-- What every operation of the mount table, of the card engine and of a request leaves alone, and that it keeps `Turns`. -/
structure Kept (s t : State) : Prop where
  powered : t.powered = s.powered
  pending : t.pending = s.pending
  inputs : t.inputs = s.inputs
  prof : t.prof = s.prof
  drive : t.drive = { s.drive with latch := t.drive.latch }
  time : t.rot.t = s.rot.t
  fine : t.rot.fine = s.rot.fine
  options : t.link.options = s.link.options
  breakLow : t.link.breakLow = s.link.breakLow
  turns : s.Turns → t.Turns

theorem Kept.refl (s : State) : Kept s s := ⟨rfl, rfl, rfl, rfl, rfl, rfl, rfl, rfl, rfl, id⟩

theorem Kept.trans {s t u : State} (h : Kept s t) (k : Kept t u) : Kept s u where
  powered := k.powered.trans h.powered
  pending := k.pending.trans h.pending
  inputs := k.inputs.trans h.inputs
  prof := k.prof.trans h.prof
  drive := by rw [k.drive, h.drive]
  time := k.time.trans h.time
  fine := k.fine.trans h.fine
  options := k.options.trans h.options
  breakLow := k.breakLow.trans h.breakLow
  turns := fun x => k.turns (h.turns x)

/-- A state that differs in nothing `Turns` looks at. -/
theorem State.Turns.same {s t : State} (h : s.Turns) (hd : t.drive.selected = s.drive.selected) (hg : t.drive.gateActive = s.drive.gateActive)
    (hi : t.inputs = s.inputs) (hr : t.rot.state = s.rot.state) (ht : t.rot.spinTimer = s.rot.spinTimer)
    (hm : t.isMounted = s.isMounted) (ho : t.link.options = s.link.options) (hc : t.cap.st.measures = true → s.cap.st.measures = true) :
    t.Turns where
  spin := by
    have : t.spinDemand = s.spinDemand := by simp only [State.spinDemand, State.motorActive, hm, ho, hi, hd]
    rw [hr, this]
    exact h.spin
  timer := by rw [ht, hr]; exact h.timer
  records := by
    intro m
    rw [hg, hm]
    exact h.records (hc m)

theorem kept_cache (s : State) (c : Cache) : Kept s { s with cache := c } :=
  ⟨rfl, rfl, rfl, rfl, rfl, rfl, rfl, rfl, rfl, fun h => h.same rfl rfl rfl rfl rfl rfl rfl id⟩

theorem kept_card (s : State) (c : Card) : Kept s { s with card := c } :=
  ⟨rfl, rfl, rfl, rfl, rfl, rfl, rfl, rfl, rfl, fun h => h.same rfl rfl rfl rfl rfl rfl rfl id⟩

theorem kept_pres (s : State) (p : Present) : Kept s { s with pres := p } :=
  ⟨rfl, rfl, rfl, rfl, rfl, rfl, rfl, rfl, rfl, fun h => h.same rfl rfl rfl rfl rfl rfl rfl id⟩

theorem kept_free (s : State) (n : Nat) : Kept s { s with free := n } :=
  ⟨rfl, rfl, rfl, rfl, rfl, rfl, rfl, rfl, rfl, fun h => h.same rfl rfl rfl rfl rfl rfl rfl id⟩

theorem kept_setLatch (s : State) : Kept s s.setLatch :=
  ⟨rfl, rfl, rfl, rfl, rfl, rfl, rfl, rfl, rfl, fun h => h.same rfl rfl rfl rfl rfl rfl rfl id⟩

theorem kept_link (s : State) (l : Link) (ho : l.options = s.link.options) (hb : l.breakLow = s.link.breakLow) :
    Kept s { s with link := l } :=
  ⟨rfl, rfl, rfl, rfl, rfl, rfl, rfl, ho, hb, fun h => h.same rfl rfl rfl rfl rfl rfl ho id⟩

theorem kept_post (s : State) (b : NoticeBody) : Kept s (s.post b) := kept_link s _ (by simp) (by simp)

@[simp] theorem Link.answer_breakLow (l : Link) (st : ReplyStatus) (d : Byte) (bs : List Byte) : (l.answer st d bs).breakLow = l.breakLow := by
  rcases l.answer_cases st d bs with h | ⟨q, -, h⟩ | ⟨q, -, -, -, h⟩
  · rw [h]
  · rw [h]
  · rw [h, (Link.startTx_sameBase _).breakLow]

theorem kept_answer (s : State) (st : ReplyStatus) (d : Byte) (bs : List Byte) : Kept s (s.answer st d bs) := kept_link s _ (by simp) (by simp)

theorem CaptureOnly.kept {s t : State} (h : CaptureOnly s t) : Kept s t where
  powered := h.powered
  pending := h.pending
  inputs := h.inputs
  prof := h.prof
  drive := by rw [h.drive]
  time := by rw [h.rot]
  fine := by rw [h.rot]
  options := h.link.options
  breakLow := h.link.breakLow
  turns := fun x => x.same (by rw [h.drive]) (by rw [h.drive]) h.inputs (by rw [h.rot]) (by rw [h.rot])
    (by simp only [State.isMounted, h.mount]) h.link.options h.measures

theorem Settled.kept {s t : State} (h : Settled s t) : Kept s t where
  powered := h.powered
  pending := h.pending
  inputs := h.inputs
  prof := h.prof
  drive := by rw [h.drive]
  time := by rw [h.rot]
  fine := by rw [h.rot]
  options := by rw [h.link]
  breakLow := by rw [h.link]
  turns := fun x => x.same (by rw [h.drive]) (by rw [h.drive]) h.inputs (by rw [h.rot]) (by rw [h.rot])
    (by simp only [State.isMounted, h.mount]) (by rw [h.link]) (by rw [h.cap]; exact id)

theorem kept_inFreeOrder (s : State) (fs : List (State → State)) (hf : ∀ f ∈ fs, ∀ t, Kept t (f t)) : Kept s (inFreeOrder fs s) :=
  inFreeOrder_keeps (fun t => Kept s t) fs s (.refl s) (fun t ht => ht.trans (kept_free t _)) (fun f hm t ht => ht.trans (hf f hm t))

/-! ### Spin demand -/

/-- What working spin demand out again touches. -/
theorem reworkSpin_frame (s : State) :
    s.reworkSpin = { s with cache := s.reworkSpin.cache, rot := { s.rot with state := s.reworkSpin.rot.state, spinTimer := s.reworkSpin.rot.spinTimer } } := by
  unfold State.reworkSpin
  split
  · split <;> rfl
  · rfl
  · unfold State.motorOff
    split <;> rfl
  · rfl

theorem reworkSpin_spinDemand (s : State) : s.reworkSpin.spinDemand = s.spinDemand := by
  rw [reworkSpin_frame]
  rfl

/-- Afterwards the rotation is STOPPED exactly without spin demand (R34, R35). -/
theorem reworkSpin_spin (s : State) : (s.reworkSpin.rot.state != .stopped) = s.spinDemand := by
  unfold State.reworkSpin
  split
  · rename_i hd hr
    split <;> simp [hd]
  · rename_i hd hr
    simp [hd]
  · rename_i hd hr
    unfold State.motorOff
    split <;> simp [hd]
  · rename_i h1 h2 h3
    cases hd : s.spinDemand <;> cases hr : s.rot.state <;> simp_all

theorem reworkSpin_timer (s : State) (h : s.rot.spinTimer ≠ none → s.rot.state = .spinningUp) :
    s.reworkSpin.rot.spinTimer ≠ none → s.reworkSpin.rot.state = .spinningUp := by
  unfold State.reworkSpin
  split
  · split <;> simp
  · simp
  · unfold State.motorOff
    split <;> simp
  · exact h

theorem kept_reworkSpin (s : State) : Kept s s.reworkSpin where
  powered := by rw [reworkSpin_frame]
  pending := by rw [reworkSpin_frame]
  inputs := by rw [reworkSpin_frame]
  prof := by rw [reworkSpin_frame]
  drive := by rw [reworkSpin_frame]
  time := by rw [reworkSpin_frame]
  fine := by rw [reworkSpin_frame]
  options := by rw [reworkSpin_frame]
  breakLow := by rw [reworkSpin_frame]
  turns := fun h =>
    ⟨by rw [reworkSpin_spinDemand]; exact reworkSpin_spin s, reworkSpin_timer s h.timer, by
      rw [reworkSpin_frame]
      exact h.records⟩

/-- After spin demand has been worked out again, only the timer and the recordings had to be right before. -/
theorem reworkSpin_turns {s : State} (ht : s.rot.spinTimer ≠ none → s.rot.state = .spinningUp)
    (hr : s.cap.st.measures = true → s.drive.gateActive = true ∧ s.isMounted = true) : s.reworkSpin.Turns :=
  ⟨by rw [reworkSpin_spinDemand]; exact reworkSpin_spin s, reworkSpin_timer s ht, by
    rw [reworkSpin_frame]
    exact hr⟩

/-! ### The mount table -/

theorem kept_leaveMounted (s : State) (st : MountState) : Kept s (s.leaveMounted st) := by
  have h1 := (captureOnly_captureAbandon s).kept
  have h2 : ∀ m c, Kept s ({ s.captureAbandon with mount := m, cache := c } : State).dropDeadFill.setLatch.reworkSpin := by
    intro m c
    have h3 := (settled_dropDeadFill { s.captureAbandon with mount := m, cache := c })
    have hs := h3.kept
    have hl := (kept_setLatch ({ s.captureAbandon with mount := m, cache := c } : State).dropDeadFill)
    have hw := kept_reworkSpin ({ s.captureAbandon with mount := m, cache := c } : State).dropDeadFill.setLatch
    refine ⟨?_, ?_, ?_, ?_, ?_, ?_, ?_, ?_, ?_, ?_⟩
    · rw [hw.powered, hl.powered, hs.powered]; exact h1.powered
    · rw [hw.pending, hl.pending, hs.pending]; exact h1.pending
    · rw [hw.inputs, hl.inputs, hs.inputs]; exact h1.inputs
    · rw [hw.prof, hl.prof, hs.prof]; exact h1.prof
    · have e1 := hw.drive
      have e2 := hl.drive
      have e3 := hs.drive
      have e4 := h1.drive
      rw [e1, e2, e3]
      simp only
      rw [e4]
    · rw [hw.time, hl.time, hs.time]; exact h1.time
    · rw [hw.fine, hl.fine, hs.fine]; exact h1.fine
    · rw [hw.options, hl.options, hs.options]; exact h1.options
    · rw [hw.breakLow, hl.breakLow, hs.breakLow]; exact h1.breakLow
    · intro ht
      refine reworkSpin_turns ?_ ?_
      · have : ∀ x : State, x.setLatch.rot = x.rot := fun _ => rfl
        rw [this, h3.rot]
        simp only
        rw [(captureOnly_captureAbandon s).rot]
        exact ht.timer
      · intro hm
        have e : ∀ x : State, x.setLatch.cap = x.cap := fun _ => rfl
        rw [e, h3.cap] at hm
        rw [captureAbandon_rests s] at hm
        exact absurd hm (by simp)
  exact h2 _ _

theorem leaveMounted_mount (s : State) (st : MountState) : (s.leaveMounted st).mount.state = st := by
  unfold State.leaveMounted
  simp only
  rw [reworkSpin_frame]
  simp only [State.setLatch_mount]
  rw [(settled_dropDeadFill _).mount]

theorem kept_clearMount (s : State) (h : s.isMounted = false) : Kept s s.clearMount :=
  ⟨rfl, rfl, rfl, rfl, rfl, rfl, rfl, rfl, rfl, fun x => x.same rfl rfl rfl rfl rfl (by rw [h]; rfl) rfl id⟩

theorem kept_endMount (s : State) (h : s.isMounted = false) (n : Nat) : Kept s (s.endMount n) :=
  (kept_clearMount s h).trans (kept_post _ _)

theorem kept_drainCheck (s : State) : Kept s s.drainCheck := by
  unfold State.drainCheck
  split
  · rename_i h
    exact kept_endMount s (by simp [State.isMounted, h.1]) 0
  · exact .refl s

theorem kept_postFlushDone (s : State) (ok : Bool) : Kept s (s.postFlushDone ok) := by
  unfold State.postFlushDone
  split
  · exact (kept_cache s _).trans (kept_post _ _)
  · exact .refl s

theorem kept_flushDoneCheck (s : State) : Kept s s.flushDoneCheck := by
  unfold State.flushDoneCheck
  split
  · exact kept_postFlushDone s true
  · exact .refl s

theorem kept_enterDraining (s : State) : Kept s s.enterDraining := by
  unfold State.enterDraining
  exact (kept_leaveMounted s .draining).trans ((kept_cache _ _).trans (kept_drainCheck _))

theorem kept_withdraw (s : State) : Kept s s.withdraw := (settled_withdraw s).kept

theorem kept_reacting (s : State) {f : State → State} (h : Kept s (f s)) : Kept s (reacting f s) := h.trans (settled_react _ _).kept

theorem kept_withdrawMountRun (s : State) : Kept s s.withdrawMountRun := by
  unfold State.withdrawMountRun
  split
  · split
    · exact .refl s
    · exact kept_withdraw s
  · exact .refl s

theorem kept_enterLost (s : State) : Kept s s.enterLost := by
  unfold State.enterLost
  refine (kept_leaveMounted s .lost).trans ((kept_cache _ _).trans ((kept_withdrawMountRun _).trans (kept_inFreeOrder _ _ ?_)))
  intro f hf t
  rcases List.mem_append.mp hf with hf | hf
  · split at hf
    · rw [List.mem_singleton.mp hf]
      exact kept_postFlushDone t false
    · exact absurd hf (by simp)
  · rw [List.mem_singleton.mp hf]
    exact kept_post t _

theorem kept_cardDeparts (s : State) : Kept s s.cardDeparts := by
  unfold State.cardDeparts
  split
  · exact .refl s
  · split
    · exact (kept_leaveMounted s .unmounted).trans (kept_endMount _ (by simp [State.isMounted, leaveMounted_mount]) 0)
    · exact kept_enterLost s

/-! ### The card engine -/

theorem kept_answerPanel (s : State) (st : ReplyStatus) (d : Byte) (bs : List Byte) : Kept s (s.answerPanel st d bs) :=
  (kept_card s { s.card with panel := none }).trans
    (kept_link _ _ (Link.answer_options s.link st d bs) (Link.answer_breakLow s.link st d bs))

theorem kept_answerWaitingPanel (s : State) (st : ReplyStatus) (d : Byte) : Kept s (s.answerWaitingPanel st d) := by
  unfold State.answerWaitingPanel
  split
  · exact kept_answerPanel s _ _ _
  · exact .refl s

theorem kept_extentReached (s : State) (r : Run) : Kept s (s.extentReached r) := by
  unfold State.extentReached
  split
  · exact .refl s
  · split
    · exact .refl s
    · split
      · exact kept_post s _
      · exact .refl s

theorem kept_flushRunDone (s : State) (r : Run) : Kept s (s.flushRunDone r) := by
  unfold State.flushRunDone
  split
  · exact .refl s
  · simp only
    refine Kept.trans ?_ ((kept_flushDoneCheck _).trans ((kept_extentReached _ r).trans (kept_drainCheck _)))
    split
    · split
      · exact kept_cache s _
      · exact .refl s
    · exact .refl s

theorem kept_start (s : State) (r : Run) : Kept s (s.start r) := kept_card s _

theorem kept_finishRun (s : State) (r : Run) (st : RunStatus) : Kept s (s.finishRun r st) := kept_card s _

theorem kept_setFailures (s : State) (n : Nat) : Kept s (s.setFailures n) := kept_card s _

theorem kept_mergeReadDone (s : State) (r : Run) : Kept s (s.mergeReadDone r) := by
  unfold State.mergeReadDone
  simp only
  split
  · split
    · exact (kept_card s _).trans ((settled_makeFlush _ _ _ _ _ _).kept.trans (kept_start _ _))
    · exact kept_card s _
  · exact kept_card s _

theorem kept_runDone (s : State) (r : Run) : Kept s (s.runDone r) := by
  have h1 := (kept_finishRun s r .done).trans (kept_setFailures _ 0)
  unfold State.runDone State.handDone
  split
  · exact h1
  · exact h1.trans (kept_flushRunDone _ r)
  · exact h1.trans (kept_mergeReadDone _ r)
  · exact h1.trans (kept_answerPanel _ _ _ _)
  · exact h1.trans (kept_answerPanel _ _ _ _)

theorem kept_boundary (s : State) (r : Run) : Kept s (s.boundary r) := by
  unfold State.boundary
  split
  · exact kept_finishRun s _ _
  · split
    · exact kept_runDone s r
    · exact kept_card s _

theorem kept_deliverFill (s : State) (r : Run) (data : List Byte) : Kept s (s.deliverFill r data) := by
  unfold State.deliverFill
  split
  · split
    · exact .refl s
    · refine kept_reacting s ?_
      exact kept_cache s _
  · exact .refl s

theorem kept_handBlock (s : State) (r : Run) (data : List Byte) : Kept s (s.handBlock r data).1 := by
  unfold State.handBlock
  split
  · exact kept_deliverFill s r data
  · exact kept_card s _
  · exact .refl s
  · exact .refl s
  · exact .refl s

theorem kept_blockReceived (s : State) (data : List Byte) : Kept s (s.blockReceived data) := by
  unfold State.blockReceived
  split
  · exact .refl s
  · exact (kept_handBlock s _ data).trans (kept_card _ _)

theorem kept_blockDone (s : State) (data : List Byte) : Kept s (s.blockDone data) := by
  unfold State.blockDone State.blockBoundary
  split
  · exact kept_blockReceived s data
  · exact (kept_blockReceived s data).trans (kept_boundary _ _)

theorem kept_fillFailed (s : State) (r : Run) (e : RunError) : Kept s (s.fillFailed r e) := by
  unfold State.fillFailed
  split
  · split
    · exact .refl s
    · simp only
      split
      · exact (kept_cache s _).trans (kept_post _ _)
      · exact kept_cache s _
  · exact .refl s

theorem kept_countFailure (s : State) (r : Run) : Kept s (s.countFailure r) := by
  unfold State.countFailure
  split
  · exact .refl s
  · split
    · exact .refl s
    · simp only
      split
      · exact (kept_cache s _).trans (kept_enterLost _)
      · exact kept_cache s _

theorem kept_requeue (s : State) (r : Run) (also : List Nat) : Kept s (s.requeue r also) := by
  unfold State.requeue
  split
  · exact .refl s
  · simp only
    split
    · split
      · exact kept_cache s _
      · exact kept_cache s _
    · exact kept_cache s _

theorem kept_postWritten (s : State) (tracks : List Track) : Kept s (s.postWritten tracks) :=
  foldl_preserves (fun t => Kept s t) _ _ _ (.refl s) (fun t _ _ ht => ht.trans (kept_post t _))

theorem kept_flushFailed (s : State) (r : Run) : Kept s (s.flushFailed r) := by
  unfold State.flushFailed
  split
  · exact .refl s
  · exact (settled_unflush s r).kept.trans <| (kept_cache _ _).trans <| (kept_countFailure _ r).trans <| (kept_requeue _ r _).trans <|
      (kept_postFlushDone _ false).trans <| kept_postWritten _ _

theorem kept_handFailure (s : State) (r : Run) (e : RunError) : Kept s (s.handFailure r e) := by
  unfold State.handFailure
  split
  · exact kept_fillFailed s r e
  · exact kept_flushFailed s r
  · unfold State.mergeFailed
    simp only
    split
    · exact kept_card s _
    · exact (kept_card s _).trans ((kept_countFailure _ r).trans ((kept_requeue _ r []).trans (kept_postFlushDone _ false)))
  · exact kept_answerPanel s _ _ _
  · exact kept_answerPanel s _ _ _

theorem kept_postCard (s : State) : Kept s s.postCard := kept_post s _

theorem kept_engineFails (s : State) : Kept s s.engineFails :=
  (kept_withdraw s).trans ((kept_answerWaitingPanel _ _ _).trans (kept_postCard _))

theorem kept_cardFails (s : State) (r : Run) (e : RunError) : Kept s (s.cardFails r e) := by
  have h1 := (kept_finishRun s r (.failed e)).trans (kept_setFailures _ 4)
  unfold State.cardFails
  simp only
  split
  · exact h1.trans ((kept_card _ _).trans ((kept_handFailure _ r e).trans ((kept_engineFails _).trans (kept_cardDeparts _))))
  · refine h1.trans ((kept_card _ _).trans (kept_inFreeOrder _ _ ?_))
    intro f hf t
    simp only [List.mem_cons, List.not_mem_nil, or_false] at hf
    rcases hf with rfl | rfl
    · exact kept_reacting t (kept_handFailure t r e)
    · exact (kept_engineFails t).trans (kept_cardDeparts _)

theorem kept_attemptFails (s : State) (e : RunError) : Kept s (s.attemptFails e) := by
  unfold State.attemptFails
  split
  · exact kept_card s _
  · split
    · exact kept_cardFails s _ e
    · simp only
      split
      · unfold State.retryFill
        split
        · exact (kept_setFailures s _).trans (kept_card _ _)
        · exact (kept_setFailures s _).trans (kept_finishRun _ _ _)
      · exact (kept_setFailures s _).trans ((kept_finishRun _ _ _).trans (kept_handFailure _ _ _))

theorem kept_bringUpFails (s : State) : Kept s s.bringUpFails := (kept_card s _).trans (kept_postCard _)

theorem kept_bringUpEnds (s : State) (ok : Bool) (n : Nat) (wp : Bool) : Kept s (s.bringUpEnds ok n wp) := by
  unfold State.bringUpEnds
  split
  · exact .refl s
  · split
    · exact (kept_card s _).trans (kept_postCard _)
    · exact kept_bringUpFails s

theorem kept_bringUpExpires (s : State) : Kept s s.bringUpExpires := by
  unfold State.bringUpExpires
  split
  · exact kept_bringUpFails s
  · exact kept_card s _

/-- The parts of an insertion or a removal after the switch has been sensed. -/
theorem kept_cardInsert (s : State) : Kept { s with inputs := { s.inputs with cardDetect := true } } s.cardInsert := by
  unfold State.cardInsert
  simp only
  split
  · exact (kept_card _ _).trans (kept_postCard _)
  · exact .refl _

theorem kept_dropRuns (s : State) : Kept s s.dropRuns := by
  unfold State.dropRuns
  refine Kept.trans ?_ (kept_withdraw _)
  split
  · exact kept_finishRun s _ _
  · exact .refl s

theorem kept_cardLost (s : State) (r : Option Run) : Kept s (s.cardLost r) := by
  unfold State.cardLost
  split
  · exact kept_cardDeparts s
  · split
    · exact kept_cardDeparts s
    · split
      · exact (kept_handFailure s _ _).trans (kept_cardDeparts _)
      · refine kept_inFreeOrder s _ ?_
        intro f hf t
        simp only [List.mem_cons, List.not_mem_nil, or_false] at hf
        rcases hf with rfl | rfl
        · exact kept_reacting t (kept_handFailure t _ _)
        · exact kept_cardDeparts t

theorem kept_cardRemove (s : State) : Kept { s with inputs := { s.inputs with cardDetect := false } } s.cardRemove := by
  unfold State.cardRemove
  simp only
  split
  · exact .refl _
  · exact (kept_dropRuns _).trans ((kept_answerWaitingPanel _ _ _).trans ((kept_card _ _).trans ((kept_postCard _).trans (kept_cardLost _ _))))

theorem kept_idleExpires (s : State) : Kept s s.idleExpires := by
  unfold State.idleExpires
  split
  · exact .refl s
  · simp only
    split
    · exact (kept_cache s _).trans (kept_cache _ _)
    · exact kept_cache s _

/-! ### The requests that change no drive line, no option and no profile -/

theorem kept_doUnmount (s : State) : Kept s s.doUnmount := by
  unfold State.doUnmount
  split
  · exact kept_answer s _ _ _
  · exact (kept_answer s _ _ _).trans (kept_enterDraining _)
  · exact kept_answer s _ _ _
  · rename_i h
    exact (kept_clearMount s (by simp [State.isMounted, h])).trans ((kept_answer _ _ _ _).trans (kept_post _ _))

theorem kept_doFlush (s : State) : Kept s s.doFlush := by
  unfold State.doFlush
  split
  · exact kept_answer s _ _ _
  · exact (kept_answer s _ _ _).trans ((kept_cache _ _).trans (kept_flushDoneCheck _))

theorem kept_setPanel (s : State) (w : Bool) (blk : Nat) (bs : List Byte) : Kept s (s.setPanel w blk bs) := kept_card s _

theorem kept_doCardRead (s : State) (p : List Byte) : Kept s (s.doCardRead p) := by
  unfold State.doCardRead
  split
  · exact kept_answer s _ _ _
  · split
    · exact kept_answer s _ _ _
    · exact kept_setPanel s _ _ _

theorem kept_doCardWrite (s : State) (p : List Byte) : Kept s (s.doCardWrite p) := by
  unfold State.doCardWrite
  split
  · exact kept_answer s _ _ _
  · split
    · exact kept_answer s _ _ _
    · split
      · exact kept_answer s _ _ _
      · split
        · exact kept_answer s _ _ _
        · exact kept_setPanel s _ _ _

theorem kept_doDefects (s : State) (p : List Byte) : Kept s (s.doDefects p) := by
  unfold State.doDefects
  simp only
  split
  · exact (kept_answer s _ _ _).trans (kept_cache _ _)
  · exact kept_answer s _ _ _

theorem kept_doReset (s : State) (p : List Byte) : Kept s (s.doReset p) := by
  unfold State.doReset
  split
  · exact kept_answer s _ _ _
  · exact (kept_link s s.link.markReset rfl rfl).trans (kept_answer _ _ _ _)

theorem offer_options (l : Link) (k t : Byte) (st : ReplyStatus) : (l.offer k t st).options = l.options := (l.offer_sameBase k t st).options

theorem offer_breakLow (l : Link) (k t : Byte) (st : ReplyStatus) : (l.offer k t st).breakLow = l.breakLow := (l.offer_sameBase k t st).breakLow

theorem kept_request (s : State) (kind : Nat) (tag : Byte) (p : List Byte) {body : State → State} (hb : ∀ t, Kept t (body t)) :
    Kept s (s.request kind tag p body) := by
  unfold State.request
  split
  · exact .refl s
  · simp only
    split
    · exact kept_link s _ (offer_options _ _ _ _) (offer_breakLow _ _ _ _)
    · refine (kept_link s (s.link.rxIdle.enter (byteOf kind) tag) rfl rfl).trans ?_
      unfold State.checked
      split
      · exact kept_answer _ _ _ _
      · split
        · exact kept_answer _ _ _ _
        · exact hb _

theorem kept_takeUnknown (s : State) (tag : Byte) : Kept s (s.takeUnknown tag) := by
  unfold State.takeUnknown
  split
  · exact .refl s
  · exact kept_link s _ (offer_options _ _ _ _) (offer_breakLow _ _ _ _)

theorem kept_takeBadFrame (s : State) : Kept s s.takeBadFrame := by
  unfold State.takeBadFrame
  split
  · exact .refl s
  · exact kept_link s _ (offer_options _ _ _ _) (offer_breakLow _ _ _ _)

end Sys2Proof.Machine
end

