-- ==== Sys2Proof/Laws/Lines.lean ====
section
/-! SUPPORT. What the drive interface touches when a line changes, and that it then follows its lines whatever the order in which its
parts are taken. -/

namespace Sys2Proof.Machine

/-! ## What the parts touch -/

/-- `t` differs from `s` in the selected flag, the side, the gate, the rotation state and its timer, the cache, the stream, the capture
unit, the queues of the link and the count of free values at most. -/
structure LineFrame (s t : State) : Prop where
  outside : t = { s with
    drive := { s.drive with selected := t.drive.selected, side := t.drive.side, gateActive := t.drive.gateActive }
    rot := { s.rot with state := t.rot.state, spinTimer := t.rot.spinTimer }
    cache := t.cache, pres := t.pres, cap := t.cap, link := t.link, free := t.free }
  link : s.link.sameBase t.link

theorem LineFrame.refl (s : State) : LineFrame s s := ⟨rfl, rfl⟩

theorem LineFrame.trans {s t u : State} (h : LineFrame s t) (k : LineFrame t u) : LineFrame s u :=
  ⟨by rw [k.outside, h.outside], h.link.trans k.link⟩

theorem LineFrame.powered {s t : State} (h : LineFrame s t) : t.powered = s.powered := by rw [h.outside]
theorem LineFrame.pending {s t : State} (h : LineFrame s t) : t.pending = s.pending := by rw [h.outside]
theorem LineFrame.inputs {s t : State} (h : LineFrame s t) : t.inputs = s.inputs := by rw [h.outside]
theorem LineFrame.prof {s t : State} (h : LineFrame s t) : t.prof = s.prof := by rw [h.outside]
theorem LineFrame.mount {s t : State} (h : LineFrame s t) : t.mount = s.mount := by rw [h.outside]
theorem LineFrame.card {s t : State} (h : LineFrame s t) : t.card = s.card := by rw [h.outside]
theorem LineFrame.options {s t : State} (h : LineFrame s t) : t.link.options = s.link.options := h.link.options
theorem LineFrame.isMounted {s t : State} (h : LineFrame s t) : t.isMounted = s.isMounted := by simp only [State.isMounted, h.mount]
theorem LineFrame.head {s t : State} (h : LineFrame s t) : t.drive.head = s.drive.head := by rw [h.outside]
theorem LineFrame.lastIn {s t : State} (h : LineFrame s t) : t.drive.lastIn = s.drive.lastIn := by rw [h.outside]
theorem LineFrame.latch {s t : State} (h : LineFrame s t) : t.drive.latch = s.drive.latch := by rw [h.outside]
theorem LineFrame.time {s t : State} (h : LineFrame s t) : t.rot.t = s.rot.t := by rw [h.outside]
theorem LineFrame.fine {s t : State} (h : LineFrame s t) : t.rot.fine = s.rot.fine := by rw [h.outside]

theorem LineFrame.addressed {s t : State} (h : LineFrame s t) : t.addressed = s.addressed := by
  simp only [State.addressed, h.inputs, h.options]

theorem CaptureOnly.lineFrame {s t : State} (h : CaptureOnly s t) : LineFrame s t := by
  refine ⟨?_, h.link⟩
  have hd := h.drive
  have hr := h.rot
  have hp := h.pres
  have hf := h.free
  rw [hd, hr, hp, hf]
  exact h.outside

theorem arrival_frame (s : State) (old : Option Track) :
    s.arrival old = { s with cache := (s.arrival old).cache, pres := (s.arrival old).pres } := by
  unfold State.arrival
  split
  · rfl
  · unfold reacting
    rw [react_eq]
    rfl

theorem lineFrame_react (s : State) (old : Cache) : LineFrame s (s.react old) := by
  rw [react_eq]
  exact ⟨rfl, rfl⟩

theorem lineFrame_reacting (s : State) {f : State → State} (h : LineFrame s (f s)) : LineFrame s (reacting f s) :=
  h.trans (lineFrame_react _ _)

/-- The cache's reactions leave everything else as the effect has left it. -/
theorem reacting_eq (f : State → State) (s : State) : reacting f s = { f s with cache := (reacting f s).cache } := react_eq _ _

theorem lineFrame_arrival (s : State) (old : Option Track) : LineFrame s (s.arrival old) := by
  rw [arrival_frame]
  exact ⟨rfl, rfl⟩

theorem lineFrame_reworkSpin (s : State) : LineFrame s s.reworkSpin := by
  rw [reworkSpin_frame]
  exact ⟨rfl, rfl⟩

theorem lineFrame_captureRise (s : State) : LineFrame s s.captureRise := by
  obtain ⟨h1, h2, -⟩ := captureRise_frame s
  refine ⟨?_, h2⟩
  rw [h1]

theorem lineFrame_reworkGate (s : State) : LineFrame s s.reworkGate := by
  unfold State.reworkGate
  simp only
  split
  · exact .refl s
  · have h0 : LineFrame s { s with drive := { s.drive with gateActive := s.drive.selected && s.inputs.writeGate } } := ⟨rfl, rfl⟩
    refine h0.trans (lineFrame_reacting _ ?_)
    split
    · exact lineFrame_captureRise _
    · exact (captureOnly_captureFall _).lineFrame

theorem lineFrame_reworkSide (s : State) : LineFrame s s.reworkSide := by
  unfold State.reworkSide
  split
  · exact .refl s
  · have h0 : LineFrame s { s with drive := { s.drive with side := s.inputs.side } } := ⟨rfl, rfl⟩
    exact h0.trans ((lineFrame_arrival _ _).trans (lineFrame_reacting _ (captureOnly_captureSideChange _).lineFrame))

theorem selectionEffects_mem {s : State} {f : State → State} (h : f ∈ s.selectionEffects) :
    (f = State.reworkSide ∧ s.drive.selected = true ∧ s.inputs.side ≠ s.drive.side) ∨
    (f = State.reworkSpin ∧ s.spinDemand ≠ (s.rot.state != .stopped)) ∨
    (f = State.reworkGate ∧ (s.drive.selected && s.inputs.writeGate) ≠ s.drive.gateActive) := by
  unfold State.selectionEffects at h
  simp only [List.mem_append] at h
  rcases h with (h | h) | h <;> split at h
  · rename_i hc
    simp only [Bool.and_eq_true, decide_eq_true_eq] at hc
    exact .inl ⟨List.mem_singleton.mp h, hc.1, hc.2⟩
  · exact absurd h (by simp)
  · rename_i hc
    exact .inr (.inl ⟨List.mem_singleton.mp h, by simpa using hc⟩)
  · exact absurd h (by simp)
  · rename_i hc
    exact .inr (.inr ⟨List.mem_singleton.mp h, by simpa using hc⟩)
  · exact absurd h (by simp)

theorem lineFrame_inFreeOrder (s : State) (fs : List (State → State)) (hf : ∀ f ∈ fs, ∀ t, LineFrame t (f t)) :
    LineFrame s (inFreeOrder fs s) :=
  inFreeOrder_keeps (fun t => LineFrame s t) fs s (.refl s) (fun _ ht => ht.trans ⟨rfl, rfl⟩) (fun f hm t ht => ht.trans (hf f hm t))

theorem lineFrame_reworkSelect (s : State) : LineFrame s s.reworkSelect := by
  unfold State.reworkSelect
  split
  · exact .refl s
  · have h0 : LineFrame s { s with drive := { s.drive with selected := s.addressed } } := ⟨rfl, rfl⟩
    refine h0.trans (lineFrame_inFreeOrder _ _ (fun f hf t => ?_))
    rcases selectionEffects_mem hf with ⟨rfl, -⟩ | ⟨rfl, -⟩ | ⟨rfl, -⟩
    · exact lineFrame_reworkSide t
    · exact lineFrame_reworkSpin t
    · exact lineFrame_reworkGate t

/-! ## Each part brings its own condition about and leaves the others' -/

/-- The condition "write gate active" is as flag and line make it (R39). -/
def State.GateRight (s : State) : Prop := s.drive.gateActive = (s.drive.selected && s.inputs.writeGate)

/-- The side is as the line has it, while selected (R26). -/
def State.SideRight (s : State) : Prop := s.drive.selected = true → s.drive.side = s.inputs.side

/-- The rotation is STOPPED exactly without spin demand (R34, R35). -/
def State.SpinRight (s : State) : Prop := (s.rot.state != .stopped) = s.spinDemand

/-- The timer runs in SPINNING_UP alone. -/
def State.TimerRight (s : State) : Prop := s.rot.spinTimer ≠ none → s.rot.state = .spinningUp

/-- Cells are recorded with an active gate and a MOUNTED image alone. -/
def State.RecordsRight (s : State) : Prop := s.cap.st.measures = true → s.drive.gateActive = true ∧ s.isMounted = true

theorem reworkGate_drive (s : State) :
    s.reworkGate.drive = { s.drive with gateActive := s.drive.selected && s.inputs.writeGate } := by
  unfold State.reworkGate
  simp only
  split
  · rename_i h
    rw [h]
  · rw [reacting_eq]
    split
    · rw [(captureRise_frame _).1]
    · rw [(captureOnly_captureFall _).drive]

theorem reworkGate_rot (s : State) : s.reworkGate.rot = s.rot := by
  unfold State.reworkGate
  simp only
  split
  · rfl
  · rw [reacting_eq]
    split
    · rw [(captureRise_frame _).1]
    · rw [(captureOnly_captureFall _).rot]

theorem captureFall_rests (s : State) : s.captureFall.cap.st.measures = false := rfl

theorem reworkGate_records (s : State) (h : s.RecordsRight) : s.reworkGate.RecordsRight := by
  intro hm
  have hmt := (lineFrame_reworkGate s).isMounted
  rw [reworkGate_drive, hmt]
  unfold State.reworkGate at hm
  simp only at hm
  split at hm
  · rename_i he
    rw [he]
    exact h hm
  · rw [reacting_eq] at hm
    simp only at hm
    split at hm
    · rename_i hne hon
      refine ⟨hon, ?_⟩
      rcases (captureRise_frame _).2.2 hm with hc | hc
      · exact (h hc).2
      · exact hc
    · rw [captureFall_rests] at hm
      exact absurd hm (by simp)

theorem reworkSide_drive (s : State) : s.reworkSide.drive = { s.drive with side := s.inputs.side } := by
  unfold State.reworkSide
  split
  · rename_i h
    rw [h]
  · rw [reacting_eq, (captureOnly_captureSideChange _).drive, arrival_frame]

theorem reworkSide_rot (s : State) : s.reworkSide.rot = s.rot := by
  unfold State.reworkSide
  split
  · rfl
  · rw [reacting_eq, (captureOnly_captureSideChange _).rot, arrival_frame]

theorem reworkSide_records (s : State) (h : s.RecordsRight) : s.reworkSide.RecordsRight := by
  intro hm
  rw [reworkSide_drive, (lineFrame_reworkSide s).isMounted]
  unfold State.reworkSide at hm
  split at hm
  · exact h hm
  · rw [reacting_eq] at hm
    have := (captureOnly_captureSideChange _).measures hm
    rw [arrival_frame] at this
    exact h this

/-- Spin demand is the same in states that agree on the mount, the options, MOTOR ON and the selected flag. -/
theorem spinDemand_same {s t : State} (h : LineFrame s t) (hs : t.drive.selected = s.drive.selected) : t.spinDemand = s.spinDemand := by
  simp only [State.spinDemand, State.motorActive, h.isMounted, h.options, h.inputs, hs]

theorem reworkSpin_drive (s : State) : s.reworkSpin.drive = s.drive := by rw [reworkSpin_frame]

/-- After a selection or a deselection every part of the drive interface follows, whatever the order of the parts. -/
theorem reworkSelect_right (s : State) (hg : s.addressed = s.drive.selected → s.GateRight) (hsd : s.addressed = s.drive.selected → s.SideRight)
    (hsp : s.addressed = s.drive.selected → s.SpinRight) (ht : s.TimerRight) (hr : s.RecordsRight) :
    s.reworkSelect.drive.selected = s.addressed ∧ s.reworkSelect.GateRight ∧ s.reworkSelect.SideRight ∧ s.reworkSelect.SpinRight ∧
      s.reworkSelect.TimerRight ∧ s.reworkSelect.RecordsRight := by
  by_cases he : s.addressed = s.drive.selected
  · have : s.reworkSelect = s := by
      unfold State.reworkSelect
      rw [if_pos he]
    rw [this]
    exact ⟨he.symm, hg he, hsd he, hsp he, ht, hr⟩
  · unfold State.reworkSelect
    rw [if_neg he]
    simp only
    generalize hu : ({ s with drive := { s.drive with selected := s.addressed } } : State) = u
    have hut : u.TimerRight := by subst hu; exact ht
    have hur : u.RecordsRight := by subst hu; exact hr
    have hus : u.drive.selected = s.addressed := by subst hu; rfl
    -- the parts that every effect keeps
    have keep : ∀ f ∈ u.selectionEffects, ∀ t : State, (f t).drive.selected = t.drive.selected ∧ (t.TimerRight → (f t).TimerRight) ∧
        (t.RecordsRight → (f t).RecordsRight) ∧ LineFrame t (f t) := by
      intro f hf t
      rcases selectionEffects_mem hf with ⟨rfl, -⟩ | ⟨rfl, -⟩ | ⟨rfl, -⟩
      · refine ⟨by rw [reworkSide_drive], fun h => ?_, reworkSide_records t, lineFrame_reworkSide t⟩
        unfold State.TimerRight
        rw [reworkSide_rot]
        exact h
      · refine ⟨by rw [reworkSpin_drive], reworkSpin_timer t, fun h => ?_, lineFrame_reworkSpin t⟩
        intro hm
        rw [reworkSpin_drive, (lineFrame_reworkSpin t).isMounted]
        rw [reworkSpin_frame] at hm
        exact h hm
      · refine ⟨by rw [reworkGate_drive], fun h => ?_, reworkGate_records t, lineFrame_reworkGate t⟩
        unfold State.TimerRight
        rw [reworkGate_rot]
        exact h
    have base : (inFreeOrder u.selectionEffects u).drive.selected = s.addressed ∧ (inFreeOrder u.selectionEffects u).TimerRight ∧
        (inFreeOrder u.selectionEffects u).RecordsRight := by
      refine inFreeOrder_keeps (fun t => t.drive.selected = s.addressed ∧ t.TimerRight ∧ t.RecordsRight) _ u ⟨hus, hut, hur⟩
        (fun t h => h) (fun f hf t h => ?_)
      obtain ⟨k1, k2, k3, -⟩ := keep f hf t
      exact ⟨k1.trans h.1, k2 h.2.1, k3 h.2.2⟩
    have gate : (inFreeOrder u.selectionEffects u).GateRight := by
      refine inFreeOrder_brings State.GateRight _ u (fun t h => h) (fun f hf t h => ?_) ?_
      · rcases selectionEffects_mem hf with ⟨rfl, -⟩ | ⟨rfl, -⟩ | ⟨rfl, -⟩
        · unfold State.GateRight
          rw [reworkSide_drive, (lineFrame_reworkSide t).inputs]
          exact h
        · unfold State.GateRight
          rw [reworkSpin_drive, (lineFrame_reworkSpin t).inputs]
          exact h
        · unfold State.GateRight
          rw [reworkGate_drive, (lineFrame_reworkGate t).inputs]
      · by_cases hc : (u.drive.selected && u.inputs.writeGate) = u.drive.gateActive
        · exact .inl hc.symm
        · refine .inr ⟨State.reworkGate, ?_, fun t => ?_⟩
          · unfold State.selectionEffects
            simp [hc]
          · unfold State.GateRight
            rw [reworkGate_drive, (lineFrame_reworkGate t).inputs]
    have side : (inFreeOrder u.selectionEffects u).SideRight := by
      refine inFreeOrder_brings State.SideRight _ u (fun t h => h) (fun f hf t h => ?_) ?_
      · rcases selectionEffects_mem hf with ⟨rfl, -⟩ | ⟨rfl, -⟩ | ⟨rfl, -⟩
        · intro _
          rw [reworkSide_drive, (lineFrame_reworkSide t).inputs]
        · unfold State.SideRight
          rw [reworkSpin_drive, (lineFrame_reworkSpin t).inputs]
          exact h
        · unfold State.SideRight
          rw [reworkGate_drive, (lineFrame_reworkGate t).inputs]
          exact h
      · by_cases hsel : u.drive.selected = true
        · by_cases hc : u.inputs.side = u.drive.side
          · exact .inl (fun _ => hc.symm)
          · refine .inr ⟨State.reworkSide, ?_, fun t _ => ?_⟩
            · unfold State.selectionEffects
              simp [hsel, hc]
            · rw [reworkSide_drive, (lineFrame_reworkSide t).inputs]
        · exact .inl (fun h => absurd h hsel)
    have spin : (inFreeOrder u.selectionEffects u).SpinRight := by
      refine inFreeOrder_brings State.SpinRight _ u (fun t h => h) (fun f hf t h => ?_) ?_
      · rcases selectionEffects_mem hf with ⟨rfl, -⟩ | ⟨rfl, -⟩ | ⟨rfl, -⟩
        · unfold State.SpinRight
          rw [spinDemand_same (lineFrame_reworkSide t) (by rw [reworkSide_drive]), reworkSide_rot]
          exact h
        · unfold State.SpinRight
          rw [reworkSpin_spinDemand]
          exact reworkSpin_spin t
        · unfold State.SpinRight
          rw [spinDemand_same (lineFrame_reworkGate t) (by rw [reworkGate_drive]), reworkGate_rot]
          exact h
      · by_cases hc : u.spinDemand = (u.rot.state != .stopped)
        · exact .inl hc.symm
        · refine .inr ⟨State.reworkSpin, ?_, fun t => ?_⟩
          · unfold State.selectionEffects
            simp only [ne_eq, hc, not_false_eq_true, decide_true, if_true]
            simp
          · unfold State.SpinRight
            rw [reworkSpin_spinDemand]
            exact reworkSpin_spin t
    exact ⟨base.1, gate, side, spin, base.2⟩

/-- What the selected flag's following its line comes to: nothing, or the parts of the selection in some order (log 16). -/
theorem reworkSelect_selects (s : State) : s.Selects s.reworkSelect := by
  unfold State.Selects State.reworkSelect
  refine ⟨fun h => if_pos h, fun h => ?_⟩
  rw [if_neg (show ¬ s.addressed = s.drive.selected from h)]
  unfold inFreeOrder
  simp only
  split
  · exact ⟨_, s.free, List.Perm.refl _, rfl⟩
  · exact ⟨_, s.free + 1, arrange_perm _ _, rfl⟩

end Sys2Proof.Machine
end

