-- ==== Sys2Proof/Laws/Sectors.lean ====
section
/-! SUPPORT. What the cache's operations do line by line and sector by sector, what a run takes from consecutive blocks, and what a
posted notice leaves: one lemma for each operation, which a proof cites in place of its definition. -/

namespace Sys2Proof.Machine

/-! ## Lines -/

/-- A changed line, where the change leaves a FREE line as it is or the line exists. -/
theorem Cache.line_modLine (c : Cache) (i k : Nat) (f : Line → Line) (hf : f Line.free = Line.free ∨ i < c.lines.length ∨ k ≠ i) :
    (c.modLine i f).line k = if k = i then f (c.line k) else c.line k := by
  unfold Cache.modLine Cache.line
  simp only [List.getD_eq_getElem?_getD, List.getElem?_modify]
  by_cases h : k = i
  · subst h
    by_cases hk : k < c.lines.length
    · simp [hk]
    · rcases hf with hf | hf | hf
      · simp [List.getElem?_eq_none (Nat.le_of_not_lt hk), hf]
      · omega
      · exact absurd rfl hf
  · simp [Ne.symm h, h]

/-- Every line changed by a function that leaves a FREE line as it is. -/
theorem Cache.line_map (c : Cache) (f : Line → Line) (hf : f Line.free = Line.free) (k : Nat) :
    ({ c with lines := c.lines.map f } : Cache).line k = f (c.line k) := by
  unfold Cache.line
  simp only [List.getD_eq_getElem?_getD, List.getElem?_map]
  cases c.lines[k]? <;> simp [hf]

theorem Cache.line_unpinAll (c : Cache) (k : Nat) : c.unpinAll.line k = (c.line k).unpin :=
  c.line_map Line.unpin rfl k

theorem Line.unpin_sectors (l : Line) : l.unpin.sectors = l.sectors := by unfold Line.unpin; split <;> rfl
theorem Line.unpin_tag (l : Line) : l.unpin.tag = l.tag := by unfold Line.unpin; split <;> rfl

/-- A line that carries a track stands among the lines. -/
theorem Cache.line_lt {c : Cache} {i : Nat} {tr : Track} (h : (c.line i).tag = some tr) : i < c.lines.length := by
  by_contra hi
  have : c.line i = Line.free := by
    unfold Cache.line; simp [List.getD_eq_getElem?_getD, List.getElem?_eq_none (Nat.le_of_not_lt hi)]
  rw [this] at h; simp [Line.free] at h

/-! ## Sectors -/

theorem Sector.enter_state (x : Sector) (st : SectorState) : (x.enter st).state = st := by unfold Sector.enter; split <;> simp_all

/-- Sectors of one line changed by number. -/
theorem Cache.sector_mapSectors (c : Cache) (i k l : Nat) (f : Nat → Sector → Sector) :
    (c.mapSectors i f).sector k l = (c.sector k l).map (fun x => if k = i then f l x else x) := by
  unfold Cache.mapSectors Cache.sector
  rw [Cache.line_modLine _ _ _ _ (.inl (by simp [Line.free]))]
  by_cases h : k = i
  · simp [h, List.getElem?_mapIdx]
  · simp [h]

/-- One sector changed. -/
theorem Cache.sector_modSector (c : Cache) (i l k m : Nat) (f : Sector → Sector) :
    (c.modSector i l f).sector k m = if k = i ∧ m = l then (c.sector k m).map f else c.sector k m := by
  unfold Cache.modSector Cache.sector
  rw [Cache.line_modLine _ _ _ _ (.inl (by simp [Line.free]))]
  by_cases h : k = i
  · subst h
    by_cases hm : m = l
    · subst hm; simp
    · simp [hm, Ne.symm hm]
  · simp [h]

theorem Cache.tag_modSector (c : Cache) (i l k : Nat) (f : Sector → Sector) : ((c.modSector i l f).line k).tag = (c.line k).tag := by
  unfold Cache.modSector
  rw [Cache.line_modLine _ _ _ _ (.inl (by simp [Line.free]))]
  split <;> rfl

theorem Cache.tag_mapSectors (c : Cache) (i k : Nat) (f : Nat → Sector → Sector) : ((c.mapSectors i f).line k).tag = (c.line k).tag := by
  unfold Cache.mapSectors
  rw [Cache.line_modLine _ _ _ _ (.inl (by simp [Line.free]))]
  split <;> rfl

/-- The count of non-clean sectors is 0 exactly when no sector of any line is non-clean. -/
theorem Cache.nonClean_eq_zero (c : Cache) : c.nonClean = 0 ↔ ∀ i l x, c.sector i l = some x → x.state.nonClean = false := by
  have h : c.nonClean = 0 ↔ ∀ ln ∈ c.lines, ∀ x ∈ ln.sectors, x.state.nonClean = false := by
    unfold Cache.nonClean Line.nonCleanCount
    simp [List.sum_eq_zero_iff, List.countP_eq_zero]
  rw [h]
  constructor
  · intro h i l x hx
    unfold Cache.sector Cache.line at hx
    by_cases hi : i < c.lines.length
    · simp only [List.getD_eq_getElem?_getD, List.getElem?_eq_getElem hi, Option.getD_some] at hx
      exact h _ (List.getElem_mem hi) x (List.mem_of_getElem? hx)
    · simp [List.getD_eq_getElem?_getD, List.getElem?_eq_none (Nat.le_of_not_lt hi), Line.free] at hx
  · intro h ln hln x hx
    obtain ⟨i, hi, rfl⟩ := List.getElem_of_mem hln
    obtain ⟨l, hl, rfl⟩ := List.getElem_of_mem hx
    refine h i l _ ?_
    unfold Cache.sector Cache.line
    simp [List.getD_eq_getElem?_getD, hi, hl]

/-! ## Sectors in a run's blocks -/

/-- A sector has a byte in one of a run's blocks. -/
theorem touches_iff {g : Geometry} {tr : Track} {r : Run} {l : Nat} :
    touches g tr r l = true ↔ ∃ p ∈ g.sectorBlocks tr l, ∃ f, r.firstImage = some f ∧ f ≤ p ∧ p < f + r.count := by
  unfold touches Run.holds
  simp only [List.any_eq_true]
  refine exists_congr fun p => and_congr_right fun _ => ?_
  cases r.firstImage <;> simp

/-- What a failed run makes DIRTY, sector by sector (R84 step 2). -/
theorem Cache.sector_dirtyOverlap (c : Cache) (g : Geometry) (r : Run) (k l : Nat) :
    ({ c with lines := c.lines.map (Line.dirtyOverlap g r) } : Cache).sector k l =
      (c.sector k l).map (fun x =>
        match (c.line k).tag with
        | none => x
        | some tr => if x.state = .clean ∧ x.hole = false ∧ touches g tr r l then x.enter .dirty else x) := by
  unfold Cache.sector
  rw [Cache.line_map _ _ rfl]
  unfold Line.dirtyOverlap
  cases (c.line k).tag with
  | none => simp
  | some tr => simp [List.getElem?_mapIdx]

/-! ## The defect list -/

/-- The list names a sector exactly when an entry of it does. -/
theorem names_iff (ds : List Defect) (tr : Track) (n : Nat) : names ds tr n = true ↔ ∃ d ∈ ds, d.track = tr ∧ d.sector = n := by
  simp [names]

/-- The defective parts follow a list that has been set. -/
theorem Cache.setDefects_follows (c : Cache) (g : Geometry) (ds : List Defect) : (c.setDefects g ds).FollowsDefects g := by
  intro k l tr x ht hx
  have hl : (c.setDefects g ds).line k = Line.syncDefects g ds (c.line k) := Cache.line_map c _ rfl k
  rw [Cache.sector, hl] at hx
  rw [hl] at ht ⊢
  unfold Line.syncDefects at ht hx ⊢
  cases h : (c.line k).tag with
  | none => rw [h] at ht; exact absurd (ht.symm.trans h) (by simp)
  | some tr' =>
    rw [h] at ht hx
    obtain rfl : tr' = tr := Option.some.inj ht
    simp only [List.getElem?_mapIdx, Option.map_eq_some_iff] at hx
    obtain ⟨y, _, rfl⟩ := hx
    exact names_iff ..

/-- What an addition makes of the list. -/
theorem addToDefects_added (ds : List Defect) (d : Defect) : DefectAdded ds (addToDefects ds d).1 d (addToDefects ds d).2 := by
  have hn := names_iff ds d.track d.sector
  unfold addToDefects
  refine ⟨fun h => ?_, fun h hl => ?_, fun h hl => ?_⟩
  · rw [if_pos (hn.mpr h)]
    refine ⟨congrArg (· ++ [d]) ?_, rfl⟩
    refine List.filter_congr fun e _ => ?_
    by_cases h1 : e.track = d.track <;> by_cases h2 : e.sector = d.sector <;> simp [h1, h2]
  · have hl' : ds.length < maxDefects := hl
    rw [if_neg (fun hh => (hn.mp hh).elim fun e he => h e he.1 he.2), if_pos hl']
    exact ⟨rfl, rfl⟩
  · have hl' : ¬ ds.length < maxDefects := Nat.not_lt.mpr hl
    rw [if_neg (fun hh => (hn.mp hh).elim fun e he => h e he.1 he.2), if_neg hl']
    exact ⟨rfl, rfl⟩

/-! ## Consecutive blocks and their bytes -/

/-- The length that `extendRun` gives: as far as the test goes, and no further than the room. -/
theorem extendRun_longest (ok : Nat → Bool) (room : Nat) :
    ∀ b, extendRun ok b room ≤ room ∧ (∀ k < extendRun ok b room, ok (b + k) = true) ∧
      (extendRun ok b room < room → ok (b + extendRun ok b room) = false) := by
  induction room with
  | zero => intro b; simp [extendRun]
  | succ room ih =>
    intro b
    obtain ⟨h1, h2, h3⟩ := ih (b + 1)
    unfold extendRun
    by_cases h : ok b = true
    · simp only [h, if_true]
      refine ⟨by omega, fun k hk => ?_, fun hn => ?_⟩
      · cases k with
        | zero => simpa using h
        | succ k => have := h2 k (by omega); rwa [show b + 1 + k = b + (k + 1) by omega] at this
      · have := h3 (by omega)
        rwa [show b + 1 + extendRun ok (b + 1) room = b + (1 + extendRun ok (b + 1) room) by omega] at this
    · simp only [Bool.not_eq_true] at h
      simp [h]

/-- Byte `b` of the `j`-th of equal pieces joined together. -/
theorem byteAt_pieces {f : Nat → List Byte} {w : Nat} (h : ∀ x, (f x).length = w) (l : List Nat) (j b : Nat) (hj : j < l.length)
    (hb : b < w) : byteAt (l.flatMap f) (w * j + b) = byteAt (f l[j]) b := by
  induction l generalizing j with
  | nil => simp at hj
  | cons a l ih =>
    simp only [List.flatMap_cons, byteAt, List.getD_eq_getElem?_getD]
    cases j with
    | zero => rw [List.getElem?_append_left (by rw [h]; omega)]; simp
    | succ j =>
      rw [List.getElem?_append_right (by rw [h]; nlinarith), h]
      have := ih j (by simpa using hj)
      simp only [byteAt, List.getD_eq_getElem?_getD] at this
      rw [show w * (j + 1) + b - w = w * j + b by rw [Nat.mul_succ]; omega]
      simpa using this

theorem length_pieces {f : Nat → List Byte} {w : Nat} (h : ∀ x, (f x).length = w) (l : List Nat) : (l.flatMap f).length = l.length * w := by
  induction l with
  | nil => simp
  | cons a l ih => simp only [List.flatMap_cons, List.length_append, h, ih, List.length_cons]; ring

/-! ## Notices -/

/-- A notice that joins the queue waits or is in sending (R172, R173). -/
theorem Link.hasNotice_enqueue {l : Link} (b : NoticeBody) (h : l.notices.length < 16) : (l.enqueue b).hasNotice b := by
  unfold Link.enqueue
  rw [if_pos (show l.notices.length < maxNotices from h)]
  unfold Link.startTx
  split
  · exact .inl ⟨_, List.mem_append_right _ (List.mem_singleton_self _), rfl⟩
  · cases l.replies with
    | cons r rest => exact .inl ⟨_, List.mem_append_right _ (List.mem_singleton_self _), rfl⟩
    | nil =>
      cases hn : l.notices with
      | nil => exact .inr ⟨_, l.dropped, rfl, rfl⟩
      | cons a as => exact .inl ⟨⟨b, l.dropped⟩, by simp [Link.send], rfl⟩

/-- A posted notice of a kind that is not masked off waits or is in sending; EXTENT_REACHED, which may merge, is left out (R60, R172). -/
theorem Link.hasNotice_post {l : Link} (b : NoticeBody) (hb : ∀ m set, b ≠ .extentReached m set)
    (hm : l.options.noticeMask.getLsbD (b.code - 1) = true) (h : l.notices.length < 16) : (l.post b).hasNotice b := by
  unfold Link.post Link.unmasked
  rw [hm]
  cases b <;> first | exact absurd rfl (hb _ _) | exact Link.hasNotice_enqueue _ h

end Sys2Proof.Machine
end

