-- ==== Sys2Proof/Laws/Sound.lean ====
section
/-! SUPPORT. Each operation over the whole state keeps what Safety.lean says of its blocks. -/

namespace Sys2Proof.Machine

/-! ## One block at a time -/

theorem State.Sound.withLink {s : State} (h : s.Sound) {l : Link} (hl : l.Sound) : ({ s with link := l } : State).Sound :=
  ⟨h.drive, h.rot, hl, h.cache, h.cap, h.card⟩

theorem State.Sound.withCache {s : State} (h : s.Sound) {c : Cache} (hc : c.Sound) : ({ s with cache := c } : State).Sound :=
  ⟨h.drive, h.rot, h.link, hc, h.cap, h.card⟩

theorem State.Sound.withCap {s : State} (h : s.Sound) {c : Capture} (hc : c.Sound) : ({ s with cap := c } : State).Sound :=
  ⟨h.drive, h.rot, h.link, h.cache, hc, h.card⟩

theorem State.Sound.withCard {s : State} (h : s.Sound) {c : Card} (hc : c.failCount ≤ 4) : ({ s with card := c } : State).Sound :=
  ⟨h.drive, h.rot, h.link, h.cache, h.cap, ⟨hc⟩⟩

theorem State.Sound.withDrive {s : State} (h : s.Sound) {d : Drive} (hd : d.head ≤ 83) : ({ s with drive := d } : State).Sound :=
  ⟨⟨hd⟩, h.rot, h.link, h.cache, h.cap, h.card⟩

theorem State.Sound.withRot {s : State} (h : s.Sound) {r : Rotation} (ht : r.t < s.prof.profile.rpm.period) (hf : r.fine ≤ 8) :
    ({ s with rot := r } : State).Sound :=
  ⟨h.drive, ⟨ht, hf⟩, h.link, h.cache, h.cap, h.card⟩

theorem State.Sound.withInputs {s : State} (h : s.Sound) (x : Inputs) : ({ s with inputs := x } : State).Sound :=
  ⟨h.drive, h.rot, h.link, h.cache, h.cap, h.card⟩

theorem State.Sound.withMount {s : State} (h : s.Sound) (m : Mount) : ({ s with mount := m } : State).Sound :=
  ⟨h.drive, h.rot, h.link, h.cache, h.cap, h.card⟩

theorem State.Sound.withPres {s : State} (h : s.Sound) (p : Present) : ({ s with pres := p } : State).Sound :=
  ⟨h.drive, h.rot, h.link, h.cache, h.cap, h.card⟩

theorem State.Sound.withPending {s : State} (h : s.Sound) (q : List Instr) : ({ s with pending := q } : State).Sound :=
  ⟨h.drive, h.rot, h.link, h.cache, h.cap, h.card⟩

theorem State.Sound.withFree {s : State} (h : s.Sound) (n : Nat) : ({ s with free := n } : State).Sound :=
  ⟨h.drive, h.rot, h.link, h.cache, h.cap, h.card⟩

/-- What the reactions and the arbiter touch keeps the state sound when the cache stays sound. -/
theorem State.Sound.settled {s t : State} (h : s.Sound) (k : Settled s t) (hc : t.cache.Sound) : t.Sound where
  drive := by rw [k.drive]; exact h.drive
  rot := by rw [k.rot, k.prof]; exact h.rot
  link := by rw [k.link]; exact h.link
  cache := hc
  cap := by rw [k.cap]; exact h.cap
  card := ⟨by rw [k.failCount]; exact h.card.failures⟩

theorem State.Sound.settle {s : State} (h : s.Sound) (old : State) : (State.settle old s).Sound :=
  h.settled (settled_settle old s) (sound_settle h.cache)

theorem State.Sound.withdraw {s : State} (h : s.Sound) : s.withdraw.Sound := h.settled (settled_withdraw s) (sound_withdraw h.cache)

theorem State.Sound.dropDeadFill {s : State} (h : s.Sound) : s.dropDeadFill.Sound :=
  h.settled (settled_dropDeadFill s) (sound_dropDeadFill h.cache)

theorem State.Sound.unflush {s : State} (h : s.Sound) (r : Run) : (s.unflush r).Sound :=
  h.settled (settled_unflush s r) (sound_unflush h.cache r)

theorem State.Sound.react {s : State} (h : s.Sound) (old : Cache) : (s.react old).Sound :=
  h.settled (settled_react s old) (sound_react h.cache old)

theorem State.Sound.tend {s : State} (h : s.Sound) : s.tend.Sound := h.settled (settled_tend s) (sound_tend h.cache)

/-- An effect keeps a state sound, and so does the effect with the cache's reactions to it. -/
theorem State.Sound.reacting {s : State} {f : State → State} (h : (f s).Sound) : (reacting f s).Sound := h.react s.cache

theorem State.Sound.lookAhead {s : State} (h : s.Sound) : s.lookAhead.Sound := by
  rw [lookAhead_eq]
  exact h.settled (settled_cache s _) (sound_lookAhead h.cache)

theorem State.Sound.settlingWhen {s : State} (p : State → Bool) {f : State → State} (h : (f s).Sound) : (settlingWhen p f s).Sound := by
  unfold Machine.settlingWhen
  split
  · exact h.settle s
  · exact h

theorem State.Sound.tendingWhen {s : State} (p : State → Bool) {f : State → State} (h : (f s).Sound) : (tendingWhen p f s).Sound := by
  unfold Machine.tendingWhen
  split
  · exact h.tend
  · exact h

theorem State.Sound.makeFlush {s : State} (h : s.Sound) (cls : RunClass) (i blk n : Nat) (buf : Option (List Byte)) :
    (s.makeFlush cls i blk n buf).1.Sound :=
  h.settled (settled_makeFlush s _ _ _ _ _) (sound_makeFlush h.cache _ _ _ _ _)

theorem State.Sound.inFreeOrder {s : State} (h : s.Sound) (fs : List (State → State)) (hf : ∀ f ∈ fs, ∀ t : State, t.Sound → (f t).Sound) :
    (inFreeOrder fs s).Sound :=
  inFreeOrder_keeps State.Sound fs s h (fun _ ht => ht.withFree _) hf

theorem State.Sound.post {s : State} (h : s.Sound) (b : NoticeBody) : (s.post b).Sound := h.withLink (Link.post_sound h.link b)

theorem State.Sound.postFault {s : State} (h : s.Sound) (c hd k : Nat) (r : FaultReason) (d : Bool) : (s.postFault c hd k r d).Sound :=
  h.post _

theorem State.Sound.answer {s : State} (h : s.Sound) (st : ReplyStatus) (d : Byte) (bs : List Byte) : (s.answer st d bs).Sound :=
  h.withLink (Link.answer_sound h.link _ _ _)

/-! ## The capture unit -/

theorem Capture.idle_sound : Capture.idle.Sound := ⟨by simp [Capture.idle], by simp [Capture.idle], Memory.wf_nil⟩

theorem Capture.Sound.rest {c : Capture} (h : c.Sound) (st : CaptureState) : (c.rest st).Sound := ⟨h.line, h.found, h.scratch⟩

theorem Capture.Sound.shiftIn {c : Capture} (h : c.Sound) (b : Bool) : (c.shiftIn b).Sound := ⟨h.line, h.found, h.scratch⟩

theorem Capture.Sound.afterFalseLead {c : Capture} (h : c.Sound) : c.afterFalseLead.Sound := ⟨h.line, h.found, h.scratch⟩

theorem Capture.Sound.atBoundary {c : Capture} (h : c.Sound) : c.atBoundary.Sound := ⟨h.line, h.found, h.scratch⟩

theorem Capture.Sound.violate {c : Capture} (h : c.Sound) (b : Bool) : (c.violate b).Sound := by
  unfold Capture.violate
  split
  · exact ⟨h.line, h.found, h.scratch⟩
  · exact h

theorem Capture.Sound.setNewest {c : Capture} (h : c.Sound) (d : DataStatus) : (c.setNewest d).Sound :=
  ⟨h.line, by simpa [Capture.setNewest] using h.found, h.scratch⟩

theorem Capture.Sound.stopCollecting {c : Capture} (h : c.Sound) : c.stopCollecting.Sound := by
  unfold Capture.stopCollecting
  split
  · exact h.setNewest _
  · exact h
  · exact h

theorem Capture.Sound.seekCell {c : Capture} (h : c.Sound) (e : Encoding) (b : Bool) : (c.seekCell e b).Sound := by
  have h' := h.shiftIn b
  unfold Capture.seekCell
  simp only
  split
  · exact h'
  · exact h'.afterFalseLead
  · unfold Capture.seekMark
    split
    · exact ⟨h.line, h.found, h.scratch⟩
    · split
      · exact ⟨h.line, h.found, h.scratch⟩
      · exact h'.atBoundary

theorem Capture.Sound.idByte {c : Capture} (h : c.Sound) (b : Byte) : (c.idByte b).Sound := by
  unfold Capture.idByte
  simp only
  split
  · exact ⟨h.line, h.found, h.scratch⟩
  · split
    · rename_i hlt
      refine ⟨h.line, ?_, h.scratch⟩
      simp only [List.length_append, List.length_singleton]
      exact hlt
    · exact ⟨h.line, h.found, h.scratch⟩

theorem Capture.Sound.fieldByte {c : Capture} (h : c.Sound) (n size : Nat) (b : Byte) : (c.fieldByte n size b).Sound := by
  have hs : ∀ p : Prop, ∀ [Decidable p], ∀ a : Nat, (if p then memStore c.scratch a [b] else c.scratch).wf := by
    intro p _ a
    split
    · exact memStore_wf h.scratch _ _
    · exact h.scratch
  unfold Capture.fieldByte
  simp only
  split
  · exact ⟨h.line, h.found, hs _ _⟩
  · refine ⟨h.line, ?_, hs _ _⟩
    simp only [Capture.setNewest, List.length_modify]
    exact h.found

theorem Capture.Sound.trackCell {c : Capture} (h : c.Sound) (e : Encoding) (n size : Nat) (b : Bool) : (c.trackCell e n size b).Sound := by
  unfold Capture.trackCell
  split
  · exact h.seekCell e b
  · simp only
    split
    · exact h.shiftIn b
    · exact (h.shiftIn b).idByte _
  · simp only
    split
    · exact h.shiftIn b
    · exact (h.shiftIn b).fieldByte _ _ _

theorem Capture.Sound.begin {st : CaptureState} {tr : Option Track} {line : Option Nat} (hl : ∀ i, line = some i → i < 8) (z j l : Nat) :
    (Capture.begin st tr line z j l).Sound :=
  ⟨hl, by simp [Capture.begin, Capture.idle], Memory.wf_nil⟩

theorem Capture.Sound.tick {c : Capture} (h : c.Sound) : c.tick.Sound := by
  unfold Capture.tick
  split
  · exact ⟨h.line, h.found, h.scratch⟩
  · exact h

theorem State.Sound.capAside {s : State} (h : s.Sound) : s.capAside.Sound := by
  refine h.withCap ?_
  split
  · exact h.cap.rest _
  · exact Capture.idle_sound

theorem State.Sound.capIdle {s : State} (h : s.Sound) : s.capIdle.Sound := h.withCap Capture.idle_sound

theorem Cache.Sound.active_lt {c : Cache} (h : c.Sound) {i : Nat} (hi : c.active = some i) : i < 8 := h.lines ▸ (Cache.active_some hi).1

/-- The line of a classified write is the active line. -/
theorem State.classifyRise_line (s : State) :
    (∀ tr i, s.classifyRise = .trackWrite tr i → s.cache.active = some i) ∧
    (∀ tr i j l, s.classifyRise = .sectorWrite tr i j l → s.cache.active = some i) := by
  have hw : ∀ tr k j t i j' l, s.classifyWindow tr k j = .sectorWrite t i j' l → k = i := by
    intro tr k j t i j' l h
    unfold State.classifyWindow at h
    simp only at h
    repeat' split at h
    all_goals first | exact (Rise.sectorWrite.inj h).2.1 | exact absurd h (by simp)
  have hw' : ∀ tr k j t i, s.classifyWindow tr k j ≠ .trackWrite t i := by
    intro tr k j t i h
    unfold State.classifyWindow at h
    simp only at h
    repeat' split at h
    all_goals exact absurd h (by simp)
  unfold State.classifyRise
  constructor
  · intro tr i h
    split at h
    · exact absurd h (by simp)
    · split at h
      · exact absurd h (by simp)
      · split at h
        · exact absurd h (by simp)
        · rename_i k hk
          split at h
          · rw [hk]
            simpa using (Rise.trackWrite.inj h).2
          · split at h
            · exact absurd h (by simp)
            · exact absurd h (hw' _ _ _ _ _)
  · intro tr i j l h
    split at h
    · exact absurd h (by simp)
    · split at h
      · exact absurd h (by simp)
      · split at h
        · exact absurd h (by simp)
        · rename_i k hk
          split at h
          · exact absurd h (by simp)
          · split at h
            · exact absurd h (by simp)
            · rw [hk, hw _ _ _ _ _ _ _ h]

theorem State.Sound.captureRise {s : State} (h : s.Sound) : s.captureRise.Sound := by
  obtain ⟨ht, hs⟩ := s.classifyRise_line
  unfold State.captureRise
  split
  · exact h
  · refine State.Sound.postFault (State.Sound.withCap h ?_) _ _ _ _ _
    exact Capture.Sound.begin (fun i hi => h.cache.active_lt hi) _ _ _
  · rename_i tr i he
    refine h.withCap (Capture.Sound.begin (fun k hk => ?_) _ _ _)
    have : i = k := by simpa using hk
    exact this ▸ h.cache.active_lt (ht _ _ he)
  · rename_i tr i j l he
    have hi := h.cache.active_lt (hs _ _ _ _ he)
    unfold State.beginSectorWrite
    have hs' : ({ s with cap := Capture.begin .hunt (some tr) (some i) (s.geom.zoneOf tr) j l,
                         cache := s.cache.modSector i l (fun x => x.enter .capture) } : State).Sound :=
      (h.withCap (Capture.Sound.begin (fun k hk => by
        have : i = k := by simpa using hk
        exact this ▸ hi) _ _ _)).withCache (h.cache.modSector _ _ _)
    simp only
    split
    · exact hs'
    · exact hs'.post _

theorem State.Sound.outcomeDefects {s : State} (h : s.Sound) (tr : Track) (o : WriteOutcome) : (s.outcomeDefects tr o).1.Sound := by
  unfold State.outcomeDefects
  split
  · exact h.cache
  · exact h.cache.removeDefect _ _ _
  · exact h.cache.addDefect _ _

theorem State.Sound.writeEnded {s : State} (h : s.Sound) {i : Nat} (hi : i < 8) : (s.writeEnded i).Sound :=
  h.withCache ((h.cache.touch hi).withIdle _)

theorem State.Sound.endSectorWrite {s : State} (h : s.Sound) (bs : List Byte) (o : WriteOutcome) : (s.endSectorWrite bs o).Sound := by
  unfold State.endSectorWrite
  split
  · rename_i tr i htr hi
    have hlt := h.cap.line i hi
    simp only
    have h1 := h.withCache ((h.cache.storeLine i (s.cap.logical * s.capLayout.sectorSize) bs).modSector i s.cap.logical
      (fun x => x.enter .dirty))
    have h2 := (h1.withCache (h1.outcomeDefects tr o)).writeEnded hlt
    unfold State.outcomeNotice
    split
    · exact h2
    · exact h2
    · exact h2.postFault _ _ _ _ _
  · exact h

theorem State.Sound.exhaust {s : State} (h : s.Sound) : s.exhaust.Sound := by
  have h1 := fun bs o => h.endSectorWrite bs o
  exact (h1 _ _).withCap ((h1 _ _).cap.rest _)

theorem State.Sound.huntCell {s : State} (h : s.Sound) (b : Bool) : (s.huntCell b).Sound := by
  unfold State.huntCell
  simp only
  split
  · exact h.withCap (h.cap.shiftIn b)
  · exact h.withCap (h.cap.shiftIn b).afterFalseLead
  · exact h.withCap (h.cap.shiftIn b).afterFalseLead
  · unfold State.dataMarkFound
    simp only
    split
    · refine State.Sound.postFault (State.Sound.withCap h ?_) _ _ _ _ _
      exact ⟨h.cap.line, h.cap.found, h.cap.scratch⟩
    · exact h.withCap ⟨h.cap.line, h.cap.found, h.cap.scratch⟩

theorem State.Sound.dataByteTaken {s : State} (h : s.Sound) (b : Byte) : (s.dataByteTaken b).Sound := by
  have hs : ∀ p : Prop, ∀ [Decidable p], ∀ a : Nat, (if p then memStore s.cap.scratch a [b] else s.cap.scratch).wf := by
    intro p _ a
    split
    · exact memStore_wf h.cap.scratch _ _
    · exact h.cap.scratch
  unfold State.dataByteTaken
  simp only
  have h1 : ({ s with cap := { s.cap.atBoundary with
      scratch := if s.cap.received < s.capLayout.sectorSize then memStore s.cap.scratch s.cap.received [b] else s.cap.scratch
      crc := crcByte s.cap.crc b
      received := s.cap.received + 1 } } : State).Sound := h.withCap ⟨h.cap.line, h.cap.found, hs _ _⟩
  split
  · exact h1.exhaust
  · exact h1

theorem State.Sound.captureCell {s : State} (h : s.Sound) (b : Bool) : (s.captureCell b).Sound := by
  unfold State.captureCell
  split
  · exact h.huntCell b
  · unfold State.sectorDataCell
    simp only
    split
    · exact h.withCap (h.cap.shiftIn b)
    · exact (h.withCap (h.cap.shiftIn b)).dataByteTaken _
  · exact h.withCap (h.cap.trackCell _ _ _ _)
  · exact h
  · exact h
  · exact h

theorem State.Sound.zeroCells {s : State} (h : s.Sound) (k : Nat) : (State.zeroCells k s).Sound := by
  induction k generalizing s with
  | zero => exact h
  | succ k ih => exact ih (h.captureCell false)

theorem State.Sound.fluxChange {s : State} (h : s.Sound) : s.fluxChange.Sound := by
  have hc : ({ s.cap with fluxOpen := some 0, empties := 0 } : Capture).Sound := ⟨h.cap.line, h.cap.found, h.cap.scratch⟩
  unfold State.fluxChange
  split
  · exact h
  · simp only
    split
    · exact (h.withCap hc).captureCell true
    · split
      · exact h.withCap (hc.violate _)
      · exact ((h.withCap (hc.violate _)).zeroCells _).captureCell true

theorem State.Sound.emptyCell {s : State} (h : s.Sound) : s.emptyCell.Sound := by
  unfold State.emptyCell
  split
  · exact h
  · split
    · exact h
    · simp only
      refine State.Sound.captureCell (State.Sound.withCap h (Capture.Sound.violate ?_ _)) false
      exact ⟨h.cap.line, h.cap.found, h.cap.scratch⟩

theorem State.Sound.endTrackWrite {s : State} (h : s.Sound) : s.endTrackWrite.Sound := by
  unfold State.endTrackWrite
  split
  · rename_i tr i htr hi
    have hlt := h.cap.line i hi
    simp only
    have h1 : ({ s with cap := s.cap.stopCollecting } : State).Sound := h.withCap h.cap.stopCollecting
    split
    · split
      · unfold State.storeTrack
        have h2 := fun z size sc => h1.withCache (((h1.cache.withRam (storeSlots_wf z i size sc h1.cache.ram)).mapSectors i
          (fun _ x => x.afterMatch)).removeTrackDefects { s with cap := s.cap.stopCollecting }.geom tr)
        simp only
        split
        · exact ((h2 _ _ _).writeEnded hlt).post _
        · exact (h2 _ _ _).post _
      · exact h1.postFault _ _ _ _ _
    · exact h1.post _
  · exact h

theorem State.Sound.endCapture {s : State} (h : s.Sound) : s.endCapture.Sound := by
  unfold State.endCapture
  split
  · exact h.endSectorWrite _ _
  · exact h.endSectorWrite _ _
  · exact h.endTrackWrite
  · exact h
  · exact h
  · exact h

theorem State.Sound.captureFall {s : State} (h : s.Sound) : s.captureFall.Sound := h.endCapture.capIdle

theorem State.Sound.captureSideChange {s : State} (h : s.Sound) : s.captureSideChange.Sound := by
  unfold State.captureSideChange
  split
  · exact h
  · exact h.endCapture.capAside

theorem State.Sound.captureDeadline {s : State} (h : s.Sound) : s.captureDeadline.Sound := by
  unfold State.captureDeadline
  split
  · exact (h.endSectorWrite _ _).capAside
  · exact h

theorem State.Sound.markOverrun {s : State} (h : s.Sound) : s.markOverrun.Sound := by
  unfold State.markOverrun
  split
  · simp only
    split
    · exact h
    · split
      · exact h
      · split
        · exact (h.withCache (h.cache.addDefect _ _)).postFault _ _ _ _ _
        · exact h
  · exact h

theorem State.Sound.captureSlotEnd {s : State} (h : s.Sound) : s.captureSlotEnd.Sound := by
  have h1 := h.markOverrun
  unfold State.captureSlotEnd
  split
  · exact h
  · split
    · exact h1.withCap ⟨h1.cap.line, h1.cap.found, h1.cap.scratch⟩
    · exact h1.withCap ⟨h1.cap.line, h1.cap.found, h1.cap.scratch⟩
    · exact h
    · exact h
    · exact h
    · exact h

theorem State.Sound.captureWrap {s : State} (h : s.Sound) : s.captureWrap.Sound := by
  unfold State.captureWrap
  split
  · exact h.endTrackWrite.capAside
  · exact h

theorem State.Sound.captureAbandon {s : State} (h : s.Sound) : s.captureAbandon.Sound := by
  unfold State.captureAbandon
  split
  · exact h
  · refine State.Sound.capAside ?_
    split
    · exact h.withCache (h.cache.modSector _ _ _)
    · exact h
  · refine State.Sound.capAside ?_
    split
    · exact h.withCache (h.cache.modSector _ _ _)
    · exact h
  · exact h.capAside
  · exact h.capAside
  · exact h.capAside

/-! ## The drive interface -/

theorem State.Sound.arrival {s : State} (h : s.Sound) (old : Option Track) : (s.arrival old).Sound := by
  unfold State.arrival
  split
  · exact h
  · exact State.Sound.reacting ((h.withCache (h.cache.arrive _ _ _ _ _)).withPres _)

theorem State.Sound.motorOff {s : State} (h : s.Sound) : s.motorOff.Sound := by
  unfold State.motorOff
  split
  · exact h.withCache (h.cache.joinAll _ _)
  · exact h

theorem State.Sound.setRotation {s : State} (h : s.Sound) (st : RotState) (timer : Option Nat) : (s.setRotation st timer).Sound :=
  h.withRot h.rot.inRevolution h.rot.fine

theorem State.Sound.reworkSpin {s : State} (h : s.Sound) : s.reworkSpin.Sound := by
  unfold State.reworkSpin
  split
  · split
    · exact h.setRotation _ _
    · exact h.setRotation _ _
  · exact h.setRotation _ _
  · exact (h.setRotation _ _).motorOff
  · exact h

theorem State.Sound.spinUpExpiry {s : State} (h : s.Sound) : s.spinUpExpiry.Sound := by
  unfold State.spinUpExpiry
  split
  · exact h.setRotation _ _
  · exact h.withRot h.rot.inRevolution h.rot.fine
  · exact h.withRot h.rot.inRevolution h.rot.fine

theorem State.Sound.reworkGate {s : State} (h : s.Sound) : s.reworkGate.Sound := by
  unfold State.reworkGate
  simp only
  split
  · exact h
  · refine State.Sound.reacting ?_
    split
    · refine State.Sound.captureRise (State.Sound.withDrive h ?_)
      exact h.drive.head
    · refine State.Sound.captureFall (State.Sound.withDrive h ?_)
      exact h.drive.head

theorem State.Sound.reworkSide {s : State} (h : s.Sound) : s.reworkSide.Sound := by
  unfold State.reworkSide
  split
  · exact h
  · refine State.Sound.reacting (State.Sound.captureSideChange (State.Sound.arrival (State.Sound.withDrive h ?_) _))
    exact h.drive.head

theorem State.Sound.reworkSelect {s : State} (h : s.Sound) : s.reworkSelect.Sound := by
  unfold State.reworkSelect
  split
  · exact h
  · simp only
    refine State.Sound.inFreeOrder (State.Sound.withDrive h ?_) _ (fun f hf t ht => ?_)
    · exact h.drive.head
    unfold State.selectionEffects at hf
    simp only [List.mem_append] at hf
    rcases hf with (hf | hf) | hf <;> split at hf
    · rw [List.mem_singleton.mp hf]
      exact ht.reworkSide
    · exact absurd hf (by simp)
    · rw [List.mem_singleton.mp hf]
      exact ht.reworkSpin
    · exact absurd hf (by simp)
    · rw [List.mem_singleton.mp hf]
      exact ht.reworkGate
    · exact absurd hf (by simp)

theorem stepHead_le {head : Nat} (h : head ≤ 83) (d : Bool) : stepHead head d ≤ 83 := by
  unfold stepHead
  split <;> omega

theorem State.Sound.stepEdge {s : State} (h : s.Sound) (d : Bool) : (s.stepEdge d).Sound := by
  unfold State.stepEdge
  split
  · refine State.Sound.arrival (State.Sound.withDrive h ?_) _
    exact stepHead_le h.drive.head d
  · exact h

theorem State.Sound.setLatch {s : State} (h : s.Sound) : s.setLatch.Sound := h.withDrive h.drive.head

theorem Rpm.period_large (r : Rpm) : 500000 ≤ r.period := by cases r <;> decide

theorem State.reset_sound : State.reset.Sound where
  drive := ⟨by decide⟩
  rot := ⟨by decide, by decide⟩
  link := Link.reset_sound _
  cache := Cache.reset_sound
  cap := Capture.idle_sound
  card := ⟨by decide⟩

theorem State.Sound.restart (s : State) (x : Inputs) : (s.restart x).Sound where
  drive := ⟨Nat.zero_le _⟩
  rot := State.reset_sound.rot
  link := Link.reset_sound _
  cache := Cache.reset_sound
  cap := Capture.idle_sound
  card := ⟨by cases hx : x.cardDetect <;> simp [State.restart, Card.after, hx, Card.reset]⟩

/-- The reset of a RESET request leaves every block sound (R188), in a link break too (R175). -/
theorem State.Sound.resetNow {s : State} (h : s.Sound) (b : Bool) : (s.resetNow b).Sound := by
  unfold State.resetNow
  split
  · exact (State.Sound.restart s _).withLink ((Link.reset_sound _).withBreak _)
  · exact h

theorem State.Sound.dark (s : State) : s.dark.Sound where
  drive := State.reset_sound.drive
  rot := State.reset_sound.rot
  link := State.reset_sound.link
  cache := Cache.reset_sound
  cap := Capture.idle_sound
  card := State.reset_sound.card

/-! ## The mount table -/

theorem State.Sound.leaveMounted {s : State} (h : s.Sound) (st : MountState) : (s.leaveMounted st).Sound := by
  unfold State.leaveMounted
  simp only
  have h1 := h.captureAbandon
  refine State.Sound.reworkSpin (State.Sound.setLatch (State.Sound.dropDeadFill ?_))
  exact ⟨h1.drive, h1.rot, h1.link, h1.cache.leaveMounted, h1.cap, h1.card⟩

theorem State.Sound.clearMount {s : State} (h : s.Sound) : s.clearMount.Sound :=
  ((h.withCache h.cache.release).withMount _).setLatch

theorem State.Sound.endMount {s : State} (h : s.Sound) (n : Nat) : (s.endMount n).Sound := h.clearMount.post _

theorem State.Sound.drainCheck {s : State} (h : s.Sound) : s.drainCheck.Sound := by
  unfold State.drainCheck
  split
  · exact h.endMount 0
  · exact h

theorem State.Sound.postFlushDone {s : State} (h : s.Sound) (ok : Bool) : (s.postFlushDone ok).Sound := by
  unfold State.postFlushDone
  split
  · exact (h.withCache (h.cache.withArmed false)).post _
  · exact h

theorem State.Sound.flushDoneCheck {s : State} (h : s.Sound) : s.flushDoneCheck.Sound := by
  unfold State.flushDoneCheck
  split
  · exact h.postFlushDone true
  · exact h

theorem State.Sound.enterDraining {s : State} (h : s.Sound) : s.enterDraining.Sound := by
  unfold State.enterDraining
  simp only
  exact (State.Sound.withCache (h.leaveMounted .draining) ((h.leaveMounted .draining).cache.joinAll _ _)).drainCheck

theorem State.Sound.enterLost {s : State} (h : s.Sound) : s.enterLost.Sound := by
  unfold State.enterLost
  have h1 := h.leaveMounted .lost
  have h2 : ({ s.leaveMounted .lost with cache := { (s.leaveMounted .lost).cache with flushQ := [] } } : State).Sound :=
    h1.withCache (h1.cache.withQueue (by simp) (by simp))
  have h3 : ({ s.leaveMounted .lost with cache := { (s.leaveMounted .lost).cache with flushQ := [] } } : State).withdrawMountRun.Sound := by
    unfold State.withdrawMountRun
    split
    · split
      · exact h2
      · exact h2.withdraw
    · exact h2
  refine h3.inFreeOrder _ (fun f hf t ht => ?_)
  rcases List.mem_append.mp hf with hf | hf
  · split at hf
    · rw [List.mem_singleton.mp hf]
      exact ht.postFlushDone false
    · exact absurd hf (by simp)
  · rw [List.mem_singleton.mp hf]
    exact ht.post _

theorem State.Sound.cardDeparts {s : State} (h : s.Sound) : s.cardDeparts.Sound := by
  unfold State.cardDeparts
  split
  · exact h
  · split
    · exact (h.leaveMounted .unmounted).endMount 0
    · exact h.enterLost

theorem State.Sound.acceptMount {s : State} (h : s.Sound) (ro so : Bool) (chain : List Extent) : (s.acceptMount ro so chain).Sound := by
  unfold State.acceptMount
  simp only
  exact ((State.Sound.withMount (h.withCache (h.cache.setDefects _ (by simp))) _).setLatch.arrival _).reworkSpin

/-! ## The card engine -/

theorem State.Sound.postCard {s : State} (h : s.Sound) : s.postCard.Sound := h.post _

theorem State.Sound.cardInsert {s : State} (h : s.Sound) : s.cardInsert.Sound := by
  unfold State.cardInsert
  simp only
  split
  · refine State.Sound.postCard ?_
    exact ⟨h.drive, h.rot, h.link, h.cache, h.cap, ⟨Nat.zero_le _⟩⟩
  · exact h.withInputs _

theorem State.Sound.bringUpFails {s : State} (h : s.Sound) : s.bringUpFails.Sound := by
  refine State.Sound.postCard (State.Sound.withCard h ?_)
  exact h.card.failures

theorem State.Sound.bringUpEnds {s : State} (h : s.Sound) (ok : Bool) (n : Nat) (wp : Bool) : (s.bringUpEnds ok n wp).Sound := by
  unfold State.bringUpEnds
  split
  · exact h
  · split
    · refine State.Sound.postCard (State.Sound.withCard h ?_)
      exact h.card.failures
    · exact h.bringUpFails

theorem State.Sound.bringUpExpires {s : State} (h : s.Sound) : s.bringUpExpires.Sound := by
  unfold State.bringUpExpires
  split
  · exact h.bringUpFails
  · exact h.withCard h.card.failures

theorem State.Sound.answerPanel {s : State} (h : s.Sound) (st : ReplyStatus) (d : Byte) (bs : List Byte) : (s.answerPanel st d bs).Sound :=
  State.Sound.withLink (s := { s with card := { s.card with panel := none } }) (h.withCard h.card.failures)
    (Link.answer_sound h.link _ _ _)

theorem State.Sound.answerWaitingPanel {s : State} (h : s.Sound) (st : ReplyStatus) (d : Byte) : (s.answerWaitingPanel st d).Sound := by
  unfold State.answerWaitingPanel
  split
  · exact h.answerPanel _ _ _
  · exact h

theorem State.Sound.finishRun {s : State} (h : s.Sound) (r : Run) (st : RunStatus) : (s.finishRun r st).Sound := h.withCard h.card.failures

theorem State.Sound.setFailures {s : State} (h : s.Sound) {n : Nat} (hn : n ≤ 4) : (s.setFailures n).Sound := h.withCard hn

theorem State.Sound.start {s : State} (h : s.Sound) (r : Run) : (s.start r).Sound := h.withCard h.card.failures

theorem State.Sound.extentReached {s : State} (h : s.Sound) (r : Run) : (s.extentReached r).Sound := by
  unfold State.extentReached
  split
  · exact h
  · split
    · exact h
    · split
      · exact h.post _
      · exact h

theorem State.Sound.flushRunDone {s : State} (h : s.Sound) (r : Run) : (s.flushRunDone r).Sound := by
  unfold State.flushRunDone
  split
  · exact h
  · simp only
    refine State.Sound.drainCheck (State.Sound.extentReached (State.Sound.flushDoneCheck ?_) _)
    split
    · split
      · exact h.withCache (h.cache.writeDone _ _ _ _)
      · exact h
    · exact h

theorem State.Sound.mergeReadDone {s : State} (h : s.Sound) (r : Run) : (s.mergeReadDone r).Sound := by
  have h1 : ({ s with card := { s.card with mergeBuf := [] } } : State).Sound := h.withCard h.card.failures
  unfold State.mergeReadDone
  simp only
  split
  · split
    · exact (h1.makeFlush _ _ _ _ _).start _
    · exact h1
  · exact h1

theorem State.Sound.runDone {s : State} (h : s.Sound) (r : Run) : (s.runDone r).Sound := by
  have h1 := (h.finishRun r .done).setFailures (n := 0) (by omega)
  unfold State.runDone State.handDone
  split
  · exact h1
  · exact h1.flushRunDone r
  · exact h1.mergeReadDone r
  · exact h1.answerPanel _ _ _
  · exact h1.answerPanel _ _ _

theorem State.Sound.boundary {s : State} (h : s.Sound) (r : Run) : (s.boundary r).Sound := by
  unfold State.boundary
  split
  · exact h.finishRun _ _
  · split
    · exact h.runDone r
    · exact h.withCard h.card.failures

theorem State.Sound.deliverFill {s : State} (h : s.Sound) (r : Run) (data : List Byte) : (s.deliverFill r data).Sound := by
  unfold State.deliverFill
  split
  · split
    · exact h
    · refine State.Sound.reacting ?_
      exact h.withCache (h.cache.deliver _ _ _ _ _)
  · exact h

theorem State.Sound.handBlock {s : State} (h : s.Sound) (r : Run) (data : List Byte) : (s.handBlock r data).1.Sound := by
  unfold State.handBlock
  split
  · exact h.deliverFill r data
  · exact h.withCard h.card.failures
  · exact h
  · exact h
  · exact h

theorem State.Sound.blockReceived {s : State} (h : s.Sound) (data : List Byte) : (s.blockReceived data).Sound := by
  unfold State.blockReceived
  split
  · exact h
  · rename_i r _
    have h1 := h.handBlock r data
    exact State.Sound.withCard h1 h1.card.failures

theorem State.Sound.blockDone {s : State} (h : s.Sound) (data : List Byte) : (s.blockDone data).Sound := by
  unfold State.blockDone State.blockBoundary
  split
  · exact h.blockReceived data
  · exact (h.blockReceived data).boundary _

theorem State.Sound.fillFailed {s : State} (h : s.Sound) (r : Run) (e : RunError) : (s.fillFailed r e).Sound := by
  unfold State.fillFailed
  split
  · split
    · exact h
    · simp only
      split
      · exact (h.withCache (h.cache.failFill _ _ _ _)).post _
      · exact h.withCache (h.cache.failFill _ _ _ _)
  · exact h

theorem State.Sound.countFailure {s : State} (h : s.Sound) (r : Run) : (s.countFailure r).Sound := by
  unfold State.countFailure
  split
  · exact h
  · split
    · exact h
    · simp only
      split
      · exact (h.withCache (h.cache.countFailure _)).enterLost
      · exact h.withCache (h.cache.countFailure _)

theorem State.Sound.requeue {s : State} (h : s.Sound) (r : Run) (also : List Nat) : (s.requeue r also).Sound := by
  unfold State.requeue
  have hj := fun p => h.cache.join p
  split
  · exact h
  · simp only
    split
    · rename_i f hf
      split
      · rename_i hc
        exact h.withCache ((hj _).queueFront ((hj _).queued f (by simpa using hc.2)))
      · exact h.withCache (hj _)
    · exact h.withCache (hj _)

theorem State.Sound.postWritten {s : State} (h : s.Sound) (tracks : List Track) : (s.postWritten tracks).Sound :=
  foldl_preserves State.Sound _ _ _ h (fun _ _ _ ht => ht.post _)

theorem State.Sound.flushFailed {s : State} (h : s.Sound) (r : Run) : (s.flushFailed r).Sound := by
  unfold State.flushFailed
  split
  · exact h
  · have h1 := h.unflush r
    exact ((((h1.withCache (h1.cache.dirtyOverlap _ _)).countFailure r).requeue r _).postFlushDone false).postWritten _

theorem State.Sound.handFailure {s : State} (h : s.Sound) (r : Run) (e : RunError) : (s.handFailure r e).Sound := by
  unfold State.handFailure
  split
  · exact h.fillFailed r e
  · exact h.flushFailed r
  · unfold State.mergeFailed
    have h1 : ({ s with card := { s.card with mergeBuf := [] } } : State).Sound := h.withCard h.card.failures
    simp only
    split
    · exact h1
    · exact ((h1.countFailure r).requeue r []).postFlushDone false
  · exact h.answerPanel _ _ _
  · exact h.answerPanel _ _ _

theorem State.Sound.engineFails {s : State} (h : s.Sound) : s.engineFails.Sound := (h.withdraw.answerWaitingPanel _ _).postCard

theorem State.Sound.cardFails {s : State} (h : s.Sound) (r : Run) (e : RunError) : (s.cardFails r e).Sound := by
  have h1 := (h.finishRun r (.failed e)).setFailures (n := 4) (by omega)
  unfold State.cardFails
  simp only
  split
  · refine (State.Sound.handFailure ?_ r e).engineFails.cardDeparts
    exact ⟨h1.drive, h1.rot, h1.link, h1.cache, h1.cap, ⟨h1.card.failures⟩⟩
  · refine State.Sound.inFreeOrder ?_ _ (fun f hf t ht => ?_)
    · exact ⟨h1.drive, h1.rot, h1.link, h1.cache, h1.cap, ⟨h1.card.failures⟩⟩
    simp only [List.mem_cons, List.not_mem_nil, or_false] at hf
    rcases hf with rfl | rfl
    · exact State.Sound.reacting (ht.handFailure r e)
    · exact ht.engineFails.cardDeparts

theorem State.Sound.attemptFails {s : State} (h : s.Sound) (e : RunError) : (s.attemptFails e).Sound := by
  unfold State.attemptFails
  split
  · exact h.withCard h.card.failures
  · rename_i r _
    split
    · exact h.cardFails r e
    · rename_i hlt
      have h1 := h.setFailures (n := s.card.failCount + 1) (by omega)
      simp only
      split
      · unfold State.retryFill
        split
        · exact h1.withCard h1.card.failures
        · exact h1.finishRun _ _
      · exact (h1.finishRun _ _).handFailure _ _

theorem State.Sound.cardLost {s : State} (h : s.Sound) (r : Option Run) : (s.cardLost r).Sound := by
  unfold State.cardLost
  split
  · exact h.cardDeparts
  · split
    · exact h.cardDeparts
    · split
      · exact (h.handFailure _ _).cardDeparts
      · refine h.inFreeOrder _ (fun f hf t ht => ?_)
        simp only [List.mem_cons, List.not_mem_nil, or_false] at hf
        rcases hf with rfl | rfl
        · exact State.Sound.reacting (ht.handFailure _ _)
        · exact ht.cardDeparts

theorem State.Sound.cardRemove {s : State} (h : s.Sound) : s.cardRemove.Sound := by
  unfold State.cardRemove
  simp only
  split
  · exact h.withInputs _
  · have h1 : ({ s with inputs := { s.inputs with cardDetect := false } } : State).dropRuns.Sound := by
      unfold State.dropRuns
      refine State.Sound.withdraw ?_
      split
      · exact (h.withInputs _).finishRun _ _
      · exact h.withInputs _
    have h1' := h1.answerWaitingPanel .cardFault RunError.cardGone.code
    refine State.Sound.cardLost (State.Sound.postCard ?_) _
    exact ⟨h1'.drive, h1'.rot, h1'.link, h1'.cache, h1'.cap, ⟨Nat.zero_le _⟩⟩

theorem State.Sound.idleExpires {s : State} (h : s.Sound) : s.idleExpires.Sound := by
  unfold State.idleExpires
  split
  · exact h
  · simp only
    split
    · exact State.Sound.withCache (h.withCache (h.cache.withIdle none)) ((h.cache.withIdle none).joinAll _ _)
    · exact h.withCache (h.cache.withIdle none)

/-! ## The requests -/

theorem State.Sound.setOptions {s : State} (h : s.Sound) {o : Options} (ho : o.Sound) : (s.setOptions o).Sound := by
  have h1 : ({ s with link := { s.link with options := o } } : State).Sound :=
    h.withLink ⟨h.link.notices, h.link.own, h.link.request, ho⟩
  have h2 : (s.putOptions o).Sound := by
    unfold State.putOptions
    simp only
    split
    · exact h1.lookAhead
    · exact h1
  exact ((h2.answer _ _ _).reworkSelect).reworkSpin

theorem State.Sound.doOptions {s : State} (h : s.Sound) (p : List Byte) : (s.doOptions p).Sound := by
  unfold State.doOptions
  split
  · exact h.answer _ _ _
  · rename_i he
    exact h.setOptions (applyOptions_sound h.link.options p he)

theorem State.Sound.setProfile {s : State} (h : s.Sound) (g : Geometry) : (s.setProfile g).Sound := by
  have hp := g.profile.rpm.period_large
  refine ⟨h.drive, ?_, h.link, h.cache, h.cap, h.card⟩
  simp only [State.setProfile_rot, State.setProfile_prof]
  unfold Rotation.underPeriod
  split
  · exact ⟨by simp only; omega, by simp⟩
  · split
    · rename_i hc
      exact ⟨hc.2, by simp⟩
    · exact ⟨by omega, h.rot.fine⟩

theorem State.Sound.doProfile {s : State} (h : s.Sound) (p : List Byte) : (s.doProfile p).Sound := by
  unfold State.doProfile
  split
  · exact h.answer _ _ _
  · split
    · exact h.answer _ _ _
    · split
      · exact h.answer _ _ _
      · exact (h.setProfile _).answer _ _ _

theorem State.Sound.doMount {s : State} (h : s.Sound) (p : List Byte) : (s.doMount p).Sound := by
  unfold State.doMount
  simp only
  split
  · exact h.answer _ _ _
  · exact h.answer _ _ _
  · exact h.answer _ _ _
  · exact (h.acceptMount _ _ _).answer _ _ _

theorem State.Sound.doUnmount {s : State} (h : s.Sound) : s.doUnmount.Sound := by
  unfold State.doUnmount
  split
  · exact h.answer _ _ _
  · exact (h.answer _ _ _).enterDraining
  · exact h.answer _ _ _
  · exact (h.clearMount.answer _ _ _).post _

theorem State.Sound.doFlush {s : State} (h : s.Sound) : s.doFlush.Sound := by
  unfold State.doFlush
  split
  · exact h.answer _ _ _
  · have h1 := h.answer .ok 0#8 []
    exact (h1.withCache ((h1.cache.joinAll _ _).withArmed true)).flushDoneCheck

theorem State.Sound.setPanel {s : State} (h : s.Sound) (w : Bool) (blk : Nat) (bs : List Byte) : (s.setPanel w blk bs).Sound :=
  h.withCard h.card.failures

theorem State.Sound.doCardRead {s : State} (h : s.Sound) (p : List Byte) : (s.doCardRead p).Sound := by
  unfold State.doCardRead
  split
  · exact h.answer _ _ _
  · split
    · exact h.answer _ _ _
    · exact h.setPanel _ _ _

theorem State.Sound.doCardWrite {s : State} (h : s.Sound) (p : List Byte) : (s.doCardWrite p).Sound := by
  unfold State.doCardWrite
  split
  · exact h.answer _ _ _
  · split
    · exact h.answer _ _ _
    · split
      · exact h.answer _ _ _
      · split
        · exact h.answer _ _ _
        · exact h.setPanel _ _ _

theorem State.Sound.doDefects {s : State} (h : s.Sound) (p : List Byte) : (s.doDefects p).Sound := by
  have h1 := fun st d bs => h.answer st d bs
  unfold State.doDefects
  simp only
  split
  · exact (h1 _ _ _).withCache (h.cache.setDefects _ (by simp))
  · exact h1 _ _ _

theorem State.Sound.doReset {s : State} (h : s.Sound) (p : List Byte) : (s.doReset p).Sound := by
  unfold State.doReset
  split
  · exact h.answer _ _ _
  · exact (h.withLink (Link.markReset_sound h.link)).answer _ _ _

theorem State.Sound.request {s : State} (h : s.Sound) (kind : Nat) (tag : Byte) (p : List Byte) {body : State → State}
    (hb : ∀ t : State, t.Sound → (body t).Sound) : (s.request kind tag p body).Sound := by
  unfold State.request
  have h1 : ({ s with link := s.link.rxIdle } : State).Sound := h.withLink (Link.rxIdle_sound h.link)
  split
  · exact h
  · simp only
    split
    · exact h1.withLink (Link.offer_sound h1.link _ _ _)
    · rename_i hx
      have h2 : ({ s with link := s.link.rxIdle.enter (byteOf kind) tag } : State).Sound :=
        h.withLink (Link.enter_sound h1.link (by simpa using hx) _ _)
      unfold State.checked
      split
      · exact h2.answer _ _ _
      · split
        · exact h2.answer _ _ _
        · exact hb _ h2

theorem State.Sound.takeStatus {s : State} (h : s.Sound) (tag : Byte) (p : List Byte) : (s.takeStatus tag p).Sound :=
  h.request _ _ _ (fun _ ht => ht.answer _ _ _)
theorem State.Sound.takeOptions {s : State} (h : s.Sound) (tag : Byte) (p : List Byte) : (s.takeOptions tag p).Sound :=
  State.Sound.tendingWhen _ (h.request _ _ _ (fun _ ht => ht.doOptions p))
theorem State.Sound.takeProfile {s : State} (h : s.Sound) (tag : Byte) (p : List Byte) : (s.takeProfile tag p).Sound :=
  h.request _ _ _ (fun _ ht => ht.doProfile p)
theorem State.Sound.takeMount {s : State} (h : s.Sound) (tag : Byte) (p : List Byte) : (s.takeMount tag p).Sound :=
  State.Sound.tendingWhen _ (h.request _ _ _ (fun _ ht => ht.doMount p))
theorem State.Sound.takeUnmount {s : State} (h : s.Sound) (tag : Byte) (p : List Byte) : (s.takeUnmount tag p).Sound :=
  State.Sound.settlingWhen _ (h.request _ _ _ (fun _ ht => ht.doUnmount))
theorem State.Sound.takeFlush {s : State} (h : s.Sound) (tag : Byte) (p : List Byte) : (s.takeFlush tag p).Sound :=
  State.Sound.settlingWhen _ (h.request _ _ _ (fun _ ht => ht.doFlush))
theorem State.Sound.takeCardRead {s : State} (h : s.Sound) (tag : Byte) (p : List Byte) : (s.takeCardRead tag p).Sound :=
  State.Sound.settlingWhen _ (h.request _ _ _ (fun _ ht => ht.doCardRead p))
theorem State.Sound.takeCardWrite {s : State} (h : s.Sound) (tag : Byte) (p : List Byte) : (s.takeCardWrite tag p).Sound :=
  State.Sound.settlingWhen _ (h.request _ _ _ (fun _ ht => ht.doCardWrite p))
theorem State.Sound.takeDefects {s : State} (h : s.Sound) (tag : Byte) (p : List Byte) : (s.takeDefects tag p).Sound :=
  h.request _ _ _ (fun _ ht => ht.doDefects p)
theorem State.Sound.takeReset {s : State} (h : s.Sound) (tag : Byte) (p : List Byte) : (s.takeReset tag p).Sound :=
  h.request _ _ _ (fun _ ht => ht.doReset p)

theorem State.Sound.takeUnknown {s : State} (h : s.Sound) (tag : Byte) : (s.takeUnknown tag).Sound := by
  unfold State.takeUnknown
  split
  · exact h
  · exact h.withLink (Link.offer_sound (Link.rxIdle_sound h.link) _ _ _)

theorem State.Sound.takeBadFrame {s : State} (h : s.Sound) : s.takeBadFrame.Sound := by
  unfold State.takeBadFrame
  split
  · exact h
  · exact h.withLink (Link.offer_sound (Link.rxIdle_sound h.link) _ _ _)

theorem State.Sound.discardFrame {s : State} (h : s.Sound) : s.discardFrame.Sound := h.withLink (Link.rxIdle_sound h.link)

theorem State.Sound.dispatch {s : State} (h : s.Sound) (kind tag : Byte) (p : List Byte) : (s.dispatch kind tag p).Sound := by
  unfold State.dispatch
  split
  · exact h.takeStatus _ _
  · exact h.takeOptions _ _
  · exact h.takeProfile _ _
  · exact h.takeMount _ _
  · exact h.takeUnmount _ _
  · exact h.takeFlush _ _
  · exact h.takeCardRead _ _
  · exact h.takeCardWrite _ _
  · exact h.takeDefects _ _
  · exact h.takeReset _ _
  · exact h.takeUnknown _

theorem State.Sound.character {s : State} (h : s.Sound) (c : Byte) : (s.character c).Sound := by
  have hg : ∀ st bs, (s.rxGoOn st bs).Sound := fun st bs => h.withLink (Link.rxGoOn_sound h.link st bs)
  unfold State.character
  split
  · exact h
  · simp only
    split
    · split
      · exact hg _ _
      · exact h
    · unfold State.rxLength
      split
      · exact hg _ _
      · split
        · exact hg _ _
        · exact h.discardFrame
    · exact hg _ _
    · split
      · unfold State.frameDone
        split
        · exact h.discardFrame.dispatch _ _ _
        · exact h.discardFrame.takeBadFrame
      · exact hg _ _

/-! ## Rotation, stream, clock -/

theorem State.Sound.wrap {s : State} (h : s.Sound) : s.wrap.Sound := by
  have hp := s.prof.profile.rpm.period_large
  exact (h.withRot (r := { s.rot with t := 0, fine := 0 }) (by simp only; omega) (by simp)).captureWrap

theorem State.Sound.pulseEnd {s : State} (h : s.Sound) : s.pulseEnd.Sound := by
  have hp := s.prof.profile.rpm.period_large
  unfold State.pulseEnd
  split
  · exact h.withRot (r := { s.rot with t := 6000, fine := 0 }) (by simp only; omega) (by simp)
  · exact h

theorem State.Sound.decideSlot {s : State} (h : s.Sound) : s.decideSlot.Sound := by
  unfold State.decideSlot
  split
  · split
    · exact h.withPres _
    · exact h
  · exact h

theorem State.Sound.decideIndex {s : State} (h : s.Sound) : s.decideIndex.Sound := by
  unfold State.decideIndex
  split
  · split
    · exact h.withPres _
    · exact h
  · exact h

/-- The stream touches the presentation unit alone. -/
theorem State.present_outside (s : State) : s.present = { s with pres := s.present.pres } := by
  have hb : ∀ t : State, t.beginByte = { t with pres := t.beginByte.pres } := by
    intro t
    unfold State.beginByte
    simp only
    split <;> rfl
  unfold State.present
  split
  · rfl
  · split
    · rfl
    · simp only
      split
      · split
        · conv_lhs => rw [hb s]
        · conv_lhs => rw [hb s]
      · split <;> rfl

theorem State.Sound.advance {s : State} (h : s.Sound) : s.advance.Sound := by
  unfold State.advance
  rw [s.present_outside]
  refine ⟨h.drive, ⟨?_, ?_⟩, Link.tick_sound h.link, h.cache.withIdle _, h.cap.tick, ⟨h.card.failures⟩⟩
  · simp only [Rotation.tick]
    split
    · exact h.rot.inRevolution
    · split
      · rename_i hlt
        exact hlt
      · exact h.rot.inRevolution
  · simp only [Rotation.tick]
    split
    · rename_i hlt
      have : s.rot.fine < 7 := hlt
      simp only
      omega
    · split <;> simp

theorem State.Sound.tick {s : State} (h : s.Sound) : s.tick.Sound := by
  unfold State.tick
  split
  · exact h
  · split
    · exact h.advance
    · exact ⟨h.drive, h.rot, h.link, h.cache, h.cap, h.card⟩
    · exact ⟨h.drive, h.rot, h.link, h.cache, h.cap, h.card⟩

end Sys2Proof.Machine
end

