-- ==== Sys2Proof/WellFormed.lean ====
section
/-! DEFINITION. Which operands a command can carry at all: the frame and block sizes of the spec. -/

namespace Sys2Proof

/-- The largest payload of a frame (09 section 9.2): the length lies in 2..530 and counts kind and tag too. -/
abbrev maxPayload : Nat := 528

/-- A request kind, 01 hex..0A hex (09 section 9.2). -/
abbrev isRequestKind (kind : Byte) : Bool := 1 ≤ kind.toNat && kind.toNat ≤ 10

/-- The operands are ones the rows can carry: a payload fits its frame, UNKNOWN_KIND is no request kind (R168), a block
carries 512 bytes, or none when the run writes (R145). -/
def wellFormed : Instr → Bool
  | .powerOn _ => true
  | .powerFail => true
  | .status _ p => p.length ≤ maxPayload
  | .options _ p => p.length ≤ maxPayload
  | .profile _ p => p.length ≤ maxPayload
  | .mount _ p => p.length ≤ maxPayload
  | .unmount _ p => p.length ≤ maxPayload
  | .flush _ p => p.length ≤ maxPayload
  | .cardRead _ p => p.length ≤ maxPayload
  | .cardWrite _ p => p.length ≤ maxPayload
  | .defects _ p => p.length ≤ maxPayload
  | .reset _ p => p.length ≤ maxPayload
  | .unknownKind k _ => !isRequestKind k
  | .frameError => true
  | .badLengthDiscard => true
  | .framingFault => true
  | .interCharacterTimeout => true
  | .frameSent => true
  | .resetTakesEffect _ => true
  | .linkBreak => true
  | .linkBreakEnd => true
  | .driveSelectChange _ _ => true
  | .step _ => true
  | .sideChange _ => true
  | .motorOnChange _ => true
  | .spinUpTimerExpiry => true
  | .rotationWrap => true
  | .indexPulseEnd => true
  | .indexFieldDecision => true
  | .slotDecision => true
  | .writeGateRise => true
  | .writeDataFluxChange => true
  | .huntDeadline => true
  | .slotEndDuringCapture => true
  | .writeGateFall => true
  | .idleFlushTimerExpiry => true
  | .cardInserted => true
  | .bringUpDone _ _ _ => true
  | .bringUpLimitExpiry => true
  | .cardRemoved => true
  | .blockTransferDone d => d.length == 512 || d.length == 0
  | .blockLimitExpiry => true
  | .blockCardError => true
  | .emptyCell => true
  | .characterReceived _ => true

end Sys2Proof
end

