-- ==== Sys2Proof/Tests/Slice0.lean ====
section
/-! SUPPORT. Tests: operands that no command can carry are refused; figures that the spec gives come out; and for each statement with
hypotheses a state and operands that meet them, clause by clause, at boundary values. -/

open Sys2Proof Sys2Proof.Machine

namespace Sys2Proof.Tests

-- Kernel evaluations wait for each other: one at a time they need no thread, and no stack of its own, each.
set_option Elab.async false

/-! ## Well-formed operands -/

theorem test_payload_of_529_is_ill_formed : wellFormed (.status 0#8 (List.replicate 529 0#8)) = false := by
  simp only [wellFormed, List.length_replicate]; decide
theorem test_payload_of_528_is_well_formed : wellFormed (.cardWrite 0#8 (List.replicate 528 0#8)) = true := by
  simp only [wellFormed, List.length_replicate]; decide
theorem test_each_request_payload_is_bounded (p : List Byte) (h : maxPayload < p.length) :
    ∀ k < 11, ∀ c ∈ requestRow k 0#8 p, wellFormed c = false := by
  intro k hk c hc
  have h' : decide (p.length ≤ maxPayload) = false := by simpa using h
  interval_cases k <;> simp [requestRow] at hc <;> subst hc <;> exact h'
theorem test_request_kind_is_no_unknown_kind :
    wellFormed (.unknownKind 0x01#8 0#8) = false ∧ wellFormed (.unknownKind 0x0A#8 0#8) = false ∧
      wellFormed (.unknownKind 0x0B#8 0#8) = true ∧ wellFormed (.unknownKind 0x00#8 0#8) = true := by decide
theorem test_block_carries_512_bytes_or_none :
    wellFormed (.blockTransferDone (List.replicate 511 0#8)) = false ∧ wellFormed (.blockTransferDone (List.replicate 513 0#8)) = false ∧
      wellFormed (.blockTransferDone (List.replicate 512 0#8)) = true ∧ wellFormed (.blockTransferDone []) = true := by
  simp only [wellFormed, List.length_replicate, List.length_nil]; decide

/-! ## Figures of the spec -/

theorem test_check_of_nine_characters :
    crcBytes crcPreset [0x31#8, 0x32#8, 0x33#8, 0x34#8, 0x35#8, 0x36#8, 0x37#8, 0x38#8, 0x39#8] = 0x29B1#16 := by decide +kernel
theorem test_check_after_three_A1 : crcBytes crcPreset [0xA1#8, 0xA1#8, 0xA1#8] = 0xCDB4#16 := by decide +kernel
theorem test_gap_sync_and_mark_cells :
    encodeByte .mfm false .plain 0x4E#8 = 0x9254#16 ∧ encodeByte .mfm false .plain 0#8 = 0xAAAA#16 ∧
      encodeByte .fm false .address 0xFE#8 = 0xF57E#16 ∧ encodeByte .fm false .index 0xFC#8 = 0xF77A#16 := by decide
theorem test_d0_layout_is_the_fit : layoutOf .rpm300 d0Zone = some d0Layout := by decide
theorem test_d0_image_has_1440_blocks : d0.imageBlocks = 1440 := by decide +kernel
theorem test_no_word_spells_a_command : decodeTableWord 8 0 = none ∧ State.reset.withFetchWord 8 0 = State.reset := by decide

/-! ## States for the witnesses -/

/-- The track cache with line 0 pinned for track (0, 0), every sector of it in one state. -/
def cacheOf (st : SectorState) : Cache :=
  { Cache.reset with lines :=
      { tag := some ⟨0, 0⟩, zone := 0, origin := .demand, pinned := true, failures := 0,
        sectors := List.replicate 9 { state := st, hole := false, defective := false, progress := [], stamp := 0 } }
      :: List.replicate 7 Line.free }

/-- A mount of D0 in a state. -/
def mountOf (st : MountState) : Mount :=
  { state := st, geom := some d0, chain := [⟨100, 1440, false, true⟩], readOnly := false, shortOk := false, imageSize := 737280,
    blocks := 1440, total := 1440, serial := 1 }

/-- A card in a state, of 2,000 blocks. -/
def cardOf (st : CardState) : Card := { Card.reset with state := st, capacity := 2000 }

/-- Selected and turning, with a mounted image; the rotation time and the sectors' state as given. -/
def turning (t : Nat) (st : SectorState) : State :=
  { State.reset with
    inputs := { Inputs.released with select0 := true, motorOn := true, cardDetect := true }
    drive := { selected := true, head := 0, side := false, lastIn := false, latch := true, gateActive := false }
    rot := { t := t, fine := 0, state := .atSpeed, spinTimer := none }
    mount := mountOf .mounted, cache := cacheOf st, card := cardOf .ready }

/-- A capture in a state on slot 0 of track (0, 0), with the gate active. -/
def capturing (t : Nat) (st : CaptureState) : State :=
  { turning t .capture with
    inputs := { (turning t .capture).inputs with writeGate := true }
    drive := { (turning t .capture).drive with gateActive := true }
    cap := Capture.begin st (some ⟨0, 0⟩) (some 0) 0 0 0 }

/-- No image mounted, the card in a state. -/
def idle (c : CardState) : State := { State.reset with card := cardOf c }

/-- The mount in a state, nothing selected. -/
def still (m : MountState) (c : Cache) : State := { State.reset with mount := mountOf m, cache := c, card := cardOf .ready }

/-- A request in execution. -/
def request (kind : Byte) : Request := { kind := kind, tag := 7#8, made := false, drop := false, resets := false }

/-- Replies of the link unit's own. -/
def busyReplies (n : Nat) : List Reply := List.replicate n { kind := 0x81#8, tag := 1#8, payload := [1#8, 0#8], ofRequest := false }


/-- Eight unpinned lines with tracks (0, 0) to (7, 0), every sector in one state. -/
def fullCache (st : SectorState) : Cache :=
  { Cache.reset with lines := (List.range 8).map (fun k =>
      { tag := some ⟨k, 0⟩, zone := 0, origin := .ahead, pinned := false, failures := 0,
        sectors := List.replicate 9 { state := st, hole := false, defective := false, progress := [], stamp := 0 } }) }

/-- D0 with sectors of 128 bytes, of which four share a block. -/
def d0Small : Geometry :=
  { profile := { d0.profile with zones := [{ d0Zone with sizeCode := 0 }] },
    layouts := [{ d0Layout with sectorSize := 128, slotLen := 274, slotsEnd := 2612, gap4b := 3638, trackBytes := 1152 }] }

theorem test_turning_follows : (turning 16128 .clean).Follows :=
  ⟨by decide, by decide, by decide, by decide, by decide, by decide, by decide⟩
theorem test_idle_follows : (idle .ready).Follows := ⟨by decide, by decide, by decide, by decide, by decide, by decide, by decide⟩
theorem test_still_follows : (still .draining (cacheOf .dirty)).Follows ∧ (still .lost (cacheOf .dirty)).Follows ∧ (still .mounted (cacheOf .dirty)).Follows :=
  ⟨⟨by decide, by decide, by decide, by decide, by decide, by decide, by decide⟩,
    ⟨by decide, by decide, by decide, by decide, by decide, by decide, by decide⟩,
    ⟨by decide, by decide, by decide, by decide, by decide, by decide, by decide⟩⟩

theorem test_cacheOf_sound (st : SectorState) : (cacheOf st).Sound where
  lines := rfl
  lru := List.Perm.refl _
  pins := by cases st <;> decide
  tags := by cases st <;> decide
  queue := List.nodup_nil
  queued := fun _ h => absurd h (by simp [cacheOf, Cache.reset])
  waits := fun _ h => absurd h (by simp [cacheOf, Cache.reset])
  defects := Nat.zero_le _
  ram := ⟨List.Pairwise.nil, fun _ h => absurd h (by simp [cacheOf, Cache.reset])⟩


theorem test_fullCache_sound (st : SectorState) : (fullCache st).Sound where
  lines := rfl
  lru := List.Perm.refl _
  pins := by cases st <;> decide
  tags := by cases st <;> decide
  queue := List.nodup_nil
  queued := fun _ h => absurd h (by simp [fullCache, Cache.reset])
  waits := fun _ h => absurd h (by simp [fullCache, Cache.reset])
  defects := Nat.zero_le _
  ram := ⟨List.Pairwise.nil, fun _ h => absurd h (by simp [fullCache, Cache.reset])⟩

/-! ## The machine -/

theorem test_front_command : ({ State.reset with pending := [.powerFail] } : State).pending = .powerFail :: [] := rfl
theorem test_tick_clauses :
    State.reset.due = [] ∧ ({ State.reset with rot := { State.reset.rot with fine := 8 } } : State).due = [.rotationWrap] ∧
      State.reset.pending = [] ∧ State.reset.dark.powered = false := by decide
theorem test_what_is_due :
    let tail := fun (t slot : Nat) => { capturing t .sectorTail with cap := { (capturing t .sectorTail).cap with slot := slot } }
    let r := State.reset
    ({ r with rot := { r.rot with fine := 8, spinTimer := some 0 } } : State).due = [.rotationWrap, .spinUpTimerExpiry] ∧
      (turning 14016 .clean).due = [.slotDecision] ∧ (turning 7680 .clean).due = [.indexFieldDecision] ∧ (turning 14017 .clean).due = [] ∧
      (capturing 20928 .hunt).due = [.huntDeadline] ∧ (capturing 20832 .hunt).due = [] ∧
      (tail 77184 0).due = [.slotEndDuringCapture] ∧ (tail 77088 0).due = [] ∧ (tail 0 8).due = [.slotEndDuringCapture] ∧
      ({ capturing 20832 .hunt with cap := { (capturing 20832 .hunt).cap with fluxOpen := some 72 } } : State).due = [.emptyCell] ∧
      ({ r with cache := { r.cache with idleTimer := some 0 }, card := { r.card with bringUp := some 0, blockLimit := some 0 }
                link := { r.link with rxTimer := some 0, tx := some { bytes := [], ofRequest := false, left := 0 } } } : State).due =
        [.idleFlushTimerExpiry, .bringUpLimitExpiry, .blockLimitExpiry, .interCharacterTimeout, .frameSent] := by decide +kernel
theorem test_sound_and_follows_meet_a_step :
    State.reset.Sound ∧ State.reset.Follows ∧ step State.reset = .next State.reset.tick :=
  ⟨State.reset_sound, ⟨by decide, by decide, by decide, by decide, by decide, by decide, by decide⟩, rfl⟩
theorem test_reset_due_both_ways :
    ({ State.reset with link := { State.reset.link with resetDue := true } } : State).link.resetDue = true ∧
      State.reset.link.resetDue = false ∧ State.reset.powered = true := by decide
theorem test_a_reset_in_a_break_keeps_the_break :
    let s := { State.reset with link := { State.reset.link with resetDue := true, breakLow := true } }
    (match exec (.resetTakesEffect true) s with
      | .next t => ((t.post (.flushDone true)).link.tx.isNone, t.link.breakLow, t.link.fast, t.link.resetDue)
      | _ => (false, false, false, true)) = (true, true, true, false) := by decide +kernel
theorem test_without_supply : State.reset.dark.powered = false ∧ (∀ x, Instr.linkBreak ≠ .powerOn x) ∧ Instr.linkBreak ≠ .powerFail :=
  ⟨rfl, by simp, by simp⟩
theorem test_outputs_asserted :
    (turning 5999 .clean).indexOut = true ∧ (turning 6000 .clean).indexOut = false ∧ (turning 0 .clean).track00Out = true ∧
      (turning 0 .clean).writeProtectOut = false ∧ (turning 0 .clean).line34Out = true := by decide

/-! ## Profiles -/

/-- A zone record of D0 with n, size code, encoding code and rate code as given. -/
def rawZone (n size enc rate : Nat) (order : Option (List Nat)) : RawZone :=
  { firstCyl := 0, lastCyl := 79, headSet := 2, encoding := enc, rate := rate, n := n, sizeCode := size, firstSector := 1, flags := 2#8,
    gap3 := 84, gap4a := 80, gap1 := 50, fill := 0xE5#8, order := order }

/-- A profile record of D0 around zones. -/
def rawProfile (zs : List RawZone) : RawProfile := { cylinders := 80, heads := 2, stepRatio := 1, rotation := 0, zones := zs }

/-- The encoded profile D0. -/
def d0Bytes : List Byte :=
  [80#8, 2#8, 1#8, 0#8, 1#8, 0#8, 79#8, 2#8, 1#8, 1#8, 9#8, 2#8, 1#8, 2#8, 84#8, 80#8, 50#8, 0xE5#8]

theorem test_rate_check_clauses :
    (rawZone 9 2 1 1 none).resolve = some d0Zone ∧ zoneInRange (rawProfile [rawZone 9 2 1 1 none]) d0Zone = true ∧
      zoneFault (rawProfile []) .rpm300 (rawZone 9 2 1 1 none) = none ∧ zoneFault (rawProfile []) .rpm300 (rawZone 9 2 1 2 none) = some .rate ∧
      zoneFault (rawProfile []) .rpm360 (rawZone 9 2 0 1 none) = some .rate ∧
      recordInRange (rawProfile ([rawZone 9 2 1 1 none] ++ rawZone 9 2 1 2 none :: [])) = true := by decide
theorem test_size_and_order_clauses :
    zoneFault (rawProfile []) .rpm300 (rawZone 12 3 1 3 none) = none ∧ zoneFault (rawProfile []) .rpm300 (rawZone 25 2 1 3 none) = some .dataSize ∧
      zoneFault (rawProfile []) .rpm300 (rawZone 1 6 1 1 none) = none ∧ fitGap3 .rpm300 { d0Zone with n := 1, sizeCode := 6 } = none ∧
      zoneFault (rawProfile []) .rpm300 (rawZone 3 2 1 1 (some [2, 0, 1])) = none ∧
      zoneFault (rawProfile []) .rpm300 (rawZone 3 2 1 1 (some [2, 0, 3])) = some .order ∧
      zoneFault (rawProfile []) .rpm300 (rawZone 3 2 1 1 (some [2, 0, 2])) = some .order ∧
      (parseZones 1 [0#8, 79#8, 2#8, 1#8, 1#8, 2#8, 2#8, 1#8, 3#8, 84#8, 80#8, 50#8, 0xE5#8, 1#8, 0#8]).isSome = true := by decide
theorem test_profile_checks_both_ways :
    checkProfile (rawProfile [rawZone 9 2 1 1 none]) = .accepted d0 ∧ recordInRange { rawProfile [] with cylinders := 85 } = false := by
  decide +kernel
theorem test_profile_accepted_and_refused :
    State.reset.takesRequests ∧ State.reset.mount.state = .unmounted ∧ State.reset.rot.fine = 0 ∧
      [d0Bytes.drop 5].length = (byteAt d0Bytes 4).toNat ∧ [d0Bytes.drop 5].flatten = d0Bytes.drop 5 ∧ (d0Bytes.drop 5).length = 13 ∧
      parseProfile d0Bytes = some (rawProfile [rawZone 9 2 1 1 none]) ∧
      checkProfile (rawProfile [rawZone 9 2 0 2 none]) = .refused .rate (some 0) ∧ (still .draining (cacheOf .dirty)).takesRequests :=
  ⟨⟨rfl, rfl, rfl⟩, by decide, by decide, by decide, by decide, by decide, by decide, by decide, ⟨rfl, rfl, rfl⟩⟩

theorem test_a_wrap_due_under_a_longer_revolution :
    let r : Rotation := { t := 499999, fine := 8, state := .stopped, spinTimer := none }
    r.underPeriod 600000 = { r with t := 500000, fine := 0 } ∧ r.underPeriod 500000 = r ∧ r.underPeriod 499999 = { r with t := 0, fine := 0 } := by
  decide
theorem test_zone_order_and_fit_clauses :
    checkProfile (rawProfile [rawZone 9 2 1 1 none, rawZone 9 2 1 1 none]) = .refused .overlap (some 0) ∧
      checkProfile (rawProfile [{ rawZone 9 2 1 1 none with lastCyl := 78 }]) = .refused .uncovered none ∧
      checkProfile (rawProfile [rawZone 1 6 1 1 none]) = .refused .layoutOverflow (some 0) ∧
      fitGap3 .rpm300 { d0Zone with gap3 := 105 } = some 104 ∧ fitGap3 .rpm300 { d0Zone with gap3 := 104 } = some 104 := by decide +kernel
/-! ## Requests -/

theorem test_length_and_flag_clauses :
    (∀ k ∈ [1, 2, 3, 4, 5, 6, 7, 8, 9, 10], (requestRow k 0#8 [0#8, 0#8, 0#8]).isSome = true ∧ lengthOk k [0#8, 0#8, 0#8] = false) ∧
      lengthOk 9 [2#8] = true ∧ flagsOk 9 [2#8] = false ∧ lengthOk 4 [4#8, 0#8] = true ∧ flagsOk 4 [4#8, 0#8] = false := by decide
theorem test_profile_length_and_flag_clauses :
    lengthOk 3 d0Bytes = true ∧ lengthOk 3 (d0Bytes ++ [0#8]) = false ∧ flagsOk 3 d0Bytes = true ∧ flagsOk 3 (d0Bytes.set 13 8#8) = false ∧
      lengthOk 3 ((d0Bytes.set 13 3#8) ++ [0#8, 1#8, 2#8, 3#8, 4#8, 5#8, 6#8, 7#8, 8#8]) = true := by decide
theorem test_busy_clauses :
    (busyReplies 2).countP (fun r => !r.ofRequest) < 3 ∧ 3 ≤ (busyReplies 3).countP (fun r => !r.ofRequest) := by decide
theorem test_status_hypotheses : (turning 0 .clean).takesRequests ∧ State.reset.cache.lru.length = 8 := ⟨⟨rfl, rfl, rfl⟩, rfl⟩
theorem test_options_accepted :
    (turning 16128 .clean).takesRequests ∧ (turning 16128 .clean).Follows ∧
      ofLe (bytesAt [0xFF#8, 1#8, 3#8, 1#8, 1#8, 0xE8#8, 3#8, 0#8, 0#8, 0#8, 100#8, 1#8, 0#8] 0 2) < 512 ∧
      enumFault [0xFF#8, 1#8, 3#8, 1#8, 1#8, 0xE8#8, 3#8, 0#8, 0#8, 0#8, 100#8, 1#8, 0#8] = none :=
  ⟨⟨rfl, rfl, rfl⟩, test_turning_follows, by decide, by decide⟩
theorem test_options_refused_clauses :
    enumFault [1#8, 0#8, 4#8, 0#8, 0#8, 0#8, 0#8, 0#8, 0#8, 0#8, 0#8, 0#8, 0#8] = some 0x23#8 ∧
      enumFault [2#8, 0#8, 4#8, 2#8, 0#8, 0#8, 0#8, 0#8, 0#8, 0#8, 0#8, 0#8, 0#8] = some 0x24#8 ∧
      enumFault [4#8, 0#8, 4#8, 2#8, 2#8, 0#8, 0#8, 0#8, 0#8, 0#8, 0#8, 0#8, 0#8] = some 0x25#8 ∧
      enumFault [0x80#8, 0#8, 4#8, 2#8, 2#8, 0#8, 0#8, 0#8, 0#8, 0#8, 0#8, 2#8, 0#8] = some 0x26#8 := by decide

/-- A MOUNT payload of one extent of 1,440 blocks, and of an empty extent after it. -/
def mountBytes (start : Byte) : List Byte := [0#8, 1#8, start, 0#8, 0#8, 0#8, 0xA0#8, 5#8, 0#8]
/-- Two extents, the second empty. -/
def mountEmpty : List Byte := [0#8, 2#8, 0#8, 0#8, 0#8, 0#8, 0xA0#8, 5#8, 0#8, 0#8, 0#8, 0#8, 0#8, 0#8, 0#8, 0#8]

theorem test_chain_checks_meet_a_mount :
    (idle .ready).takesRequests ∧ lengthOk 4 mountEmpty = true ∧ flagsOk 4 mountEmpty = true ∧
      mountChain mountEmpty = [⟨0, 1440, false, false⟩] ++ ⟨0, 0, false, false⟩ :: [] ∧
      extentFault 2000 [] ⟨0, 1440, false, false⟩ = none ∧ extentFault 2000 [⟨0, 1440, false, false⟩] ⟨0, 0, false, false⟩ = some .zeroCount ∧
      extentFault 1440 [] ⟨0, 1440, false, false⟩ = none ∧ extentFault 1439 [] ⟨0, 1440, false, false⟩ = some .capacity :=
  ⟨⟨rfl, rfl, rfl⟩, by decide, by decide, by decide, by decide, by decide, by decide, by decide⟩
theorem test_overlap_and_length_clauses :
    extentFault 2000 [⟨0, 10, false, false⟩] ⟨9, 1, false, false⟩ = some .extentOverlap ∧
      extentFault 2000 [⟨0, 10, false, false⟩] ⟨10, 1, false, false⟩ = none ∧
      firstExtentFault 2000 [] [⟨0, 1439, false, false⟩] = none ∧ chainTotal [⟨0, 1439, false, false⟩] = 1439 := by decide
theorem test_mount_of_a_short_chain_is_refused :
    (match exec (.mount 7#8 [0#8, 1#8, 0#8, 0#8, 0#8, 0#8, 0x9F#8, 5#8, 0#8]) (idle .ready) with
      | .next t => (t.link.tx.map (fun f => f.bytes.take 8), t.mount.state)
      | _ => (none, .lost)) = (some [0xC5#8, 5#8, 0#8, 0x84#8, 7#8, 2#8, 0x14#8, 0xFF#8], .unmounted) := by decide +kernel
theorem test_mount_refused_clauses :
    (still .lost (cacheOf .dirty)).takesRequests ∧ (idle .absent).takesRequests ∧ lengthOk 4 [0#8, 0#8] = true ∧ flagsOk 4 [0#8, 0#8] = true ∧
      lengthOk 4 (0#8 :: 65#8 :: List.replicate 455 0#8) = true ∧ flagsOk 4 (0#8 :: 65#8 :: List.replicate 455 0#8) = true :=
  ⟨⟨rfl, rfl, rfl⟩, ⟨rfl, rfl, rfl⟩, by decide, by decide, by decide +kernel, by decide +kernel⟩
theorem test_mount_accepted :
    (idle .ready).takesRequests ∧ (idle .ready).Follows ∧ lengthOk 4 (mountBytes 0#8) = true ∧ flagsOk 4 (mountBytes 0#8) = true ∧
      chainFault (idle .ready).prof 2000 false (mountChain (mountBytes 0#8)) = none ∧ d0.locate 0 false = some ⟨0, 0⟩ ∧ d0.locate 80 false = none :=
  ⟨⟨rfl, rfl, rfl⟩, test_idle_follows, by decide, by decide, by decide +kernel, by decide, by decide⟩
theorem test_unmount_states :
    (∀ m, (still m (cacheOf .dirty)).takesRequests) ∧ (still .draining (cacheOf .dirty)).Follows ∧ (still .lost (cacheOf .dirty)).Follows ∧
      (turning 16128 .clean).Follows ∧ (idle .ready).Follows ∧ (cacheOf .dirty).nonClean = 9 :=
  ⟨fun _ => ⟨rfl, rfl, rfl⟩, test_still_follows.1, test_still_follows.2.1, test_turning_follows, test_idle_follows, by decide⟩
theorem test_unmount_counts_capture :
    (capturing 16128 .hunt).cache.nonClean = 9 ∧ (capturing 16128 .hunt).takesRequests ∧ (turning 16128 .clean).cache.nonClean = 0 ∧
      (turning 16128 .clean).cap.st = .idle ∧ (turning 16128 .clean).takesRequests :=
  ⟨by decide, ⟨rfl, rfl, rfl⟩, by decide, rfl, ⟨rfl, rfl, rfl⟩⟩
theorem test_flush_clauses :
    (still .mounted (cacheOf .dirty)).takesRequests ∧ (cacheOf .clean).nonClean = 0 ∧ (cacheOf .dirty).nonClean ≠ 0 ∧
      (cacheOf .dirty).lru.Perm (List.range 8) := ⟨⟨rfl, rfl, rfl⟩, by decide, by decide, List.Perm.refl _⟩
theorem test_card_block_clauses :
    (idle .ready).takesRequests ∧ blockNumber [0xD0#8, 7#8, 0#8, 0#8] = 2000 ∧ blockNumber [0xCF#8, 7#8, 0#8, 0#8] = 1999 ∧
      (mountOf .mounted).imageBlockOf 1539 = some 1439 ∧ (mountOf .mounted).imageBlockOf 1540 = none ∧
      (mountOf .unmounted).imageBlockOf 1539 = none ∧ (List.replicate 516 0#8).length = 516 :=
  ⟨⟨rfl, rfl, rfl⟩, by decide, by decide, by decide, by decide, by decide, by decide +kernel⟩
theorem test_defects_and_reset_clauses :
    (still .mounted (cacheOf .dirty)).takesRequests ∧ (cacheOf .dirty).nonClean ≠ 0 ∧ (0#8).toNat ≤ 1 ∧ (1#8).toNat ≤ 1 :=
  ⟨⟨rfl, rfl, rfl⟩, by decide, by decide, by decide⟩

/-! ## The service link -/

theorem test_receiver_clauses :
    (∀ rx bs, ∃ s : State, s.powered = true ∧ s.link.breakLow = false ∧ s.link.rx = rx ∧ s.link.rxBytes = bs) ∧
      frameLength [2#8, 0#8] = 2 ∧ frameLength [0x12#8, 2#8] = 530 ∧ frameLength [0x13#8, 2#8] = 531 ∧ frameLength [1#8, 0#8] = 1 :=
  ⟨fun rx bs => ⟨{ State.reset with link := { State.reset.link with rx := rx, rxBytes := bs } }, rfl, rfl, rfl, rfl⟩,
    by decide, by decide, by decide, by decide⟩
theorem test_longest_frame : State.reset.link.breakLow = false ∧ State.reset.link.rx = .hunt ∧ (List.replicate 528 0#8).length ≤ 528 :=
  ⟨rfl, rfl, by rw [List.length_replicate]⟩
theorem test_transmitter_clauses :
    ∀ (f : TxFrame) (q : Request) (rs : List Reply) (ns : List Notice),
      ∃ s : State, s.powered = true ∧ s.link.breakLow = false ∧ s.link.resetDue = false ∧ s.link.tx = some f ∧ s.link.executing = some q ∧
        s.link.replies = rs ∧ s.link.notices = ns :=
  fun f q rs ns => ⟨{ State.reset with link := { State.reset.link with tx := some f, executing := some q, replies := rs, notices := ns } },
    rfl, rfl, rfl, rfl, rfl, rfl, rfl⟩
theorem test_transmit_line :
    let at' := fun left => ({ State.reset.link with tx := some { bytes := [0x01#8, 0x80#8], ofRequest := false, left := left } } : Link).txLine
    [50000, 47501, 47500, 45001, 45000, 27501, 27500, 25001, 25000, 22500, 5000, 2500, 1].map at' =
      [false, false, true, true, false, false, true, true, false, false, true, true, true] ∧ State.reset.link.txLine = true := by decide
theorem test_extents_merge :
    let l := { State.reset.link with tx := some { bytes := [0#8], ofRequest := false, left := 1 } }
    ((l.post (.extentReached 1 1#64)).post (.extentReached 1 4#64)).notices = [{ body := .extentReached 1 5#64, dropped := false }] ∧
      ((l.post (.extentReached 1 1#64)).post (.extentReached 2 4#64)).notices.length = 2 := by decide
theorem test_notice_clauses :
    State.reset.link.options.noticeMask.getLsbD 7 = true ∧ (0x7F#8).getLsbD 7 = false ∧
      (List.replicate 15 ({ body := .flushDone true, dropped := false } : Notice)).length < 16 ∧
      16 ≤ (List.replicate 16 ({ body := .flushDone true, dropped := false } : Notice)).length ∧
      (∀ m set, NoticeBody.flushDone true ≠ .extentReached m set) := ⟨by decide, by decide, by decide, by decide, by simp⟩
theorem test_break_clauses :
    (∀ q : Option Request, ∃ s : State, s.powered = true ∧ s.link.breakLow = false ∧ s.link.executing = q) ∧
      ({ State.reset with link := { State.reset.link with breakLow := true } } : State).link.breakLow = true :=
  ⟨fun q => ⟨{ State.reset with link := { State.reset.link with executing := q } }, rfl, rfl, rfl⟩, rfl⟩
theorem test_frame_cut_clauses :
    let cut := fun left => ({ State.reset.link with tx := some { bytes := [1#8, 2#8, 3#8], ofRequest := true, left := left } } : Link).cutTx
    cut 50001 = some { bytes := [1#8], ofRequest := false, left := 1 } ∧ cut 50000 = none ∧
      cut 49999 = some { bytes := [1#8, 2#8], ofRequest := false, left := 24999 } ∧ State.reset.link.cutTx = none := by decide
theorem test_frame_sent_during_a_break :
    let l : Link := { State.reset.link with
      breakLow := true, tx := some { bytes := [1#8], ofRequest := false, left := 0 }, notices := [{ body := .flushDone true, dropped := false }] }
    (match exec .frameSent { State.reset with link := l } with | .next t => (t.link.tx, t.link.notices.length) | _ => (none, 0)) = (none, 1) := by
  decide
theorem test_rows_of_kinds :
    requestRow 3 7#8 [1#8] = some (.profile 7#8 [1#8]) ∧ requestRow 0x0B 7#8 [] = none ∧ requestRow 0 7#8 [] = none ∧
      crcBytes crcPreset [2#8, 0#8, 1#8, 9#8, 0#8, 0#8] ≠ 0#16 := by decide +kernel
theorem test_frame_of_a_status : frameBytes 1#8 9#8 [] = [0xC5#8, 2#8, 0#8, 1#8, 9#8] ++ checkBytes (crcBytes crcPreset [2#8, 0#8, 1#8, 9#8]) ∧
    crcBytes crcPreset ((frameBytes 1#8 9#8 []).drop 1) = 0#16 := by decide +kernel

/-! ## The drive and the rotation -/

theorem test_select_clauses :
    (turning 16128 .clean).Follows ∧ (turning 16128 .clean).link.options.selectLine = (0 : Fin 4).val ∧
      (turning 16128 .clean).link.options.selectLine ≠ (3 : Fin 4).val := ⟨test_turning_follows, rfl, by decide⟩
theorem test_step_clauses :
    State.reset.takesStep = false ∧ (capturing 16128 .hunt).takesStep = false ∧ (turning 0 .clean).takesStep = true ∧
      d0.locate 79 false = some ⟨79, 0⟩ ∧ d0.locate 80 false = none ∧ stepHead 83 true = 83 ∧ stepHead 82 true = 83 ∧ stepHead 0 false = 0 := by
  decide
theorem test_side_clauses :
    State.reset.drive.selected = false ∧ (turning 0 .clean).drive.side = false ∧ (turning 0 .clean).cap.st = .idle ∧
      (capturing 16128 .hunt).cap.st ≠ .idle ∧ d0.locate 0 true = some ⟨0, 1⟩ := by decide
theorem test_arrival_comes_before_the_end_of_the_capture :
    let s := capturing 16128 .hunt
    let two : State := { s with
      drive := { s.drive with lastIn := true }
      cache := { s.cache with lines := s.cache.lines.set 1 { (cacheOf .clean).line 0 with tag := some ⟨0, 1⟩, pinned := false } } }
    (match exec (.sideChange true) two with | .next t => (t.cache.lru, t.cache.active, t.cap.st) | _ => ([], none, .idle))
      = ([0, 1, 6, 7, 2, 3, 4, 5], some 1, .discard) := by decide +kernel
theorem test_selection_with_the_gate_asserted :
    let on : State := { turning 0 .clean with
      inputs := { (turning 0 .clean).inputs with select0 := false, writeGate := true }
      drive := { (turning 0 .clean).drive with selected := false } }
    (match exec (.driveSelectChange 0 true) { on with rot := { on.rot with t := 16128 } } with
      | .next t => (t.drive.gateActive, t.cap.st, (t.cache.sector 0 0).map Sector.state)
      | _ => (false, .idle, none)) = (true, .hunt, some .capture) ∧
    ({ on with inputs := { on.inputs with side := true }, drive := { on.drive with selected := true } } : State).selectionEffects.length = 2 := by
  decide +kernel
theorem test_deselection_with_the_gate_asserted :
    (match exec (.driveSelectChange 0 false) (capturing 16128 .hunt) with
      | .next t => (t.drive.gateActive, t.cap.st, (t.cache.sector 0 0).map Sector.state)
      | _ => (true, .hunt, none)) = (false, .idle, some .dirty) := by decide +kernel
theorem test_options_that_deselect_end_a_capture :
    (match exec (.options 7#8 (1#8 :: 0#8 :: 1#8 :: List.replicate 10 0#8)) (capturing 16128 .hunt) with
      | .next t => (t.drive.selected, t.drive.gateActive, t.cap.st)
      | _ => (true, true, .hunt)) = (false, false, .idle) := by decide +kernel
theorem test_motor_clauses :
    (turning 16128 .clean).Follows ∧ (still .mounted (cacheOf .dirty)).Follows ∧ (still .mounted (cacheOf .dirty)).rot.state = .stopped ∧
      (turning 16128 .clean).rot.state = .atSpeed ∧ (capturing 0 .hunt).cap.st ≠ .track ∧
      ({ turning 0 .clean with rot := { (turning 0 .clean).rot with state := .spinningUp } } : State).rot.state = .spinningUp :=
  ⟨test_turning_follows, test_still_follows.2.2, rfl, rfl, by decide, rfl⟩

/-! ## The track cache and the stream -/

theorem test_arrival_clauses :
    (cacheOf .clean).Sound ∧ (cacheOf .clean).carrier ⟨0, 0⟩ = some 0 ∧ (cacheOf .clean).carrier ⟨1, 0⟩ = none ∧
      (cacheOf .clean).pickLine (cacheOf .clean).lru = some 7 ∧
      ({ cacheOf .dirty with lines := List.replicate 8 ((cacheOf .dirty).line 0) } : Cache).pickLine [0, 1, 2, 3, 4, 5, 6, 7] = none :=
  ⟨test_cacheOf_sound _, by decide, by decide, by decide, by decide⟩
theorem test_arrival_takes_waits_and_retries :
    let go := fun c : Cache => c.arrive d0 (mountOf .mounted) 20 0 (some ⟨9, 0⟩)
    (go (fullCache .clean)).active = some 7 ∧ (go (cacheOf .clean)).active = some 7 ∧ (go (fullCache .missing)).active = some 7 ∧
      (go (fullCache .dirty)).waiting = some ⟨9, 0⟩ ∧ (go (fullCache .dirty)).forced = some 7 ∧ (go (fullCache .dirty)).flushQ = [7] ∧
      (go (fullCache .flush)).waiting = some ⟨9, 0⟩ ∧ (go (fullCache .flush)).forced = none ∧
      ((go (fullCache .pending)).retryWaiting d0 (mountOf .mounted) 20 0 ⟨9, 0⟩) = go (fullCache .pending) ∧
      (({ go (fullCache .pending) with lines := (fullCache .clean).lines }).retryWaiting d0 (mountOf .mounted) 20 0 ⟨9, 0⟩).active = some 7 ∧
      ({ (fullCache .clean) with forced := some 3, lines := (fullCache .dirty).lines }.retryWaiting d0 (mountOf .mounted) 20 0 ⟨9, 0⟩).forced
        = some 3 ∧
      ({ (fullCache .pending) with forced := some 3 }.retryWaiting d0 (mountOf .mounted) 20 0 ⟨9, 0⟩).forced = none := by
  decide +kernel
theorem test_an_unpinned_filling_line_is_ahead :
    let origin := fun st => ((cacheOf st).arrive d0 (mountOf .mounted) 20 0 none).lines.map Line.origin |>.head?
    origin .pending = some .ahead ∧ origin .clean = some .demand := by decide
theorem test_waiting_is_tried_after_a_change :
    let s := { still .mounted { fullCache .clean with waiting := some ⟨9, 0⟩ } with link := State.reset.link }
    (s.reactWaiting (fullCache .dirty)).cache.active = some 7 ∧ s.reactWaiting (fullCache .clean) = s := by decide +kernel
theorem test_mapping_clauses :
    (mountOf .mounted).mapBlock 0 = some (100, 0) ∧ (mountOf .mounted).mapBlock 1439 = some (1539, 0) ∧ (mountOf .mounted).mapBlock 1440 = none ∧
      ({ mountOf .mounted with chain := [⟨5, 2, true, false⟩, ⟨9, 3, false, false⟩] }).mapBlock 1 = none ∧
      ({ mountOf .mounted with chain := [⟨5, 2, true, false⟩, ⟨9, 3, false, false⟩] }).mapBlock 2 = some (9, 1) := by decide
theorem test_read_ahead_clauses :
    ((turning 0 .clean).lookAhead.cache.line 7).tag = some ⟨0, 1⟩ ∧
      (turning 0 .clean).lookAhead.cache.lru = [0, 7, 1, 2, 3, 4, 5, 6] ∧
      (((turning 0 .clean).reactAhead (cacheOf .pending)).cache.line 7).tag = some ⟨0, 1⟩ ∧
      (turning 0 .clean).reactAhead (cacheOf .clean) = turning 0 .clean ∧
      (turning 0 .pending).lookAhead = turning 0 .pending ∧
      aheadCandidates d0.profile ⟨79, 0⟩ true = [⟨79, 1⟩] ∧ aheadCandidates d0.profile ⟨1, 1⟩ false = [⟨1, 0⟩, ⟨0, 0⟩, ⟨0, 1⟩] ∧
      Cache.tryAhead d0 (mountOf .mounted) (fullCache .dirty) ⟨9, 0⟩ = fullCache .dirty ∧
      (Cache.tryAhead d0 (mountOf .mounted) (fullCache .clean) ⟨9, 0⟩).lru = [0, 7, 1, 2, 3, 4, 5, 6] := by decide +kernel
theorem test_allocation_clauses :
    0 < (cacheOf .clean).lines.length ∧ (cacheOf .clean).ram.wf ∧ (sectorHole d0 (mountOf .mounted) ⟨0, 0⟩ 0) = false ∧
      (sectorHole d0 { mountOf .mounted with chain := [] } ⟨0, 0⟩ 8) = true := ⟨by decide, (test_cacheOf_sound _).ram, by decide, by decide⟩
theorem test_idle_flush_clauses :
    ({ cacheOf .dirty with idleTimer := some 0 } : Cache).idleTimer ≠ none ∧ (cacheOf .dirty).idleTimer = none ∧
      (cacheOf .dirty).hasWriteWork d0 [] 0 = true ∧ (cacheOf .dirty).forced = none := by decide
theorem test_decision_clauses :
    (turning 14016 .clean).flowing = true ∧ (turning 14016 .clean).currentTrack = some ⟨0, 0⟩ ∧ (turning 14016 .clean).cache.active = some 0 ∧
      (turning 14016 .clean).regionHere = .slot 0 0 ∧ (turning 7680 .clean).regionHere = .indexField 0 ∧
      (turning 7679 .clean).regionHere = .gap4a ∧ ((turning 14016 .clean).cache.sector 0 0).isSome = true := by decide

theorem test_a_decision_is_taken_once_at_the_start_of_the_cell :
    let full := fun s : State => match exec .slotDecision s with | .next t => (t.pres.decision.unit, t.pres.decision.full) | _ => (.none, false)
    let standing := { (turning 14016 .pending).pres with
      decision := { unit := .slot 0, track := some ⟨0, 0⟩, line := some 0, full := true, logical := 0, defective := false } }
    full (turning 14016 .clean) = (.slot 0, true) ∧ full (turning 14016 .pending) = (.slot 0, false) ∧
      full (turning 14017 .clean) = (.none, false) ∧
      full { turning 14016 .clean with rot := { (turning 14016 .clean).rot with fine := 1 } } = (.none, false) ∧
      full { turning 14016 .pending with pres := standing } = (.slot 0, true) := by decide +kernel

/-- At byte cell `p` of track (0, 0), slot 0 decided FULL and its sector defective. -/
def sending (p : Nat) : State :=
  { turning (96 * p) .clean with pres := { Present.reset with
      crc := some 0x1234#16, fieldCount := 5
      decision := { unit := .slot 0, track := some ⟨0, 0⟩, line := some 0, full := true, logical := 0, defective := true } } }

theorem test_stream_clauses :
    ([145, 146, 158, 161, 162, 166, 167, 168, 202, 205, 206, 718, 719, 720, 804].map (fun p =>
        ((sending p).beginByte.pres.cells, (sending p).beginByte.pres.fieldCount))) =
      [(encodeByte .mfm false .plain 0x4E#8, 5), (0xAAAA#16, 5), (0x4489#16, 1), (encodeByte .mfm false .plain 0xFE#8, 6),
        (encodeByte .mfm false .plain 0#8, 6), (encodeByte .mfm false .plain 0x12#8, 5), (encodeByte .mfm false .plain 0x34#8, 0),
        (encodeByte .mfm false .plain 0x4E#8, 5), (0x4489#16, 1), (encodeByte .mfm false .plain 0xFB#8, 6), (0xAAAA#16, 6),
        (encodeByte .mfm false .plain 0x12#8, 5), (encodeByte .mfm false .plain 0xCB#8, 0), (encodeByte .mfm false .plain 0x4E#8, 5),
        (encodeByte .mfm false .plain 0x4E#8, 5)] ∧
      (sending 804).beginByte.pres.decision = Decision.none ∧ (sending 803).beginByte.pres.decision.unit = .slot 0 ∧
      ({ turning (96 * 92) .clean with pres := { Present.reset with decision := { Decision.none with unit := .indexField, full := true } } } :
        State).beginByte.pres.cells = 0x5224#16 := by decide +kernel
theorem test_encoded_cell_clauses :
    (sending 158).readDataOut = false ∧ ({ sending 158 with rot := { t := 96 * 158 + 6, fine := 0, state := .atSpeed, spinTimer := none } } : State).readDataOut = false ∧
      ((sending 158).present.rot.t = 96 * 158) ∧
      ({ (sending 158).present with rot := { t := 96 * 158 + 6, fine := 0, state := .atSpeed, spinTimer := none } } : State).readDataOut = true ∧
      ({ (sending 158).present with rot := { t := 96 * 158 + 6, fine := 0, state := .atSpeed, spinTimer := none } } : State).present.pres.prevBit = true ∧
      ({ sending 158 with rot := { t := 96 * 158 + 1, fine := 0, state := .atSpeed, spinTimer := none } } : State).present =
        { sending 158 with rot := { t := 96 * 158 + 1, fine := 0, state := .atSpeed, spinTimer := none } } := by decide +kernel
/-! ## Captures -/

theorem test_rise_clauses :
    (turning 16128 .clean).classifyRise = .sectorWrite ⟨0, 0⟩ 0 0 0 ∧ (turning 18816 .clean).classifyRise = .sectorWrite ⟨0, 0⟩ 0 0 0 ∧
      (turning 16127 .clean).classifyRise = .discard 0 0 255 .stray ∧ (turning 18912 .clean).classifyRise = .discard 0 0 255 .stray ∧
      (turning 16128 .pending).classifyRise = .discard 0 0 1 .notReady ∧ (turning 5999 .clean).classifyRise = .trackWrite ⟨0, 0⟩ 0 ∧
      State.reset.classifyRise = .ignored ∧
      ({ turning 0 .clean with cache := Cache.reset } : State).classifyRise = .discard 0 0 255 .noLine ∧
      ({ turning 0 .clean with drive := { (turning 0 .clean).drive with head := 80 } } : State).classifyRise = .discard 255 0 255 .stray ∧
      ({ turning 16128 .clean with mount := { mountOf .mounted with readOnly := true } } : State).classifyRise = .ignored := by decide
theorem test_rise_into_a_hole :
    ({ turning 16128 .clean with cache := (turning 16128 .clean).cache.modSector 0 0 (fun x => { x with hole := true }) } : State).classifyRise
      = .discard 0 0 1 .hole ∧ (turning 16128 .clean).Follows := ⟨by decide, test_turning_follows⟩
theorem test_flux_clauses :
    (capturing 16128 .hunt).cap.st.measures = true ∧ (capturing 16128 .discard).cap.st.measures = false ∧
      (capturing 16128 .hunt).capZone.rate.cellTicks = 48 ∧ intervalClass 48 23 = 0 ∧ intervalClass 48 24 = 1 ∧ intervalClass 48 71 = 1 ∧
      intervalClass 48 72 = 2 ∧ intervalClass 48 215 = 4 ∧ intervalClass 48 216 = 5 := by decide
theorem test_an_interval_too_long_in_hunt_counts_at_its_end :
    let s := { capturing 14016 .sectorData with cap := { (capturing 14016 .sectorData).cap with fluxOpen := some 300, empties := 5 } }
    (s.fluxChange.cap.st, s.fluxChange.cap.violation) = (.sectorData, true) ∧
      ({ s with cap := { s.cap with st := .hunt } } : State).fluxChange.cap.violation = false := by decide +kernel
theorem test_mark_clauses :
    seenMfm { Capture.idle with shift := 0x4489448944895545#64, valid := 64 } = .mark (.data false) ∧
      seenMfm { Capture.idle with shift := 0x448944894489554A#64, valid := 64 } = .mark (.data true) ∧
      seenMfm { Capture.idle with shift := 0x4489448944895554#64, valid := 64 } = .mark .id ∧
      seenMfm { Capture.idle with shift := 0x4489448944895555#64, valid := 64 } = .falseLead ∧
      seenFm { Capture.idle with shift := 0xF56F#64, valid := 16 } = .mark (.data false) ∧
      seenFm { Capture.idle with shift := 0xF56F#64, valid := 15 } = .nothing := by decide
theorem test_fm_group_clauses :
    seenFm { Capture.idle with shift := 0xF56A#64, valid := 16 } = .mark (.data true) ∧ seenFm { Capture.idle with shift := 0xF57E#64, valid := 16 } = .mark .id ∧
      seenFm { Capture.idle with shift := 0xF77A#64, valid := 16 } = .nothing := by decide
theorem test_sector_write_clauses :
    (capturing 16128 .hunt).cap.track = some ⟨0, 0⟩ ∧ (capturing 16128 .hunt).cap.line = some 0 ∧ (capturing 16128 .hunt).cache.Sound ∧
      (capturing 16128 .sectorData).drive.gateActive = true ∧ (capturing 0 .hunt).capOffset = 0 ∧ (capturing (201 * 96) .hunt).capOffset = 55 ∧
      (capturing (202 * 96) .hunt).capOffset = 56 ∧ (capturing 0 .sectorTail).takesSlotEnd = true ∧
      ((capturing 0 .sectorTail).cache.sector 0 1).map Sector.state = some .capture ∧ (turning 0 .clean).drive.gateActive = false :=
  ⟨rfl, rfl, test_cacheOf_sound _, rfl, by decide, by decide, by decide, by decide, by decide, rfl⟩
theorem test_full_defect_list_drops_the_oldest :
    let full := (List.range 32).map (fun k => ({ track := ⟨k, 1⟩, sector := 1, reason := .crc } : Defect))
    let ends := fun ds : List Defect =>
      let s := capturing 16128 .hunt
      let u := ({ s with cache := { s.cache with defects := ds } } : State).endSectorWrite [] (.faulty .noMark)
      (u.cache.defects.length, u.cache.defects.head?.map Defect.track, u.cache.defects.getLast?.map Defect.track,
        (u.cache.sector 0 0).map Sector.defective)
    ends full = (32, some ⟨1, 1⟩, some ⟨0, 0⟩, some true) ∧ ends (full.take 31) = (32, some ⟨0, 1⟩, some ⟨0, 0⟩, some true) ∧
      ends (full.take 30 ++ [{ track := ⟨0, 0⟩, sector := 1, reason := .crc }, { track := ⟨0, 0⟩, sector := 2, reason := .crc }])
        = (32, some ⟨0, 1⟩, some ⟨0, 0⟩, some true) := by decide +kernel
theorem test_track_write_clauses :
    (capturing 0 .track).cap.st = .track ∧ (capturing 0 .track).cap.phase = .seek ∧
      ({ (capturing 0 .track).cap with phase := .idField, idBytes := [0#8, 0#8, 1#8, 2#8, 0#8], found := [] } : Capture).idBytes.length = 5 ∧
      ({ Capture.idle with found := [⟨0#8, 0#8, 1#8, 2#8, true, .good⟩] } : Capture).trackMatches { d0Zone with n := 1 } ⟨0, 0⟩ = true ∧
      ({ Capture.idle with found := [⟨0#8, 0#8, 2#8, 2#8, true, .good⟩] } : Capture).trackMatches { d0Zone with n := 1 } ⟨0, 0⟩ = false ∧
      (∀ j < 9, ∀ k < 9, d0Zone.logicalOf j = d0Zone.logicalOf k → j = k) := by decide

theorem test_track_write_without_its_line :
    let s := { capturing 0 .track with cache := Cache.reset }
    s.cap.line = some 0 ∧ s.cap.track = some ⟨0, 0⟩ ∧ (s.cache.line 0).tag ≠ some ⟨0, 0⟩ := by decide
theorem test_a_track_of_holes_leaves_the_order :
    let lines := fun h => ((cacheOf .clean).modLine 0 (fun l => { l with sectors := l.sectors.map (fun x => { x with hole := h }) })).lines
    let holed := fun h => { capturing 0 .track with cache := { cacheOf .clean with lines := lines h, lru := [1, 0, 2, 3, 4, 5, 6, 7] } }
    ((holed true).storeTrack ⟨0, 0⟩ 0).cache.lru = [1, 0, 2, 3, 4, 5, 6, 7] ∧ ((holed true).storeTrack ⟨0, 0⟩ 0).cache.idleTimer = none ∧
      ((holed false).storeTrack ⟨0, 0⟩ 0).cache.lru = [0, 1, 2, 3, 4, 5, 6, 7] := by decide +kernel

/-! ## The card -/

/-- A run of one panel block in the active slot. -/
def panelRun (k : RunKind) (attempt : Nat) : Run :=
  { cls := .panel, kind := k, start := 3, count := 1, firstImage := none, extent := none, line := none, track := none, mount := none,
    attempt := attempt, base := 0, received := 0, status := .inProgress, data := [], members := [], merged := false }

/-- A fill of blocks 0 and 1 of track (0, 0) by line 0. -/
def fillOf : Run :=
  { panelRun .fill 1 with cls := .demand, count := 2, firstImage := some 0, line := some 0, track := some ⟨0, 0⟩, mount := some 1 }

theorem test_bring_up_clauses :
    (idle .absent).card.state = .absent ∧ (idle .initialising).card.state = .initialising ∧ (idle .ready).card.state ≠ .initialising ∧
      (1 : Nat) ≤ 4294967295 := by decide
theorem test_removal_clauses :
    (idle .ready).card.state ≠ .absent ∧ (turning 0 .clean).card.active = none ∧ (turning 0 .clean).cache.nonClean = 0 ∧
      (turning 0 .dirty).cache.nonClean ≠ 0 ∧ (still .draining (cacheOf .dirty)).mount.state = .draining := by decide
theorem test_removal_ends_the_mount :
    (match exec .cardRemoved (turning 0 .clean) with | .next t => (t.mount.state, t.card.state) | _ => (.mounted, .ready)) = (.unmounted, .absent) ∧
      (match exec .cardRemoved (turning 0 .dirty) with | .next t => (t.mount.state, t.card.state) | _ => (.mounted, .ready)) = (.lost, .absent) ∧
      State.reset.link.options.noticeMask.getLsbD 0 = true ∧ State.reset.link.options.noticeMask.getLsbD 1 = true ∧
      State.reset.link.notices.length ≤ 4 := by decide +kernel
theorem test_stale_blocks :
    (turning 0 .dirty).stale 100 = true ∧ (turning 0 .dirty).stale 108 = true ∧ (turning 0 .dirty).stale 99 = false ∧
      (turning 0 .dirty).stale 109 = false ∧ (turning 0 .clean).stale 100 = false := by decide +kernel
theorem test_transfer_clauses :
    (turning 0 .pending).runEnded { fillOf with kind := .flush } = false ∧ fillOf.base + fillOf.received + 1 < fillOf.count ∧
      (turning 0 .pending).workRemains fillOf (fillOf.base + fillOf.received) = true ∧
      (panelRun .panelRead 1).count ≤ (panelRun .panelRead 1).base + (panelRun .panelRead 1).received + 1 ∧
      (request 7#8).made = false ∧ (request 7#8).drop = false ∧ ({ cardOf .ready with failCount := 3 } : Card).failCount = 3 := by decide

/-- The write run of all nine blocks of track (0, 0), built from a DIRTY line. -/
def writing (st : MountState) : State :=
  let s : State := { turning 0 .dirty with mount := mountOf st, cache := { cacheOf .dirty with armed := true } }
  let w := s.makeFlush .writeback 0 0 9 none
  { w.1 with card := { w.1.card with active := some { w.2 with received := 8, status := .inProgress } } }

/-- The cache's count of unsaved sectors, the mount's state and line 0's failure count after a command. -/
def outcome (c : Instr) (s : State) : Nat × MountState × Nat :=
  match exec c s with
  | .next t => (t.cache.nonClean, t.mount.state, (t.cache.line 0).failures)
  | _ => (99, .unmounted, 99)

theorem test_removal_abandons_the_capture :
    let st := fun s => match exec .cardRemoved s with | .next t => (t.cap.st, t.mount.state) | _ => (.hunt, .mounted)
    st (capturing 16128 .hunt) = (.discard, .lost) ∧ st (turning 16128 .dirty) = (.idle, .lost) ∧
      State.reset.link.options.noticeMask.getLsbD 6 = true ∧ (writing .mounted).cache.armed = true := by decide +kernel
theorem test_write_run_clauses :
    outcome (.blockTransferDone []) (writing .mounted) = (0, .mounted, 0) ∧ outcome (.blockTransferDone []) (writing .draining) = (0, .unmounted, 0) ∧
      outcome .blockCardError (writing .mounted) = (9, .mounted, 1) ∧
      outcome .blockLimitExpiry { writing .mounted with
          cache := { (writing .mounted).cache.modLine 0 (fun l => { l with failures := 2 }) with armed := false } } = (9, .lost, 3) ∧
      (∀ r ∈ (writing .mounted).card.active, r.kind = .flush ∧ (writing .mounted).runEnded r = false ∧ r.count ≤ r.base + r.received + 1) := by
  decide +kernel
theorem test_write_run_of_an_ended_mount :
    let s := { writing .mounted with mount := { mountOf .mounted with serial := 2 } }
    (∀ r ∈ s.card.active, s.runEnded r = true) ∧ outcome (.blockTransferDone []) s = (9, .mounted, 0) ∧
      outcome .blockCardError s = (9, .mounted, 0) ∧
      (match exec (.blockTransferDone []) s with | .next t => t.card.lastRun.map Run.status | _ => none) = some .cancelled := by decide +kernel
theorem test_fourth_failure_in_a_row :
    let s := { writing .mounted with card := { (writing .mounted).card with failCount := 3 } }
    let p := fun c => { turning 0 .clean with
      cache := c, card := { cardOf .ready with failCount := 3, active := some (panelRun .panelRead 1) } }
    (∀ r ∈ s.card.active, s.runEnded r = false ∧ r.kind.isPanel = false) ∧ s.card.failCount = 3 ∧ s.mount.state = .mounted ∧
      outcome .blockCardError (p (cacheOf .dirty)) = (9, .lost, 0) ∧ outcome .blockLimitExpiry (p (cacheOf .clean)) = (0, .unmounted, 0) ∧
      (match exec .blockCardError (p (cacheOf .dirty)) with
        | .next t => (t.card.state, t.card.failCount, t.card.active.isNone)
        | _ => (.ready, 0, false)) = (.failed, 4, true) := by decide +kernel
theorem test_panel_replies :
    let s := fun drop => { turning 0 .clean with
      card := { cardOf .ready with active := some (panelRun .panelRead 1), panel := some ⟨false, 3, []⟩ }
      link := { State.reset.link with executing := some { request 7#8 with drop := drop } } }
    let after := fun c drop => match exec c (s drop) with
      | .next t => (t.link.tx.map (fun f => f.bytes.length), t.link.executing.isSome, t.card.panel.isNone)
      | _ => (none, false, false)
    after (.blockTransferDone []) false = (some 521, true, true) ∧ after (.blockTransferDone []) true = (none, false, true) ∧
      after .blockCardError false = (some 9, true, true) ∧ after .blockCardError true = (none, false, true) ∧
      (match exec (.blockTransferDone []) (s false) with | .next t => t.card.lastRun.map Run.data | _ => none)
        = some (List.replicate 512 0#8) := by decide +kernel
theorem test_merge_read_clauses :
    let c := (cacheOf .pending).modSector 0 0 (fun x => { x with state := .dirty })
    c.needsMerge d0Small 0 0 = true ∧ c.needsMerge d0 0 0 = false ∧
      (let s : State := { turning 0 .pending with mount := { mountOf .mounted with geom := some d0Small }, cache := c }
       let r := { s.runFor .writeback .mergeRead 0 0 1 with status := .inProgress }
       s.writeWork 0 0 = true ∧ s.writeWork 0 1 = false ∧ s.runEnded r = false ∧ r.count ≤ r.base + r.received + 1 ∧
       (match exec (.blockTransferDone (List.replicate 512 7#8)) { s with card := { s.card with active := some r } } with
        | .next t => t.card.active.map (fun w => (w.kind, w.merged, w.data == List.replicate 128 0#8 ++ List.replicate 384 7#8))
        | _ => none) = some (.flush, true, true)) := by decide +kernel
theorem test_fill_block_clauses :
    ((cacheOf .pending).line 0).tag = some ⟨0, 0⟩ ∧ (cacheOf .pending).ram.wf ∧ d0.covers ⟨0, 0⟩ 8 8 = true ∧ d0.covers ⟨0, 0⟩ 7 8 = false ∧
      d0.sectorBlocks ⟨0, 0⟩ 8 = [8] := ⟨rfl, (test_cacheOf_sound _).ram, by decide, by decide, by decide⟩

theorem test_fill_run_clauses :
    let s := { turning 0 .pending with card := { cardOf .ready with active := some fillOf } }
    s.fillWork 0 1 = true ∧ s.fillWork 0 9 = false ∧ s.cache.active = some 0 ∧ s.runEnded fillOf = false ∧
      ({ s with mount := mountOf .draining } : State).fillWork 0 1 = false ∧ fillOf.attempt = 1 ∧ (panelRun .fill 2).attempt ≠ 1 ∧
      (match exec .blockCardError { s with card := { s.card with active := some { fillOf with attempt := 2 } } } with
        | .next t => (t.cache.line 0).missingCount
        | _ => 0) = 2 := by decide +kernel
theorem test_retry_counts_from_the_failed_block :
    let s := { turning 0 .pending with card := { cardOf .ready with active := some { fillOf with received := 1 } } }
    let t := s.attemptFails .cardError
    t.card.active.map (fun r => (r.attempt, r.base, r.received)) = some (2, 1, 0) ∧
      ((t.blockDone (List.replicate 512 1#8)).cache.sector 0 1).map Sector.state = some .clean ∧
      ((t.blockDone (List.replicate 512 1#8)).cache.sector 0 0).map Sector.state = some .pending ∧
      (t.blockDone (List.replicate 512 1#8)).card.lastRun.map (fun r => (r.status, r.received)) = some (.done, 1) := by decide +kernel

/-! ## The arbiter -/

/-- With sectors of 128 bytes, of which the first is DIRTY and the others PENDING: block 0 is fill work and write-back work of line 0. -/
def mixed : State :=
  { turning 0 .pending with
    mount := { mountOf .mounted with geom := some d0Small }
    cache := (cacheOf .pending).modSector 0 0 (fun x => { x with state := .dirty }) }

theorem test_a_held_block_is_not_offered :
    let merge := { mixed.runFor .writeback .mergeRead 0 0 1 with status := .inProgress }
    let fill := { mixed.runFor .demand .fill 0 0 1 with status := .inProgress }
    let holding := fun r : Run => { mixed with card := { mixed.card with active := some r } }
    mixed.fillFree 0 0 = true ∧ mixed.writeFree 0 0 = true ∧ (holding merge).fillWork 0 0 = true ∧ (holding merge).fillFree 0 0 = false ∧
      (holding merge).fillFree 0 1 = true ∧ (holding fill).writeWork 0 0 = true ∧ (holding fill).writeFree 0 0 = false := by decide +kernel

theorem test_arbiter_clauses :
    let s := turning 0 .pending
    let d : State := { turning 0 .dirty with cache := { cacheOf .dirty with flushQ := [0] } }
    s.offer = some (.fill .demand 0 0 8) ∧ d.offer = some (.flush .writeback 0 0) ∧
      ({ s with card := { s.card with panel := some ⟨false, 3, []⟩ } } : State).offer = some (.fill .demand 0 0 8) ∧
      ({ d with card := { d.card with panel := some ⟨false, 3, []⟩ } } : State).offer = some .panel ∧
      ({ s with cache := (cacheOf .pending).unpinAll } : State).offer = some (.fill .ahead 0 0 8) ∧
      ({ s with card := cardOf .failed } : State).offer = none ∧
      ((State.settle s s).card.active.map (fun r => (r.kind, r.start, r.count))) = some (.fill, 100, 8) ∧
      ((State.settle s s).card.queued.map (fun r => (r.kind, r.start, r.count))) = some (.fill, 108, 1) ∧
      ((State.settle d d).card.active.map (fun r => (r.kind, r.start, r.count, r.data.length))) = some (.flush, 100, 8, 4096) ∧
      (State.settle d d).cache.nonClean = 9 ∧ ((d.build (.flush .writeback 0 0)).withdraw.cache.line 0).sectors.map Sector.state = List.replicate 9 .dirty := by
  decide +kernel
theorem test_displacement_clauses :
    let s := turning 0 .pending
    let held : State := { s with card := { s.card with active := some fillOf, queued := some { fillOf with cls := .ahead, line := some 3 } } }
    held.offer = some (.fill .demand 0 2 8) ∧ held.displace.card.queued = none ∧ s.displace = s ∧
      ({ held with card := { held.card with queued := some { fillOf with firstImage := some 2 } } } : State).displace.card.queued.isSome = true ∧
      held.dropDeadFill.card.queued = none ∧ (held.promote = held) := by decide +kernel
end Sys2Proof.Tests
end

section
/-! PROOFS. Disk profiles and track geometry (01): the cyclic check, the profile checks, the fit, and the PROFILE request. -/

namespace Sys2Proof.Machine

/-! ## A request that is taken and answered at once (R168 to R171) -/

/-- The state in which a request just taken begins: the receiver at rest, the request in execution. -/
def State.entered (s : State) (kind tag : Byte) : State := { s with link := s.link.rxIdle.enter kind tag }

@[simp] theorem State.entered_mount (s : State) (kind tag : Byte) : (s.entered kind tag).mount = s.mount := rfl

/-- A request of good length and flags that is taken goes straight to its own effect, in execution. -/
theorem State.request_taken {s : State} (h : s.takesRequests) {kind : Nat} (tag : Byte) {p : List Byte} (body : State → State)
    (hl : lengthOk kind p = true) (hf : flagsOk kind p = true) :
    s.request kind tag p body = body (s.entered (byteOf kind) tag) := by
  obtain ⟨-, hx, hb⟩ := h
  have hx' : s.link.rxIdle.executing = none := hx
  simp [State.request, State.checked, hb, hx', hl, hf, State.entered]

/-- The answer to a request just taken is what `Link.answered` says. -/
theorem Link.answer_entered (l : Link) (kind tag : Byte) (st : ReplyStatus) (d : Byte) (bs : List Byte) :
    (l.rxIdle.enter kind tag).answer st d bs = l.answered ⟨kind, tag, true, false, false⟩ (st.code :: d :: bs) := rfl

theorem Link.answered_executing (l : Link) (q : Request) (payload : List Byte) : (l.answered q payload).executing = some q :=
  (Link.startTx_sameBase _).executing

theorem Link.answered_hasReply (l : Link) (q : Request) (payload : List Byte) :
    (l.answered q payload).hasReply (0x80#8 + q.kind) q.tag payload :=
  Link.startTx_hasReply (.inl (by simp))

/-- A request just taken whose whole effect is its answer changes nothing but the link. -/
theorem State.answers_of_entered (s : State) (kind tag : Byte) (st : ReplyStatus) (d : Byte) (bs : List Byte) :
    s.Answers ((s.entered kind tag).answer st d bs) kind tag (st.code :: d :: bs) where
  state := rfl
  executing := Link.answered_executing _ _ _
  reply := Link.answered_hasReply _ _ _

/-! ## The cyclic check (R23) -/

theorem crcBytes_append (r : Check) (as bs : List Byte) : crcBytes r (as ++ bs) = crcBytes (crcBytes r as) bs :=
  List.foldl_append

/-- A step of the register by a given bit loses nothing: the lowest bit of the result tells whether 1021 hex was combined, and so what
the bit shifted out was. -/
theorem crcBit_injective (bit : Bool) : Function.Injective (fun r => crcBit r bit) := by
  intro r r' h
  have hbit : ∀ i, (crcBit r bit).getLsbD i = (crcBit r' bit).getLsbD i := fun i => congrArg (·.getLsbD i) h
  have shifted : ∀ (x : Check) (i : Nat), (crcBit x bit).getLsbD i =
      (decide (i < 16) && !decide (i < 1) && x.getLsbD (i - 1) ^^ ((x.msb != bit) && (0x1021#16).getLsbD i)) := by
    intro x i
    unfold crcBit
    split <;> simp_all
  have htop : r.msb = r'.msb := by
    have h0 := hbit 0
    simp only [shifted] at h0
    cases hr : r.msb <;> cases hr' : r'.msb <;> cases bit <;> simp_all
  apply BitVec.eq_of_getLsbD_eq
  intro i hi
  by_cases hlast : i = 15
  · rw [BitVec.msb_eq_getLsbD_last, BitVec.msb_eq_getLsbD_last] at htop
    subst hlast
    exact htop
  · have hi' := hbit (i + 1)
    simp only [shifted, htop] at hi'
    have : i + 1 < 16 := by omega
    simpa [this] using hi'

theorem foldl_crcBit_injective (bits : List Bool) : Function.Injective (fun r => bits.foldl crcBit r) := by
  induction bits with
  | nil => exact fun _ _ h => h
  | cons b bits ih => exact fun _ _ h => crcBit_injective b (ih h)

theorem crcBytes_injective (bs : List Byte) : Function.Injective (fun r => crcBytes r bs) := by
  induction bs with
  | nil => exact fun _ _ h => h
  | cons b bs ih => exact fun _ _ h => foldl_crcBit_injective (byteBits b) (ih h)

/-- A register fed its own top bits only shifts: none of the compared bits differ. -/
theorem foldl_crcBit_own (r : Check) (k : Nat) (hk : k ≤ 16) :
    ((List.range k).map (fun i => r.getLsbD (15 - i))).foldl crcBit r = r <<< k := by
  induction k with
  | zero => simp
  | succ k ih =>
    have hmsb : (r <<< k).msb = r.getLsbD (15 - k) := by
      have : ¬ 15 < k := by omega
      simp [BitVec.msb_eq_getLsbD_last, this, -BitVec.getLsbD_eq_getElem]
    simp only [List.range_succ, List.map_append, List.foldl_append, ih (by omega), List.map_cons, List.map_nil, List.foldl_cons,
      List.foldl_nil, crcBit, hmsb, bne_self_eq_false, Bool.false_eq_true, if_false]
    rw [← BitVec.shiftLeft_add]

theorem byteOf_getLsbD (n i : Nat) : (byteOf n).getLsbD i = (decide (i < 8) && n.testBit i) := BitVec.getLsbD_ofNat 8 n i

/-- The bits of the check bytes, in the order they are sent, are those of the register from the top. -/
theorem flatMap_byteBits_checkBytes (r : Check) :
    (checkBytes r).flatMap byteBits = (List.range 16).map (fun i => r.getLsbD (15 - i)) := by
  have high : ∀ i, (r.toNat / 256).testBit i = r.getLsbD (i + 8) := fun i => Nat.testBit_div_two_pow r.toNat i (n := 8)
  have low : ∀ i, r.toNat.testBit i = r.getLsbD i := fun _ => rfl
  simp [checkBytes, byteBits, byteOf_getLsbD, high, low, List.range_succ, -BitVec.getLsbD_eq_getElem]

theorem crcBytes_eq_foldl_bits (r : Check) (bs : List Byte) : crcBytes r bs = (bs.flatMap byteBits).foldl crcBit r := by
  simp only [crcBytes, List.foldl_flatMap]
  rfl

/-- Any register is brought to 0000 hex by its own check bytes. -/
theorem crcBytes_checkBytes (r : Check) : crcBytes r (checkBytes r) = 0#16 := by
  rw [crcBytes_eq_foldl_bits, flatMap_byteBits_checkBytes, foldl_crcBit_own r 16 (le_refl _)]
  simp

/-- Any two bytes are the check bytes of some register. -/
theorem checkBytes_join (hi lo : Byte) : checkBytes (hi ++ lo : BitVec 16) = [hi, lo] := by
  have hhi := hi.isLt
  have hlo := lo.isLt
  have hjoin : (hi ++ lo : BitVec 16).toNat = hi.toNat * 256 + lo.toNat := by
    rw [BitVec.toNat_append, ← Nat.shiftLeft_add_eq_or_of_lt hlo, Nat.shiftLeft_eq]
  simp only [checkBytes, hjoin, List.cons.injEq, and_true]
  constructor <;> apply BitVec.eq_of_toNat_eq <;> simp [byteOf] <;> omega

theorem crcBytes_eq_zero_iff (r : Check) (hi lo : Byte) : crcBytes r [hi, lo] = 0#16 ↔ [hi, lo] = checkBytes r := by
  constructor
  · intro h
    have hzero := crcBytes_checkBytes (hi ++ lo : BitVec 16)
    rw [checkBytes_join] at hzero
    have : r = _ := crcBytes_injective [hi, lo] (h.trans hzero.symm)
    rw [this, checkBytes_join]
  · intro h
    rw [h, crcBytes_checkBytes]

/-- Settles O40: a step of the register can be undone, so that two check bytes bring a register to 0000 hex for one value of it at most,
and its own check bytes do so. -/
theorem checkOfAFieldWithItsCheck : Obligations.CheckOfAFieldWithItsCheck := by
  refine ⟨fun bs hi lo => ?_, fun bs => ?_, ?_⟩
  · rw [crcBytes_append, crcBytes_eq_zero_iff]
  · have h : crcBytes crcPreset [0xA1#8, 0xA1#8, 0xA1#8] = 0xCDB4#16 := by decide +kernel
    rw [crcBytes_append, h]
  · decide +kernel

end Sys2Proof.Machine
end

section
/-! PROOFS. Disk profiles (01): the zone checks, the coverage, the fit, and what an accepted profile is. -/

namespace Sys2Proof.Machine

/-! ## The layout's values (R13, R20) -/

/-- Byte cells that the preamble and the slots of a zone take with a given gap 3. -/
def Zone.cellsNeeded (z : Zone) (gap3 : Nat) : Nat := z.preamble + z.n * (slotBase z.encoding + z.sectorSize + gap3)

theorem layoutOf_eq_some {rpm : Rpm} {z : Zone} {y : Layout} (h : layoutOf rpm z = some y) :
    ∃ g3, fitGap3 rpm z = some g3 ∧
      y = { byteTime := z.rate.byteTime, capacity := rpm.period / z.rate.byteTime, pre := z.preamble, base := slotBase z.encoding,
            sectorSize := z.sectorSize, gap3 := g3, slotLen := slotBase z.encoding + z.sectorSize + g3,
            slotsEnd := z.cellsNeeded g3, gap4b := rpm.period / z.rate.byteTime - z.cellsNeeded g3,
            trackBytes := z.n * z.sectorSize } := by
  obtain ⟨g3, hg, rfl⟩ := Option.map_eq_some_iff.mp h
  exact ⟨g3, hg, rfl⟩

/-- Settles O12: the numbers by evaluation, a layout's byte time and capacity by what the layout is. -/
theorem periodAndByteTime : Obligations.PeriodAndByteTime := by
  refine ⟨rfl, rfl, rfl, rfl, rfl, rfl, fun rpm z y h => ?_⟩
  obtain ⟨g3, -, rfl⟩ := layoutOf_eq_some h
  exact ⟨rfl, rfl⟩

/-! ## The checks of one zone record (R8 to R11) -/

theorem zoneFault_of_unresolved (p : RawProfile) (rpm : Rpm) {r : RawZone} (h : r.resolve = none) :
    zoneFault p rpm r = some .range := by
  simp [zoneFault, h]

section ZoneChecks

variable {p : RawProfile} {rpm : Rpm} {r : RawZone} {z : Zone}

theorem zoneFault_of_outOfRange (hz : r.resolve = some z) (hr : zoneInRange p z = false) : zoneFault p rpm r = some .range := by
  simp [zoneFault, hz, hr]

theorem zoneFault_of_rate (hz : r.resolve = some z) (hr : zoneInRange p z = true)
    (ha : rateAllowed rpm z.encoding z.rate = false) : zoneFault p rpm r = some .rate := by
  simp [zoneFault, hz, hr, ha]

theorem zoneFault_of_dataSize (hz : r.resolve = some z) (hr : zoneInRange p z = true)
    (ha : rateAllowed rpm z.encoding z.rate = true) (hd : 12288 < z.n * z.sectorSize) : zoneFault p rpm r = some .dataSize := by
  simp [zoneFault, hz, hr, ha, hd]

theorem zoneFault_of_noList (hz : r.resolve = some z) (hr : zoneInRange p z = true)
    (ha : rateAllowed rpm z.encoding z.rate = true) (hd : z.n * z.sectorSize ≤ 12288) (ho : z.order = none) :
    zoneFault p rpm r = none := by
  simp [zoneFault, hz, hr, ha, Nat.not_lt.mpr hd, ho]

theorem zoneFault_of_list (hz : r.resolve = some z) (hr : zoneInRange p z = true)
    (ha : rateAllowed rpm z.encoding z.rate = true) (hd : z.n * z.sectorSize ≤ 12288) {l : List Nat} (ho : z.order = some l) :
    zoneFault p rpm r = if isOrderList z.n l then none else some .order := by
  simp [zoneFault, hz, hr, ha, Nat.not_lt.mpr hd, ho]

/-- Past the data size check a zone passes or fails its order list check. -/
theorem zoneFault_of_sizeFits (hz : r.resolve = some z) (hr : zoneInRange p z = true)
    (ha : rateAllowed rpm z.encoding z.rate = true) (hd : z.n * z.sectorSize ≤ 12288) :
    zoneFault p rpm r = none ∨ zoneFault p rpm r = some .order := by
  cases ho : z.order with
  | none => exact .inl (zoneFault_of_noList hz hr ha hd ho)
  | some l =>
    rw [zoneFault_of_list hz hr ha hd ho]
    split
    · exact .inl rfl
    · exact .inr rfl

/-- What the checks of a zone in range can say, in their order. -/
theorem zoneFault_cases (hz : r.resolve = some z) (hr : zoneInRange p z = true) :
    (rateAllowed rpm z.encoding z.rate = false ∧ zoneFault p rpm r = some .rate) ∨
    (rateAllowed rpm z.encoding z.rate = true ∧ 12288 < z.n * z.sectorSize ∧ zoneFault p rpm r = some .dataSize) ∨
    (rateAllowed rpm z.encoding z.rate = true ∧ z.n * z.sectorSize ≤ 12288 ∧
      (zoneFault p rpm r = none ∨ zoneFault p rpm r = some .order)) := by
  cases ha : rateAllowed rpm z.encoding z.rate with
  | false => exact .inl ⟨rfl, zoneFault_of_rate hz hr ha⟩
  | true =>
    rcases Nat.lt_or_ge 12288 (z.n * z.sectorSize) with hd | hd
    · exact .inr (.inl ⟨rfl, hd, zoneFault_of_dataSize hz hr ha hd⟩)
    · exact .inr (.inr ⟨rfl, hd, zoneFault_of_sizeFits hz hr ha hd⟩)

theorem zoneFault_eq_rate_iff (hz : r.resolve = some z) (hr : zoneInRange p z = true) :
    zoneFault p rpm r = some .rate ↔ rateAllowed rpm z.encoding z.rate = false := by
  rcases zoneFault_cases (rpm := rpm) hz hr with ⟨ha, e⟩ | ⟨ha, -, e⟩ | ⟨ha, -, e | e⟩ <;> simp [ha, e]

theorem zoneFault_eq_dataSize_iff (hz : r.resolve = some z) (hr : zoneInRange p z = true)
    (ha : rateAllowed rpm z.encoding z.rate = true) : zoneFault p rpm r = some .dataSize ↔ 12288 < z.n * z.sectorSize := by
  rcases zoneFault_cases (rpm := rpm) hz hr with ⟨hna, -⟩ | ⟨-, hd, e⟩ | ⟨-, hd, e | e⟩
  · simp [hna] at ha
  · simp [hd, e]
  · simp [hd, e]
  · simp [hd, e]

theorem zoneFault_ne_range (hz : r.resolve = some z) (hr : zoneInRange p z = true) : zoneFault p rpm r ≠ some .range := by
  rcases zoneFault_cases (rpm := rpm) hz hr with ⟨-, e⟩ | ⟨-, -, e⟩ | ⟨-, -, e | e⟩ <;> simp [e]

theorem zoneFault_eq_range_iff : zoneFault p rpm r = some .range ↔ ∀ z, r.resolve = some z → zoneInRange p z = false := by
  constructor
  · exact fun h z hz => Bool.eq_false_iff.mpr fun hr => zoneFault_ne_range hz hr h
  · intro h
    cases hz : r.resolve with
    | none => exact zoneFault_of_unresolved p rpm hz
    | some z => exact zoneFault_of_outOfRange hz (h z hz)

/-- A zone without fault has codes in their lists and numbers in their ranges. -/
theorem inRange_of_noFault (h : zoneFault p rpm r = none) : ∃ z, r.resolve = some z ∧ zoneInRange p z = true := by
  by_contra hn
  have : zoneFault p rpm r = some .range :=
    zoneFault_eq_range_iff.mpr fun z hz => Bool.eq_false_iff.mpr fun hr => hn ⟨z, hz, hr⟩
  simp [h] at this

end ZoneChecks

/-- The table of R9. -/
theorem rateAllowed_iff (rpm : Rpm) (e : Encoding) (k : Rate) :
    rateAllowed rpm e k = true ↔
      rpm = .rpm300 ∧ (e, k) ∈ [(Encoding.fm, Rate.k125), (.fm, .k250), (.mfm, .k250), (.mfm, .k500)] ∨
      rpm = .rpm360 ∧ (e, k) ∈ [(Encoding.mfm, Rate.k300), (.mfm, .k500)] := by
  cases rpm <;> cases e <;> cases k <;> decide

/-! ## Order lists (R11) -/

theorem isOrderList_iff_perm {n : Nat} {l : List Nat} (hl : l.length = n) : isOrderList n l = true ↔ l.Perm (List.range n) := by
  simp only [isOrderList, hl, decide_true, Bool.true_and, List.all_eq_true, List.contains_iff_mem]
  constructor
  · intro h
    have sub : (List.range n).Subperm l := List.subperm_of_subset List.nodup_range h
    exact (sub.perm_of_length_le (by simp [hl])).symm
  · exact fun h x hx => h.mem_iff.mpr hx

theorem perm_range_iff {n : Nat} {l : List Nat} (hl : l.length = n) : l.Perm (List.range n) ↔ (∀ x ∈ l, x < n) ∧ l.Nodup := by
  constructor
  · exact fun h => ⟨fun x hx => List.mem_range.mp (h.mem_iff.mp hx), h.nodup_iff.mpr List.nodup_range⟩
  · rintro ⟨hlt, hnd⟩
    have sub : l.Subperm (List.range n) := List.subperm_of_subset hnd fun x hx => List.mem_range.mpr (hlt x hx)
    exact sub.perm_of_length_le (by simp [hl])

/-- A list as long as the zone has sectors fails exactly when it is no permutation. -/
theorem zoneFault_eq_order_iff {p : RawProfile} {rpm : Rpm} {r : RawZone} {z : Zone} (hz : r.resolve = some z)
    (hr : zoneInRange p z = true) (ha : rateAllowed rpm z.encoding z.rate = true) (hd : z.n * z.sectorSize ≤ 12288)
    {l : List Nat} (ho : z.order = some l) (hl : l.length = z.n) :
    zoneFault p rpm r = some .order ↔ ¬ l.Perm (List.range z.n) := by
  rw [zoneFault_of_list hz hr ha hd ho, ← isOrderList_iff_perm hl]
  split <;> simp_all

/-! ## The profile's bytes (R183) -/

/-- A zone record with its order list, as the bytes of the two give it. -/
def recordZone (r : List Byte) : RawZone :=
  { firstCyl := (byteAt r 0).toNat, lastCyl := (byteAt r 1).toNat, headSet := (byteAt r 2).toNat, encoding := (byteAt r 3).toNat,
    rate := (byteAt r 4).toNat, n := (byteAt r 5).toNat, sizeCode := (byteAt r 6).toNat, firstSector := (byteAt r 7).toNat,
    flags := byteAt r 8, gap3 := (byteAt r 9).toNat, gap4a := (byteAt r 10).toNat, gap1 := (byteAt r 11).toNat, fill := byteAt r 12,
    order := if (byteAt r 8).getLsbD 0 then some ((r.drop 13).map BitVec.toNat) else none }

/-- The length of a zone record with its order list, by its own bytes. -/
def recordLength (r : List Byte) : Nat := 13 + (if (byteAt r 8).getLsbD 0 then (byteAt r 5).toNat else 0)

theorem byteAt_append {r : List Byte} {i : Nat} (h : i < r.length) (rest : List Byte) : byteAt (r ++ rest) i = byteAt r i :=
  List.getD_append _ _ _ _ h

/-- The walk takes a zone record with its order list off the front. -/
theorem parseZones_record (k : Nat) {r : List Byte} (rest : List Byte) (h : r.length = recordLength r) :
    parseZones (k + 1) (r ++ rest) = (parseZones k rest).map (recordZone r :: ·) := by
  have hlen : 13 ≤ r.length := by
    rw [h]
    exact Nat.le_add_right _ _
  have hat : ∀ i < 13, byteAt (r ++ rest) i = byteAt r i := fun i hi => byteAt_append (by omega) rest
  have hdrop : (r ++ rest).drop (recordLength r) = rest := by rw [← h, List.drop_left]
  have hlist : bytesAt (r ++ rest) 13 (recordLength r - 13) = r.drop 13 := by
    rw [bytesAt, List.drop_append_of_le_length hlen, ← h]
    exact List.take_left' (by simp)
  have hle : ¬ (r ++ rest).length < recordLength r := by
    rw [List.length_append]
    omega
  unfold recordLength at hdrop hlist hle
  rw [Nat.add_sub_cancel_left] at hlist
  simp only [parseZones, hat _ (by decide : 0 < 13), hat _ (by decide : 1 < 13), hat _ (by decide : 2 < 13),
    hat _ (by decide : 3 < 13), hat _ (by decide : 4 < 13), hat _ (by decide : 5 < 13), hat _ (by decide : 6 < 13),
    hat _ (by decide : 7 < 13), hat _ (by decide : 8 < 13), hat _ (by decide : 9 < 13), hat _ (by decide : 10 < 13),
    hat _ (by decide : 11 < 13), hat _ (by decide : 12 < 13), hdrop, hlist, hle, if_false]
  rfl

theorem parseZones_flatten {recs : List (List Byte)} (h : ∀ r ∈ recs, r.length = recordLength r) :
    parseZones recs.length recs.flatten = some (recs.map recordZone) := by
  induction recs with
  | nil => rfl
  | cons r recs ih =>
    obtain ⟨hr, hrecs⟩ := List.forall_mem_cons.mp h
    rw [List.length_cons, List.flatten_cons, parseZones_record _ _ hr, ih hrecs]
    rfl

/-- An order list as encoded has as many entries as its zone has sectors. -/
theorem parseZones_order_length {k : Nat} {bs : List Byte} {zs : List RawZone} (h : parseZones k bs = some zs) :
    ∀ z ∈ zs, ∀ l, z.order = some l → l.length = z.n := by
  induction k generalizing bs zs with
  | zero =>
    have : zs = [] := by
      unfold parseZones at h
      split at h <;> simp_all
    simp [this]
  | succ k ih =>
    rw [parseZones] at h
    generalize hlen : (if (byteAt bs 8).getLsbD 0 then (byteAt bs 5).toNat else 0) = len at h
    simp only at h
    split at h
    · simp at h
    · obtain ⟨rest, hrest, rfl⟩ := Option.map_eq_some_iff.mp h
      refine List.forall_mem_cons.mpr ⟨fun l hl => ?_, ih hrest⟩
      obtain ⟨hflag, hlist⟩ := Option.ite_none_right_eq_some.mp hl
      rw [if_pos hflag] at hlen
      rw [← Option.some.inj hlist]
      simp [bytesAt]
      omega

/-! ## The fit (R19, R20) -/

theorem fitGap3_of_fits {rpm : Rpm} {z : Zone} (hg : 8 ≤ z.gap3) (h : z.cellsNeeded z.gap3 ≤ rpm.period / z.rate.byteTime) :
    fitGap3 rpm z = some z.gap3 := by
  unfold Zone.cellsNeeded at h
  simp [fitGap3, h, Nat.not_lt.mpr hg]

/-- The cut is the excess over the number of sectors, rounded up. -/
theorem ceil_eq {n d cut : Nat} (hn : 1 ≤ n) (hlow : n * (cut - 1) < d) (hhigh : d ≤ n * cut) : (d + n - 1) / n = cut := by
  rw [Nat.div_eq_iff (by omega)]
  cases cut with
  | zero => omega
  | succ c =>
    have : n * (c + 1) = n * c + n := Nat.mul_succ n c
    rw [Nat.mul_comm (c + 1) n]
    simp at hlow
    omega

theorem fitGap3_of_cut {rpm : Rpm} {z : Zone} {cut : Nat} (hn : 1 ≤ z.n) (h : rpm.period / z.rate.byteTime < z.cellsNeeded z.gap3)
    (hlow : z.n * (cut - 1) < z.cellsNeeded z.gap3 - rpm.period / z.rate.byteTime)
    (hhigh : z.cellsNeeded z.gap3 - rpm.period / z.rate.byteTime ≤ z.n * cut) :
    fitGap3 rpm z = if z.gap3 < cut + 8 then none else some (z.gap3 - cut) := by
  have hcut := ceil_eq hn hlow hhigh
  unfold Zone.cellsNeeded at h hcut
  simp only [fitGap3, Nat.not_le.mpr h, if_false, hcut]

/-- Some number of cells per slot is the least that makes up for an excess. -/
theorem exists_cut {n d : Nat} (hn : 1 ≤ n) (hd : 0 < d) : ∃ cut, n * (cut - 1) < d ∧ d ≤ n * cut := by
  refine ⟨(d - 1) / n + 1, ?_, ?_⟩
  · have := Nat.mul_div_le (d - 1) n
    rw [Nat.add_sub_cancel]
    omega
  · have := Nat.lt_mul_div_succ (d - 1) (b := n) (by omega)
    omega

theorem Zone.cellsNeeded_cut {z : Zone} {cut : Nat} (h : cut ≤ z.gap3) :
    z.cellsNeeded (z.gap3 - cut) + z.n * cut = z.cellsNeeded z.gap3 := by
  unfold Zone.cellsNeeded
  rw [Nat.add_assoc, ← Nat.mul_add]
  congr 2
  omega

/-- What the fit leaves of gap 3: at least 8, at most what was asked, slots inside the capacity, and no more cut than is needed. -/
theorem fitGap3_bounds {rpm : Rpm} {z : Zone} {g3 : Nat} (hn : 1 ≤ z.n) (hg : 8 ≤ z.gap3) (h : fitGap3 rpm z = some g3) :
    8 ≤ g3 ∧ g3 ≤ z.gap3 ∧ z.cellsNeeded g3 ≤ rpm.period / z.rate.byteTime ∧
      (rpm.period / z.rate.byteTime < z.cellsNeeded z.gap3 → rpm.period / z.rate.byteTime - z.cellsNeeded g3 < z.n) := by
  rcases Nat.lt_or_ge (rpm.period / z.rate.byteTime) (z.cellsNeeded z.gap3) with hover | hfits
  · obtain ⟨cut, hlow, hhigh⟩ := exists_cut hn (Nat.sub_pos_of_lt hover)
    rw [fitGap3_of_cut hn hover hlow hhigh] at h
    split at h
    · simp at h
    · rename_i hcut
      obtain rfl : z.gap3 - cut = g3 := by simpa using h
      have hsum := z.cellsNeeded_cut (cut := cut) (by omega)
      have hstep : z.n * cut ≤ z.n * (cut - 1) + z.n := by
        rw [← Nat.mul_succ]
        exact Nat.mul_le_mul_left _ (by omega)
      refine ⟨by omega, by omega, by omega, fun _ => by omega⟩
  · rw [fitGap3_of_fits hg hfits] at h
    obtain rfl : z.gap3 = g3 := by simpa using h
    exact ⟨hg, le_refl _, hfits, fun hover => by omega⟩

/-- A zone of one sector of 8,192 bytes overflows a capacity of 6,250 whatever its gaps are (R10). -/
theorem fitGap3_of_tooLong {rpm : Rpm} {z : Zone} (hn : z.n = 1) (h : rpm.period / z.rate.byteTime < z.sectorSize) :
    fitGap3 rpm z = none := by
  have hover : rpm.period / z.rate.byteTime < z.cellsNeeded z.gap3 := by
    simp only [Zone.cellsNeeded, hn]
    omega
  rw [fitGap3_of_cut (cut := z.cellsNeeded z.gap3 - rpm.period / z.rate.byteTime) (by omega) hover (by rw [hn]; omega) (by rw [hn]; omega),
    if_pos]
  simp only [Zone.cellsNeeded, hn]
  omega

/-- Settles O14: the zone checks as they follow each other, and a list of n entries that is a permutation, has all of 0..n − 1, or has
entries below n with none twice, which are the same. -/
theorem dataSizeAndOrderList : Obligations.DataSizeAndOrderList := by
  refine ⟨fun p rpm r z hz hr ha => ?_, fun k bs zs h => parseZones_order_length h⟩
  have hsize := zoneFault_eq_dataSize_iff (p := p) (rpm := rpm) hz hr ha
  refine ⟨hsize, ?_, ?_, ?_, fun hd => ⟨zoneFault_of_noList hz hr ha hd, fun l ho hl => ?_⟩⟩
  · rintro ⟨hn, hs⟩
    simp [hsize, Zone.sectorSize, hn, hs]
  · rintro ⟨hn, hs⟩
    simp [hsize, Zone.sectorSize, hn, hs]
  · rintro ⟨hn, hs⟩
    have hS : z.sectorSize = 8192 := by simp [Zone.sectorSize, hs]
    refine ⟨by simp [hsize, hn, hS], fun hc => fitGap3_of_tooLong hn (by omega)⟩
  · have hord := zoneFault_eq_order_iff (p := p) (rpm := rpm) hz hr ha hd ho hl
    refine ⟨hord, hord.trans ?_⟩
    rw [perm_range_iff hl, not_and_or]
    simp

/-! ## Resolving a zone record's codes (R183) -/

/-- The head set of a code. -/
def headSetOf : Nat → Option HeadSet
  | 0 => some .head0
  | 1 => some .head1
  | 2 => some .both
  | _ => none

/-- The encoding of a code. -/
def encodingOf : Nat → Option Encoding
  | 0 => some .fm
  | 1 => some .mfm
  | _ => none

/-- The data rate of a code. -/
def rateOf : Nat → Option Rate
  | 0 => some .k125
  | 1 => some .k250
  | 2 => some .k300
  | 3 => some .k500
  | _ => none

theorem headSetOf_eq_none_iff (k : Nat) : headSetOf k = none ↔ 2 < k := by
  rcases k with _ | _ | _ | k <;> simp [headSetOf]

theorem encodingOf_eq_none_iff (k : Nat) : encodingOf k = none ↔ 1 < k := by
  rcases k with _ | _ | k <;> simp [encodingOf]

theorem rateOf_eq_none_iff (k : Nat) : rateOf k = none ↔ 3 < k := by
  rcases k with _ | _ | _ | _ | k <;> simp [rateOf]

theorem mem_of_headSetOf {k : Nat} {x : HeadSet} (h : headSetOf k = some x) :
    (k, x) ∈ [(0, HeadSet.head0), (1, .head1), (2, .both)] := by
  unfold headSetOf at h
  split at h <;> simp_all

theorem mem_of_encodingOf {k : Nat} {x : Encoding} (h : encodingOf k = some x) : (k, x) ∈ [(0, Encoding.fm), (1, .mfm)] := by
  unfold encodingOf at h
  split at h <;> simp_all

theorem mem_of_rateOf {k : Nat} {x : Rate} (h : rateOf k = some x) :
    (k, x) ∈ [(0, Rate.k125), (1, .k250), (2, .k300), (3, .k500)] := by
  unfold rateOf at h
  split at h <;> simp_all

/-- A zone record with given values for its three codes. -/
def RawZone.withCodes (r : RawZone) (hs : HeadSet) (e : Encoding) (rt : Rate) : Zone :=
  { firstCyl := r.firstCyl, lastCyl := r.lastCyl, heads := hs, encoding := e, rate := rt, n := r.n, sizeCode := r.sizeCode,
    firstSector := r.firstSector, order := r.order, gap3 := r.gap3, gap4a := r.gap4a, gap1 := r.gap1,
    indexMark := r.flags.getLsbD 1, idZero := r.flags.getLsbD 2, fill := r.fill }

theorem resolve_eq (r : RawZone) :
    r.resolve = (headSetOf r.headSet).bind fun hs => (encodingOf r.encoding).bind fun e => (rateOf r.rate).map fun rt =>
      r.withCodes hs e rt := by
  change (match headSetOf r.headSet, encodingOf r.encoding, rateOf r.rate with
    | some hs, some e, some rt => some (r.withCodes hs e rt)
    | _, _, _ => none) = _
  cases headSetOf r.headSet with
  | none => rfl
  | some hs =>
    cases encodingOf r.encoding with
    | none => rfl
    | some e => cases rateOf r.rate <;> rfl

theorem resolve_eq_none_iff (r : RawZone) : r.resolve = none ↔ 2 < r.headSet ∨ 1 < r.encoding ∨ 3 < r.rate := by
  rw [resolve_eq, ← headSetOf_eq_none_iff, ← encodingOf_eq_none_iff, ← rateOf_eq_none_iff]
  cases headSetOf r.headSet <;> cases encodingOf r.encoding <;> cases rateOf r.rate <;> simp

theorem resolve_eq_some {r : RawZone} {z : Zone} (h : r.resolve = some z) :
    ∃ hs e rt, headSetOf r.headSet = some hs ∧ encodingOf r.encoding = some e ∧ rateOf r.rate = some rt ∧ z = r.withCodes hs e rt := by
  rw [resolve_eq] at h
  obtain ⟨hs, h₁, h⟩ := Option.bind_eq_some_iff.mp h
  obtain ⟨e, h₂, h⟩ := Option.bind_eq_some_iff.mp h
  obtain ⟨rt, h₃, rfl⟩ := Option.map_eq_some_iff.mp h
  exact ⟨hs, e, rt, h₁, h₂, h₃, rfl⟩

/-! ## The zone checks in zone order (R7 step 2) -/

theorem firstZoneFault_of_none {p : RawProfile} {rpm : Rpm} {rs : List RawZone} (h : ∀ r ∈ rs, zoneFault p rpm r = none) (k : Nat) :
    firstZoneFault p rpm rs k = none := by
  induction rs generalizing k with
  | nil => rfl
  | cons r rs ih =>
    obtain ⟨hr, hrs⟩ := List.forall_mem_cons.mp h
    simp [firstZoneFault, hr, ih hrs]

/-- The first zone that fails is found with its number, whatever follows it. -/
theorem firstZoneFault_append {p : RawProfile} {rpm : Rpm} {before : List RawZone} {r : RawZone} {c : ProfileCheck}
    (hb : ∀ q ∈ before, zoneFault p rpm q = none) (hr : zoneFault p rpm r = some c) (after : List RawZone) (k : Nat) :
    firstZoneFault p rpm (before ++ r :: after) k = some (c, k + before.length) := by
  induction before generalizing k with
  | nil => simp [firstZoneFault, hr]
  | cons q before ih =>
    obtain ⟨hq, hbefore⟩ := List.forall_mem_cons.mp hb
    simp only [List.cons_append, firstZoneFault, hq, ih hbefore, List.length_cons]
    congr 2
    omega

theorem noFault_of_firstZoneFault {p : RawProfile} {rpm : Rpm} {rs : List RawZone} {k : Nat} (h : firstZoneFault p rpm rs k = none) :
    ∀ r ∈ rs, zoneFault p rpm r = none := by
  induction rs generalizing k with
  | nil => simp
  | cons r rs ih =>
    unfold firstZoneFault at h
    split at h
    · simp at h
    · exact List.forall_mem_cons.mpr ⟨by assumption, ih h⟩

/-! ## The coverage check (R12) -/

/-- The order of the tracks: cylinder, then head. -/
def Track.before (a b : Track) : Prop := a.cyl < b.cyl ∨ (a.cyl = b.cyl ∧ a.head < b.head)

theorem Track.before_asymm {a b : Track} (h : a.before b) : ¬ b.before a := by
  unfold Track.before at *
  omega

theorem mem_allTracks {cylinders heads : Nat} {tr : Track} : tr ∈ allTracks cylinders heads ↔ tr.cyl < cylinders ∧ tr.head < heads := by
  cases tr
  simp [allTracks]

theorem forall_mem_allTracks {cylinders heads : Nat} {P : Track → Prop} :
    (∀ tr ∈ allTracks cylinders heads, P tr) ↔ ∀ c h, c < cylinders → h < heads → P ⟨c, h⟩ := by
  simp only [mem_allTracks]
  exact ⟨fun h c k hc hk => h ⟨c, k⟩ ⟨hc, hk⟩, fun h tr htr => h tr.cyl tr.head htr.1 htr.2⟩

theorem pairwise_allTracks (cylinders heads : Nat) : (allTracks cylinders heads).Pairwise Track.before := by
  refine List.pairwise_flatMap.mpr ⟨fun c _ => ?_, ?_⟩
  · rw [List.pairwise_map]
    exact List.pairwise_lt_range.imp fun h => .inr ⟨rfl, h⟩
  · refine List.pairwise_lt_range.imp fun h x hx y hy => ?_
    obtain ⟨i, -, rfl⟩ := List.mem_map.mp hx
    obtain ⟨j, -, rfl⟩ := List.mem_map.mp hy
    exact .inl h

/-- In a list in strict order the first element with a property is the one that no other with the property precedes. -/
theorem find?_eq_some_iff_of_pairwise {α : Type} {R : α → α → Prop} {l : List α} (hl : l.Pairwise R) (hR : ∀ {a b}, R a b → ¬ R b a)
    {q : α → Bool} {b : α} : l.find? q = some b ↔ q b = true ∧ b ∈ l ∧ ∀ a ∈ l, R a b → q a = false := by
  rw [List.find?_eq_some_iff_append]
  constructor
  · rintro ⟨hb, as, bs, rfl, has⟩
    refine ⟨hb, by simp, fun a ha hab => ?_⟩
    obtain ⟨-, htail, -⟩ := List.pairwise_append.mp hl
    rcases List.mem_append.mp ha with h | h
    · simpa using has a h
    · rcases List.mem_cons.mp h with rfl | h
      · exact absurd hab (hR hab)
      · exact absurd hab (hR ((List.pairwise_cons.mp htail).1 a h))
  · rintro ⟨hb, hmem, hfirst⟩
    obtain ⟨as, bs, rfl⟩ := List.append_of_mem hmem
    obtain ⟨-, -, hsep⟩ := List.pairwise_append.mp hl
    refine ⟨hb, as, bs, rfl, fun a ha => ?_⟩
    simp [hfirst a (List.mem_append_left _ ha) (hsep a ha b (by simp))]

/-- The place of the first element with a property, where there is one. -/
theorem findIdx_eq_iff_getElem? {α : Type} {q : α → Bool} {l : List α} (h : ∃ x ∈ l, q x = true) (i : Nat) :
    l.findIdx q = i ↔ ∃ x, l[i]? = some x ∧ q x = true ∧ ∀ j < i, ∀ y, l[j]? = some y → q y = false := by
  constructor
  · rintro rfl
    have hi := List.findIdx_lt_length_of_exists h
    refine ⟨l[l.findIdx q], List.getElem?_eq_getElem hi, List.findIdx_getElem, fun j hj y hy => ?_⟩
    obtain ⟨hlt, rfl⟩ := List.getElem?_eq_some_iff.mp hy
    simpa using List.not_of_lt_findIdx hj
  · rintro ⟨x, hx, hq, hbefore⟩
    obtain ⟨hi, rfl⟩ := List.getElem?_eq_some_iff.mp hx
    exact (List.findIdx_eq hi).mpr ⟨hq, fun j hj => hbefore j hj _ (List.getElem?_eq_getElem (by omega))⟩

theorem coverageFault_eq_overlap_iff (zs : List Zone) (tracks : List Track) (k : Option Nat) :
    coverageFault zs tracks = some (.overlap, k) ↔
      ∃ tr, tracks.find? (fun tr => decide (2 ≤ zs.countP (fun z => z.has tr))) = some tr ∧
        k = some (zs.findIdx (fun z => z.has tr)) := by
  unfold coverageFault
  split
  · rename_i tr htr
    simp [htr, eq_comm]
  · rename_i hnone
    simp only [hnone]
    split <;> simp

theorem coverageFault_of_noOverlap {zs : List Zone} {tracks : List Track} (h : ∀ tr ∈ tracks, zs.countP (fun z => z.has tr) < 2) :
    coverageFault zs tracks = if tracks.any (fun tr => zs.all (fun z => !z.has tr)) then some (.uncovered, none) else none := by
  have hnone : tracks.find? (fun tr => decide (2 ≤ zs.countP (fun z => z.has tr))) = none := by
    rw [List.find?_eq_none]
    intro tr htr
    simpa using h tr htr
  simp only [coverageFault, hnone]

theorem noOverlap_of_coverageFault {zs : List Zone} {tracks : List Track} (h : ∀ k, coverageFault zs tracks ≠ some (.overlap, k)) :
    ∀ tr ∈ tracks, zs.countP (fun z => z.has tr) < 2 := by
  intro tr htr
  by_contra hn
  obtain ⟨b, hb⟩ := Option.isSome_iff_exists.mp
    (List.find?_isSome (p := fun tr => decide (2 ≤ zs.countP (fun z => z.has tr))) |>.mpr ⟨tr, htr, by simpa using Nat.le_of_not_lt hn⟩)
  exact h _ ((coverageFault_eq_overlap_iff zs tracks _).mpr ⟨b, hb, rfl⟩)

theorem all_not_has_iff (zs : List Zone) (tr : Track) : zs.all (fun z => !z.has tr) = true ↔ zs.countP (fun z => z.has tr) = 0 := by
  simp [List.countP_eq_zero]

/-- UNCOVERED: no track in two zones, and one in none. -/
theorem coverageFault_eq_uncovered_iff (zs : List Zone) (tracks : List Track) (k : Option Nat) :
    coverageFault zs tracks = some (.uncovered, k) ↔
      k = none ∧ (∀ tr ∈ tracks, zs.countP (fun z => z.has tr) < 2) ∧ ∃ tr ∈ tracks, zs.countP (fun z => z.has tr) = 0 := by
  constructor
  · intro h
    have hlt := noOverlap_of_coverageFault (zs := zs) (tracks := tracks) (by simp [h])
    rw [coverageFault_of_noOverlap hlt] at h
    simp only [Option.ite_none_right_eq_some, List.any_eq_true, all_not_has_iff, Option.some.injEq, Prod.mk.injEq] at h
    exact ⟨h.2.2.symm, hlt, h.1⟩
  · rintro ⟨rfl, hlt, hex⟩
    rw [coverageFault_of_noOverlap hlt, if_pos]
    simpa only [List.any_eq_true, all_not_has_iff] using hex

/-- The coverage check passes exactly when every track lies in one zone. -/
theorem coverageFault_eq_none_iff (zs : List Zone) (tracks : List Track) :
    coverageFault zs tracks = none ↔ ∀ tr ∈ tracks, zs.countP (fun z => z.has tr) = 1 := by
  constructor
  · intro h tr htr
    have hlt := noOverlap_of_coverageFault (zs := zs) (tracks := tracks) (by simp [h])
    have hpos : zs.countP (fun z => z.has tr) ≠ 0 := fun h0 => by
      have := (coverageFault_eq_uncovered_iff zs tracks none).mpr ⟨rfl, hlt, tr, htr, h0⟩
      simp [h] at this
    have := hlt tr htr
    omega
  · intro h
    rw [coverageFault_of_noOverlap (fun tr htr => by simp [h tr htr]), if_neg]
    simp only [List.any_eq_true, all_not_has_iff, not_exists, not_and]
    intro tr htr
    simp [h tr htr]

/-! ## The fit in zone order (R7 step 4) -/

theorem firstOverflow_eq_findIdx? (rpm : Rpm) (zs : List Zone) (k : Nat) :
    firstOverflow rpm zs k = (zs.findIdx? (fun z => (fitGap3 rpm z).isNone)).map (k + ·) := by
  induction zs generalizing k with
  | nil => rfl
  | cons z zs ih =>
    rw [firstOverflow, List.findIdx?_cons]
    split
    · simp
    · rw [ih, Option.map_map]
      congr 1
      funext i
      simp
      omega

theorem firstOverflow_eq_some_iff (rpm : Rpm) (zs : List Zone) (i : Nat) :
    firstOverflow rpm zs 0 = some i ↔
      ∃ z, zs[i]? = some z ∧ fitGap3 rpm z = none ∧ ∀ j < i, ∀ y, zs[j]? = some y → fitGap3 rpm y ≠ none := by
  simp only [firstOverflow_eq_findIdx?, Nat.zero_add, Option.map_id_fun', id]
  rw [List.findIdx?_eq_some_iff_getElem]
  constructor
  · rintro ⟨hi, hz, hbefore⟩
    refine ⟨zs[i], List.getElem?_eq_getElem hi, by simpa using hz, fun j hj y hy => ?_⟩
    obtain ⟨hlt, rfl⟩ := List.getElem?_eq_some_iff.mp hy
    simpa using hbefore j hj
  · rintro ⟨z, hz, hfit, hbefore⟩
    obtain ⟨hi, rfl⟩ := List.getElem?_eq_some_iff.mp hz
    refine ⟨hi, by simp [hfit], fun j hj => ?_⟩
    simpa using hbefore j hj _ (List.getElem?_eq_getElem (by omega))

theorem fits_of_firstOverflow {rpm : Rpm} {zs : List Zone} (h : firstOverflow rpm zs 0 = none) : ∀ z ∈ zs, (fitGap3 rpm z).isSome = true := by
  rw [firstOverflow_eq_findIdx?, Option.map_eq_none_iff, List.findIdx?_eq_none_iff] at h
  intro z hz
  simpa using h z hz

/-! ## The profile checks in their order (R7) -/

/-- The zones that a profile's codes resolve to. -/
def RawProfile.resolved (p : RawProfile) : List Zone := p.zones.filterMap RawZone.resolve

/-- The geometry of a profile that passes all checks. -/
def RawProfile.geometry (p : RawProfile) : Geometry where
  profile := { cylinders := p.cylinders, heads := p.heads, stepRatio := p.stepRatio, rpm := rpmOf p.rotation, zones := p.resolved }
  layouts := p.resolved.filterMap (layoutOf (rpmOf p.rotation))

section ProfileChecks

variable {p : RawProfile}

theorem checkProfile_of_record (h : recordInRange p = false) : checkProfile p = .refused .range none := by
  simp [checkProfile, h]

theorem checkProfile_of_zoneFault (h : recordInRange p = true) {c : ProfileCheck} {k : Nat}
    (hz : firstZoneFault p (rpmOf p.rotation) p.zones 0 = some (c, k)) : checkProfile p = .refused c (some k) := by
  simp [checkProfile, h, hz]

theorem checkProfile_of_coverage (h : recordInRange p = true) (hz : firstZoneFault p (rpmOf p.rotation) p.zones 0 = none)
    {c : ProfileCheck} {k : Option Nat} (hc : coverageFault p.resolved (allTracks p.cylinders p.heads) = some (c, k)) :
    checkProfile p = .refused c k := by
  unfold RawProfile.resolved at hc
  simp [checkProfile, h, hz, hc]

theorem checkProfile_of_overflow (h : recordInRange p = true) (hz : firstZoneFault p (rpmOf p.rotation) p.zones 0 = none)
    (hc : coverageFault p.resolved (allTracks p.cylinders p.heads) = none) {k : Nat}
    (ho : firstOverflow (rpmOf p.rotation) p.resolved 0 = some k) : checkProfile p = .refused .layoutOverflow (some k) := by
  unfold RawProfile.resolved at hc ho
  simp [checkProfile, h, hz, hc, ho]

theorem checkProfile_of_pass (h : recordInRange p = true) (hz : firstZoneFault p (rpmOf p.rotation) p.zones 0 = none)
    (hc : coverageFault p.resolved (allTracks p.cylinders p.heads) = none)
    (ho : firstOverflow (rpmOf p.rotation) p.resolved 0 = none) : checkProfile p = .accepted p.geometry := by
  unfold RawProfile.resolved at hc ho
  simp [checkProfile, h, hz, hc, ho, RawProfile.geometry, RawProfile.resolved]

/-- A profile whose zones before one pass and that one fails is refused with its check and its number. -/
theorem checkProfile_of_firstFault {before after : List RawZone} {r : RawZone} {c : ProfileCheck} (hz : p.zones = before ++ r :: after)
    (h : recordInRange p = true) (hb : ∀ q ∈ before, zoneFault p (rpmOf p.rotation) q = none)
    (hr : zoneFault p (rpmOf p.rotation) r = some c) : checkProfile p = .refused c (some before.length) := by
  refine checkProfile_of_zoneFault h ?_
  rw [hz, firstZoneFault_append hb hr, Nat.zero_add]

/-- Past the zone checks: the profile is refused with OVERLAP or UNCOVERED exactly for a fault of the coverage. -/
theorem checkProfile_eq_coverage_iff (h : recordInRange p = true) (hz : firstZoneFault p (rpmOf p.rotation) p.zones 0 = none)
    {c : ProfileCheck} (hne : c ≠ .layoutOverflow) (k : Option Nat) :
    checkProfile p = .refused c k ↔ coverageFault p.resolved (allTracks p.cylinders p.heads) = some (c, k) := by
  refine ⟨fun e => ?_, checkProfile_of_coverage h hz⟩
  cases hc : coverageFault p.resolved (allTracks p.cylinders p.heads) with
  | some f => simpa [checkProfile_of_coverage h hz hc, Prod.ext_iff] using e
  | none =>
    cases ho : firstOverflow (rpmOf p.rotation) p.resolved 0 with
    | some i => simp [checkProfile_of_overflow h hz hc ho, hne.symm] at e
    | none => simp [checkProfile_of_pass h hz hc ho] at e

theorem coverageFault_ne_overflow (zs : List Zone) (tracks : List Track) (k : Option Nat) :
    coverageFault zs tracks ≠ some (.layoutOverflow, k) := by
  unfold coverageFault
  split
  · simp
  · split <;> simp

/-- Past the zone checks: the profile is refused with LAYOUT_OVERFLOW exactly when the coverage passes and the fit does not. -/
theorem checkProfile_eq_overflow_iff (h : recordInRange p = true) (hz : firstZoneFault p (rpmOf p.rotation) p.zones 0 = none)
    (k : Option Nat) :
    checkProfile p = .refused .layoutOverflow k ↔
      coverageFault p.resolved (allTracks p.cylinders p.heads) = none ∧
        ∃ i, k = some i ∧ firstOverflow (rpmOf p.rotation) p.resolved 0 = some i := by
  cases hc : coverageFault p.resolved (allTracks p.cylinders p.heads) with
  | some f =>
    obtain ⟨c, j⟩ := f
    have : c ≠ .layoutOverflow := fun e => coverageFault_ne_overflow _ _ j (e ▸ hc)
    simp [checkProfile_of_coverage h hz hc, this]
  | none =>
    cases ho : firstOverflow (rpmOf p.rotation) p.resolved 0 with
    | some i => simp [checkProfile_of_overflow h hz hc ho, eq_comm]
    | none => simp [checkProfile_of_pass h hz hc ho]

/-- An accepted profile has passed every check, and its geometry is that of its zones. -/
theorem checkProfile_accepted {g : Geometry} (h : checkProfile p = .accepted g) :
    recordInRange p = true ∧ firstZoneFault p (rpmOf p.rotation) p.zones 0 = none ∧
      coverageFault p.resolved (allTracks p.cylinders p.heads) = none ∧
      firstOverflow (rpmOf p.rotation) p.resolved 0 = none ∧ g = p.geometry := by
  cases hr : recordInRange p with
  | false => simp [checkProfile_of_record hr] at h
  | true =>
    cases hz : firstZoneFault p (rpmOf p.rotation) p.zones 0 with
    | some f => simp [checkProfile_of_zoneFault hr hz] at h
    | none =>
      cases hc : coverageFault p.resolved (allTracks p.cylinders p.heads) with
      | some f => simp [checkProfile_of_coverage hr hz hc] at h
      | none =>
        cases ho : firstOverflow (rpmOf p.rotation) p.resolved 0 with
        | some i => simp [checkProfile_of_overflow hr hz hc ho] at h
        | none => exact ⟨rfl, rfl, rfl, rfl, by simpa [checkProfile_of_pass hr hz hc ho] using h.symm⟩

end ProfileChecks

/-- Settles O13: the rate check is the first after the ranges, and the zones are checked in their order. -/
theorem rateCombinationTable : Obligations.RateCombinationTable := by
  refine ⟨fun p rpm r z hz hr => ?_, fun p before after r hz h hb hr => checkProfile_of_firstFault hz h hb hr⟩
  rw [zoneFault_eq_rate_iff hz hr, ← rateAllowed_iff, Bool.not_eq_true]

/-! ## The ranges of the record and of a zone (R8) -/

theorem recordInRange_iff (p : RawProfile) :
    recordInRange p = true ↔ (1 ≤ p.cylinders ∧ p.cylinders ≤ 84) ∧ (1 ≤ p.heads ∧ p.heads ≤ 2) ∧ (p.stepRatio = 1 ∨ p.stepRatio = 2) ∧
      p.rotation ≤ 1 ∧ (1 ≤ p.zones.length ∧ p.zones.length ≤ 8) ∧ ¬ (p.stepRatio = 2 ∧ 42 < p.cylinders) := by
  have himp : (p.stepRatio = 2 → p.cylinders ≤ 42) ↔ ¬ p.stepRatio = 2 ∨ p.cylinders ≤ 42 := by omega
  simp [recordInRange, and_assoc, himp]

theorem zoneInRange_iff (p : RawProfile) (z : Zone) :
    zoneInRange p z = true ↔ z.firstCyl ≤ 83 ∧ z.lastCyl ≤ 83 ∧ (1 ≤ z.n ∧ z.n ≤ 32) ∧ z.sizeCode ≤ 6 ∧ z.firstSector ≤ 255 ∧
      (8 ≤ z.gap3 ∧ z.gap3 ≤ 255) ∧ (8 ≤ z.gap4a ∧ z.gap4a ≤ 255) ∧ (8 ≤ z.gap1 ∧ z.gap1 ≤ 255) ∧ z.firstCyl ≤ z.lastCyl ∧
      z.lastCyl < p.cylinders ∧ ¬ (p.heads = 1 ∧ z.heads ≠ .head0) ∧ z.firstSector + z.n - 1 ≤ 255 := by
  have hheads : (z.heads == .head1 || z.heads == .both) = true ↔ z.heads ≠ .head0 := by cases z.heads <;> decide
  simp only [zoneInRange, Bool.and_eq_true, Bool.not_eq_true', ← Bool.not_eq_true, hheads, decide_eq_true_eq, beq_iff_eq, and_assoc]

theorem zone_has_iff (z : Zone) (c h : Nat) :
    z.has ⟨c, h⟩ = true ↔ z.firstCyl ≤ c ∧ c ≤ z.lastCyl ∧ ((h = 0 ∧ z.heads ≠ .head1) ∨ (h = 1 ∧ z.heads ≠ .head0)) := by
  have hheads : z.heads.has h = true ↔ (h = 0 ∧ z.heads ≠ .head1) ∨ (h = 1 ∧ z.heads ≠ .head0) := by
    cases z.heads <;> simp [HeadSet.has]
  simp [Zone.has, hheads, and_assoc]

/-! ## What each refusal past the zone checks says, and what an accepted profile is (R7, R12, R19, R20) -/

theorem resolved_eq {p : RawProfile} {zs : List Zone} (h : p.zones.map RawZone.resolve = zs.map some) : p.resolved = zs := by
  simpa [RawProfile.resolved, List.filterMap_map] using congrArg (List.filterMap id) h

section PastTheZones

variable {p : RawProfile} {zs : List Zone}

theorem refused_overlap_iff (hrec : recordInRange p = true) (hnone : ∀ r ∈ p.zones, zoneFault p (rpmOf p.rotation) r = none)
    (hzs : p.resolved = zs) (k : Option Nat) :
    checkProfile p = .refused .overlap k ↔
      ∃ c h i z, c < p.cylinders ∧ h < p.heads ∧ 2 ≤ zs.countP (fun z => z.has ⟨c, h⟩) ∧
        (∀ c' h', h' < p.heads → c' < c ∨ (c' = c ∧ h' < h) → zs.countP (fun z => z.has ⟨c', h'⟩) < 2) ∧
        k = some i ∧ zs[i]? = some z ∧ z.has ⟨c, h⟩ = true ∧ ∀ j < i, ∀ y, zs[j]? = some y → y.has ⟨c, h⟩ = false := by
  have lowest : ∀ {tr : Track}, 2 ≤ zs.countP (fun z => z.has tr) → ∃ z ∈ zs, z.has tr = true := fun h =>
    List.countP_pos_iff.mp (by omega)
  rw [checkProfile_eq_coverage_iff hrec (firstZoneFault_of_none hnone 0) (by decide), hzs, coverageFault_eq_overlap_iff]
  simp only [find?_eq_some_iff_of_pairwise (pairwise_allTracks p.cylinders p.heads) Track.before_asymm, decide_eq_true_eq,
    decide_eq_false_iff_not, Nat.not_le, mem_allTracks]
  constructor
  · rintro ⟨⟨c, h⟩, ⟨htwo, ⟨hc, hh⟩, hfirst⟩, rfl⟩
    obtain ⟨z, hz⟩ := (findIdx_eq_iff_getElem? (lowest htwo) _).mp rfl
    refine ⟨c, h, _, z, hc, hh, htwo, fun c' h' hh' hlt => hfirst ⟨c', h'⟩ ⟨?_, hh'⟩ hlt, rfl, hz⟩
    change c' < p.cylinders
    change c < p.cylinders at hc
    omega
  · rintro ⟨c, h, i, z, hc, hh, htwo, hfirst, rfl, hz⟩
    refine ⟨⟨c, h⟩, ⟨htwo, ⟨hc, hh⟩, fun tr htr hlt => hfirst tr.cyl tr.head htr.2 hlt⟩, ?_⟩
    rw [(findIdx_eq_iff_getElem? (lowest htwo) i).mpr ⟨z, hz⟩]

theorem refused_uncovered_iff (hrec : recordInRange p = true) (hnone : ∀ r ∈ p.zones, zoneFault p (rpmOf p.rotation) r = none)
    (hzs : p.resolved = zs) (k : Option Nat) :
    checkProfile p = .refused .uncovered k ↔
      k = none ∧ (∀ c h, c < p.cylinders → h < p.heads → zs.countP (fun z => z.has ⟨c, h⟩) < 2) ∧
        ∃ c h, c < p.cylinders ∧ h < p.heads ∧ zs.countP (fun z => z.has ⟨c, h⟩) = 0 := by
  rw [checkProfile_eq_coverage_iff hrec (firstZoneFault_of_none hnone 0) (by decide), hzs, coverageFault_eq_uncovered_iff,
    forall_mem_allTracks]
  refine and_congr_right' (and_congr_right' ⟨?_, ?_⟩)
  · rintro ⟨⟨c, h⟩, hmem, hzero⟩
    obtain ⟨hc, hh⟩ := mem_allTracks.mp hmem
    exact ⟨c, h, hc, hh, hzero⟩
  · rintro ⟨c, h, hc, hh, hzero⟩
    exact ⟨⟨c, h⟩, mem_allTracks.mpr ⟨hc, hh⟩, hzero⟩

theorem refused_overflow_iff (hrec : recordInRange p = true) (hnone : ∀ r ∈ p.zones, zoneFault p (rpmOf p.rotation) r = none)
    (hzs : p.resolved = zs) (k : Option Nat) :
    checkProfile p = .refused .layoutOverflow k ↔
      (∀ c h, c < p.cylinders → h < p.heads → zs.countP (fun z => z.has ⟨c, h⟩) = 1) ∧
      ∃ i z, k = some i ∧ zs[i]? = some z ∧ fitGap3 (rpmOf p.rotation) z = none ∧
        ∀ j < i, ∀ y, zs[j]? = some y → fitGap3 (rpmOf p.rotation) y ≠ none := by
  rw [checkProfile_eq_overflow_iff hrec (firstZoneFault_of_none hnone 0), hzs, coverageFault_eq_none_iff, forall_mem_allTracks]
  simp only [firstOverflow_eq_some_iff, exists_and_left]

end PastTheZones

/-- Where every record's codes resolve, nothing is left out. -/
theorem map_some_resolved {p : RawProfile} (h : ∀ r ∈ p.zones, zoneFault p (rpmOf p.rotation) r = none) :
    p.zones.map RawZone.resolve = p.resolved.map some := by
  rw [RawProfile.resolved, List.map_filterMap_some_eq_filter_map_isSome, eq_comm, List.filter_eq_self]
  intro o ho
  obtain ⟨r, hr, rfl⟩ := List.mem_map.mp ho
  obtain ⟨z, hz, -⟩ := inRange_of_noFault (h r hr)
  rw [hz]
  rfl

/-- The zones of a profile without zone fault lie in their ranges. -/
theorem resolved_inRange {p : RawProfile} (h : ∀ r ∈ p.zones, zoneFault p (rpmOf p.rotation) r = none) :
    ∀ z ∈ p.resolved, zoneInRange p z = true := by
  intro z hz
  obtain ⟨r, hr, hrz⟩ := List.mem_filterMap.mp hz
  obtain ⟨z', hz', hin⟩ := inRange_of_noFault (h r hr)
  obtain rfl : z' = z := Option.some.inj (hz'.symm.trans hrz)
  exact hin

/-- Each zone of a list that the fit accepts throughout has its layout at its own place. -/
theorem map_some_layouts {rpm : Rpm} {zs : List Zone} (h : ∀ z ∈ zs, (fitGap3 rpm z).isSome = true) :
    (zs.filterMap (layoutOf rpm)).map some = zs.map (layoutOf rpm) := by
  rw [List.map_filterMap_some_eq_filter_map_isSome, List.filter_eq_self]
  intro o ho
  obtain ⟨z, hz, rfl⟩ := List.mem_map.mp ho
  simpa [layoutOf] using h z hz

theorem layout_fits {rpm : Rpm} {z : Zone} {y : Layout} (hn : 1 ≤ z.n) (hg : 8 ≤ z.gap3) (h : layoutOf rpm z = some y) :
    y.slotsEnd ≤ y.capacity ∧ 8 ≤ y.gap3 := by
  obtain ⟨g3, hfit, rfl⟩ := layoutOf_eq_some h
  obtain ⟨hlow, -, hcap, -⟩ := fitGap3_bounds hn hg hfit
  exact ⟨hcap, hlow⟩

/-- What an accepted profile is. -/
theorem accepted_geometry {p : RawProfile} {g : Geometry} (h : checkProfile p = .accepted g) :
    recordInRange p = true ∧ (∀ r ∈ p.zones, zoneFault p (rpmOf p.rotation) r = none) ∧
    g.profile.cylinders = p.cylinders ∧ g.profile.heads = p.heads ∧ g.profile.stepRatio = p.stepRatio ∧
    g.profile.rpm = rpmOf p.rotation ∧ p.zones.map RawZone.resolve = g.profile.zones.map some ∧ g.layouts.length = p.zones.length ∧
    (∀ c h, c < p.cylinders → h < p.heads → (g.profile.zones.filter (fun z => z.has ⟨c, h⟩)).length = 1) ∧
    (∀ (k : Nat) (z : Zone) (y : Layout), g.profile.zones[k]? = some z → g.layouts[k]? = some y →
      layoutOf g.profile.rpm z = some y ∧ y.slotsEnd ≤ y.capacity ∧ 8 ≤ y.gap3) := by
  obtain ⟨hrec, hfault, hcover, hover, rfl⟩ := checkProfile_accepted h
  have hnone := noFault_of_firstZoneFault hfault
  have hzones := map_some_resolved hnone
  have hlayouts := map_some_layouts (fits_of_firstOverflow hover)
  refine ⟨hrec, hnone, rfl, rfl, rfl, rfl, hzones, ?_, ?_, fun k z y hz hy => ?_⟩
  · have hsame := congrArg List.length hlayouts
    have hall := congrArg List.length hzones
    rw [List.length_map, List.length_map] at hsame hall
    exact hsame.trans hall.symm
  · simp only [coverageFault_eq_none_iff, forall_mem_allTracks, List.countP_eq_length_filter] at hcover
    exact hcover
  · have hlay : layoutOf (rpmOf p.rotation) z = some y := by
      have hk := congrArg (fun l : List (Option Layout) => l[k]?) hlayouts
      change p.resolved[k]? = some z at hz
      change (p.resolved.filterMap (layoutOf (rpmOf p.rotation)))[k]? = some y at hy
      simpa [List.getElem?_map, hz, hy, eq_comm] using hk
    have hin := (zoneInRange_iff p z).mp (resolved_inRange hnone z (List.mem_of_getElem? hz))
    obtain ⟨-, -, ⟨hn, -⟩, -, -, ⟨hg, -⟩, -⟩ := hin
    exact ⟨hlay, layout_fits hn hg hlay⟩

/-- Settles O15, clause by clause, each by the lemma that says it. -/
theorem profileChecksInOrder : Obligations.ProfileChecksInOrder := by
  refine ⟨fun p => ⟨recordInRange_iff p, checkProfile_of_record⟩, fun p rpm r => ⟨resolve_eq_none_iff r, fun z hz => ?_, zoneFault_eq_range_iff⟩,
    fun p before after r c hz hrec hb hr => checkProfile_of_firstFault hz hrec hb hr, fun p zs hrec hnone hmap => ?_, zone_has_iff,
    fun rpm z hn hg => ?_, fun p g h => accepted_geometry h⟩
  · obtain ⟨hs, e, rt, h₁, h₂, h₃, rfl⟩ := resolve_eq_some hz
    exact ⟨mem_of_headSetOf h₁, mem_of_encodingOf h₂, mem_of_rateOf h₃, rfl, rfl, rfl, rfl, rfl, rfl, rfl, rfl, rfl, rfl, rfl, rfl,
      zoneInRange_iff p _⟩
  · have hzs := resolved_eq hmap
    exact ⟨refused_overlap_iff hrec hnone hzs, refused_uncovered_iff hrec hnone hzs, refused_overflow_iff hrec hnone hzs⟩
  · refine ⟨fitGap3_of_fits hg, fun cut => fitGap3_of_cut hn, fun y hy => ?_⟩
    obtain ⟨g3, hfit, rfl⟩ := layoutOf_eq_some hy
    obtain ⟨hlow, hhigh, hcap, hrest⟩ := fitGap3_bounds hn hg hfit
    exact ⟨g3, hfit, hlow, hhigh, hrest, hcap, rfl⟩

/-! ## The PROFILE request (R7, R183) -/

theorem parseProfile_of_records {p : List Byte} {recs : List (List Byte)} (hlen : 5 ≤ p.length)
    (hcount : recs.length = (byteAt p 4).toNat) (hflat : recs.flatten = p.drop 5) (h : ∀ r ∈ recs, r.length = recordLength r) :
    parseProfile p = some { cylinders := (byteAt p 0).toNat, heads := (byteAt p 1).toNat, stepRatio := (byteAt p 2).toNat,
                            rotation := (byteAt p 3).toNat, zones := recs.map recordZone } := by
  rw [parseProfile, if_neg (Nat.not_lt.mpr hlen), ← hcount, ← hflat, parseZones_flatten h]
  rfl

/-- A PROFILE of good length and flags that is taken has its own effect at once. -/
theorem exec_profile_taken {s : State} (h : s.takesRequests) (tag : Byte) {p : List Byte} {raw : RawProfile}
    (hp : parseProfile p = some raw) (hf : ∀ z ∈ raw.zones, z.flags.toNat < 8) :
    exec (.profile tag p) s = .next ((s.entered 0x03#8 tag).doProfile p) := by
  have hl : lengthOk 3 p = true := by simp [lengthOk, hp]
  have hflags : flagsOk 3 p = true := by simpa [flagsOk, hp] using hf
  change execProfile tag p s = _
  rw [execProfile, whenPowered, if_pos h.1, State.takeProfile, State.request_taken h tag _ hl hflags]
  rfl

theorem doProfile_of_mounted {s : State} (h : s.mount.state ≠ .unmounted) (p : List Byte) : s.doProfile p = s.wrongState := by
  rw [State.doProfile, if_pos h]

theorem doProfile_of_unmounted {s : State} (h : s.mount.state = .unmounted) {p : List Byte} {raw : RawProfile}
    (hp : parseProfile p = some raw) :
    (∀ c z, checkProfile raw = .refused c z → s.doProfile p = s.badField c.code (positionByte z)) ∧
    (∀ g, checkProfile raw = .accepted g → s.doProfile p = (s.setProfile g).answer .ok 0#8 []) := by
  constructor <;> intros <;> simp_all [State.doProfile]

/-- Settles O17: either refusal is the whole effect of the request. -/
theorem profileRefused : Obligations.ProfileRefused := by
  intro s tag p raw ht hp hf
  refine ⟨fun hm => ⟨_, exec_profile_taken ht tag hp hf, ?_⟩, fun c z hm hc => ⟨_, exec_profile_taken ht tag hp hf, ?_⟩⟩
  · rw [doProfile_of_mounted (by simpa using hm)]
    exact s.answers_of_entered 0x03#8 tag .wrongState s.mount.state.code []
  · rw [(doProfile_of_unmounted (by simpa using hm) hp).1 c z hc]
    exact s.answers_of_entered 0x03#8 tag .badField c.code [positionByte z]

/-- Settles O16: the records are taken off the front one by one; the accepted profile is stored and the request answered. -/
theorem profileAccepted : Obligations.ProfileAccepted := by
  refine ⟨fun p recs hlen hcount hflat h => parseProfile_of_records hlen hcount hflat h, rfl, rfl,
    fun s tag p raw g ht hm hp hf hg => ⟨_, exec_profile_taken ht tag hp hf, ?_⟩⟩
  rw [(doProfile_of_unmounted (by simpa using hm) hp).2 g hg]
  exact ⟨rfl, Link.answered_hasReply _ _ _⟩

end Sys2Proof.Machine
end

section
/-! PROOFS. What every step keeps (02, with the other blocks' bounds): the blocks stay sound, and the drive interface, the rotation, the
capture unit and the stream go on following the lines. -/

namespace Sys2Proof.Machine

/-! ## The blocks stay sound -/

theorem State.Sound.whenPowered {s : State} (h : s.Sound) {f : State → State} (hf : (f s).Sound) : (whenPowered f s).Sound := by
  unfold Machine.whenPowered
  split
  · exact hf
  · exact h

theorem State.Sound.transferEnds {s : State} (h : s.Sound) (data : List Byte) : (s.transferEnds data).Sound := by
  unfold State.transferEnds
  split
  · exact (h.blockDone data).settle _
  · exact h

theorem State.Sound.linkBreaks {s : State} (h : s.Sound) : s.linkBreaks.Sound := by
  unfold State.linkBreaks
  split
  · exact h
  · exact h.withLink (Link.takeBreak_sound h.link)

theorem State.Sound.linkReturns {s : State} (h : s.Sound) : s.linkReturns.Sound := by
  unfold State.linkReturns
  split
  · exact h.withLink (Link.endBreak_sound h.link)
  · exact h

theorem State.Sound.selectChange {s : State} (h : s.Sound) (line : Fin 4) (b : Bool) : (s.selectChange line b).Sound :=
  (h.withInputs _).reworkSelect

theorem State.Sound.sideLevel {s : State} (h : s.Sound) (b : Bool) : (s.sideLevel b).Sound := by
  unfold State.sideLevel
  simp only
  split
  · exact (h.withInputs _).reworkSide
  · exact h.withInputs _

/-- Every command answers a state in which the blocks are sound. -/
theorem exec_sound {s : State} (h : s.Sound) (c : Instr) : ∃ t, exec c s = .next t ∧ t.Sound := by
  cases c with
  | powerOn x => exact ⟨_, rfl, .restart s x⟩
  | powerFail => exact ⟨_, rfl, .dark s⟩
  | status tag p => exact ⟨_, rfl, h.whenPowered (h.takeStatus tag p)⟩
  | options tag p => exact ⟨_, rfl, h.whenPowered (h.takeOptions tag p)⟩
  | profile tag p => exact ⟨_, rfl, h.whenPowered (h.takeProfile tag p)⟩
  | mount tag p => exact ⟨_, rfl, h.whenPowered (h.takeMount tag p)⟩
  | unmount tag p => exact ⟨_, rfl, h.whenPowered (h.takeUnmount tag p)⟩
  | flush tag p => exact ⟨_, rfl, h.whenPowered (h.takeFlush tag p)⟩
  | cardRead tag p => exact ⟨_, rfl, h.whenPowered (h.takeCardRead tag p)⟩
  | cardWrite tag p => exact ⟨_, rfl, h.whenPowered (h.takeCardWrite tag p)⟩
  | defects tag p => exact ⟨_, rfl, h.whenPowered (h.takeDefects tag p)⟩
  | reset tag p => exact ⟨_, rfl, h.whenPowered (h.takeReset tag p)⟩
  | unknownKind kind tag => exact ⟨_, rfl, h.whenPowered (h.takeUnknown tag)⟩
  | frameError => exact ⟨_, rfl, h.whenPowered h.takeBadFrame⟩
  | badLengthDiscard => exact ⟨_, rfl, h.whenPowered h.discardFrame⟩
  | framingFault => exact ⟨_, rfl, h.whenPowered h.discardFrame⟩
  | interCharacterTimeout => exact ⟨_, rfl, h.whenPowered h.discardFrame⟩
  | frameSent => exact ⟨_, rfl, h.whenPowered (h.withLink (Link.frameSent_sound h.link))⟩
  | resetTakesEffect fastStrap => exact ⟨_, rfl, h.whenPowered (h.resetNow fastStrap)⟩
  | linkBreak => exact ⟨_, rfl, h.whenPowered h.linkBreaks⟩
  | linkBreakEnd => exact ⟨_, rfl, h.whenPowered h.linkReturns⟩
  | driveSelectChange line asserted => exact ⟨_, rfl, h.whenPowered (h.selectChange line asserted).tend⟩
  | step dirIn => exact ⟨_, rfl, h.whenPowered (.tendingWhen _ (h.stepEdge dirIn))⟩
  | sideChange asserted => exact ⟨_, rfl, h.whenPowered (.tendingWhen _ (h.sideLevel asserted))⟩
  | motorOnChange asserted => exact ⟨_, rfl, h.whenPowered (h.withInputs _).reworkSpin.tend⟩
  | spinUpTimerExpiry => exact ⟨_, rfl, h.whenPowered h.spinUpExpiry⟩
  | rotationWrap => exact ⟨_, rfl, h.whenPowered (.settlingWhen _ h.wrap)⟩
  | indexPulseEnd => exact ⟨_, rfl, h.whenPowered h.pulseEnd⟩
  | indexFieldDecision => exact ⟨_, rfl, h.whenPowered h.decideIndex⟩
  | slotDecision => exact ⟨_, rfl, h.whenPowered h.decideSlot⟩
  | writeGateRise => exact ⟨_, rfl, h.whenPowered (h.withInputs _).reworkGate.tend⟩
  | writeDataFluxChange => exact ⟨_, rfl, h.whenPowered (.settlingWhen _ h.fluxChange)⟩
  | huntDeadline => exact ⟨_, rfl, h.whenPowered (.settlingWhen _ h.captureDeadline)⟩
  | slotEndDuringCapture => exact ⟨_, rfl, h.whenPowered (.settlingWhen _ h.captureSlotEnd)⟩
  | writeGateFall => exact ⟨_, rfl, h.whenPowered (h.withInputs _).reworkGate.tend⟩
  | idleFlushTimerExpiry => exact ⟨_, rfl, h.whenPowered (.settlingWhen _ h.idleExpires)⟩
  | cardInserted => exact ⟨_, rfl, h.whenPowered (.settlingWhen _ h.cardInsert)⟩
  | bringUpDone ok capacity wp => exact ⟨_, rfl, h.whenPowered (.settlingWhen _ (h.bringUpEnds ok capacity wp))⟩
  | bringUpLimitExpiry => exact ⟨_, rfl, h.whenPowered (.settlingWhen _ h.bringUpExpires)⟩
  | cardRemoved => exact ⟨_, rfl, h.whenPowered (.settlingWhen _ h.cardRemove)⟩
  | blockTransferDone data => exact ⟨_, rfl, h.whenPowered (h.transferEnds data)⟩
  | blockLimitExpiry => exact ⟨_, rfl, h.whenPowered (.settlingWhen _ (h.attemptFails .timeout))⟩
  | blockCardError => exact ⟨_, rfl, h.whenPowered (.settlingWhen _ (h.attemptFails .cardError))⟩
  | emptyCell => exact ⟨_, rfl, h.whenPowered (.settlingWhen _ h.emptyCell)⟩
  | characterReceived char => exact ⟨_, rfl, h.whenPowered (h.character char)⟩

/-- What a step comes to: a tick on an empty queue, else the command at the front. -/
theorem step_cases {s t : State} (h : step s = .next t) :
    (s.pending = [] ∧ t = s.tick) ∨ ∃ c rest, s.pending = c :: rest ∧ exec c { s with pending := rest } = .next t := by
  unfold step at h
  split at h
  · rename_i hp
    exact .inl ⟨hp, (Host.Outcome.next.inj h).symm⟩
  · rename_i c rest hp
    exact .inr ⟨c, rest, hp, h⟩

/-- Settles O5: by cases on the command; each operation keeps the blocks sound, and so do the reactions that follow it. -/
theorem everyStepKeepsTheBlocksSound : Obligations.EveryStepKeepsTheBlocksSound := by
  intro s t h hstep
  rcases step_cases hstep with ⟨-, rfl⟩ | ⟨c, rest, -, hexec⟩
  · exact h.tick
  · obtain ⟨u, hu, hsound⟩ := exec_sound (h.withPending rest) c
    rw [hu] at hexec
    exact Host.Outcome.next.inj hexec ▸ hsound

end Sys2Proof.Machine
end

section
/-! PROOFS. What every step keeps of the drive connector's lines (02 R24 to R39): the selected flag, the gate, the side, the rotation,
the recording of cells and the stream follow. -/

namespace Sys2Proof.Machine

/-! ## Following the lines, the stream apart -/

/-- All of `Follows` but the stream, which the reactions of a command put right by themselves (R90). -/
structure State.FollowsLines (s : State) : Prop where
  selected : s.drive.selected = s.addressed
  gate : s.GateRight
  side : s.SideRight
  turns : s.Turns

theorem State.Follows.lines {s : State} (h : s.Follows) : s.FollowsLines :=
  ⟨h.selected, h.gate, h.side, h.spin, h.timer, h.records⟩

theorem State.FollowsLines.follows {s : State} (h : s.FollowsLines) (hp : s.flowing = false → s.pres = Present.reset) : s.Follows :=
  ⟨h.selected, h.gate, h.side, h.turns.spin, h.turns.timer, h.turns.records, hp⟩

theorem Kept.selected {s t : State} (k : Kept s t) : t.drive.selected = s.drive.selected := by rw [k.drive]
theorem Kept.side {s t : State} (k : Kept s t) : t.drive.side = s.drive.side := by rw [k.drive]
theorem Kept.gateActive {s t : State} (k : Kept s t) : t.drive.gateActive = s.drive.gateActive := by rw [k.drive]

/-- What leaves the lines, the flag, the side and the gate alone keeps following them. -/
theorem State.FollowsLines.kept {s t : State} (h : s.FollowsLines) (k : Kept s t) : t.FollowsLines where
  selected := by simp only [State.addressed, k.selected, k.inputs, k.options]; exact h.selected
  gate := by simp only [State.GateRight, k.selected, k.gateActive, k.inputs]; exact h.gate
  side := by simp only [State.SideRight, k.selected, k.side, k.inputs]; exact h.side
  turns := k.turns h.turns

/-- After the reactions of a command the stream is right too. -/
theorem State.FollowsLines.settle {s : State} (h : s.FollowsLines) (old : State) : (State.settle old s).Follows := by
  refine (h.kept (settled_settle old s).kept).follows fun hf => ?_
  rw [(settled_settle old s).flowing] at hf
  simp [settle_pres, hf]

theorem State.FollowsLines.tend {s : State} (h : s.FollowsLines) : s.tend.Follows := settle_self s ▸ h.settle s

/-- A settling command: its effect follows the lines where it is taken, and leaves the stream right where it is not. -/
theorem State.FollowsLines.settlingWhen {s : State} {p : State → Bool} {f : State → State} (h : (f s).FollowsLines)
    (hn : p s = false → (f s).Follows) : (Machine.settlingWhen p f s).Follows := by
  unfold Machine.settlingWhen
  split
  · exact h.settle s
  · exact hn (by simp_all)

theorem State.FollowsLines.tendingWhen {s : State} {p : State → Bool} {f : State → State} (h : (f s).FollowsLines)
    (hn : p s = false → (f s).Follows) : (Machine.tendingWhen p f s).Follows := by
  unfold Machine.tendingWhen
  split
  · exact h.tend
  · exact hn (by simp_all)

/-! ## Effects that touch neither the lines nor the stream -/

/-- An effect that leaves the lines, the mount, the rotation state and the stream alone. -/
theorem State.Follows.kept {s t : State} (h : s.Follows) (k : Kept s t) (hm : t.mount = s.mount) (hr : t.rot.state = s.rot.state)
    (hp : t.pres = s.pres) : t.Follows := by
  refine (h.lines.kept k).follows fun hf => ?_
  have : t.flowing = s.flowing := by simp only [State.flowing, State.presented, State.isMounted, k.powered, k.selected, k.gateActive, hm, hr]
  rw [hp]
  exact h.stream (this ▸ hf)

theorem State.Follows.withLink {s : State} (h : s.Follows) {l : Link} (ho : l.options = s.link.options) :
    ({ s with link := l } : State).Follows :=
  ⟨by simpa [State.addressed, ho] using h.selected, h.gate, h.side,
    by simpa [State.spinDemand, State.isMounted, State.motorActive, ho] using h.spin, h.timer, h.records, h.stream⟩

theorem State.Follows.withPending {s : State} (h : s.Follows) (q : List Instr) : ({ s with pending := q } : State).Follows :=
  ⟨h.selected, h.gate, h.side, h.spin, h.timer, h.records, h.stream⟩

theorem State.Follows.withCardDetect {s : State} (h : s.Follows) (b : Bool) :
    ({ s with inputs := { s.inputs with cardDetect := b } } : State).Follows where
  selected := by
    have : ∀ n, selectLevel { s.inputs with cardDetect := b } n = selectLevel s.inputs n := fun n => by unfold selectLevel; split <;> rfl
    exact h.selected.trans (this _).symm
  gate := h.gate
  side := h.side
  spin := h.spin
  timer := h.timer
  records := h.records
  stream := h.stream

theorem State.Follows.withCache {s : State} (h : s.Follows) (c : Cache) : ({ s with cache := c } : State).Follows :=
  h.kept (kept_cache s c) rfl rfl rfl

theorem State.Follows.withCard {s : State} (h : s.Follows) (c : Card) : ({ s with card := c } : State).Follows :=
  h.kept (kept_card s c) rfl rfl rfl

/-- The rotation time and the profile in force bear on no line. -/
theorem State.Follows.withTime {s : State} (h : s.Follows) (g : Geometry) (n m : Nat) :
    ({ s with prof := g, rot := { s.rot with t := n, fine := m } } : State).Follows :=
  ⟨h.selected, h.gate, h.side, h.spin, h.timer, h.records, h.stream⟩

/-- While the stream flows it may hold anything. -/
theorem State.Follows.withPres {s : State} (h : s.Follows) (hf : s.flowing = true) (p : Present) : ({ s with pres := p } : State).Follows :=
  ⟨h.selected, h.gate, h.side, h.spin, h.timer, h.records, fun hn => absurd (hn.symm.trans hf) (by simp)⟩

theorem State.Follows.whenPowered {s : State} (h : s.Follows) {f : State → State} (hf : (f s).Follows) : (whenPowered f s).Follows := by
  unfold Machine.whenPowered
  split
  · exact hf
  · exact h

/-! ## The requests -/

/-- What the arrival of a request comes to: only the link unit changes, or the request's own effect follows such a change. -/
theorem request_cases (s : State) (kind : Nat) (tag : Byte) (p : List Byte) (body : State → State) :
    ∃ l : Link, l.options = s.link.options ∧
      (s.request kind tag p body = { s with link := l } ∨
        s.takesRequest = true ∧ s.request kind tag p body = body { s with link := l }) := by
  unfold State.request
  split
  · exact ⟨s.link, rfl, .inl rfl⟩
  · simp only
    split
    · exact ⟨s.link.rxIdle.offer (0x80#8 + byteOf kind) tag .busy, offer_options _ _ _ _, .inl rfl⟩
    · rename_i hb hx
      unfold State.checked
      split
      · exact ⟨(s.link.rxIdle.enter (byteOf kind) tag).badField 0x20#8 0xFF#8, Link.answer_options _ _ _ _, .inl rfl⟩
      · split
        · exact ⟨(s.link.rxIdle.enter (byteOf kind) tag).badField 0x21#8 0xFF#8, Link.answer_options _ _ _ _, .inl rfl⟩
        · refine ⟨s.link.rxIdle.enter (byteOf kind) tag, rfl, .inr ⟨?_, rfl⟩⟩
          have hx' : s.link.executing.isNone = true := by simpa [Link.rxIdle] using hx
          simp_all [State.takesRequest]

theorem State.Follows.request {s : State} (h : s.Follows) (kind : Nat) (tag : Byte) (p : List Byte) {body : State → State}
    (hb : ∀ t : State, t.Follows → (body t).Follows) : (s.request kind tag p body).Follows := by
  obtain ⟨l, ho, e | ⟨-, e⟩⟩ := request_cases s kind tag p body
  · exact e ▸ h.withLink ho
  · exact e ▸ hb _ (h.withLink ho)

/-- A request that is taken may leave the stream to the reactions. -/
theorem State.Follows.request_lines {s : State} (h : s.Follows) (kind : Nat) (tag : Byte) (p : List Byte) {body : State → State}
    (hb : ∀ t : State, t.Follows → (body t).FollowsLines) :
    (s.request kind tag p body).FollowsLines ∧ (s.takesRequest = false → (s.request kind tag p body).Follows) := by
  obtain ⟨l, ho, e | ⟨ht, e⟩⟩ := request_cases s kind tag p body
  · exact ⟨e ▸ (h.withLink ho).lines, fun _ => e ▸ h.withLink ho⟩
  · exact ⟨e ▸ hb _ (h.withLink ho), fun hn => absurd (hn.symm.trans ht) (by simp)⟩

theorem State.Follows.tendingRequest {s : State} (h : s.Follows) (kind : Nat) (tag : Byte) (p : List Byte) {body : State → State}
    (hb : ∀ t : State, t.Follows → (body t).FollowsLines) :
    (Machine.tendingWhen State.takesRequest (fun t => t.request kind tag p body) s).Follows :=
  State.FollowsLines.tendingWhen (h.request_lines kind tag p hb).1 (h.request_lines kind tag p hb).2

theorem State.Follows.settlingRequest {s : State} (h : s.Follows) (kind : Nat) (tag : Byte) (p : List Byte) {body : State → State}
    (hb : ∀ t : State, Kept t (body t)) :
    (Machine.settlingWhen State.takesRequest (fun t => t.request kind tag p body) s).Follows :=
  have hl := h.request_lines kind tag p (fun t ht => ht.lines.kept (hb t))
  State.FollowsLines.settlingWhen hl.1 hl.2

theorem State.Follows.answer {s : State} (h : s.Follows) (st : ReplyStatus) (d : Byte) (bs : List Byte) : (s.answer st d bs).Follows :=
  h.withLink (Link.answer_options _ _ _ _)

/-- The lines are followed once the selection, the gate, the side and then spin demand have been worked out, whatever the options were
before. -/
theorem reworkSelect_reworkSpin_follows {s : State} (hg : s.GateRight) (hs : s.SideRight) (ht : s.TimerRight) (hr : s.RecordsRight) :
    s.reworkSelect.reworkSpin.FollowsLines := by
  have right : s.reworkSelect.drive.selected = s.addressed ∧ s.reworkSelect.GateRight ∧ s.reworkSelect.SideRight ∧
      s.reworkSelect.TimerRight ∧ s.reworkSelect.RecordsRight := by
    by_cases he : s.addressed = s.drive.selected
    · rw [State.reworkSelect, if_pos he]
      exact ⟨he.symm, hg, hs, ht, hr⟩
    · obtain ⟨h1, h2, h3, -, h5, h6⟩ := reworkSelect_right s (fun e => absurd e he) (fun e => absurd e he) (fun e => absurd e he) ht hr
      exact ⟨h1, h2, h3, h5, h6⟩
  obtain ⟨h1, h2, h3, h4, h5⟩ := right
  have frame := lineFrame_reworkSpin s.reworkSelect
  refine ⟨?_, ?_, ?_, reworkSpin_turns h4 h5⟩
  · rw [reworkSpin_drive, frame.addressed, h1, (lineFrame_reworkSelect s).addressed]
  · simp only [State.GateRight, reworkSpin_drive, frame.inputs]
    exact h2
  · simp only [State.SideRight, reworkSpin_drive, frame.inputs]
    exact h3

theorem putOptions_frame (s : State) (o : Options) :
    s.putOptions o = { s with link := { s.link with options := o }, cache := (s.putOptions o).cache } := by
  unfold State.putOptions
  simp only
  split
  · rw [lookAhead_eq]
  · rfl

theorem State.Follows.doOptions {s : State} (h : s.Follows) (p : List Byte) : (s.doOptions p).FollowsLines := by
  unfold State.doOptions
  split
  · exact (h.answer _ _ _).lines
  · unfold State.setOptions
    rw [putOptions_frame]
    exact reworkSelect_reworkSpin_follows h.gate h.side h.timer h.records

theorem State.Follows.doProfile {s : State} (h : s.Follows) (p : List Byte) : (s.doProfile p).Follows := by
  have time : ∀ g : Geometry, s.setProfile g =
      { s with prof := g, rot := { s.rot with t := (s.setProfile g).rot.t, fine := (s.setProfile g).rot.fine } } := by
    intro g
    simp only [State.setProfile, Rotation.underPeriod]
    split
    · rfl
    · split <;> rfl
  unfold State.doProfile
  split
  · exact h.answer _ _ _
  · split
    · exact h.answer _ _ _
    · split
      · exact h.answer _ _ _
      · refine State.Follows.answer ?_ _ _ _
        rw [time]
        exact h.withTime _ _ _

/-- A mount is accepted in UNMOUNTED alone, where no cells are recorded; spin demand is worked out after it. -/
theorem State.Follows.acceptMount {s : State} (h : s.Follows) (hm : s.isMounted = false) (ro so : Bool) (chain : List Extent) :
    (s.acceptMount ro so chain).FollowsLines := by
  have idle : s.cap.st.measures = false := by
    by_contra hc
    exact absurd (h.records (by simpa using hc)).2 (by simp [hm])
  unfold State.acceptMount
  simp only
  rw [arrival_frame]
  generalize hu : (State.mk .. : State) = u
  have frame := lineFrame_reworkSpin u
  refine ⟨?_, ?_, ?_, reworkSpin_turns ?_ ?_⟩
  · rw [reworkSpin_drive, frame.addressed]
    subst hu
    exact h.selected
  · simp only [State.GateRight, reworkSpin_drive, frame.inputs]
    subst hu
    exact h.gate
  · simp only [State.SideRight, reworkSpin_drive, frame.inputs]
    subst hu
    exact h.side
  · subst hu
    exact h.timer
  · subst hu
    intro hc
    exact absurd (idle.symm.trans hc) (by simp)

theorem checkMount_accepted {s : State} {so : Bool} {chain : List Extent} (h : s.checkMount so chain = .accepted) :
    s.mount.state = .unmounted := by
  unfold State.checkMount at h
  by_contra hm
  simp [hm] at h

theorem State.Follows.doMount {s : State} (h : s.Follows) (p : List Byte) : (s.doMount p).FollowsLines := by
  unfold State.doMount
  simp only
  split
  · exact (h.answer _ _ _).lines
  · exact (h.answer _ _ _).lines
  · exact (h.answer _ _ _).lines
  · rename_i hc
    exact (h.acceptMount (by simp [State.isMounted, checkMount_accepted hc]) _ _ _).kept (kept_answer _ _ _ _)

theorem State.Follows.doDefects {s : State} (h : s.Follows) (p : List Byte) : (s.doDefects p).Follows := by
  unfold State.doDefects
  simp only
  split
  · exact (h.answer _ _ _).withCache _
  · exact h.answer _ _ _

theorem State.Follows.doReset {s : State} (h : s.Follows) (p : List Byte) : (s.doReset p).Follows := by
  unfold State.doReset
  split
  · exact h.answer _ _ _
  · exact State.Follows.answer (h.withLink (l := s.link.markReset) rfl) _ _ _

theorem State.Follows.takeUnknown {s : State} (h : s.Follows) (tag : Byte) : (s.takeUnknown tag).Follows := by
  unfold State.takeUnknown
  split
  · exact h
  · exact h.withLink (offer_options _ _ _ _)

theorem State.Follows.takeBadFrame {s : State} (h : s.Follows) : s.takeBadFrame.Follows := by
  unfold State.takeBadFrame
  split
  · exact h
  · exact h.withLink (offer_options _ _ _ _)

theorem State.Follows.discardFrame {s : State} (h : s.Follows) : s.discardFrame.Follows := h.withLink rfl

theorem State.Follows.takeStatus {s : State} (h : s.Follows) (tag : Byte) (p : List Byte) : (s.takeStatus tag p).Follows :=
  h.request _ _ _ fun _ ht => ht.answer _ _ _
theorem State.Follows.takeOptions {s : State} (h : s.Follows) (tag : Byte) (p : List Byte) : (s.takeOptions tag p).Follows :=
  h.tendingRequest _ _ _ fun _ ht => ht.doOptions p
theorem State.Follows.takeProfile {s : State} (h : s.Follows) (tag : Byte) (p : List Byte) : (s.takeProfile tag p).Follows :=
  h.request _ _ _ fun _ ht => ht.doProfile p
theorem State.Follows.takeMount {s : State} (h : s.Follows) (tag : Byte) (p : List Byte) : (s.takeMount tag p).Follows :=
  h.tendingRequest _ _ _ fun _ ht => ht.doMount p
theorem State.Follows.takeUnmount {s : State} (h : s.Follows) (tag : Byte) (p : List Byte) : (s.takeUnmount tag p).Follows :=
  h.settlingRequest _ _ _ kept_doUnmount
theorem State.Follows.takeFlush {s : State} (h : s.Follows) (tag : Byte) (p : List Byte) : (s.takeFlush tag p).Follows :=
  h.settlingRequest _ _ _ kept_doFlush
theorem State.Follows.takeCardRead {s : State} (h : s.Follows) (tag : Byte) (p : List Byte) : (s.takeCardRead tag p).Follows :=
  h.settlingRequest _ _ _ fun t => kept_doCardRead t p
theorem State.Follows.takeCardWrite {s : State} (h : s.Follows) (tag : Byte) (p : List Byte) : (s.takeCardWrite tag p).Follows :=
  h.settlingRequest _ _ _ fun t => kept_doCardWrite t p
theorem State.Follows.takeDefects {s : State} (h : s.Follows) (tag : Byte) (p : List Byte) : (s.takeDefects tag p).Follows :=
  h.request _ _ _ fun _ ht => ht.doDefects p
theorem State.Follows.takeReset {s : State} (h : s.Follows) (tag : Byte) (p : List Byte) : (s.takeReset tag p).Follows :=
  h.request _ _ _ fun _ ht => ht.doReset p

theorem State.Follows.dispatch {s : State} (h : s.Follows) (kind tag : Byte) (p : List Byte) : (s.dispatch kind tag p).Follows := by
  unfold State.dispatch
  split
  · exact h.takeStatus _ _
  · exact h.takeOptions _ _
  · exact h.takeProfile _ _
  · exact h.takeMount _ _
  · exact h.takeUnmount _ _
  · exact h.takeFlush _ _
  · exact h.takeCardRead _ _
  · exact h.takeCardWrite _ _
  · exact h.takeDefects _ _
  · exact h.takeReset _ _
  · exact h.takeUnknown _

theorem State.Follows.character {s : State} (h : s.Follows) (c : Byte) : (s.character c).Follows := by
  have goOn : ∀ st bs, (s.rxGoOn st bs).Follows := fun st bs => h.withLink rfl
  unfold State.character
  split
  · exact h
  · simp only
    split
    · split
      · exact goOn _ _
      · exact h
    · unfold State.rxLength
      split
      · exact goOn _ _
      · split
        · exact goOn _ _
        · exact h.discardFrame
    · exact goOn _ _
    · split
      · unfold State.frameDone
        split
        · exact h.discardFrame.dispatch _ _ _
        · exact h.discardFrame.takeBadFrame
      · exact goOn _ _

/-! ## The drive lines -/

/-- Levels of lines that agree on SIDE, MOTOR ON and WRITE GATE: the selection follows them. -/
theorem State.Follows.selectChange {s : State} (h : s.Follows) (line : Fin 4) (b : Bool) : (s.selectChange line b).FollowsLines := by
  have levels : ∀ n, (setSelectLevel s.inputs n b).side = s.inputs.side ∧ (setSelectLevel s.inputs n b).writeGate = s.inputs.writeGate ∧
      (setSelectLevel s.inputs n b).motorOn = s.inputs.motorOn := by
    intro n
    unfold setSelectLevel
    split <;> exact ⟨rfl, rfl, rfl⟩
  obtain ⟨hside, hgate, hmotor⟩ := levels line
  unfold State.selectChange
  generalize hu : ({ s with inputs := setSelectLevel s.inputs line b } : State) = u
  have gate : u.GateRight := by subst hu; simpa only [State.GateRight, hgate] using h.gate
  have side : u.SideRight := by subst hu; simpa only [State.SideRight, hside] using h.side
  have spin : u.SpinRight := by
    subst hu
    simpa only [State.SpinRight, State.spinDemand, State.isMounted, State.motorActive, hmotor] using h.spin
  have timer : u.TimerRight := by subst hu; exact h.timer
  have records : u.RecordsRight := by subst hu; exact h.records
  obtain ⟨h1, h2, h3, h4, h5, h6⟩ := reworkSelect_right u (fun _ => gate) (fun _ => side) (fun _ => spin) timer records
  exact ⟨h1.trans (lineFrame_reworkSelect u).addressed.symm, h2, h3, h4, h5, h6⟩

theorem State.addressed_inputs (s : State) {x : Inputs} (h0 : x.select0 = s.inputs.select0) (h1 : x.select1 = s.inputs.select1)
    (h2 : x.select2 = s.inputs.select2) (h3 : x.select3 = s.inputs.select3) : ({ s with inputs := x } : State).addressed = s.addressed := by
  simp only [State.addressed]
  unfold selectLevel
  split <;> simp_all

theorem State.Follows.stepEdge {s : State} (h : s.Follows) (b : Bool) : (s.stepEdge b).FollowsLines := by
  unfold State.stepEdge
  split
  · unfold State.stepTaken
    simp only
    rw [arrival_frame]
    exact ⟨h.selected, h.gate, h.side, h.spin, h.timer, h.records⟩
  · exact h.lines

theorem State.Follows.sideLevel {s : State} (h : s.Follows) (b : Bool) :
    (s.sideLevel b).FollowsLines ∧ (s.drive.selected = false → (s.sideLevel b).Follows) := by
  generalize hu : ({ s with inputs := { s.inputs with side := b } } : State) = u
  have addressed : u.addressed = s.addressed := by subst hu; exact s.addressed_inputs rfl rfl rfl rfl
  have drive : u.drive = s.drive := by subst hu; rfl
  have gate : u.GateRight := by subst hu; exact h.gate
  have turns : u.Turns := by subst hu; exact ⟨h.spin, h.timer, h.records⟩
  unfold State.sideLevel
  simp only [hu]
  split
  · rename_i hsel
    have frame := lineFrame_reworkSide u
    refine ⟨⟨?_, ?_, ?_, ?_⟩, fun hn => absurd (hn.symm.trans hsel) (by simp)⟩
    · rw [reworkSide_drive, frame.addressed, addressed, drive]
      exact h.selected
    · simp only [State.GateRight, reworkSide_drive, frame.inputs]
      exact gate
    · intro _
      rw [reworkSide_drive, frame.inputs]
    · refine ⟨?_, ?_, reworkSide_records u turns.records⟩
      · rw [reworkSide_rot, spinDemand_same frame (by rw [reworkSide_drive])]
        exact turns.spin
      · rw [reworkSide_rot]
        exact turns.timer
  · rename_i hsel
    have lines : u.FollowsLines := ⟨by rw [addressed, drive]; exact h.selected, gate, fun hs => absurd (drive ▸ hs) hsel, turns⟩
    refine ⟨lines, fun _ => lines.follows ?_⟩
    subst hu
    exact h.stream

theorem State.Follows.motorLevel {s : State} (h : s.Follows) (b : Bool) : (s.motorLevel b).FollowsLines := by
  unfold State.motorLevel
  generalize hu : ({ s with inputs := { s.inputs with motorOn := b } } : State) = u
  have frame := lineFrame_reworkSpin u
  refine ⟨?_, ?_, ?_, ?_⟩
  · rw [reworkSpin_drive, frame.addressed]
    subst hu
    exact h.selected.trans (s.addressed_inputs rfl rfl rfl rfl).symm
  · simp only [State.GateRight, reworkSpin_drive, frame.inputs]
    subst hu
    exact h.gate
  · simp only [State.SideRight, reworkSpin_drive, frame.inputs]
    subst hu
    exact h.side
  · subst hu
    exact reworkSpin_turns h.timer h.records

theorem State.Follows.gateLevel {s : State} (h : s.Follows) (b : Bool) : (s.gateLevel b).FollowsLines := by
  unfold State.gateLevel
  generalize hu : ({ s with inputs := { s.inputs with writeGate := b } } : State) = u
  have turns : u.Turns := by subst hu; exact ⟨h.spin, h.timer, h.records⟩
  have frame := lineFrame_reworkGate u
  refine ⟨?_, ?_, ?_, ?_⟩
  · rw [reworkGate_drive, frame.addressed]
    subst hu
    exact h.selected.trans (s.addressed_inputs rfl rfl rfl rfl).symm
  · simp only [State.GateRight, reworkGate_drive, frame.inputs]
  · simp only [State.SideRight, reworkGate_drive, frame.inputs]
    subst hu
    exact h.side
  · refine ⟨?_, ?_, reworkGate_records u turns.records⟩
    · rw [reworkGate_rot, spinDemand_same frame (by rw [reworkGate_drive])]
      exact turns.spin
    · rw [reworkGate_rot]
      exact turns.timer

/-! ## The rotation, the stream, the capture unit and the clock -/

/-- The expiry of the spin-up timer takes the rotation to AT_SPEED from SPINNING_UP, where READ DATA did not flow. -/
theorem State.Follows.spinUpExpiry {s : State} (h : s.Follows) : s.spinUpExpiry.Follows := by
  have spin := h.spin
  unfold State.spinUpExpiry
  split
  · rename_i hr
    rw [hr] at spin
    exact ⟨h.selected, h.gate, h.side, spin, fun hn => absurd rfl hn, h.records,
      fun _ => h.stream (by simp [State.flowing, State.presented, hr])⟩
  · exact ⟨h.selected, h.gate, h.side, h.spin, fun hn => absurd rfl hn, h.records, h.stream⟩
  · exact ⟨h.selected, h.gate, h.side, h.spin, fun hn => absurd rfl hn, h.records, h.stream⟩

theorem State.Follows.pulseEnd {s : State} (h : s.Follows) : s.pulseEnd.Follows := by
  unfold State.pulseEnd
  split
  · exact h.withTime s.prof _ _
  · exact h

theorem State.Follows.wrap {s : State} (h : s.Follows) : s.wrap.FollowsLines ∧ (s.cap.st ≠ .track → s.wrap.Follows) := by
  have time := h.withTime s.prof 0 0
  refine ⟨time.lines.kept (captureOnly_captureWrap _).kept, fun hn => ?_⟩
  unfold State.wrap State.captureWrap
  rw [if_neg hn]
  exact time

theorem State.Follows.decideSlot {s : State} (h : s.Follows) : s.decideSlot.Follows := by
  unfold State.decideSlot
  split
  · rename_i hf _ _ _
    split
    · exact h.withPres hf _
    · exact h
  · exact h

theorem State.Follows.decideIndex {s : State} (h : s.Follows) : s.decideIndex.Follows := by
  unfold State.decideIndex
  split
  · rename_i hf _ _ _
    split
    · exact h.withPres hf _
    · exact h
  · exact h

/-- The stream of an instant changes the presentation unit only while it flows. -/
theorem State.Follows.present {s : State} (h : s.Follows) : s.present.Follows := by
  rw [s.present_outside]
  cases hf : s.flowing with
  | true => exact h.withPres hf _
  | false =>
    have : s.present = s := by simp [State.present, hf]
    rw [this]
    exact h

/-- Time going on by one fine tick bears on no line: the rotation state and the capture unit's state stay. -/
theorem State.Follows.advance {s : State} (h : s.Follows) : s.advance.Follows := by
  have p := h.present
  have state : ∀ (r : Rotation) n, (r.tick n).state = r.state ∧ ((r.tick n).spinTimer ≠ none → r.spinTimer ≠ none) := by
    intro r n
    unfold Rotation.tick
    simp only
    split <;> (try split) <;> exact ⟨rfl, by simp [countDown]⟩
  have measures : ∀ c : Capture, c.tick.st = c.st := by
    intro c
    unfold Capture.tick
    split <;> rfl
  obtain ⟨hst, htimer⟩ := state s.present.rot s.present.prof.profile.rpm.period
  refine ⟨p.selected, p.gate, p.side, ?_, fun hn => ?_, fun hm => p.records (measures s.present.cap ▸ hm), ?_⟩
  · exact (congrArg (· != RotState.stopped) hst).trans p.spin
  · exact hst.trans (p.timer (htimer hn))
  · intro hf
    refine p.stream ?_
    rw [← hf]
    simp only [State.flowing, State.presented, State.advance, State.isMounted, hst]

theorem State.Follows.tick {s : State} (h : s.Follows) : s.tick.Follows := by
  unfold State.tick
  split
  · exact h
  · split
    · exact h.advance
    · exact ⟨h.selected, h.gate, h.side, h.spin, h.timer, h.records, h.stream⟩
    · exact ⟨h.selected, h.gate, h.side, h.spin, h.timer, h.records, h.stream⟩

theorem fluxChange_idle {s : State} (h : s.cap.st.measures = false) : s.fluxChange = s := by simp [State.fluxChange, h]

theorem emptyCell_idle {s : State} (h : s.cap.st.measures = false) : s.emptyCell = s := by
  unfold State.emptyCell
  split
  · rfl
  · simp [h]

theorem captureSlotEnd_idle {s : State} (h : s.takesSlotEnd = false) : s.captureSlotEnd = s := by
  unfold State.captureSlotEnd
  split
  · rfl
  · split <;> simp_all [State.takesSlotEnd]

/-- An operation of the capture unit that a command takes or leaves wholly. -/
theorem State.Follows.settlingCapture {s : State} (h : s.Follows) {p : State → Bool} {f : State → State} (k : CaptureOnly s (f s))
    (hn : p s = false → f s = s) : (Machine.settlingWhen p f s).Follows :=
  State.FollowsLines.settlingWhen (h.lines.kept k.kept) fun hp => (hn hp).symm ▸ h

/-! ## The card -/

theorem State.Follows.cardInsert {s : State} (h : s.Follows) :
    (Machine.settlingWhen (fun t => t.card.state == .absent) State.cardInsert s).Follows := by
  refine State.FollowsLines.settlingWhen ((h.withCardDetect true).lines.kept (kept_cardInsert s)) fun hp => ?_
  have hp : s.card.state ≠ .absent := by simpa using hp
  unfold State.cardInsert
  simp only
  rw [if_neg hp]
  exact h.withCardDetect true

theorem State.Follows.cardRemove {s : State} (h : s.Follows) :
    (Machine.settlingWhen (fun t => t.card.state != .absent) State.cardRemove s).Follows := by
  refine State.FollowsLines.settlingWhen ((h.withCardDetect false).lines.kept (kept_cardRemove s)) fun hp => ?_
  have hp : s.card.state = .absent := by simpa using hp
  unfold State.cardRemove
  simp only
  rw [if_pos hp]
  exact h.withCardDetect false

theorem State.Follows.bringUpEnds {s : State} (h : s.Follows) (ok : Bool) (n : Nat) (wp : Bool) :
    (Machine.settlingWhen (fun t => t.card.state == .initialising) (fun t => t.bringUpEnds ok n wp) s).Follows := by
  refine State.FollowsLines.settlingWhen (h.lines.kept (kept_bringUpEnds s ok n wp)) fun hp => ?_
  have hp : s.card.state ≠ .initialising := by simpa using hp
  simp only [State.bringUpEnds, if_pos hp]
  exact h

theorem State.Follows.bringUpExpires {s : State} (h : s.Follows) :
    (Machine.settlingWhen (fun t => t.card.state == .initialising) State.bringUpExpires s).Follows := by
  refine State.FollowsLines.settlingWhen (h.lines.kept (kept_bringUpExpires s)) fun hp => ?_
  have hp : s.card.state ≠ .initialising := by simpa using hp
  simp only [State.bringUpExpires, if_neg hp]
  exact h.withCard _

theorem State.Follows.attemptFails {s : State} (h : s.Follows) (e : RunError) :
    (Machine.settlingWhen (fun t => t.card.active.isSome) (fun t => t.attemptFails e) s).Follows := by
  refine State.FollowsLines.settlingWhen (h.lines.kept (kept_attemptFails s e)) fun hp => ?_
  have hp : s.card.active = none := by simpa using hp
  simp only [State.attemptFails, hp]
  exact h.withCard _

theorem State.Follows.transferEnds {s : State} (h : s.Follows) (data : List Byte) : (s.transferEnds data).Follows := by
  unfold State.transferEnds
  split
  · exact (h.lines.kept (kept_blockDone s data)).settle _
  · exact h

theorem State.Follows.idleExpires {s : State} (h : s.Follows) :
    (Machine.settlingWhen (fun t => t.cache.idleTimer.isSome) State.idleExpires s).Follows := by
  refine State.FollowsLines.settlingWhen (h.lines.kept (kept_idleExpires s)) fun hp => ?_
  have hp : s.cache.idleTimer = none := by simpa using hp
  simp only [State.idleExpires, hp]
  exact h

/-! ## Power and reset -/

/-- After a restart the drive interface stands as the lines have it, and nothing turns. -/
theorem State.Follows.restart (s : State) (x : Inputs) : (s.restart x).Follows where
  selected := rfl
  gate := rfl
  side := by simp +contextual [State.restart, Drive.after]
  spin := by simp [State.restart, State.reset, State.spinDemand, State.isMounted, Mount.cleared]
  timer := fun h => absurd rfl h
  records := fun h => absurd (show CaptureState.measures .idle = true from h) (by decide)
  stream := fun _ => rfl

theorem State.reset_follows : State.reset.Follows where
  selected := rfl
  gate := rfl
  side := fun _ => rfl
  spin := by decide
  timer := fun h => absurd rfl h
  records := fun h => absurd h (by decide)
  stream := fun _ => rfl

theorem State.Follows.dark (s : State) : s.dark.Follows :=
  ⟨State.reset_follows.selected, State.reset_follows.gate, State.reset_follows.side, State.reset_follows.spin,
    State.reset_follows.timer, State.reset_follows.records, fun _ => rfl⟩

theorem State.Follows.resetNow {s : State} (h : s.Follows) (b : Bool) : (s.resetNow b).Follows := by
  unfold State.resetNow
  split
  · exact (State.Follows.restart s _).withLink rfl
  · exact h

theorem Link.frameSent_options (l : Link) : l.frameSent.options = l.options := by
  unfold Link.frameSent
  repeat' split
  all_goals simp only [(Link.startTx_sameBase _).options]

theorem Link.takeBreak_options (l : Link) : l.takeBreak.options = l.options := by
  unfold Link.takeBreak
  simp only
  repeat' split
  all_goals rfl

theorem State.Follows.linkBreaks {s : State} (h : s.Follows) : s.linkBreaks.Follows := by
  unfold State.linkBreaks
  split
  · exact h
  · exact h.withLink (Link.takeBreak_options _)

theorem State.Follows.linkReturns {s : State} (h : s.Follows) : s.linkReturns.Follows := by
  unfold State.linkReturns
  split
  · exact h.withLink (Link.startTx_sameBase _).options
  · exact h

/-! ## Every command -/

theorem exec_follows {s : State} (h : s.Follows) (c : Instr) : ∃ t, exec c s = .next t ∧ t.Follows := by
  cases c with
  | powerOn x => exact ⟨_, rfl, .restart s x⟩
  | powerFail => exact ⟨_, rfl, .dark s⟩
  | status tag p => exact ⟨_, rfl, h.whenPowered (h.takeStatus tag p)⟩
  | options tag p => exact ⟨_, rfl, h.whenPowered (h.takeOptions tag p)⟩
  | profile tag p => exact ⟨_, rfl, h.whenPowered (h.takeProfile tag p)⟩
  | mount tag p => exact ⟨_, rfl, h.whenPowered (h.takeMount tag p)⟩
  | unmount tag p => exact ⟨_, rfl, h.whenPowered (h.takeUnmount tag p)⟩
  | flush tag p => exact ⟨_, rfl, h.whenPowered (h.takeFlush tag p)⟩
  | cardRead tag p => exact ⟨_, rfl, h.whenPowered (h.takeCardRead tag p)⟩
  | cardWrite tag p => exact ⟨_, rfl, h.whenPowered (h.takeCardWrite tag p)⟩
  | defects tag p => exact ⟨_, rfl, h.whenPowered (h.takeDefects tag p)⟩
  | reset tag p => exact ⟨_, rfl, h.whenPowered (h.takeReset tag p)⟩
  | unknownKind kind tag => exact ⟨_, rfl, h.whenPowered (h.takeUnknown tag)⟩
  | frameError => exact ⟨_, rfl, h.whenPowered h.takeBadFrame⟩
  | badLengthDiscard => exact ⟨_, rfl, h.whenPowered h.discardFrame⟩
  | framingFault => exact ⟨_, rfl, h.whenPowered h.discardFrame⟩
  | interCharacterTimeout => exact ⟨_, rfl, h.whenPowered h.discardFrame⟩
  | frameSent => exact ⟨_, rfl, h.whenPowered (h.withLink (Link.frameSent_options _))⟩
  | resetTakesEffect fastStrap => exact ⟨_, rfl, h.whenPowered (h.resetNow fastStrap)⟩
  | linkBreak => exact ⟨_, rfl, h.whenPowered h.linkBreaks⟩
  | linkBreakEnd => exact ⟨_, rfl, h.whenPowered h.linkReturns⟩
  | driveSelectChange line asserted => exact ⟨_, rfl, h.whenPowered (h.selectChange line asserted).tend⟩
  | step dirIn =>
    refine ⟨_, rfl, h.whenPowered (State.FollowsLines.tendingWhen (h.stepEdge dirIn) fun hp => ?_)⟩
    simp only [State.stepEdge, hp]
    exact h
  | sideChange asserted =>
    exact ⟨_, rfl, h.whenPowered (State.FollowsLines.tendingWhen (h.sideLevel asserted).1 (h.sideLevel asserted).2)⟩
  | motorOnChange asserted => exact ⟨_, rfl, h.whenPowered (h.motorLevel asserted).tend⟩
  | spinUpTimerExpiry => exact ⟨_, rfl, h.whenPowered h.spinUpExpiry⟩
  | rotationWrap =>
    exact ⟨_, rfl, h.whenPowered (State.FollowsLines.settlingWhen h.wrap.1 fun hp => h.wrap.2 (by simpa using hp))⟩
  | indexPulseEnd => exact ⟨_, rfl, h.whenPowered h.pulseEnd⟩
  | indexFieldDecision => exact ⟨_, rfl, h.whenPowered h.decideIndex⟩
  | slotDecision => exact ⟨_, rfl, h.whenPowered h.decideSlot⟩
  | writeGateRise => exact ⟨_, rfl, h.whenPowered (h.gateLevel true).tend⟩
  | writeDataFluxChange => exact ⟨_, rfl, h.whenPowered (h.settlingCapture (captureOnly_fluxChange s) fluxChange_idle)⟩
  | huntDeadline =>
    exact ⟨_, rfl, h.whenPowered (h.settlingCapture (captureOnly_captureDeadline s) fun hp => if_neg (by simpa using hp))⟩
  | slotEndDuringCapture =>
    exact ⟨_, rfl, h.whenPowered (h.settlingCapture (captureOnly_captureSlotEnd s) captureSlotEnd_idle)⟩
  | writeGateFall => exact ⟨_, rfl, h.whenPowered (h.gateLevel false).tend⟩
  | idleFlushTimerExpiry => exact ⟨_, rfl, h.whenPowered h.idleExpires⟩
  | cardInserted => exact ⟨_, rfl, h.whenPowered h.cardInsert⟩
  | bringUpDone ok capacity wp => exact ⟨_, rfl, h.whenPowered (h.bringUpEnds ok capacity wp)⟩
  | bringUpLimitExpiry => exact ⟨_, rfl, h.whenPowered h.bringUpExpires⟩
  | cardRemoved => exact ⟨_, rfl, h.whenPowered h.cardRemove⟩
  | blockTransferDone data => exact ⟨_, rfl, h.whenPowered (h.transferEnds data)⟩
  | blockLimitExpiry => exact ⟨_, rfl, h.whenPowered (h.attemptFails .timeout)⟩
  | blockCardError => exact ⟨_, rfl, h.whenPowered (h.attemptFails .cardError)⟩
  | emptyCell => exact ⟨_, rfl, h.whenPowered (h.settlingCapture (captureOnly_emptyCell s) emptyCell_idle)⟩
  | characterReceived char => exact ⟨_, rfl, h.whenPowered (h.character char)⟩

/-- Settles O6: by cases on the command; each effect follows the lines, and the stream is put right by the reactions or not touched. -/
theorem everyStepFollowsTheLines : Obligations.EveryStepFollowsTheLines := by
  intro s t h hstep
  rcases step_cases hstep with ⟨-, rfl⟩ | ⟨c, rest, -, hexec⟩
  · exact h.tick
  · obtain ⟨u, hu, hfollows⟩ := exec_follows (h.withPending rest) c
    rw [hu] at hexec
    exact Host.Outcome.next.inj hexec ▸ hfollows

/-- Settles O4: the values after reset, block by block. -/
theorem soundAndFollowingAtReset : Obligations.SoundAndFollowingAtReset := ⟨State.reset_sound, State.reset_follows⟩

end Sys2Proof.Machine
end

section
/-! PROOFS. The values after power-on (02 R38 with the other blocks' reset rules), the outputs on the drive connector (02 R29 to R33, R37)
and the crystal's tick (00 section 6.2, logs 1 and 2). -/

namespace Sys2Proof.Machine

/-! ## Power-on -/

/-- Settles O7: each register as the restart sets it. -/
theorem powerOnGivesTheResetValues : Obligations.PowerOnGivesTheResetValues := by
  intro x s
  have hcard : (s.restart x).card =
      { state := if x.cardDetect then .initialising else .absent, capacity := 0, wp := false, failCount := 0, active := none,
        queued := none, mergeBuf := [], lastRun := none, panel := none,
        bringUp := if x.cardDetect then some 24000000 else none, blockLimit := none } := by
    cases hx : x.cardDetect <;> simp [State.restart, Card.after, Card.reset, hx, ms, fineTicksPerMs]
  exact ⟨s.restart x, rfl, rfl, rfl, rfl, rfl, rfl, rfl, rfl, rfl, rfl, rfl, rfl, rfl, rfl, rfl, rfl, rfl, fun _ => rfl, rfl, rfl, rfl,
    rfl, rfl, rfl, fun _ => rfl, hcard, rfl, rfl, rfl, rfl, rfl, rfl, rfl, rfl, rfl, rfl, rfl, rfl⟩

/-! ## The outputs -/

theorem testBit_flags (bits : List Bool) (i : Nat) :
    (bits.foldr (fun (b : Bool) acc => b.toNat + 2 * acc) 0).testBit i = bits.getD i false := by
  induction bits generalizing i with
  | nil => simp
  | cons b bits ih =>
    rw [List.foldr_cons]
    cases i with
    | zero => cases b <;> simp [Nat.testBit_zero]
    | succ i =>
      rw [Nat.testBit_succ, List.getD_cons_succ, ← ih i]
      congr 1
      cases b
      · simp
      · simp only [Bool.toNat_true]
        omega

/-- Bit `i` of a flag byte is its `i`-th flag (R177). -/
theorem flagByte_getLsbD (bits : List Bool) {i : Nat} (hi : i < 8) : (flagByte bits).getLsbD i = bits.getD i false := by
  rw [flagByte, byteOf_getLsbD, testBit_flags]
  simp [hi]

/-- Settles O10: the line by its condition, which names neither mount nor card nor rotation; bit 5 of the record's drive flags is head 0. -/
theorem track00FollowsSelectionAndHead : Obligations.Track00FollowsSelectionAndHead := by
  refine ⟨fun s hp => ?_, fun _ _ _ _ => rfl, fun s => ?_⟩
  · simp [State.track00Out, hp]
  · have hbyte : byteAt s.statusRecord 1 = s.driveFlags := rfl
    rw [hbyte, State.driveFlags, flagByte_getLsbD _ (by decide)]
    simp

theorem State.presented_iff {s : State} (hp : s.powered = true) :
    s.presented = true ↔ s.drive.selected = true ∧ s.mount.state = .mounted ∧ s.rot.state = .atSpeed := by
  simp [State.presented, State.isMounted, hp, and_assoc]

/-- READ DATA pulses only while the stream flows (R90). -/
theorem State.flowing_of_readDataOut {s : State} (h : s.readDataOut = true) : s.flowing = true := by
  unfold State.readDataOut at h
  split at h
  · exact absurd h (by simp)
  · simp only [Bool.and_eq_true] at h
    exact h.1.1

/-- Settles O11: each line by its condition. -/
theorem outputsFollowTheirConditions : Obligations.OutputsFollowTheirConditions := by
  intro s hp
  refine ⟨?_, ?_, ?_, fun h => ?_⟩
  · simp [State.indexOut, State.presented_iff hp]
  · simp [State.writeProtectOut, State.protectCond, State.isMounted, hp, or_assoc]
  · unfold State.line34Out
    split
    · rename_i ho
      simp [ho, State.presented_iff hp]
    · rename_i ho
      simp [ho, hp]
  · have hf := State.flowing_of_readDataOut h
    simp only [State.flowing, Bool.and_eq_true, Bool.not_eq_true', State.presented_iff hp] at hf
    exact hf

/-! ## What is due -/

/-- The byte cell under the head has begun at this instant: its first rotation tick, at the first fine tick. -/
def State.firstInstant (s : State) (y : Layout) (p : Nat) : Prop :=
  s.rot.fine = 0 ∧ y.cellAt s.rot.t = p ∧ s.rot.t = p * y.byteTime

/-- A decision for a unit can be taken at this instant (R95). -/
def State.decidesNow (s : State) (u : PresUnit) : Prop :=
  s.flowing = true ∧ s.firstInstant s.layoutHere s.cell ∧ s.currentTrack ≠ none ∧ s.cache.active ≠ none ∧ s.pres.decision.unit ≠ u

theorem Layout.cellAt_mul_le (y : Layout) (t : Nat) : y.cellAt t * y.byteTime ≤ t :=
  (Nat.mul_le_mul_right _ (Nat.min_le_left _ _)).trans (Nat.div_mul_le_self _ _)

theorem State.atCellStart_iff (s : State) : s.atCellStart = true ↔ s.firstInstant s.layoutHere s.cell := by
  have hle : s.cell * s.layoutHere.byteTime ≤ s.rot.t := Layout.cellAt_mul_le _ _
  have hcell : s.layoutHere.cellAt s.rot.t = s.cell := rfl
  simp only [State.atCellStart, State.cellAge, State.firstInstant, hcell, Bool.and_eq_true, beq_iff_eq, true_and]
  rw [Nat.sub_eq_zero_iff_le]
  exact and_congr_right fun _ => ⟨fun h => Nat.le_antisymm h hle, fun h => h.le⟩

theorem State.capCellStart_iff (s : State) (p : Nat) :
    (s.capCellStart = true ∧ s.capLayout.cellAt s.rot.t = p) ↔ s.firstInstant s.capLayout p := by
  simp only [State.capCellStart, State.firstInstant, Bool.and_eq_true, beq_iff_eq, and_assoc]
  constructor
  · rintro ⟨h1, h2, rfl⟩
    exact ⟨h1, rfl, h2⟩
  · rintro ⟨h1, rfl, h2⟩
    exact ⟨h1, h2, rfl⟩

theorem State.indexDue_iff (s : State) : s.indexDue = true ↔ s.regionHere = .indexField 0 ∧ s.decidesNow .indexField := by
  unfold State.indexDue State.decidesNow
  split
  · rename_i hr
    simp [State.undecided, State.atCellStart_iff, hr, Option.isSome_iff_ne_none]
    tauto
  · rename_i hr
    exact ⟨fun h => absurd h (by simp), fun h => absurd h.1 hr⟩

theorem State.slotDue_iff (s : State) : s.slotDue = true ↔ ∃ j, s.regionHere = .slot j 0 ∧ s.decidesNow (.slot j) := by
  unfold State.slotDue State.decidesNow
  split
  · rename_i j hr
    simp [State.undecided, State.atCellStart_iff, hr, Option.isSome_iff_ne_none]
    tauto
  · rename_i hr
    exact ⟨fun h => absurd h (by simp), fun ⟨j, h, _⟩ => absurd h (hr j)⟩

theorem State.deadlineDue_iff (s : State) : s.deadlineDue = true ↔ s.cap.st = .hunt ∧
    s.firstInstant s.capLayout (s.capLayout.slotStart s.cap.slot + match s.capZone.encoding with | .mfm => 72 | .fm => 40) := by
  rw [← State.capCellStart_iff]
  unfold State.deadlineDue deadlineOffset
  cases s.capZone.encoding <;> simp [and_assoc]

theorem State.slotEndDue_iff (s : State) : s.slotEndDue = true ↔
    (s.cap.st = .sectorTail ∨ s.cap.st = .sectorData) ∧ s.cap.pastSlot = false ∧
      (s.cap.slot + 1 < s.capZone.n ∧ s.firstInstant s.capLayout (s.capLayout.slotStart (s.cap.slot + 1)) ∨
       s.capZone.n ≤ s.cap.slot + 1 ∧ (s.rot.fine = 8 ∨ s.rot.t = 0 ∧ s.rot.fine = 0)) := by
  rw [← State.capCellStart_iff]
  unfold State.slotEndDue
  by_cases hlast : s.cap.slot + 1 < s.capZone.n
  · simp [hlast, Nat.not_le.mpr hlast, and_assoc]
  · simp [hlast, Nat.not_lt.mp hlast, and_assoc]

theorem State.emptyDue_iff (s : State) : s.emptyDue = true ↔ s.cap.st.measures = true ∧
    ∃ x, s.cap.fluxOpen = some x ∧ (2 * s.cap.empties + 3) * (12000 / s.capZone.rate.kbit) / 2 ≤ x := by
  unfold State.emptyDue
  split
  · rename_i hx
    simp [hx]
  · rename_i x hx
    simp only [hx, Bool.and_eq_true, decide_eq_true_eq, Option.some.injEq, exists_eq_left']
    exact Iff.rfl

theorem State.sentDue_iff (s : State) : s.sentDue = true ↔ ∃ f, s.link.tx = some f ∧ f.left = 0 := by
  unfold State.sentDue
  split
  · rename_i hx
    simp [hx]
  · rename_i f hx
    simp [hx]

theorem mem_ite_singleton (c d : Instr) (p : Prop) [Decidable p] : c ∈ (if p then [d] else []) ↔ c = d ∧ p := by
  split <;> simp_all

/-- What is due, command by command with its condition. -/
theorem State.mem_due_iff (s : State) (c : Instr) : c ∈ s.due ↔
    (c = .rotationWrap ∧ s.rot.fine = 8) ∨
    (c = .spinUpTimerExpiry ∧ s.rot.spinTimer = some 0) ∨ (c = .idleFlushTimerExpiry ∧ s.cache.idleTimer = some 0) ∨
    (c = .bringUpLimitExpiry ∧ s.card.bringUp = some 0) ∨ (c = .blockLimitExpiry ∧ s.card.blockLimit = some 0) ∨
    (c = .interCharacterTimeout ∧ s.link.rxTimer = some 0) ∨
    (c = .indexFieldDecision ∧ s.regionHere = .indexField 0 ∧ s.decidesNow .indexField) ∨
    (c = .slotDecision ∧ ∃ j, s.regionHere = .slot j 0 ∧ s.decidesNow (.slot j)) ∨
    (c = .huntDeadline ∧ s.cap.st = .hunt ∧
      s.firstInstant s.capLayout (s.capLayout.slotStart s.cap.slot + match s.capZone.encoding with | .mfm => 72 | .fm => 40)) ∨
    (c = .slotEndDuringCapture ∧ (s.cap.st = .sectorTail ∨ s.cap.st = .sectorData) ∧ s.cap.pastSlot = false ∧
      (s.cap.slot + 1 < s.capZone.n ∧ s.firstInstant s.capLayout (s.capLayout.slotStart (s.cap.slot + 1)) ∨
       s.capZone.n ≤ s.cap.slot + 1 ∧ (s.rot.fine = 8 ∨ s.rot.t = 0 ∧ s.rot.fine = 0))) ∨
    (c = .emptyCell ∧ s.cap.st.measures = true ∧
      ∃ x, s.cap.fluxOpen = some x ∧ (2 * s.cap.empties + 3) * (12000 / s.capZone.rate.kbit) / 2 ≤ x) ∨
    (c = .frameSent ∧ ∃ f, s.link.tx = some f ∧ f.left = 0) ∨
    (c = .resetTakesEffect (Config.strapAt s.free) ∧ s.link.resetDue = true) := by
  rw [← s.indexDue_iff, ← s.slotDue_iff, ← s.deadlineDue_iff, ← s.slotEndDue_iff, ← s.emptyDue_iff, ← s.sentDue_iff]
  simp only [State.due, List.mem_append, mem_ite_singleton, ranOut, beq_iff_eq]
  rw [← eq_iff_iff]
  ac_rfl

/-! ## The tick -/

/-- With commands due one of them goes into the queue, and the count of free values goes up at most. -/
theorem State.tick_due {s : State} (hp : s.powered = true) (hd : s.due ≠ []) :
    ∃ c ∈ s.due, s.tick = { s with pending := [c], free := s.tick.free } ∧ s.free ≤ s.tick.free := by
  unfold State.tick
  rw [if_neg (by simp [hp])]
  split
  · rename_i h
    exact absurd h hd
  · rename_i c h
    refine ⟨c, by simp [h], rfl, ?_⟩
    simp only
    split <;> omega
  · rename_i c d cs h
    have perm := arrange_perm (Config.tie s.free) (c :: d :: cs)
    cases he : arrange (Config.tie s.free) (c :: d :: cs) with
    | nil => exact absurd (he ▸ perm).length_eq (by simp)
    | cons e es =>
      refine ⟨e, ?_, rfl, Nat.le_succ _⟩
      rw [h]
      exact perm.subset (by simp [he])

theorem State.tick_advance {s : State} (hp : s.powered = true) (hd : s.due = []) : s.tick = s.advance := by
  unfold State.tick
  rw [if_neg (by simp [hp]), hd]

/-- One fine tick, field by field: the stream's instant and every timer. -/
theorem State.advance_eq (s : State) : s.advance = { s with
    rot := s.rot.tick s.prof.profile.rpm.period
    cap := s.cap.tick
    cache := { s.cache with idleTimer := countDown 1 s.cache.idleTimer }
    card := { s.card with bringUp := countDown 1 s.card.bringUp, blockLimit := countDown 1 s.card.blockLimit }
    link := s.link.tick
    pres := s.present.pres
    pending := s.advance.pending } := by
  unfold State.advance
  rw [s.present_outside]

theorem Rotation.tick_t (r : Rotation) (period : Nat) :
    (r.tick period).t = if 7 ≤ r.fine ∧ r.t + 1 < period then r.t + 1 else r.t := by
  unfold Rotation.tick
  simp only
  split
  · rw [if_neg (by omega)]
  · split
    · rw [if_pos (by omega)]
    · rw [if_neg (by omega)]

theorem Rotation.tick_fine (r : Rotation) (period : Nat) :
    (r.tick period).fine = if r.fine < 7 then r.fine + 1 else if r.t + 1 < period then 0 else 8 := by
  unfold Rotation.tick
  simp only
  split
  · rfl
  · split <;> rfl

theorem Rotation.tick_state (r : Rotation) (period : Nat) :
    (r.tick period).state = r.state ∧ (r.tick period).spinTimer = countDown 1 r.spinTimer := by
  unfold Rotation.tick
  simp only
  split
  · exact ⟨rfl, rfl⟩
  · split <;> exact ⟨rfl, rfl⟩

theorem Capture.tick_eq (c : Capture) :
    (c.st.measures = true → c.tick = { c with fluxOpen := c.fluxOpen.map (fun n => n + 1) }) ∧ (c.st.measures = false → c.tick = c) := by
  unfold Capture.tick
  exact ⟨fun h => if_pos h, fun h => if_neg (by simp [h])⟩

/-- Settles O2: what is due by `State.mem_due_iff`, the rest by what a tick and an advance make of each field. -/
theorem emptyQueueTicksTheCrystal : Obligations.EmptyQueueTicksTheCrystal := by
  intro s hq
  refine ⟨by simp [step, hq], fun c => s.mem_due_iff c, fun hp => if_pos (by simp [hp]), State.tick_due, fun hp hd => ?_⟩
  have eq := State.advance_eq s
  have pend : s.advance.pending = if s.advance.rot.t = 6000 ∧ s.advance.rot.fine = 0 then [.indexPulseEnd] else [] := rfl
  rw [State.tick_advance hp hd]
  refine ⟨?_, ?_, ?_, ?_, ?_, ?_, pend, ?_, ?_, ?_, ?_, ?_, ?_, ?_, fun hm => ?_, fun hm => ?_, ?_⟩ <;> rw [eq]
  · exact Rotation.tick_t _ _
  · exact Rotation.tick_fine _ _
  · exact (Rotation.tick_state _ _).1
  · exact (Rotation.tick_state _ _).2
  · rfl
  · rfl
  · exact hp
  · rfl
  · exact s.cap.tick_eq.1 hm
  · exact s.cap.tick_eq.2 hm

end Sys2Proof.Machine
end

section
/-! PROOFS. Steps and sides (02 R25, R26, R28): the head, the arrival and the capture that a side change ends. -/

namespace Sys2Proof.Machine

/-! ## Commands with the supply present -/

theorem whenPowered_present (f : State → State) {s : State} (hp : s.powered = true) : whenPowered f s = f s := if_pos hp

theorem tendingWhen_taken {p : State → Bool} (f : State → State) {s : State} (h : p s = true) :
    tendingWhen p f s = (f s).tend := if_pos h

theorem tendingWhen_refused {p : State → Bool} (f : State → State) {s : State} (h : p s = false) : tendingWhen p f s = f s :=
  if_neg (by simp [h])

theorem State.isMounted_iff (s : State) : s.isMounted = true ↔ s.mount.state = .mounted := by simp [State.isMounted]

theorem State.isMounted_eq_false_iff (s : State) : s.isMounted = false ↔ s.mount.state ≠ .mounted := by simp [State.isMounted]

/-! ## Arrivals -/

/-- No arrival outside MOUNTED, nor at the current track (R28). -/
theorem State.arrival_none {s : State} {old : Option Track} (h : s.mount.state ≠ .mounted ∨ s.currentTrack = old) :
    s.arrival old = s := by
  refine if_pos ?_
  rcases h with h | h
  · simp [(s.isMounted_eq_false_iff).2 h]
  · simp [h]

/-- The arrival at another track (R28, R104). -/
theorem State.arrival_other {s : State} {old : Option Track} (hm : s.mount.state = .mounted) (h : s.currentTrack ≠ old) :
    s.arrival old = s.arrive.react s.cache :=
  if_neg (by simp [(s.isMounted_iff).2 hm, h])

/-! ## Steps -/

theorem stepHead_eq (head : Nat) (dirIn : Bool) :
    stepHead head dirIn = if dirIn then (if head < 83 then head + 1 else 83) else head - 1 := by
  unfold stepHead
  cases dirIn
  · rfl
  · simp only [if_true]
    split <;> omega

/-- The latch is cleared in MOUNTED alone (R31). -/
theorem steppedLatch_eq (s : State) : (s.drive.latch && !s.isMounted) = if s.mount.state = .mounted then false else s.drive.latch := by
  split
  · rename_i h
    simp [(s.isMounted_iff).2 h]
  · rename_i h
    simp [(s.isMounted_eq_false_iff).2 h]

/-- Settles O43: a step that is taken is the head's move and the arrival. -/
theorem stepMovesTheHead : Obligations.StepMovesTheHead := by
  intro s dirIn hp
  have hexec : exec (.step dirIn) s = .next (tendingWhen State.takesStep (fun t => t.stepEdge dirIn) s) :=
    congrArg Host.Outcome.next (whenPowered_present _ hp)
  refine ⟨fun h => ?_, fun hs hg => ?_⟩
  · have hn : s.takesStep = false := by rcases h with h | h <;> simp [State.takesStep, h]
    rw [hexec, tendingWhen_refused _ hn, State.stepEdge, if_neg (by simp [hn])]
  · intro v a
    have ht : s.takesStep = true := by simp [State.takesStep, hs, hg]
    have hu : s.stepEdge dirIn = v.arrival s.currentTrack := by
      simp only [State.stepEdge, ht, if_true, State.stepTaken, stepHead_eq, steppedLatch_eq, v]
    refine ⟨v.arrival s.currentTrack, _, hexec.trans ?_, reacted_tend _, fun h => State.arrival_none h, fun hm h => ?_⟩
    · rw [tendingWhen_taken _ ht, hu]
    · exact State.arrival_other hm h

/-! ## The byte begun when a sector write is cut off (R121) -/

/-- The first `n` of eight bits, bit 7 first. -/
def leadingBits (f : Nat → Bool) (n : Nat) : Nat := (List.range n).foldl (fun acc k => acc + (f k).toNat * 2 ^ (7 - k)) 0

theorem leadingBits_succ (f : Nat → Bool) (n : Nat) : leadingBits f (n + 1) = leadingBits f n + (f n).toNat * 2 ^ (7 - n) := by
  simp [leadingBits, List.range_succ]

theorem two_pow_dvd_leadingBits (f : Nat → Bool) (n : Nat) : 2 ^ (8 - n) ∣ leadingBits f n := by
  induction n with
  | zero => exact Dvd.intro_left 0 (by simp [leadingBits])
  | succ n ih =>
    rw [leadingBits_succ]
    have hle : 8 - (n + 1) = 7 - n := by omega
    rw [hle]
    exact Nat.dvd_add ((Nat.pow_dvd_pow 2 (by omega)).trans ih) (Nat.dvd_mul_left _ _)

theorem leadingBits_testBit (f : Nat → Bool) {n k : Nat} (hn : n ≤ 8) (hk : k < 8) :
    (leadingBits f n).testBit (7 - k) = (decide (k < n) && f k) := by
  induction n with
  | zero => simp [leadingBits]
  | succ n ih =>
    obtain ⟨q, hq⟩ := two_pow_dvd_leadingBits f n
    have hlt : (f n).toNat * 2 ^ (7 - n) < 2 ^ (8 - n) := by
      have : 2 ^ (8 - n) = 2 * 2 ^ (7 - n) := by rw [← Nat.pow_succ']; congr 1; omega
      have := Nat.two_pow_pos (7 - n)
      cases f n
      · simp
      · simp
        omega
    have ih := ih (by omega)
    rw [leadingBits_succ, hq, Nat.testBit_two_pow_mul_add _ hlt]
    rw [hq, Nat.testBit_two_pow_mul] at ih
    split
    · rename_i hlow
      have hkn : n ≤ k := by omega
      rw [Nat.testBit_mul_two_pow]
      obtain rfl | hne := Nat.eq_or_lt_of_le hkn
      · cases f n <;> simp
      · have h1 : ¬ 7 - n ≤ 7 - k := by omega
        have h2 : ¬ k < n + 1 := by omega
        simp [h1, h2]
    · rename_i hhigh
      have hkn : k < n := by omega
      have h1 : 8 - n ≤ 7 - k := by omega
      simpa [h1, hkn, Nat.lt_succ_of_lt hkn] using ih

/-- A byte begun holds the data cells that came, bit 7 first, and 0 in the places of the rest. -/
theorem partialByte_getLsbD (shift : BitVec 64) {valid k : Nat} (hv : valid < 16) (hk : k < 8) :
    (partialByte shift valid).getLsbD (7 - k) = (decide (k < valid / 2) && shift.getLsbD (valid - 2 - 2 * k)) := by
  have h : partialByte shift valid = byteOf (leadingBits (fun k => shift.getLsbD (valid - 2 - 2 * k)) (valid / 2)) := rfl
  rw [h, byteOf_getLsbD, leadingBits_testBit _ (by omega) hk]
  have : 7 - k < 8 := by omega
  simp [this]

theorem byteAt_memSlice (m : Memory) (a : Nat) {k n : Nat} (h : k < n) : byteAt (memSlice m a n) k = memRead m (a + k) := by
  simp [byteAt, memSlice, List.getD_eq_getElem?_getD, h]

/-- The bytes a torn write stores: those received up to the sector's size, and the byte begun (R121). -/
theorem State.tornBytes_spec (s : State) (hv : s.cap.valid < 16) :
    (∀ k, k < min s.cap.received s.capLayout.sectorSize → byteAt s.tornBytes k = memRead s.cap.scratch k) ∧
    (s.capLayout.sectorSize ≤ s.cap.received → s.tornBytes.length = s.capLayout.sectorSize) ∧
    (s.cap.received < s.capLayout.sectorSize → s.cap.valid < 2 → s.tornBytes.length = s.cap.received) ∧
    (s.cap.received < s.capLayout.sectorSize → 2 ≤ s.cap.valid → s.tornBytes.length = s.cap.received + 1 ∧
      ∀ k < 8, (byteAt s.tornBytes s.cap.received).getLsbD (7 - k) =
        (decide (k < s.cap.valid / 2) && s.cap.shift.getLsbD (s.cap.valid - 2 - 2 * k))) := by
  have short : s.cap.received < s.capLayout.sectorSize → s.tornBytes = memSlice s.cap.scratch 0 s.cap.received ++
      (if 2 ≤ s.cap.valid then [partialByte s.cap.shift s.cap.valid] else []) := fun h => if_pos h
  have full : s.capLayout.sectorSize ≤ s.cap.received → s.tornBytes = memSlice s.cap.scratch 0 s.capLayout.sectorSize :=
    fun h => if_neg (Nat.not_lt.2 h)
  refine ⟨fun k hk => ?_, fun h => ?_, fun h hv2 => ?_, fun h hv2 => ⟨?_, fun k hk => ?_⟩⟩
  · rcases Nat.lt_or_ge s.cap.received s.capLayout.sectorSize with h | h
    · rw [short h, byteAt_append (by rw [memSlice_length]; omega), byteAt_memSlice _ _ (by omega), Nat.zero_add]
    · rw [full h, byteAt_memSlice _ _ (by omega), Nat.zero_add]
  · rw [full h, memSlice_length]
  · simp [short h, Nat.not_le.2 hv2, memSlice_length]
  · simp [short h, hv2, memSlice_length]
  · have hbyte : byteAt s.tornBytes s.cap.received = partialByte s.cap.shift s.cap.valid := by
      simp [short h, hv2, byteAt, memSlice_length, List.getD_eq_getElem?_getD]
    rw [hbyte, partialByte_getLsbD _ hv hk]

/-! ## Side changes -/

theorem State.captureSideChange_idle {s : State} (h : s.cap.st = .idle) : s.captureSideChange = s := if_pos h

theorem State.captureSideChange_ends {s : State} (h : s.cap.st ≠ .idle) : s.captureSideChange = s.endCapture.capAside := if_neg h

theorem State.endCapture_resting {s : State} (h : s.cap.st = .sectorTail ∨ s.cap.st = .discard) : s.endCapture = s := by
  rcases h with h | h <;> simp only [State.endCapture, h]

theorem State.endCapture_hunt {s : State} (h : s.cap.st = .hunt) : s.endCapture =
    s.endSectorWrite [] (if s.capOffset < dataMarkOffset s.capZone.encoding then .quiet else .faulty .noMark) := by
  simp only [State.endCapture, h, State.endHunt]

theorem State.endCapture_sectorData {s : State} (h : s.cap.st = .sectorData) :
    s.endCapture = s.endSectorWrite s.tornBytes (.faulty .torn) := by
  simp only [State.endCapture, h, State.endTorn]

theorem State.endCapture_track {s : State} (h : s.cap.st = .track) : s.endCapture = s.endTrackWrite := by
  simp only [State.endCapture, h]

/-- After a side change the unit rests while the gate is active, and is idle otherwise. -/
theorem State.captureSideChange_st {s : State} (h : s.cap.st ≠ .idle) :
    s.captureSideChange.cap.st = if s.drive.gateActive then .discard else .idle := by
  rw [State.captureSideChange_ends h, State.capAside_cap, (captureOnly_endCapture s).drive]
  split <;> rfl

theorem State.sideLevel_deselected {s : State} (h : s.drive.selected = false) (b : Bool) :
    s.sideLevel b = { s with inputs := { s.inputs with side := b } } := if_neg (by simp [h])

theorem State.sideLevel_same {s : State} (h : s.drive.selected = true) {b : Bool} (hb : b = s.drive.side) :
    s.sideLevel b = { s with inputs := { s.inputs with side := b } } := (if_pos h).trans (if_pos hb)

theorem State.sideLevel_other {s : State} (h : s.drive.selected = true) {b : Bool} (hb : b ≠ s.drive.side) :
    s.sideLevel b = reacting State.captureSideChange
      (({ s with inputs := { s.inputs with side := b }, drive := { s.drive with side := b } } : State).arrival s.currentTrack) :=
  (if_pos h).trans (if_neg hb)

/-- Settles O44: the arrival touches the cache and the stream alone, so the capture that ends after it is the one that was in progress. -/
theorem sideChangeIsFollowed : Obligations.SideChangeIsFollowed := by
  intro s b hp x
  have hexec : exec (.sideChange b) s = .next (tendingWhen (fun t => t.drive.selected) (fun t => t.sideLevel b) s) :=
    congrArg Host.Outcome.next (whenPowered_present _ hp)
  refine ⟨fun hs => ?_, fun hs hb => ⟨_, ?_, reacted_tend _⟩, fun hs hb => ?_⟩
  · rw [hexec, tendingWhen_refused _ hs, State.sideLevel_deselected hs]
  · rw [hexec, tendingWhen_taken _ hs, State.sideLevel_same hs hb]
  · intro v
    obtain ⟨c, p, ha⟩ : ∃ c p, v.arrival s.currentTrack = { v with cache := c, pres := p } := ⟨_, _, arrival_frame v _⟩
    generalize hgen : v.arrival s.currentTrack = a at ha
    have hcap : a.cap = s.cap := by rw [ha]
    have hdrive : a.drive = { s.drive with side := b } := by rw [ha]
    have hzone : a.capZone = s.capZone := by rw [ha]; rfl
    have hlayout : a.capLayout = s.capLayout := by rw [ha]; rfl
    have hoffset : a.capOffset = s.capOffset := by rw [ha]; rfl
    have ends : s.cap.st ≠ .idle → a.captureSideChange = a.endCapture.capAside := fun h => State.captureSideChange_ends (hcap ▸ h)
    have only := captureOnly_captureSideChange a
    refine ⟨a, _, _, hexec.trans ?_, reacted_tend (a.captureSideChange.react a.cache), fun h => ?_, fun hm h => ?_, rfl, rfl, ?_, ?_⟩
    · rw [tendingWhen_taken _ hs, State.sideLevel_other hs hb, ← hgen]
      rfl
    · rw [← hgen]
      exact State.arrival_none h
    · rw [← hgen]
      exact State.arrival_other hm h
    · intro aside
      have haside : ∀ w : State, w.drive = a.drive → w.capAside = aside w := fun w hw => by
        simp only [State.capAside, aside, Capture.rest, hw, hdrive]
      refine ⟨fun h => ?_, fun h => ?_, fun h => ?_, fun h hv => ?_, fun h => ?_⟩
      · rw [State.captureSideChange_idle (hcap ▸ h), react_self]
      · rw [ends (by rcases h with h | h <;> simp [h]), State.endCapture_resting (hcap ▸ h), ← haside a rfl]
        exact react_self a.capAside
      · rw [ends (by simp [h]), State.endCapture_hunt (hcap ▸ h), hoffset, hzone, haside _ (captureOnly_endSectorWrite _ _ _).drive]
        cases s.capZone.encoding <;> rfl
      · have hbytes := a.tornBytes_spec (hcap ▸ hv)
        rw [hcap, hlayout] at hbytes
        refine ⟨a.tornBytes, ?_, hbytes⟩
        rw [ends (by simp [h]), State.endCapture_sectorData (hcap ▸ h), haside _ (captureOnly_endSectorWrite _ _ _).drive]
      · rw [ends (by simp [h]), State.endCapture_track (hcap ▸ h), haside _ (captureOnly_endTrackWrite _).drive]
    · rw [react_eq]
      refine ⟨?_, ?_, ?_, ?_, ?_, ?_, ?_, ?_, ?_, ?_, ?_, fun h => ?_⟩
      · rw [only.inputs, ha]
      · rw [only.drive, hdrive]
      · rw [only.rot, ha]
      · rw [only.mount, ha]
      · rw [only.card, ha]
      · rw [only.prof, ha]
      · rw [only.free, ha]
      · rw [only.powered, ha]
        exact hp
      · rw [only.pending, ha]
      · rw [only.link.options, ha]
      · rw [only.link.executing, ha]
      · exact (State.captureSideChange_st (hcap ▸ h)).trans (by rw [hdrive])

end Sys2Proof.Machine
end

section
/-! PROOFS. The motor line and the rotation state machine (02 R34 to R37, 04 R78). -/

namespace Sys2Proof.Machine

/-! ## The flush queue -/

/-- The lines of the queue after a join: those it held and those that join (R78). -/
theorem Cache.mem_join_flushQ (c : Cache) (p : Nat → Bool) (i : Nat) :
    i ∈ (c.join p).flushQ ↔ i ∈ c.flushQ ∨ (i ∈ c.lru ∧ p i = true) := by
  have hj : i ∈ c.joining p ↔ i ∈ c.lru ∧ p i = true ∧ i ∉ c.flushQ := by simp [Cache.joining]
  have hq : i ∈ (c.join p).flushQ ↔ i ∈ c.joining p ∨ i ∈ c.flushQ := by
    simp only [Cache.join, List.mem_append, List.mem_filter, beq_iff_eq, bne_iff_ne]
    tauto
  rw [hq, hj]
  tauto

/-! ## The table of the rotation state machine -/

theorem State.spinDemand_iff (s : State) : s.spinDemand = true ↔
    s.mount.state = .mounted ∧
      (if s.link.options.motorSource = .motorLine then s.inputs.motorOn = true else s.drive.selected = true) := by
  rw [State.spinDemand, Bool.and_eq_true, State.isMounted_iff, State.motorActive]
  cases s.link.options.motorSource <;> simp

theorem reworkSpin_starts {s : State} (hd : s.spinDemand = true) (hr : s.rot.state = .stopped) :
    s.reworkSpin = if s.link.options.spinUp = 0 then s.setRotation .atSpeed none
      else s.setRotation .spinningUp (some (ms s.link.options.spinUp)) := by
  simp only [State.reworkSpin, hd, hr]

theorem reworkSpin_turning {s : State} (hd : s.spinDemand = true) (hr : s.rot.state ≠ .stopped) : s.reworkSpin = s := by
  cases h : s.rot.state
  case stopped => exact absurd h hr
  all_goals simp only [State.reworkSpin, hd, h]

/-- A fall of spin demand from AT_SPEED is the motor-off trigger (R35, R78). -/
theorem reworkSpin_stops {s : State} (hd : s.spinDemand = false) (hr : s.rot.state = .atSpeed) :
    s.reworkSpin = (s.setRotation .stopped none).motorOff := by
  simp only [State.reworkSpin, hd, hr]

theorem reworkSpin_gives_up {s : State} (hd : s.spinDemand = false) (hr : s.rot.state = .spinningUp) :
    s.reworkSpin = s.setRotation .stopped none := by
  simp only [State.reworkSpin, hd, hr]

theorem reworkSpin_rests {s : State} (hd : s.spinDemand = false) (hr : s.rot.state = .stopped) : s.reworkSpin = s := by
  simp only [State.reworkSpin, hd, hr]

/-- Of the cache only the flush queue changes. -/
theorem reworkSpin_cache (s : State) : s.reworkSpin.cache = { s.cache with flushQ := s.reworkSpin.cache.flushQ } := by
  unfold State.reworkSpin
  split
  · split <;> rfl
  · rfl
  · unfold State.motorOff
    split <;> rfl
  · rfl

theorem reworkSpin_rot_started {s : State} (hd : s.spinDemand = true) (hr : s.rot.state = .stopped) :
    s.reworkSpin.rot = if s.link.options.spinUp = 0 then { s.rot with state := .atSpeed, spinTimer := none }
      else { s.rot with state := .spinningUp, spinTimer := some (24000 * s.link.options.spinUp) } := by
  rw [reworkSpin_starts hd hr, Nat.mul_comm]
  split <;> rfl

/-- Without demand the rotation is STOPPED and no timer runs, as long as none ran outside SPINNING_UP before. -/
theorem reworkSpin_rot_stopped {s : State} (hd : s.spinDemand = false) (ht : s.rot.spinTimer ≠ none → s.rot.state = .spinningUp) :
    s.reworkSpin.rot = { s.rot with state := .stopped, spinTimer := none } := by
  cases hr : s.rot.state
  case stopped =>
    have hnone : s.rot.spinTimer = none := by
      by_contra hne
      exact absurd (hr.symm.trans (ht hne)) (by decide)
    rw [reworkSpin_rests hd hr, ← hr, ← hnone]
  case spinningUp =>
    rw [reworkSpin_gives_up hd hr]
    rfl
  case atSpeed =>
    rw [reworkSpin_stops hd hr, State.motorOff]
    split <;> rfl

/-- The queue is left alone but by a fall of demand from AT_SPEED. -/
theorem reworkSpin_cache_same {s : State} (h : s.spinDemand = true ∨ s.rot.state ≠ .atSpeed) : s.reworkSpin.cache = s.cache := by
  cases hd : s.spinDemand
  case true =>
    by_cases hr : s.rot.state = .stopped
    · rw [reworkSpin_starts hd hr]
      split <;> rfl
    · rw [reworkSpin_turning hd hr]
  case false =>
    cases hr : s.rot.state
    case stopped => rw [reworkSpin_rests hd hr]
    case spinningUp =>
      rw [reworkSpin_gives_up hd hr]
      rfl
    case atSpeed => exact absurd hr (h.resolve_left (by simp [hd]))

/-- The motor-off trigger in MOUNTED: every line with write-back work joins the queue (R35, R78). -/
theorem reworkSpin_cache_motorOff {s : State} (hd : s.spinDemand = false) (hr : s.rot.state = .atSpeed) (hm : s.isMounted = true) :
    s.reworkSpin.cache = s.cache.joinAll s.geom s.writeRuns := by
  have hm' : (s.setRotation .stopped none).isMounted = true := hm
  rw [reworkSpin_stops hd hr, State.motorOff, if_pos hm']
  rfl

/-! ## The timer, the wrap and the end of the pulse -/

theorem State.spinUpExpiry_spinningUp {s : State} (h : s.rot.state = .spinningUp) :
    s.spinUpExpiry = { s with rot := { s.rot with state := .atSpeed, spinTimer := none } } := by
  rw [State.spinUpExpiry, h]
  rfl

theorem State.spinUpExpiry_elsewhere {s : State} (h : s.rot.state ≠ .spinningUp) :
    s.spinUpExpiry = { s with rot := { s.rot with spinTimer := none } } := by
  cases hr : s.rot.state
  case spinningUp => exact absurd hr h
  all_goals rw [State.spinUpExpiry, hr]

/-- A wrap bears on the capture in a track write alone (R131). -/
theorem State.wrap_outside_track {s : State} (h : s.cap.st ≠ .track) : s.wrap = { s with rot := { s.rot with t := 0, fine := 0 } } :=
  if_neg h

theorem State.pulseEnd_eq (s : State) :
    s.pulseEnd = { s with rot := if s.rot.t < 6000 then { s.rot with t := 6000, fine := 0 } else s.rot } := by
  unfold State.pulseEnd
  split <;> rfl

/-- From 6,000 on INDEX is inactive (R37). -/
theorem State.pulseEnd_indexOut (s : State) : s.pulseEnd.indexOut = false := by
  have ht : ¬ s.pulseEnd.rot.t < 6000 := by
    unfold State.pulseEnd
    split
    · simp
    · assumption
  simp [State.indexOut, ht]

/-- Settles O45: the table row by row; a fall of demand from AT_SPEED finds the mount MOUNTED, since there was demand. -/
theorem motorAndRotationTimer : Obligations.MotorAndRotationTimer := by
  refine ⟨fun s b hp hf => ?_, fun s hp => ⟨fun h => ?_, fun h => ?_, fun h => ?_, ?_⟩⟩
  · intro demand
    generalize hv : ({ s with inputs := { s.inputs with motorOn := b } } : State) = v
    have hexec : exec (.motorOnChange b) s = .next v.reworkSpin.tend := by
      rw [← hv]
      exact congrArg Host.Outcome.next (whenPowered_present _ hp)
    have hrot : v.rot = s.rot := by rw [← hv]
    have hcache : v.cache = s.cache := by rw [← hv]
    have hdemand : demand ↔ v.spinDemand = true := by
      rw [v.spinDemand_iff, ← hv]
    have hnone : ¬ demand → v.spinDemand = false := fun h => by simpa using mt hdemand.2 h
    refine ⟨_, _, hexec, reacted_tend _, rfl, ?_, fun hd hr => ?_, fun hd hr => ?_, fun hd => ?_, fun h => ?_, fun hd hr hl i => ?_⟩
    · rw [reworkSpin_frame, reworkSpin_cache, ← hv]
    · rw [reworkSpin_rot_started (hdemand.1 hd) (hrot ▸ hr), ← hv]
    · rw [reworkSpin_turning (hdemand.1 hd) (hrot ▸ hr), hrot]
    · rw [reworkSpin_rot_stopped (hnone hd) (hrot ▸ hf.timer), hrot]
    · rw [reworkSpin_cache_same (h.imp hdemand.1 (hrot ▸ ·)), hcache]
    · have hm : v.isMounted = true := by
        have hs : s.spinDemand = true := by rw [← hf.spin, hr]; rfl
        rw [← hv]
        exact (Bool.and_eq_true_iff.1 hs).1
      rw [reworkSpin_cache_motorOff (hnone hd) (hrot ▸ hr) hm, Cache.joinAll, Cache.mem_join_flushQ, hcache, hl.mem_iff,
        List.mem_range, ← hv]
      rfl
  · have hexec : exec .spinUpTimerExpiry s = .next s.spinUpExpiry := congrArg Host.Outcome.next (whenPowered_present _ hp)
    rw [hexec, State.spinUpExpiry_spinningUp h]
  · have hexec : exec .spinUpTimerExpiry s = .next s.spinUpExpiry := congrArg Host.Outcome.next (whenPowered_present _ hp)
    rw [hexec, State.spinUpExpiry_elsewhere h]
  · have hexec : exec .rotationWrap s = .next s.wrap :=
      (congrArg Host.Outcome.next (whenPowered_present _ hp)).trans (congrArg Host.Outcome.next (if_neg (by simp [h])))
    rw [hexec, State.wrap_outside_track h]
  · exact ⟨s.pulseEnd, congrArg Host.Outcome.next (whenPowered_present _ hp), s.pulseEnd_indexOut, s.pulseEnd_eq⟩

end Sys2Proof.Machine
end

section
/-! PROOFS. A rise of the write gate (02 R39, 06 R112 to R115): the checks in their order, and what each of them leads to. -/

namespace Sys2Proof.Machine

/-! ## The checks of a rise (R112, R113) -/

theorem State.mayCapture_iff (s : State) : s.mayCapture = true ↔ s.drive.selected = true ∧
    s.mount.state = .mounted ∧ s.mount.readOnly = false ∧ s.card.wp = false ∧ s.rot.state = .atSpeed := by
  simp [State.mayCapture, State.isMounted, and_assoc]

section
variable {s : State} {tr : Track} {i j off : Nat}

theorem State.classifyRise_ignored (h : s.mayCapture = false) : s.classifyRise = .ignored := if_pos (by simp [h])

theorem State.classifyRise_offImage (h : s.mayCapture = true) (ht : s.currentTrack = none) :
    s.classifyRise = .discard 0xFF s.drive.side.toNat 0xFF .stray := by
  simp [State.classifyRise, h, ht]

theorem State.classifyRise_noLine (h : s.mayCapture = true) (ht : s.currentTrack = some tr) (ha : s.cache.active = none) :
    s.classifyRise = .discard tr.cyl tr.head 0xFF .noLine := by
  simp [State.classifyRise, h, ht, ha]

theorem State.classifyRise_pulse (h : s.mayCapture = true) (ht : s.currentTrack = some tr) (ha : s.cache.active = some i)
    (hp : s.rot.t < 6000) : s.classifyRise = .trackWrite tr i := by
  simp [State.classifyRise, h, ht, ha, hp]

theorem State.classifyRise_outside (h : s.mayCapture = true) (ht : s.currentTrack = some tr) (ha : s.cache.active = some i)
    (hp : 6000 ≤ s.rot.t) (hw : s.windowSlot tr = none) : s.classifyRise = .discard tr.cyl tr.head 0xFF .stray := by
  simp [State.classifyRise, h, ht, ha, Nat.not_lt.2 hp, hw]

theorem State.classifyRise_window (h : s.mayCapture = true) (ht : s.currentTrack = some tr) (ha : s.cache.active = some i)
    (hp : 6000 ≤ s.rot.t) (hw : s.windowSlot tr = some j) : s.classifyRise = s.classifyWindow tr i j := by
  simp [State.classifyRise, h, ht, ha, Nat.not_lt.2 hp, hw]

theorem State.windowSlot_eq_none
    (h : ∀ j off, regionAt (s.geom.zoneAt tr) (s.geom.layoutAt tr) ((s.geom.layoutAt tr).cellAt s.rot.t) = .slot j off →
      inWriteWindow (s.geom.zoneAt tr).encoding off = false) : s.windowSlot tr = none := by
  unfold State.windowSlot
  split
  · rename_i j off hr
    exact if_neg (by simp [h j off hr])
  · rfl

theorem State.windowSlot_eq_some
    (hr : regionAt (s.geom.zoneAt tr) (s.geom.layoutAt tr) ((s.geom.layoutAt tr).cellAt s.rot.t) = .slot j off)
    (hw : inWriteWindow (s.geom.zoneAt tr).encoding off = true) : s.windowSlot tr = some j := by
  simp [State.windowSlot, hr, hw]

variable {y : Sector}

theorem State.classifyWindow_hole (hy : s.cache.sector i ((s.geom.zoneAt tr).logicalOf j) = some y) (h : y.hole = true) :
    s.classifyWindow tr i j = .discard tr.cyl tr.head ((s.geom.zoneAt tr).firstSector + (s.geom.zoneAt tr).logicalOf j) .hole := by
  simp [State.classifyWindow, hy, h, Zone.idSector]

theorem State.classifyWindow_notReady (hy : s.cache.sector i ((s.geom.zoneAt tr).logicalOf j) = some y) (h : y.hole = false)
    (hst : y.state = .pending ∨ y.state = .missing) :
    s.classifyWindow tr i j = .discard tr.cyl tr.head ((s.geom.zoneAt tr).firstSector + (s.geom.zoneAt tr).logicalOf j) .notReady := by
  rcases hst with hst | hst <;> simp [State.classifyWindow, hy, h, hst, Zone.idSector]

theorem State.classifyWindow_write (hy : s.cache.sector i ((s.geom.zoneAt tr).logicalOf j) = some y) (h : y.hole = false)
    (hst : y.state = .clean ∨ y.state = .dirty ∨ y.state = .flush) :
    s.classifyWindow tr i j = .sectorWrite tr i j ((s.geom.zoneAt tr).logicalOf j) := by
  rcases hst with hst | hst | hst <;> simp [State.classifyWindow, hy, h, hst]

/-! ## What a rise comes to -/

theorem State.captureRise_ignored (h : s.classifyRise = .ignored) : s.captureRise = s := by rw [State.captureRise, h]

/-- A discard posts its notice; the cache is left alone. -/
theorem State.captureRise_discard {c hd sec : Nat} {r : FaultReason} (h : s.classifyRise = .discard c hd sec r) :
    s.captureRise = { s with
      cap := Capture.begin .discard s.currentTrack s.cache.active s.headZone 0 0
      link := s.link.post (.captureFault c hd sec r false) } := by
  rw [State.captureRise, h]
  rfl

theorem State.captureRise_trackWrite (h : s.classifyRise = .trackWrite tr i) :
    s.captureRise = { s with cap := Capture.begin .track (some tr) (some i) (s.geom.zoneOf tr) 0 0 } := by
  rw [State.captureRise, h]

theorem State.captureRise_sectorWrite {l : Nat} (h : s.classifyRise = .sectorWrite tr i j l) :
    s.captureRise = { s with
      cap := Capture.begin .hunt (some tr) (some i) (s.geom.zoneOf tr) j l
      cache := s.cache.modSector i l (fun x => x.enter .capture)
      link := if (s.cache.line i).dirty then s.link else s.link.post (.trackWritten tr) } := by
  rw [State.captureRise, h]
  simp only [State.beginSectorWrite]
  split <;> rfl

end

theorem modify_congr_at {α : Type} {l : List α} {i : Nat} {f g : α → α} (h : ∀ x, l[i]? = some x → f x = g x) :
    l.modify i f = l.modify i g := by
  refine List.ext_getElem? fun k => ?_
  rw [List.getElem?_modify, List.getElem?_modify]
  cases hx : l[k]? with
  | none => rfl
  | some x =>
    simp only [Option.map_eq_map, Option.map_some, Option.some.injEq]
    split
    · rename_i hk
      exact h x (hk ▸ hx)
    · rfl

/-- A function on sectors counts at the sector it reaches alone. -/
theorem Cache.modSector_congr {c : Cache} {i l : Nat} {f g : Sector → Sector} (h : ∀ x, c.sector i l = some x → f x = g x) :
    c.modSector i l f = c.modSector i l g := by
  have hlines : c.lines.modify i (fun ln => { ln with sectors := ln.sectors.modify l f }) =
      c.lines.modify i (fun ln => { ln with sectors := ln.sectors.modify l g }) := by
    refine modify_congr_at fun ln hln => ?_
    rw [modify_congr_at fun x hx => h x (by simp [Cache.sector, Cache.line, hln, hx])]
  simp only [Cache.modSector, Cache.modLine, hlines]

theorem Sector.enter_capture {x : Sector} (h : x.state ≠ .capture) : x.enter .capture = { x with state := .capture, progress := [] } :=
  if_neg h

/-! ## The level of WRITE GATE (R39) -/

/-- The condition stands as it did where the drive is deselected or the gate was active. -/
theorem State.gateLevel_same {s : State} (hf : s.Follows) (h : s.drive.selected = false ∨ s.drive.gateActive = true) :
    s.gateLevel true = { s with inputs := { s.inputs with writeGate := true } } := by
  refine if_pos ?_
  have hg := hf.gate
  rcases h with h | h
  · simp [hg, h]
  · have hs : s.drive.selected = true := by
      rw [h] at hg
      exact (Bool.and_eq_true_iff.1 hg.symm).1
    simp [h, hs]

theorem State.gateLevel_rise {s : State} (hs : s.drive.selected = true) (hg : s.drive.gateActive = false) :
    s.gateLevel true = reacting State.captureRise
      { s with inputs := { s.inputs with writeGate := true }, drive := { s.drive with gateActive := true } } := by
  simp [State.gateLevel, State.reworkGate, hs, hg]

/-- Settles O50: each classification by the check that decides it; where the cache is left alone it has nothing to react to. -/
theorem writeGateRiseIsClassified : Obligations.WriteGateRiseIsClassified := by
  refine ⟨fun off => by simp [inWriteWindow], fun s hp hf => ?_⟩
  intro x v ends discards starts
  have ends_of : ∀ u, s.gateLevel true = u → ends u := fun u h =>
    ⟨u.tend, (congrArg Host.Outcome.next (whenPowered_present _ hp)).trans (h ▸ rfl), reacted_tend u⟩
  refine ⟨fun h => ends_of _ (State.gateLevel_same hf h), fun hs hg => ?_⟩
  have rise : s.gateLevel true = v.captureRise.react s.cache := State.gateLevel_rise hs hg
  have may : starts ↔ v.mayCapture = true := by simp [State.mayCapture_iff, starts, v, hs]
  have ends_quiet : ∀ u, v.captureRise = u → u.cache = s.cache → ends u := fun u hu hc =>
    ends_of u (by rw [rise, hu, ← hc, react_self])
  have discards_of : ∀ c h sec r, v.classifyRise = .discard c h sec r → discards c h sec r := fun c h sec r hr =>
    ⟨_, ends_quiet _ (State.captureRise_discard hr) rfl, rfl, rfl⟩
  refine ⟨ends_of _ rise, fun hn => ?_, fun hst ht => ?_, fun tr hst ht ha => ?_, fun tr i hst ht ha hpulse => ?_,
    fun tr i hst ht ha hpulse hw => ?_, fun tr i j off y hst ht ha hpulse hreg hw hy => ?_⟩
  · have hmay : v.mayCapture = false := by simpa using mt may.2 hn
    exact ends_quiet v (State.captureRise_ignored (State.classifyRise_ignored hmay)) rfl
  · exact discards_of _ _ _ _ (State.classifyRise_offImage (may.1 hst) ht)
  · exact discards_of _ _ _ _ (State.classifyRise_noLine (may.1 hst) ht ha)
  · exact ⟨_, ends_quiet _ (State.captureRise_trackWrite (State.classifyRise_pulse (may.1 hst) ht ha hpulse)) rfl,
      rfl, rfl, rfl, rfl, rfl, rfl, rfl, rfl⟩
  · exact discards_of _ _ _ _ (State.classifyRise_outside (may.1 hst) ht ha hpulse (State.windowSlot_eq_none hw))
  · intro l
    have hclass : v.classifyRise = v.classifyWindow tr i j :=
      State.classifyRise_window (may.1 hst) ht ha hpulse (State.windowSlot_eq_some hreg hw)
    refine ⟨fun hh => ?_, fun hh hstate => ?_, fun hh hstate => ?_⟩
    · exact discards_of _ _ _ _ (hclass.trans (State.classifyWindow_hole hy hh))
    · exact discards_of _ _ _ _ (hclass.trans (State.classifyWindow_notReady hy hh hstate))
    · have hrise := State.captureRise_sectorWrite (hclass.trans (State.classifyWindow_write hy hh hstate))
      have hcache : s.cache.modSector i l (fun z => z.enter .capture) =
          s.cache.modSector i l (fun z => { z with state := .capture, progress := [] }) := by
        refine Cache.modSector_congr fun z hz => Sector.enter_capture ?_
        obtain rfl : y = z := Option.some.inj (hy.symm.trans hz)
        rcases hstate with h | h | h <;> simp [h]
      exact ⟨_, ends_of _ (by rw [rise, hrise]), rfl, rfl, rfl, rfl, rfl, rfl, rfl, rfl, hcache, rfl⟩

end Sys2Proof.Machine
end

section
/-! PROOFS. A change of a select line (02 R24, R26, R34, R39): what a selection brings, and the active line that stays through it. -/

namespace Sys2Proof.Machine

/-! ## The same lines -/

/-- `d` has the tags and the pins of `c`, and the same track waits. -/
structure Cache.SameLines (c d : Cache) : Prop where
  shape : d.shape = c.shape
  waiting : d.waiting = c.waiting

theorem Cache.SameLines.refl (c : Cache) : c.SameLines c := ⟨rfl, rfl⟩

theorem Cache.SameLines.trans {c d e : Cache} (h : c.SameLines d) (k : d.SameLines e) : c.SameLines e :=
  ⟨k.shape.trans h.shape, k.waiting.trans h.waiting⟩

theorem Cache.SameLines.active {c d : Cache} (h : c.SameLines d) : d.active = c.active := by
  rw [Cache.active_shape, h.shape, ← Cache.active_shape]

theorem Cache.sameLines_modLine (c : Cache) (i : Nat) {f : Line → Line} (hf : ∀ l, (f l).tag = l.tag ∧ (f l).pinned = l.pinned) :
    c.SameLines (c.modLine i f) := ⟨c.modLine_shape i f hf, rfl⟩

theorem Cache.sameLines_modSector (c : Cache) (i l : Nat) (f : Sector → Sector) : c.SameLines (c.modSector i l f) :=
  c.sameLines_modLine i fun _ => ⟨rfl, rfl⟩

theorem Cache.sameLines_mapSectors (c : Cache) (i : Nat) (f : Nat → Sector → Sector) : c.SameLines (c.mapSectors i f) :=
  c.sameLines_modLine i fun _ => ⟨rfl, rfl⟩

theorem Cache.sameLines_setDefects (c : Cache) (g : Geometry) (ds : List Defect) : c.SameLines (c.setDefects g ds) :=
  ⟨map_shape _ _ (syncDefects_shape g ds), rfl⟩

theorem Cache.sameLines_removeTrackDefects (c : Cache) (g : Geometry) (tr : Track) : c.SameLines (c.removeTrackDefects g tr) :=
  c.sameLines_setDefects g _

theorem Cache.sameLines_withRam (c : Cache) (m : Memory) : c.SameLines { c with ram := m } := ⟨rfl, rfl⟩

/-! ## The capture unit and the rotation leave the lines as they are -/

theorem sameLines_outcomeDefects (s : State) (tr : Track) (o : WriteOutcome) : s.cache.SameLines (s.outcomeDefects tr o).1 := by
  cases o with
  | quiet => exact .refl _
  | good => exact s.cache.sameLines_setDefects _ _
  | faulty r => exact s.cache.sameLines_setDefects _ _

theorem outcomeNotice_cache (s : State) (tr : Track) (o : WriteOutcome) (b : Bool) : (s.outcomeNotice tr o b).cache = s.cache := by
  cases o <;> rfl

theorem sameLines_endSectorWrite (s : State) (bs : List Byte) (o : WriteOutcome) : s.cache.SameLines (s.endSectorWrite bs o).cache := by
  unfold State.endSectorWrite
  split
  · rename_i tr i _ _
    simp only [outcomeNotice_cache]
    have stored : s.cache.SameLines ((s.cache.storeLine i (s.cap.logical * s.capLayout.sectorSize) bs).modSector i s.cap.logical
        (fun x => x.enter .dirty)) := (s.cache.sameLines_withRam _).trans (Cache.sameLines_modSector _ _ _ _)
    exact stored.trans ((sameLines_outcomeDefects { s with cache := _ } tr o).trans ⟨rfl, rfl⟩)
  · exact .refl _

theorem sameLines_storeTrack (s : State) (tr : Track) (i : Nat) : s.cache.SameLines (s.storeTrack tr i).cache := by
  have stored : s.cache.SameLines ((({ s.cache with
      ram := storeSlots s.capZone i s.capLayout.sectorSize s.cap.scratch s.cache.ram } : Cache).mapSectors i
        (fun _ x => x.afterMatch)).removeTrackDefects s.geom tr) :=
    (s.cache.sameLines_withRam _).trans ((Cache.sameLines_mapSectors _ i _).trans (Cache.sameLines_removeTrackDefects _ _ _))
  unfold State.storeTrack
  simp only [State.post_cache]
  split
  · exact stored.trans ⟨rfl, rfl⟩
  · exact stored

theorem sameLines_endTrackWrite (s : State) : s.cache.SameLines s.endTrackWrite.cache := by
  unfold State.endTrackWrite
  split
  · simp only
    split
    · split
      · exact sameLines_storeTrack { s with cap := s.cap.stopCollecting } _ _
      · exact .refl _
    · exact .refl _
  · exact .refl _

theorem sameLines_captureFall (s : State) : s.cache.SameLines s.captureFall.cache := by
  have ended : s.cache.SameLines s.endCapture.cache := by
    unfold State.endCapture
    split
    · exact sameLines_endSectorWrite s _ _
    · exact sameLines_endSectorWrite s _ _
    · exact sameLines_endTrackWrite s
    all_goals exact .refl _
  exact ended

theorem sameLines_captureRise (s : State) : s.cache.SameLines s.captureRise.cache := by
  cases h : s.classifyRise with
  | ignored => rw [State.captureRise_ignored h]; exact .refl _
  | discard c hd sec r => rw [State.captureRise_discard h]; exact .refl _
  | trackWrite tr i => rw [State.captureRise_trackWrite h]; exact .refl _
  | sectorWrite tr i j l => rw [State.captureRise_sectorWrite h]; exact s.cache.sameLines_modSector i l _

theorem sameLines_reworkSpin (s : State) : s.cache.SameLines s.reworkSpin.cache := by
  rw [reworkSpin_cache]
  exact ⟨rfl, rfl⟩

/-! ## Read-ahead keeps the active line -/

/-- The line taken is FREE or evictable (R69). -/
theorem Cache.pickLine_spec {c : Cache} {order : List Nat} {i : Nat} (h : c.pickLine order = some i) :
    (c.line i).tag = none ∨ (c.line i).evictable = true := by
  unfold Cache.pickLine at h
  split at h
  · rename_i k hk
    obtain rfl := Option.some.inj h
    exact .inl (by simpa using (furthestBack_mem hk).2)
  · exact .inr (furthestBack_mem h).2

theorem Line.evictable_unpinned {l : Line} (h : l.evictable = true) : l.pinned = false := by
  simp only [Line.evictable, Bool.and_eq_true, Bool.not_eq_true'] at h
  exact h.1.1.2

/-- An entry that is not the first match, made one that does not match, leaves the first match where it is. -/
theorem findIdx?_set_ne {α : Type} {p : α → Bool} {l : List α} {i k : Nat} {x : α} (h : l.findIdx? p = some i) (hk : k ≠ i)
    (hx : p x = false) : (l.set k x).findIdx? p = some i := by
  rw [List.findIdx?_eq_some_iff_getElem] at h ⊢
  obtain ⟨hi, hp, hbefore⟩ := h
  refine ⟨by simpa using hi, by simpa [List.getElem_set, hk] using hp, fun j hj => ?_⟩
  rw [List.getElem_set]
  split
  · simp [hx]
  · exact hbefore j hj

/-- The active line holds a track, no track waits. -/
structure Cache.Holds (c : Cache) (i : Nat) : Prop where
  active : c.active = some i
  tag : (c.line i).tag ≠ none
  waiting : c.waiting = none

theorem Cache.Holds.tryAhead {c : Cache} {i : Nat} (h : c.Holds i) (g : Geometry) (m : Mount) (tr : Track) :
    (Cache.tryAhead g m c tr).Holds i := by
  unfold Cache.tryAhead
  split
  · exact h
  · split
    · exact h
    · rename_i k hk
      have hne : k ≠ i := by
        rintro rfl
        rcases Cache.pickLine_spec hk with hfree | hev
        · exact h.tag hfree
        · exact absurd ((Line.evictable_unpinned hev).symm.trans (Cache.active_some h.active).2) (by simp)
      refine ⟨?_, ?_, h.waiting⟩
      · have hact := h.active
        rw [Cache.active_shape] at hact ⊢
        exact (congrArg _ (c.occupy_shape g m k tr .ahead)).trans (findIdx?_set_ne hact hne rfl)
      · have hline : (c.occupy g m k tr .ahead).line i = c.line i := by
          simp [Cache.line, Cache.occupy, List.getD_eq_getElem?_getD, hne]
        exact (congrArg Line.tag hline).trans_ne h.tag

theorem Cache.activeResident_tag {c : Cache} {i : Nat} {tr : Track} (h : c.activeResident = some (i, some tr)) :
    c.active = some i ∧ (c.line i).tag = some tr := by
  unfold Cache.activeResident at h
  split at h
  · exact absurd h (by simp)
  · rename_i k hk
    split at h
    · obtain ⟨rfl, htag⟩ := Prod.mk.inj (Option.some.inj h)
      exact ⟨hk, htag⟩
    · exact absurd h (by simp)

theorem considerAhead_active {c : Cache} (hw : c.waiting = none) (g : Geometry) (m : Mount) (d : Bool) :
    (c.considerAhead g m d).active = c.active ∧ (c.considerAhead g m d).waiting = none := by
  unfold Cache.considerAhead
  split
  · rename_i i tr hres
    obtain ⟨hact, htag⟩ := Cache.activeResident_tag hres
    have held := foldl_preserves (fun c : Cache => c.Holds i) (Cache.tryAhead g m) (aheadCandidates g.profile tr d) c
      ⟨hact, by simp [htag], hw⟩ (fun _ x _ h => h.tryAhead g m x)
    exact ⟨held.active.trans hact.symm, held.waiting⟩
  · exact ⟨rfl, hw⟩

/-- With no track waiting the cache's reactions keep the active line (R71, R72). -/
theorem react_active {s : State} (hw : s.cache.waiting = none) (old : Cache) :
    (s.react old).cache.active = s.cache.active ∧ (s.react old).cache.waiting = none := by
  have hwait : s.reactWaiting old = s := by simp only [State.reactWaiting, hw]
  simp only [State.react, hwait, State.reactAhead]
  split
  · unfold State.lookAhead
    split
    · exact considerAhead_active hw _ _ _
    · exact ⟨rfl, hw⟩
  · exact ⟨rfl, hw⟩

/-- The gate condition, worked out again, keeps the active line (R113, R121, log 20). -/
theorem reworkGate_active {s : State} (hw : s.cache.waiting = none) :
    s.reworkGate.cache.active = s.cache.active ∧ s.reworkGate.cache.waiting = none := by
  have reacts : ∀ {f : State → State} {v : State}, v.cache.waiting = none → v.cache.SameLines (f v).cache →
      (reacting f v).cache.active = v.cache.active ∧ (reacting f v).cache.waiting = none := fun hv h =>
    have := react_active (h.waiting.trans hv) _
    ⟨this.1.trans h.active, this.2⟩
  unfold State.reworkGate
  simp only
  split
  · exact ⟨rfl, hw⟩
  · split
    · exact reacts (v := { s with drive := _ }) hw (sameLines_captureRise _)
    · exact reacts (v := { s with drive := _ }) hw (sameLines_captureFall _)

/-! ## What a selection comes to -/

/-- The selected flag has followed its line, and nothing else yet. -/
def State.reselected (s : State) : State := { s with drive := { s.drive with selected := s.addressed } }

theorem State.reworkSelect_same {s : State} (h : s.addressed = s.drive.selected) : s.reworkSelect = s := if_pos h

theorem State.reworkSelect_changed {s : State} (h : s.addressed ≠ s.drive.selected) :
    s.reworkSelect = inFreeOrder s.reselected.selectionEffects s.reselected := if_neg h

/-- What holds before the parts of a selection and is kept by each of them holds after it. -/
theorem reworkSelect_keeps (P : State → Prop) {s : State} (h0 : P s) (h : P s.reselected)
    (draw : ∀ t : State, P t → P { t with free := t.free + 1 })
    (step : ∀ f ∈ s.reselected.selectionEffects, ∀ t, P t → P (f t)) : P s.reworkSelect := by
  by_cases hc : s.addressed = s.drive.selected
  · rwa [State.reworkSelect_same hc]
  · rw [State.reworkSelect_changed hc]
    exact inFreeOrder_keeps P _ _ h draw step

/-- A deselection leaves the side held (R26). -/
theorem reworkSelect_side {s : State} (h : s.addressed = false) : s.reworkSelect.drive.side = s.drive.side := by
  refine reworkSelect_keeps (fun t => t.drive.side = s.drive.side) rfl rfl (fun _ ht => ht) fun f hf t ht => ?_
  rcases selectionEffects_mem hf with ⟨-, hs, -⟩ | ⟨rfl, -⟩ | ⟨rfl, -⟩
  · exact absurd (h.symm.trans hs) (by simp)
  · rwa [reworkSpin_drive]
  · rwa [reworkGate_drive]

/-- The rotation stays where spin demand does not change with the selection (R34). -/
theorem reworkSelect_rot {s : State} (h : s.reselected.spinDemand = (s.rot.state != .stopped)) : s.reworkSelect.rot = s.rot := by
  refine reworkSelect_keeps (fun t => t.rot = s.rot) rfl rfl (fun _ ht => ht) fun f hf t ht => ?_
  rcases selectionEffects_mem hf with ⟨rfl, -⟩ | ⟨-, hspin⟩ | ⟨rfl, -⟩
  · rwa [reworkSide_rot]
  · exact absurd h hspin
  · rwa [reworkGate_rot]

/-- The active line stays where the selection changes no side and no track waits. -/
theorem reworkSelect_active {s : State} (h : s.addressed = true → s.inputs.side = s.drive.side) (hw : s.cache.waiting = none) :
    s.reworkSelect.cache.active = s.cache.active := by
  refine (reworkSelect_keeps (fun t => t.cache.active = s.cache.active ∧ t.cache.waiting = none) ⟨rfl, hw⟩ ⟨rfl, hw⟩
    (fun _ ht => ht) fun f hf t ⟨hact, hwait⟩ => ?_).1
  rcases selectionEffects_mem hf with ⟨-, hs, hne⟩ | ⟨rfl, -⟩ | ⟨rfl, -⟩
  · exact absurd (h hs) hne
  · exact ⟨(sameLines_reworkSpin t).active.trans hact, (sameLines_reworkSpin t).waiting.trans hwait⟩
  · exact ⟨(reworkGate_active hwait).1.trans hact, (reworkGate_active hwait).2⟩

/-! ## The select lines -/

theorem setSelectLevel_frame (x : Inputs) (n : Nat) (b : Bool) : setSelectLevel x n b = { x with
    select0 := (setSelectLevel x n b).select0, select1 := (setSelectLevel x n b).select1
    select2 := (setSelectLevel x n b).select2, select3 := (setSelectLevel x n b).select3 } := by
  unfold setSelectLevel
  split <;> rfl

theorem setSelectLevel_side (x : Inputs) (n : Nat) (b : Bool) : (setSelectLevel x n b).side = x.side := by rw [setSelectLevel_frame]

theorem setSelectLevel_writeGate (x : Inputs) (n : Nat) (b : Bool) : (setSelectLevel x n b).writeGate = x.writeGate := by
  rw [setSelectLevel_frame]

theorem setSelectLevel_motorOn (x : Inputs) (n : Nat) (b : Bool) : (setSelectLevel x n b).motorOn = x.motorOn := by
  rw [setSelectLevel_frame]

theorem selectLevel_setSelectLevel (x : Inputs) (line : Fin 4) (b : Bool) (n : Nat) :
    selectLevel (setSelectLevel x line b) n = if n = line.val then b else selectLevel x n := by
  by_cases h : n = line.val
  · rw [if_pos h, h]
    fin_cases line <;> rfl
  · rw [if_neg h]
    unfold selectLevel
    split <;> fin_cases line <;> simp_all [setSelectLevel]

/-- The select line has its level, and nothing follows it yet. -/
def State.withSelect (s : State) (line : Fin 4) (b : Bool) : State := { s with inputs := setSelectLevel s.inputs line b }

theorem State.selectChange_eq (s : State) (line : Fin 4) (b : Bool) : s.selectChange line b = (s.withSelect line b).reworkSelect := rfl

theorem lineFrame_selectChange (s : State) (line : Fin 4) (b : Bool) : LineFrame (s.withSelect line b) (s.selectChange line b) :=
  lineFrame_reworkSelect _

section
variable {s : State} (hf : s.Follows) (line : Fin 4) (b : Bool)
include hf

theorem State.Follows.withSelect_addressed :
    (s.withSelect line b).addressed = if s.link.options.selectLine = line.val then b else s.drive.selected := by
  rw [hf.selected]
  exact selectLevel_setSelectLevel _ _ _ _

theorem State.Follows.withSelect_spin : (s.withSelect line b).SpinRight :=
  hf.spin.trans (by
    simp only [State.spinDemand, State.isMounted, State.motorActive, State.withSelect, setSelectLevel_motorOn])

/-- After a change of a select line the selected flag, the gate, the side and the rotation follow. -/
theorem State.Follows.selectChange_right : (s.selectChange line b).drive.selected = (s.withSelect line b).addressed ∧
    (s.selectChange line b).GateRight ∧ (s.selectChange line b).SideRight ∧ (s.selectChange line b).SpinRight := by
  have gate : (s.withSelect line b).GateRight := hf.gate.trans (congrArg _ (setSelectLevel_writeGate _ _ _).symm)
  have side : (s.withSelect line b).SideRight := fun hs => (hf.side hs).trans (setSelectLevel_side _ _ _).symm
  obtain ⟨h1, h2, h3, h4, -, -⟩ := reworkSelect_right (s.withSelect line b) (fun _ => gate) (fun _ => side)
    (fun _ => hf.withSelect_spin line b) hf.timer hf.records
  exact ⟨h1, h2, h3, h4⟩

theorem State.Follows.selectChange_side : (s.selectChange line b).drive.side =
    if (s.withSelect line b).addressed then s.inputs.side else s.drive.side := by
  obtain ⟨hselected, -, hside, -⟩ := hf.selectChange_right line b
  split
  · rename_i ha
    rw [hside (hselected.trans ha), (lineFrame_selectChange s line b).inputs]
    exact setSelectLevel_side _ _ _
  · rename_i ha
    exact reworkSelect_side (s := s.withSelect line b) (by simpa using ha)

/-- A line that the option does not name has no effect (R24). -/
theorem State.Follows.selectChange_unnamed (h : s.link.options.selectLine ≠ line.val) : s.selectChange line b = s.withSelect line b :=
  State.reworkSelect_same ((hf.withSelect_addressed line b).trans (if_neg h))

theorem State.Follows.selectChange_drive (h : s.link.options.selectLine = line.val) : (s.selectChange line b).drive = { s.drive with
    selected := b, side := if b then s.inputs.side else s.drive.side, gateActive := b && s.inputs.writeGate } := by
  obtain ⟨hselected, hgate, -, -⟩ := hf.selectChange_right line b
  have haddressed : (s.withSelect line b).addressed = b := (hf.withSelect_addressed line b).trans (if_pos h)
  have frame := lineFrame_selectChange s line b
  have hwrite : (s.selectChange line b).inputs.writeGate = s.inputs.writeGate := by
    rw [frame.inputs]
    exact setSelectLevel_writeGate _ _ _
  rw [congrArg State.drive frame.outside, hgate, hf.selectChange_side, hselected, haddressed, hwrite]
  rfl

/-- With the motor line as its source spin demand does not see the selection (R34). -/
theorem State.Follows.selectChange_rot (h : s.link.options.motorSource = .motorLine) : (s.selectChange line b).rot = s.rot := by
  refine reworkSelect_rot (Eq.trans ?_ (hf.withSelect_spin line b).symm)
  simp only [State.spinDemand, State.motorActive, State.reselected, State.withSelect, State.isMounted, h]

/-- The active line stays where the side is still the one held and no track waits. -/
theorem State.Follows.selectChange_active (hs : (s.selectChange line b).drive.side = s.drive.side) (hw : s.cache.waiting = none) :
    (s.selectChange line b).cache.active = s.cache.active := by
  refine reworkSelect_active (s := s.withSelect line b) (fun ha => (setSelectLevel_side _ _ _).trans ?_) hw
  rw [hf.selectChange_side, if_pos ha] at hs
  exact hs

end

theorem State.selectionEffects_eq (v : State) : v.selectionEffects =
    (if v.drive.selected = true ∧ v.inputs.side ≠ v.drive.side then [State.reworkSide] else []) ++
      (if v.spinDemand ≠ decide (v.rot.state ≠ .stopped) then [State.reworkSpin] else []) ++
      (if (v.drive.selected && v.inputs.writeGate) ≠ v.drive.gateActive then [State.reworkGate] else []) := by
  have hrot : (v.rot.state != .stopped) = decide (v.rot.state ≠ .stopped) := by cases v.rot.state <;> rfl
  simp only [State.selectionEffects, hrot, Bool.and_eq_true, decide_eq_true_eq]

/-- Settles O42: the parts of a selection as they are defined; what a whole selection makes of the drive interface, and what it leaves by
the frame of its parts. -/
theorem driveSelectChange : Obligations.DriveSelectChange := by
  refine ⟨fun v => ⟨v.selectionEffects_eq, fun h => if_neg h, fun hn hg => ?_, fun hn hg => ?_⟩, fun s line b hp hf => ?_⟩
  · simp only [State.reworkGate, hn, hg]
    rfl
  · simp only [State.reworkGate, hn, hg]
    rfl
  · have hexec : exec (.driveSelectChange line b) s = .next (s.selectChange line b).tend :=
      congrArg Host.Outcome.next (whenPowered_present _ hp)
    have frame := lineFrame_selectChange s line b
    have hinputs : (s.selectChange line b).inputs = setSelectLevel s.inputs line b := frame.inputs
    have hwith : ({ s with inputs := (s.selectChange line b).inputs } : State) = s.withSelect line b := by rw [hinputs]; rfl
    refine ⟨_, _, hexec, reacted_tend _, ?_, fun n => ?_, ?_, fun hn => ?_, hf.selectChange_drive line b, ?_,
      hf.selectChange_rot line b, frame.time, frame.fine, frame.mount, frame.card, frame.prof, frame.options, frame.powered.trans hp,
      frame.pending, hf.selectChange_active line b⟩
    · rw [hwith]
      exact reworkSelect_selects _
    · rw [hinputs, selectLevel_setSelectLevel]
      simp only [Fin.ext_iff]
    · rw [hinputs]
      exact setSelectLevel_frame _ _ _
    · rw [hwith]
      exact hf.selectChange_unnamed line b hn
    · rw [← (hf.selectChange_right line b).2.2.2]
      simp

end Sys2Proof.Machine
end

section
/-! PROOFS. Arrivals, the line an allocation takes, and the track that waits for one (04 R28, R69, R70, R74). -/

namespace Sys2Proof.Machine

/-! ## The line furthest back -/

/-- `i` is the entry furthest back in an order of those that satisfy a condition. -/
def Furthest (order : List Nat) (p : Nat → Prop) (i : Nat) : Prop := ∃ before after, order = before ++ i :: after ∧ p i ∧ ∀ k ∈ after, ¬ p k

theorem furthestBack_eq_some_iff {order : List Nat} {p : Nat → Bool} {q : Nat → Prop} (hq : ∀ k, p k = true ↔ q k) {i : Nat} :
    furthestBack order p = some i ↔ Furthest order q i := by
  unfold furthestBack Furthest
  rw [List.find?_eq_some_iff_append]
  constructor
  · rintro ⟨hp, as, bs, hsplit, hnone⟩
    refine ⟨bs.reverse, as.reverse, ?_, (hq i).1 hp, fun k hk h => ?_⟩
    · rw [← List.reverse_reverse order, hsplit]
      simp
    · have := hnone k (List.mem_reverse.1 hk)
      simp [(hq k).2 h] at this
  · rintro ⟨before, after, hsplit, hi, hnone⟩
    refine ⟨(hq i).2 hi, after.reverse, before.reverse, by simp [hsplit], fun k hk => ?_⟩
    simpa using mt (hq k).1 (hnone k (List.mem_reverse.1 hk))

theorem furthestBack_eq_none_iff {order : List Nat} {p : Nat → Bool} {q : Nat → Prop} (hq : ∀ k, p k = true ↔ q k) :
    furthestBack order p = none ↔ ∀ k ∈ order, ¬ q k := by
  simp [furthestBack, ← hq]

/-! ## The line that an allocation takes (R69) -/

/-- The line holds no track. -/
def Cache.FreeLine (c : Cache) (k : Nat) : Prop := (c.line k).tag = none

/-- The line holds a track and neither a PENDING nor a non-clean sector: evictable unless it is pinned. -/
def Cache.MayGo (c : Cache) (k : Nat) : Prop := (c.line k).tag ≠ none ∧ ∀ x ∈ (c.line k).sectors, x.state = .clean ∨ x.state = .missing

/-- The line that an allocation takes while none is pinned. -/
def Cache.Choice (c : Cache) (i : Nat) : Prop :=
  Furthest c.lru c.FreeLine i ∨ ((∀ k < 8, ¬ c.FreeLine k) ∧ Furthest c.lru c.MayGo i)

theorem Line.lineState_eq_filling_iff (l : Line) : l.lineState = .filling ↔ l.tag ≠ none ∧ ∃ x ∈ l.sectors, x.state = .pending := by
  have hany : l.sectors.any (fun x => x.state == .pending) = true ↔ ∃ x ∈ l.sectors, x.state = .pending := by simp
  unfold Line.lineState
  cases htag : l.tag with
  | none => simp
  | some tr =>
    rw [← hany]
    cases l.sectors.any (fun x => x.state == .pending) with
    | true => simp
    | false =>
      simp only [Option.isNone_some, Bool.false_eq_true, if_false, and_false, iff_false]
      split <;> simp

theorem Line.dirty_eq_false_iff (l : Line) :
    l.dirty = false ↔ ∀ x ∈ l.sectors, x.state = .pending ∨ x.state = .clean ∨ x.state = .missing := by
  rw [Line.dirty, List.any_eq_false]
  refine forall₂_congr fun x _ => ?_
  cases x.state <;> simp [SectorState.nonClean]

theorem Line.evictable_iff {l : Line} (hp : l.pinned = false) :
    l.evictable = true ↔ l.tag ≠ none ∧ ∀ x ∈ l.sectors, x.state = .clean ∨ x.state = .missing := by
  have hdef : l.evictable = true ↔ l.tag ≠ none ∧ ¬ l.lineState = .filling ∧ l.dirty = false := by
    simp [Line.evictable, hp, Option.isSome_iff_ne_none, and_assoc]
  rw [hdef, Line.lineState_eq_filling_iff, Line.dirty_eq_false_iff]
  constructor
  · rintro ⟨htag, hfill, hclean⟩
    refine ⟨htag, fun x hx => (hclean x hx).resolve_left fun h => hfill ⟨htag, x, hx, h⟩⟩
  · rintro ⟨htag, hgo⟩
    refine ⟨htag, ?_, fun x hx => .inr (hgo x hx)⟩
    rintro ⟨-, x, hx, h⟩
    rcases hgo x hx with hs | hs <;> simp [hs] at h

theorem Cache.line_unpinned {c : Cache} (h : c.pins = 0) (k : Nat) : (c.line k).pinned = false := by
  unfold Cache.pins at h
  rw [List.countP_eq_zero] at h
  by_cases hk : k < c.lines.length
  · simpa [Cache.line, hk] using h _ (List.getElem_mem hk)
  · simp [Cache.line, List.getD_eq_getElem?_getD, List.getElem?_eq_none (Nat.le_of_not_lt hk), Line.free]

theorem Cache.freeLine_iff (c : Cache) (k : Nat) : (c.line k).tag.isNone = true ↔ c.FreeLine k := Option.isNone_iff_eq_none

theorem Cache.mayGo_iff {c : Cache} (h : c.pins = 0) (k : Nat) : (c.line k).evictable = true ↔ c.MayGo k :=
  Line.evictable_iff (Cache.line_unpinned h k)

section
variable {c : Cache} (hz : c.pins = 0) (hl : c.lru.Perm (List.range 8))
include hz hl

theorem Cache.pickLine_eq_some_iff {i : Nat} : c.pickLine c.lru = some i ↔ c.Choice i := by
  have hmem : ∀ k, k ∈ c.lru ↔ k < 8 := fun k => by rw [hl.mem_iff, List.mem_range]
  have free_lt : ∀ k, Furthest c.lru c.FreeLine k → k < 8 ∧ c.FreeLine k := fun k ⟨before, after, hsplit, hk, _⟩ =>
    ⟨(hmem k).1 (by simp [hsplit]), hk⟩
  unfold Cache.pickLine Cache.Choice
  split
  · rename_i k hk
    have hfirst := (furthestBack_eq_some_iff c.freeLine_iff).1 hk
    constructor
    · intro h
      obtain rfl := Option.some.inj h
      exact .inl hfirst
    · rintro (h | ⟨hnone, -⟩)
      · exact hk.symm.trans ((furthestBack_eq_some_iff c.freeLine_iff).2 h)
      · exact absurd (free_lt k hfirst).2 (hnone k (free_lt k hfirst).1)
  · rename_i hk
    have hnone : ∀ k < 8, ¬ c.FreeLine k := fun k hk8 => (furthestBack_eq_none_iff c.freeLine_iff).1 hk k ((hmem k).2 hk8)
    rw [furthestBack_eq_some_iff (Cache.mayGo_iff hz)]
    constructor
    · exact fun h => .inr ⟨hnone, h⟩
    · rintro (h | ⟨-, h⟩)
      · exact absurd (free_lt i h).2 (hnone i (free_lt i h).1)
      · exact h

theorem Cache.pickLine_eq_none_iff : c.pickLine c.lru = none ↔ ∀ k < 8, ¬ c.FreeLine k ∧ ¬ c.MayGo k := by
  have hmem : ∀ k, k ∈ c.lru ↔ k < 8 := fun k => by rw [hl.mem_iff, List.mem_range]
  have none_free := furthestBack_eq_none_iff (order := c.lru) c.freeLine_iff
  have none_goes := furthestBack_eq_none_iff (order := c.lru) (Cache.mayGo_iff hz)
  simp only [hmem] at none_free none_goes
  unfold Cache.pickLine
  split
  · rename_i k hk
    refine ⟨fun h => absurd h (by simp), fun h => ?_⟩
    rw [none_free.2 fun k hk => (h k hk).1] at hk
    exact absurd hk (by simp)
  · rename_i hk
    rw [none_goes]
    exact ⟨fun h k hk8 => ⟨none_free.1 hk k hk8, h k hk8⟩, fun h k hk8 => (h k hk8).2⟩

end

/-! ## A line that an arrival leaves where it is -/

/-- Line `k` keeps its track and sectors, and its origin but for a line that is unpinned while FILLING with origin DEMAND (R28, R73). -/
def Cache.Kept (c d : Cache) (k : Nat) : Prop :=
  (d.line k).tag = (c.line k).tag ∧ (d.line k).zone = (c.line k).zone ∧
    (d.line k).failures = (c.line k).failures ∧ (d.line k).sectors = (c.line k).sectors ∧
    (let falls := (c.line k).pinned = true ∧ (c.line k).lineState = .filling ∧ (c.line k).origin = .demand
     (falls → (d.line k).origin = .ahead) ∧ (¬ falls → (d.line k).origin = (c.line k).origin))

theorem Cache.kept_of_unpin {c d : Cache} {k : Nat} (h : d.line k = (c.line k).unpin) : c.Kept d k := by
  rw [Cache.Kept, h]
  unfold Line.unpin
  cases hp : (c.line k).pinned
  · simp
  · refine ⟨rfl, rfl, rfl, rfl, fun ⟨_, hfill, _⟩ => if_pos hfill, fun hn => ?_⟩
    by_cases hfill : (c.line k).lineState = .filling
    · have ho : (c.line k).origin = .ahead := by
        cases ho : (c.line k).origin
        · exact absurd ⟨rfl, hfill, ho⟩ hn
        · rfl
      exact (if_pos hfill).trans ho.symm
    · exact if_neg hfill

/-- `b` is `c` with every line unpinned, whatever track waits and whichever line is forced. -/
structure Cache.Unpinned (c b : Cache) : Prop where
  pins : b.pins = 0
  length : b.lines.length = 8
  lines : c.lines.length = 8
  line : ∀ k, b.line k = (c.line k).unpin
  lru : b.lru = c.lru
  perm : c.lru.Perm (List.range 8)
  flushQ : b.flushQ = c.flushQ
  defects : b.defects = c.defects
  ram : b.ram = c.ram

theorem Line.unpin_unpinned {l : Line} (h : l.pinned = false) : l.unpin = l := if_neg (by simp [h])

theorem Cache.Unpinned.free {c b : Cache} (h : c.Unpinned b) (k : Nat) : b.FreeLine k ↔ c.FreeLine k := by
  rw [Cache.FreeLine, h.line, Line.unpin_tag, Cache.FreeLine]

theorem Cache.Unpinned.mayGo {c b : Cache} (h : c.Unpinned b) (k : Nat) : b.MayGo k ↔ c.MayGo k := by
  rw [Cache.MayGo, h.line, Line.unpin_tag, Line.unpin_sectors, Cache.MayGo]

theorem Cache.Unpinned.choice {c b : Cache} (h : c.Unpinned b) (i : Nat) : b.pickLine b.lru = some i ↔ c.Choice i := by
  have hfree : b.FreeLine = c.FreeLine := funext fun k => propext (h.free k)
  have hgo : b.MayGo = c.MayGo := funext fun k => propext (h.mayGo k)
  rw [Cache.pickLine_eq_some_iff h.pins (h.lru ▸ h.perm), Cache.Choice, hfree, hgo, h.lru, Cache.Choice]

theorem Cache.Unpinned.none_to_take {c b : Cache} (h : c.Unpinned b) :
    b.pickLine b.lru = none ↔ ∀ k < 8, ¬ c.FreeLine k ∧ ¬ c.MayGo k := by
  simp only [Cache.pickLine_eq_none_iff h.pins (h.lru ▸ h.perm), h.free, h.mayGo]

theorem Cache.Sound.unpinned_arrival {c : Cache} (h : c.Sound) : c.Unpinned { c.unpinAll with waiting := none, forced := none } where
  pins := h.unpinAll.2
  length := h.unpinAll.1.lines
  lines := h.lines
  line := c.line_unpinAll
  lru := rfl
  perm := h.lru
  flushQ := rfl
  defects := rfl
  ram := rfl

/-- While a track waits nothing is pinned. -/
theorem Cache.Sound.unpinned_waiting {c : Cache} (h : c.Sound) {tr : Track} (hw : c.waiting = some tr) : c.Unpinned c where
  pins := (h.waits tr hw).1
  length := h.lines
  lines := h.lines
  line := fun k => (Line.unpin_unpinned (Cache.line_unpinned (h.waits tr hw).1 k)).symm
  lru := rfl
  perm := h.lru
  flushQ := rfl
  defects := rfl
  ram := rfl

/-! ## The active line (R28, R74) -/

/-- A line that becomes pinned while none is pinned is the active line, and the only one pinned (R68). -/
theorem Cache.activate_pins {b : Cache} (hz : b.pins = 0) {i : Nat} (hi : i < b.lines.length) (g : Geometry) (lead t : Nat) (tr : Track) :
    (b.activate g lead t i tr).active = some i ∧ (b.activate g lead t i tr).pins = 1 := by
  have hact : (b.activate g lead t i tr).active = some i := by
    unfold Cache.active Cache.findLine
    rw [List.findIdx?_eq_some_iff_getElem]
    have hother : ∀ k (hk : k < b.lines.length), b.lines[k].pinned = false := fun k hk => by
      simpa [Cache.line, hk] using Cache.line_unpinned hz k
    refine ⟨by simpa [Cache.activate, Cache.modLine] using hi, by simp [Cache.activate, Cache.modLine], fun k hk => ?_⟩
    simp [Cache.activate, Cache.modLine, Nat.ne_of_gt hk, hother k (hk.trans hi)]
  refine ⟨hact, Nat.le_antisymm ?_ (Nat.pos_of_ne_zero fun h => ?_)⟩
  · have hle := countP_modify_le b.lines i (fun l =>
      { l with pinned := true, origin := .demand,
               sectors := l.sectors.map (fun x => if x.state = .missing then x.enter .pending else x) })
    have hzero : b.lines.countP (fun l => l.pinned) = 0 := hz
    exact hle.trans (by omega)
  · rw [(Cache.active_none_iff _).2 h] at hact
    exact absurd hact (by simp)

/-- The first slot at or after a cell, or slot 0 where every slot starts before it (R74). -/
theorem firstSlotFrom_eq {z : Zone} {y : Layout} {q j : Nat}
    (h : (j < z.n ∧ q ≤ y.slotStart j ∧ ∀ b < j, y.slotStart b < q) ∨ (j = 0 ∧ ∀ b < z.n, y.slotStart b < q)) :
    firstSlotFrom z y q = j := by
  unfold firstSlotFrom
  rcases h with ⟨hj, hq, hbefore⟩ | ⟨rfl, hall⟩
  · have hfind : (List.range z.n).find? (fun j => decide (q ≤ y.slotStart j)) = some j := by
      rw [List.find?_range_eq_some]
      exact ⟨by simpa using hq, List.mem_range.2 hj, fun b hb => by simpa using hbefore b hb⟩
    rw [hfind, Option.getD_some]
  · have hfind : (List.range z.n).find? (fun j => decide (q ≤ y.slotStart j)) = none := by
      rw [List.find?_range_eq_none]
      exact fun b hb => by simpa using hall b hb
    rw [hfind, Option.getD_none]

/-- Line `i` of `d` is the active line, for track `tr`: pinned alone, of origin DEMAND, at the front of the order, the demand order
starting at the target cell; every other line is kept as `c` has it. -/
def Cache.Activated (c : Cache) (g : Geometry) (lead t : Nat) (d : Cache) (tr : Track) (i : Nat) : Prop :=
  i < 8 ∧ d.active = some i ∧ d.pins = 1 ∧ (d.line i).tag = some tr ∧ (d.line i).origin = .demand ∧
  d.lru = i :: c.lru.filter (· != i) ∧ d.waiting = none ∧ d.forced = none ∧ d.flushQ = c.flushQ ∧ d.defects = c.defects ∧
  (∀ k < 8, k ≠ i → c.Kept d k) ∧
  (∀ q j, let y := g.layoutAt tr
    let p := y.cellAt t + lead * 3000 / y.byteTime
    q = (if p < y.capacity then p else p - y.capacity) →
    (j < (g.zoneAt tr).n ∧ q ≤ y.slotStart j ∧ ∀ b < j, y.slotStart b < q) ∨ (j = 0 ∧ ∀ b < (g.zoneAt tr).n, y.slotStart b < q) →
    d.demandStart = g.sectorOffset tr ((g.zoneAt tr).logicalOf j) / 512)

theorem Cache.activate_line_other (b : Cache) (g : Geometry) (lead t : Nat) {i k : Nat} (hk : k ≠ i) (tr : Track) :
    (b.activate g lead t i tr).line k = b.line k :=
  (b.line_modLine i k _ (.inr (.inr hk))).trans (if_neg hk)

theorem Cache.activate_line_same (b : Cache) (g : Geometry) (lead t : Nat) {i : Nat} (hi : i < b.lines.length) (tr : Track) :
    (b.activate g lead t i tr).line i = { b.line i with
      pinned := true, origin := .demand
      sectors := (b.line i).sectors.map (fun x => if x.state = .missing then x.enter .pending else x) } :=
  (b.line_modLine i i _ (.inr (.inl hi))).trans (if_pos rfl)

/-- A cache that has the lines, orders and lists of an unpinned one but for line `i` of track `tr`, which is activated. -/
theorem Cache.Unpinned.activated {c b e : Cache} (h : c.Unpinned b) {i : Nat} (hi : i < 8) {tr : Track} (g : Geometry) (lead t : Nat)
    (hz : e.pins = 0) (hlen : e.lines.length = 8) (htag : (e.line i).tag = some tr) (hother : ∀ k, k ≠ i → e.line k = b.line k)
    (hlru : e.lru = b.lru) (hq : e.flushQ = b.flushQ) (hd : e.defects = b.defects) :
    c.Activated g lead t (e.activate g lead t i tr) tr i := by
  have hlt : i < e.lines.length := hlen ▸ hi
  obtain ⟨hact, hpins⟩ := Cache.activate_pins hz hlt g lead t tr
  have hline := e.activate_line_same g lead t hlt tr
  refine ⟨hi, hact, hpins, ?_, ?_, ?_, rfl, rfl, hq.trans h.flushQ, hd.trans h.defects, fun k _ hk => ?_, fun q j => ?_⟩
  · rw [hline]
    exact htag
  · rw [hline]
  · rw [← h.lru, ← hlru]
    rfl
  · exact Cache.kept_of_unpin ((e.activate_line_other g lead t hk tr).trans ((hother k hk).trans (h.line k)))
  · intro y p hq hj
    have htarget : targetCell y lead t = q := hq.symm
    have hstart : (e.activate g lead t i tr).demandStart = startBlock g tr lead t := rfl
    rw [hstart, startBlock, htarget, firstSlotFrom_eq hj]

/-! ## The line taken for a track (R69) -/

theorem Cache.occupy_line_other (b : Cache) (g : Geometry) (m : Mount) {i k : Nat} (hk : k ≠ i) (tr : Track) (o : Origin) :
    (b.occupy g m i tr o).line k = b.line k := by
  simp [Cache.line, Cache.occupy, List.getD_eq_getElem?_getD, Ne.symm hk]

theorem Cache.occupy_line_same (b : Cache) (g : Geometry) (m : Mount) {i : Nat} (hi : i < b.lines.length) (tr : Track) (o : Origin) :
    (b.occupy g m i tr o).line i =
      { tag := some tr, zone := g.zoneOf tr, origin := o, pinned := false, failures := 0, sectors := freshSectors g m b.defects tr } := by
  simp [Cache.line, Cache.occupy, List.getD_eq_getElem?_getD, hi]

/-- A fresh sector is CLEAN or PENDING. -/
theorem freshSectors_present {g : Geometry} {m : Mount} {ds : List Defect} {tr : Track} {x : Sector} (h : x ∈ freshSectors g m ds tr) :
    x.state ≠ .missing := by
  obtain ⟨l, -, rfl⟩ := List.mem_map.1 h
  simp only
  split <;> simp

theorem Cache.Unpinned.allocated {c b : Cache} (h : c.Unpinned b) {i : Nat} (hi : i < 8) (g : Geometry) (m : Mount) (lead t : Nat)
    (tr : Track) :
    let d := (b.occupy g m i tr .demand).activate g lead t i tr
    c.Activated g lead t d tr i ∧ (d.line i).sectors = ((c.occupy g m i tr .demand).line i).sectors ∧
      d.ram = (c.occupy g m i tr .demand).ram := by
  intro d
  have hlen : (b.occupy g m i tr .demand).lines.length = 8 := by simpa [Cache.occupy] using h.length
  have hline := b.occupy_line_same g m (h.length ▸ hi) tr .demand
  refine ⟨h.activated hi g lead t (Cache.occupy_pins h.pins g m i tr .demand) hlen (by rw [hline])
    (fun k hk => b.occupy_line_other g m hk tr .demand) rfl rfl rfl, ?_, ?_⟩
  · have hsame : ∀ x ∈ freshSectors g m c.defects tr, (if x.state = .missing then x.enter .pending else x) = x :=
      fun x hx => if_neg (freshSectors_present hx)
    rw [Cache.activate_line_same _ g lead t (hlen ▸ hi) tr, hline, c.occupy_line_same g m (h.lines ▸ hi) tr .demand, h.defects]
    exact (List.map_congr_left hsame).trans (List.map_id _)
  · simp only [d, Cache.occupy, Cache.activate, Cache.modLine, h.defects, h.ram]

/-! ## The forced line (R70, R78) -/

/-- The line holds a DIRTY sector. -/
def Cache.Unsaved (c : Cache) (k : Nat) : Prop := ∃ x ∈ (c.line k).sectors, x.state = .dirty

/-- The line with a DIRTY sector that stands furthest back is the forced one, at the front of the flush queue; with none no line is
forced. -/
def Cache.Forces (c d : Cache) : Prop :=
  (∀ f, Furthest c.lru c.Unsaved f → d.forced = some f ∧ d.flushQ = f :: c.flushQ.filter (· != f)) ∧
    ((∀ k < 8, ¬ c.Unsaved k) → d.forced = none ∧ d.flushQ = c.flushQ)

theorem Cache.chooseForced_frame (b : Cache) :
    b.chooseForced = { b with forced := b.chooseForced.forced, flushQ := b.chooseForced.flushQ } := by
  unfold Cache.chooseForced
  split <;> rfl

theorem Cache.Unpinned.forces {c b : Cache} (h : c.Unpinned b) : c.Forces b.chooseForced := by
  have unsaved : ∀ k, (!(b.line k).pinned && (b.line k).hasDirty) = true ↔ c.Unsaved k := fun k => by
    rw [Cache.line_unpinned h.pins k, h.line]
    simp [Line.hasDirty, Cache.Unsaved, Line.unpin_sectors]
  refine ⟨fun f hf => ?_, fun hn => ?_⟩
  · have hfind := (furthestBack_eq_some_iff unsaved).2 hf
    rw [← h.lru] at hfind
    rw [Cache.chooseForced, hfind, ← h.flushQ]
    exact ⟨rfl, rfl⟩
  · have hfind := (furthestBack_eq_none_iff (order := c.lru) unsaved).2 fun k hk => hn k (by simpa using h.perm.mem_iff.1 hk)
    rw [← h.lru] at hfind
    rw [Cache.chooseForced, hfind, ← h.flushQ]
    exact ⟨rfl, rfl⟩

/-! ## Arrivals (R28) -/

theorem Sector.enter_pending_of_missing (x : Sector) : (if x.state = .missing then x.enter .pending else x) =
    if x.state = .missing then { x with state := .pending, progress := [] } else x := by
  split
  · rename_i h
    exact if_neg (by simp [h])
  · rfl

theorem Cache.arrive_off (c : Cache) (g : Geometry) (m : Mount) (lead t : Nat) :
    c.arrive g m lead t none = { c.unpinAll with waiting := none, forced := none } := rfl

theorem Cache.carrier_unpinAll (c : Cache) (tr : Track) :
    ({ c.unpinAll with waiting := none, forced := none } : Cache).carrier tr = c.carrier tr := by
  simp [Cache.carrier, Cache.findLine, Cache.unpinAll, List.findIdx?_map, Function.comp_def, Line.unpin_tag]

theorem Cache.arrive_carried (c : Cache) (g : Geometry) (m : Mount) (lead t : Nat) {tr : Track} {i : Nat} (h : c.carrier tr = some i) :
    c.arrive g m lead t (some tr) = ({ c.unpinAll with waiting := none, forced := none } : Cache).activate g lead t i tr := by
  simp only [Cache.arrive, Cache.carrier_unpinAll, h]

theorem Cache.arrive_new (c : Cache) (g : Geometry) (m : Mount) (lead t : Nat) {tr : Track} (h : c.carrier tr = none) :
    c.arrive g m lead t (some tr) = ({ c.unpinAll with waiting := none, forced := none } : Cache).demandAllocate g m lead t tr := by
  simp only [Cache.arrive, Cache.carrier_unpinAll, h]

theorem Cache.demandAllocate_some {b : Cache} {i : Nat} (h : b.pickLine b.lru = some i) (g : Geometry) (m : Mount) (lead t : Nat)
    (tr : Track) : b.demandAllocate g m lead t tr = (b.occupy g m i tr .demand).activate g lead t i tr := by
  simp only [Cache.demandAllocate, h]

theorem Cache.demandAllocate_none {b : Cache} (h : b.pickLine b.lru = none) (g : Geometry) (m : Mount) (lead t : Nat) (tr : Track) :
    b.demandAllocate g m lead t tr = ({ b with waiting := some tr } : Cache).chooseForced := by
  simp only [Cache.demandAllocate, h]

/-! ## The waiting track (R70) -/

theorem Cache.retryWaiting_some {c : Cache} {i : Nat} (h : c.pickLine c.lru = some i) (g : Geometry) (m : Mount) (lead t : Nat)
    (tr : Track) : c.retryWaiting g m lead t tr = (c.occupy g m i tr .demand).activate g lead t i tr := by
  simp only [Cache.retryWaiting, h]

theorem Cache.retryWaiting_afresh {c : Cache} (h : c.pickLine c.lru = none) (hf : c.forced = none) (g : Geometry) (m : Mount) (lead t : Nat)
    (tr : Track) : c.retryWaiting g m lead t tr = c.chooseForced := by
  simp only [Cache.retryWaiting, h, hf]

theorem Cache.retryWaiting_forced {c : Cache} (h : c.pickLine c.lru = none) {f : Nat} (hf : c.forced = some f) (g : Geometry) (m : Mount)
    (lead t : Nat) (tr : Track) : c.retryWaiting g m lead t tr =
      if ∃ x ∈ (c.line f).sectors, x.state = .dirty ∨ x.state = .flush then c else ({ c with forced := none } : Cache).chooseForced := by
  simp only [Cache.retryWaiting, h, hf, List.any_eq_true, Bool.or_eq_true, beq_iff_eq]

/-- What R70 watches has changed exactly when the state of a line, or which of its sectors are non-clean, has. -/
theorem Cache.watch_ne_iff {c d : Cache} (hc : c.lines.length = 8) (hd : d.lines.length = 8) : c.watch ≠ d.watch ↔
    ∃ k < 8, (c.line k).lineState ≠ (d.line k).lineState ∨
      (c.line k).sectors.map (fun x => x.state.nonClean) ≠ (d.line k).sectors.map (fun x => x.state.nonClean) := by
  have hsplit : ∀ l m : Line, (l.lineState ≠ m.lineState ∨ l.sectors.map (fun x => x.state.nonClean) ≠ m.sectors.map (fun x => x.state.nonClean)) ↔
      (l.lineState, l.sectors.map (fun x => x.state.nonClean)) ≠ (m.lineState, m.sectors.map (fun x => x.state.nonClean)) := fun l m => by
    rw [Ne, Ne, Ne, Prod.mk.injEq, not_and_or]
  simp only [hsplit]
  constructor
  · intro hne
    by_contra hsame
    refine hne (List.ext_getElem (by simp [Cache.watch, hc, hd]) fun k h1 _ => ?_)
    have hk : k < 8 := by simpa [Cache.watch, hc] using h1
    have := not_not.1 fun h => hsame ⟨k, hk, h⟩
    simpa [Cache.watch, Cache.line, hc, hd, hk] using this
  · rintro ⟨k, hk, hne⟩ heq
    refine hne ?_
    have := congrArg (fun w => w[k]?) heq
    simpa [Cache.watch, Cache.line, hc, hd, hk] using this

theorem State.reactWaiting_tries {s : State} {old : Cache} {tr : Track} (hw : s.cache.waiting = some tr) (hm : s.mount.state = .mounted)
    (hc : old.watch ≠ s.cache.watch) :
    s.reactWaiting old = { s with cache := s.cache.retryWaiting s.geom s.mount s.link.options.fillLead s.rot.t tr } := by
  simp [State.reactWaiting, hw, (s.isMounted_iff).2 hm, hc]

theorem State.reactWaiting_rests {s : State} {old : Cache}
    (h : s.cache.waiting = none ∨ s.mount.state ≠ .mounted ∨ ¬ old.watch ≠ s.cache.watch) : s.reactWaiting old = s := by
  unfold State.reactWaiting
  split
  · rfl
  · rename_i tr hw
    refine if_neg ?_
    rcases h with h | h | h
    · exact absurd (hw.symm.trans h) (by simp)
    · simp [(s.isMounted_eq_false_iff).2 h]
    · simp [h]

/-! ## The parts put together -/

theorem Cache.Unpinned.withWaiting {c b : Cache} (h : c.Unpinned b) (w : Option Track) : c.Unpinned { b with waiting := w } :=
  ⟨h.pins, h.length, h.lines, h.line, h.lru, h.perm, h.flushQ, h.defects, h.ram⟩

theorem Cache.Unpinned.withForced {c b : Cache} (h : c.Unpinned b) (f : Option Nat) : c.Unpinned { b with forced := f } :=
  ⟨h.pins, h.length, h.lines, h.line, h.lru, h.perm, h.flushQ, h.defects, h.ram⟩

/-- Choosing the forced line leaves an unpinned cache unpinned. -/
theorem Cache.Unpinned.rests {c b : Cache} (h : c.Unpinned b) :
    b.chooseForced.pins = 0 ∧ b.chooseForced.ram = c.ram ∧ b.chooseForced.lru = c.lru ∧ ∀ k < 8, c.Kept b.chooseForced k := by
  rw [Cache.chooseForced_frame]
  exact ⟨h.pins, h.ram, h.lru, fun k _ => Cache.kept_of_unpin (h.line k)⟩

/-- What an allocation for track `tr` in line `i` makes of `c`. -/
def Cache.Allocated (c : Cache) (g : Geometry) (m : Mount) (lead t : Nat) (d : Cache) (tr : Track) (i : Nat) : Prop :=
  c.Activated g lead t d tr i ∧ (d.line i).sectors = ((c.occupy g m i tr .demand).line i).sectors ∧ d.ram = (c.occupy g m i tr .demand).ram

section
variable {c : Cache} (h : c.Sound) (g : Geometry) (m : Mount) (lead t : Nat) (tr : Track)
include h

theorem Cache.Choice.lt {i : Nat} (hi : c.Choice i) : i < 8 := by
  have hlt : ∀ {p}, Furthest c.lru p i → i < 8 := fun ⟨before, after, hsplit, _⟩ => h.lru_mem.1 (by simp [hsplit])
  exact hi.elim hlt fun h => hlt h.2

/-- At a track that a line carries, that line is the active one (R28 step 2). -/
theorem Cache.Sound.arrive_carried_spec {i : Nat} (hi : c.carrier tr = some i) :
    c.Activated g lead t (c.arrive g m lead t (some tr)) tr i ∧ (c.arrive g m lead t (some tr)).ram = c.ram ∧
      ((c.arrive g m lead t (some tr)).line i).sectors =
        (c.line i).sectors.map (fun x => if x.state = .missing then { x with state := .pending, progress := [] } else x) := by
  have un := h.unpinned_arrival
  obtain ⟨hlen, htag⟩ := Cache.carrier_some hi
  have hlt : i < 8 := h.lines ▸ hlen
  rw [Cache.arrive_carried c g m lead t hi]
  refine ⟨un.activated hlt g lead t un.pins un.length ?_ (fun _ _ => rfl) rfl rfl rfl, rfl, ?_⟩
  · rw [un.line, Line.unpin_tag, htag]
  · rw [Cache.activate_line_same _ g lead t (un.length ▸ hlt) tr, un.line, Line.unpin_sectors]
    exact List.map_congr_left fun x _ => x.enter_pending_of_missing

/-- At a new track the line that R69 chooses is taken. -/
theorem Cache.Sound.arrive_new_spec (hn : c.carrier tr = none) {i : Nat} (hi : c.Choice i) :
    c.Allocated g m lead t (c.arrive g m lead t (some tr)) tr i := by
  have un := h.unpinned_arrival
  rw [Cache.arrive_new c g m lead t hn, Cache.demandAllocate_some ((un.choice i).2 hi)]
  exact un.allocated (hi.lt h) g m lead t tr

/-- With no line to take the track waits, and a line is forced (R70). -/
theorem Cache.Sound.arrive_waits_spec (hn : c.carrier tr = none) (hnone : ∀ k < 8, ¬ c.FreeLine k ∧ ¬ c.MayGo k) :
    let d := c.arrive g m lead t (some tr)
    d.waiting = some tr ∧ d.pins = 0 ∧ d.ram = c.ram ∧ d.lru = c.lru ∧ (∀ k < 8, c.Kept d k) ∧ c.Forces d := by
  have un := h.unpinned_arrival
  have waits := un.withWaiting (some tr)
  obtain ⟨hpins, hram, hlru, hkept⟩ := waits.rests
  intro d
  have hd : d = ({ c.unpinAll with waiting := some tr, forced := none } : Cache).chooseForced :=
    (Cache.arrive_new c g m lead t hn).trans (Cache.demandAllocate_none (un.none_to_take.2 hnone) g m lead t tr)
  rw [hd]
  refine ⟨?_, hpins, hram, hlru, hkept, waits.forces⟩
  rw [Cache.chooseForced_frame]

theorem Cache.Sound.choice_or_none : (∃ i, c.Choice i) ∨ ∀ k < 8, ¬ c.FreeLine k ∧ ¬ c.MayGo k := by
  have un := h.unpinned_arrival
  generalize ({ c.unpinAll with waiting := none, forced := none } : Cache) = b at un
  cases hpick : b.pickLine b.lru with
  | some i => exact .inl ⟨i, (un.choice i).1 hpick⟩
  | none => exact .inr (un.none_to_take.1 hpick)

variable {tr} (hw : c.waiting = some tr)
include hw

/-- A try that finds a line takes it (R70). -/
theorem Cache.Sound.retry_takes {i : Nat} (hi : c.Choice i) : c.Allocated g m lead t (c.retryWaiting g m lead t tr) tr i := by
  have un := h.unpinned_waiting hw
  rw [Cache.retryWaiting_some ((un.choice i).2 hi)]
  exact un.allocated (hi.lt h) g m lead t tr

/-- A try that finds none touches the forced line and the flush queue at most: a forced line with a DIRTY or FLUSH sector stays (R70). -/
theorem Cache.Sound.retry_fails (hnone : ∀ k < 8, ¬ c.FreeLine k ∧ ¬ c.MayGo k) :
    let d := c.retryWaiting g m lead t tr
    d = { c with forced := d.forced, flushQ := d.flushQ } ∧ (c.forced = none → c.Forces d) ∧
      (∀ f, c.forced = some f →
        ((∃ x ∈ (c.line f).sectors, x.state = .dirty ∨ x.state = .flush) → d = c) ∧
        ((∀ x ∈ (c.line f).sectors, x.state ≠ .dirty ∧ x.state ≠ .flush) → c.Forces d)) := by
  have un := h.unpinned_waiting hw
  have hpick := un.none_to_take.2 hnone
  intro d
  refine ⟨?_, fun hf => ?_, fun f hf => ⟨fun hx => ?_, fun hx => ?_⟩⟩
  · cases hf : c.forced with
    | none =>
      have hd : d = c.chooseForced := Cache.retryWaiting_afresh hpick hf g m lead t tr
      rw [hd]
      exact c.chooseForced_frame
    | some f =>
      have hd : d = _ := Cache.retryWaiting_forced hpick hf g m lead t tr
      rw [hd]
      split
      · rfl
      · exact Cache.chooseForced_frame { c with forced := none }
  · have hd : d = c.chooseForced := Cache.retryWaiting_afresh hpick hf g m lead t tr
    rw [hd]
    exact un.forces
  · exact (Cache.retryWaiting_forced hpick hf g m lead t tr).trans (if_pos hx)
  · have hd : d = ({ c with forced := none } : Cache).chooseForced :=
      (Cache.retryWaiting_forced hpick hf g m lead t tr).trans (if_neg fun ⟨x, hmem, hst⟩ => hst.elim (hx x hmem).1 (hx x hmem).2)
    rw [hd]
    exact (un.withForced none).forces

end

/-- Settles O46: an arrival and a try come to an activation in the unpinned cache, or to the choice of a forced line. -/
theorem arrivalsAndTheWaitingTrack : Obligations.ArrivalsAndTheWaitingTrack := by
  refine ⟨fun c g m lead t h => ⟨?_, fun tr => ⟨fun i hi => h.arrive_carried_spec g m lead t tr hi, fun hn => ⟨?_, ?_, h.choice_or_none⟩⟩,
    fun tr hw => ⟨fun i hi => h.retry_takes g m lead t hw hi, fun hnone => h.retry_fails g m lead t hw hnone⟩⟩,
    fun s old hs ho => ⟨fun tr hw hm hc => ?_, fun hq => ?_, rfl⟩⟩
  · have un := h.unpinned_arrival
    exact ⟨un.pins, rfl, rfl, rfl, rfl, fun k _ => Cache.kept_of_unpin (un.line k)⟩
  · exact fun i hi => h.arrive_new_spec g m lead t tr hn hi
  · exact fun hnone => h.arrive_waits_spec g m lead t tr hn hnone
  · exact State.reactWaiting_tries hw hm ((Cache.watch_ne_iff ho.lines hs.lines).2 hc)
  · exact State.reactWaiting_rests (hq.imp_right fun h => h.imp_right fun hn => mt (Cache.watch_ne_iff ho.lines hs.lines).1 hn)

end Sys2Proof.Machine
end

section
/-! PROOFS. Image mounting (03 R41 to R48): the extent chain and its checks, MOUNT refused and accepted. -/

namespace Sys2Proof.Machine

/-! ## The chain of a MOUNT payload (R184) -/

theorem byteAt_drop (bs : List Byte) (n i : Nat) : byteAt (bs.drop n) i = byteAt bs (n + i) := by
  simp [byteAt, List.getD_eq_getElem?_getD]

/-- A number in bytes, its first byte taken off; a byte past the end counts as 00 hex. -/
theorem ofLe_bytesAt_succ (bs : List Byte) (i k : Nat) :
    ofLe (bytesAt bs i (k + 1)) = (byteAt bs i).toNat + 256 * ofLe (bytesAt bs (i + 1) k) := by
  by_cases h : i < bs.length
  · rw [bytesAt, List.drop_eq_getElem_cons h, List.take_succ_cons, ofLe, byteAt, List.getD_eq_getElem?_getD, List.getElem?_eq_getElem h]
    rfl
  · have hn : bs.drop i = [] := List.drop_eq_nil_of_le (by omega)
    have hn' : bs.drop (i + 1) = [] := List.drop_eq_nil_of_le (by omega)
    simp [bytesAt, byteAt, hn, hn', ofLe, List.getD_eq_getElem?_getD, h]

theorem ofLe_bytesAt_zero (bs : List Byte) (i : Nat) : ofLe (bytesAt bs i 0) = 0 := by simp [bytesAt, ofLe]

theorem ofLe_two (bs : List Byte) (i : Nat) : ofLe (bytesAt bs i 2) = (byteAt bs i).toNat + 256 * (byteAt bs (i + 1)).toNat := by
  simp [ofLe_bytesAt_succ, ofLe_bytesAt_zero]

theorem ofLe_four (bs : List Byte) (i : Nat) : ofLe (bytesAt bs i 4) = (byteAt bs i).toNat + 256 * (byteAt bs (i + 1)).toNat +
    65536 * (byteAt bs (i + 2)).toNat + 16777216 * (byteAt bs (i + 3)).toNat := by
  simp only [ofLe_bytesAt_succ, ofLe_bytesAt_zero, Nat.add_assoc, Nat.reduceAdd]
  omega

/-- The extent record that stands at byte `i` of a payload. -/
def extentAt (bs : List Byte) (i : Nat) : Extent where
  start := (byteAt bs i).toNat + 256 * (byteAt bs (i + 1)).toNat + 65536 * (byteAt bs (i + 2)).toNat +
    16777216 * (byteAt bs (i + 3)).toNat
  count := (byteAt bs (i + 4)).toNat + 256 * (byteAt bs (i + 5)).toNat
  skip := (byteAt bs (i + 6)).getLsbD 0
  notify := (byteAt bs (i + 6)).getLsbD 1

theorem extentAt_drop (bs : List Byte) (n i : Nat) : extentAt (bs.drop n) i = extentAt bs (n + i) := by
  simp only [extentAt, byteAt_drop, Nat.add_assoc]

/-- The records are read one after another, seven bytes each. -/
theorem parseExtents_eq (k : Nat) (bs : List Byte) : parseExtents k bs = (List.range k).map (fun j => extentAt bs (7 * j)) := by
  induction k generalizing bs with
  | zero => rfl
  | succ k ih =>
    rw [parseExtents, ih, List.range_succ_eq_map, List.map_cons, List.map_map]
    congr 1
    · simp [extentAt, ofLe_four, ofLe_two]
    · refine List.map_congr_left fun j _ => ?_
      rw [Function.comp_apply, extentAt_drop]
      congr 1
      omega

theorem mountChain_length (p : List Byte) : (mountChain p).length = (byteAt p 1).toNat := by
  simp [mountChain, parseExtents_eq]

theorem mountChain_getElem? (p : List Byte) {k : Nat} (h : k < (byteAt p 1).toNat) :
    (mountChain p)[k]? = some (extentAt p (2 + 7 * k)) := by
  simp [mountChain, parseExtents_eq, h, extentAt_drop]

/-! ## The checks of one extent (R43 to R45) -/

theorem extentFault_eq_zeroCount_iff (capacity : Nat) (before : List Extent) (e : Extent) :
    extentFault capacity before e = some .zeroCount ↔ e.count = 0 := by
  unfold extentFault
  split
  · simp_all
  · split
    · simp_all
    · split <;> simp_all

theorem extentFault_eq_capacity_iff (capacity : Nat) (before : List Extent) (e : Extent) :
    extentFault capacity before e = some .capacity ↔ e.count ≠ 0 ∧ e.skip = false ∧ capacity < e.start + e.count := by
  unfold extentFault
  split
  · simp_all
  · split
    · simp_all
    · split <;> simp_all

theorem extentFault_eq_overlap_iff (capacity : Nat) (before : List Extent) (e : Extent) :
    extentFault capacity before e = some .extentOverlap ↔
      e.count ≠ 0 ∧ (e.skip = false → e.start + e.count ≤ capacity) ∧ ∃ a ∈ before, a.overlaps e = true := by
  unfold extentFault
  split
  · simp_all
  · split
    · simp_all
    · split
      · simp_all
      · simp_all

/-- Two ranges of blocks, neither empty, overlap exactly when a block stands in both. -/
theorem Extent.overlaps_iff {a e : Extent} (ha : a.count ≠ 0) (he : e.count ≠ 0) :
    a.overlaps e = true ↔ a.skip = false ∧ e.skip = false ∧
      ∃ b, (a.start ≤ b ∧ b < a.start + a.count) ∧ (e.start ≤ b ∧ b < e.start + e.count) := by
  have hshare : (∃ b, (a.start ≤ b ∧ b < a.start + a.count) ∧ (e.start ≤ b ∧ b < e.start + e.count)) ↔
      a.start < e.start + e.count ∧ e.start < a.start + a.count :=
    ⟨fun ⟨b, _, _⟩ => by omega, fun _ => ⟨max a.start e.start, by omega⟩⟩
  rw [hshare]
  simp [Extent.overlaps, and_assoc]

/-! ## The checks of a chain (R42, R46) -/

/-- The first faulty extent, by the extents before it, which pass. -/
theorem firstExtentFault_append {capacity : Nat} {earlier before : List Extent} {e : Extent} {c : MountCheck}
    (hb : ∀ k, ∀ a ∈ before[k]?, extentFault capacity (earlier ++ before.take k) a = none)
    (he : extentFault capacity (earlier ++ before) e = some c) (after : List Extent) :
    firstExtentFault capacity earlier (before ++ e :: after) = some (c, earlier.length + before.length) := by
  induction before generalizing earlier with
  | nil =>
    rw [List.append_nil] at he
    simp [firstExtentFault, he]
  | cons a rest ih =>
    have ha : extentFault capacity earlier a = none := by simpa using hb 0 a rfl
    rw [List.cons_append, firstExtentFault, ha]
    have hrest := ih (earlier := earlier ++ [a]) (fun k x hx => by simpa using hb (k + 1) x (by simpa using hx)) (by simpa using he)
    simpa [Nat.add_comm, Nat.add_left_comm] using hrest

theorem chainFault_of_count {chain : List Extent} (h : chain.length = 0 ∨ 64 < chain.length) (g : Geometry) (capacity : Nat)
    (shortOk : Bool) : chainFault g capacity shortOk chain = some (.extentCount, none) := if_pos h

theorem chainFault_of_extent {capacity : Nat} {chain : List Extent} {c : MountCheck} {k : Nat} (h0 : 1 ≤ chain.length)
    (h64 : chain.length ≤ 64) (hf : firstExtentFault capacity [] chain = some (c, k)) (g : Geometry) (shortOk : Bool) :
    chainFault g capacity shortOk chain = some (c, some k) := by
  rw [chainFault, if_neg (by omega), hf]

theorem chainFault_of_extents {capacity : Nat} {chain : List Extent} (h0 : 1 ≤ chain.length) (h64 : chain.length ≤ 64)
    (hf : firstExtentFault capacity [] chain = none) (g : Geometry) (shortOk : Bool) :
    chainFault g capacity shortOk chain = some (.length, none) ↔
      (chainTotal chain < g.imageBlocks ∧ shortOk = false) ∨ g.imageBlocks < chainTotal chain := by
  rw [chainFault, if_neg (by omega), hf]
  cases shortOk <;> simp
  omega

/-- Every track of D0 has the one layout, so the offsets grow evenly. -/
theorem d0_bytesBefore (k : Nat) : d0.bytesBefore k = 4608 * k := by
  induction k with
  | zero => rfl
  | succ k ih =>
    have hlayout : ∀ z, (d0.layout z).trackBytes = 4608 := fun z => by cases z <;> rfl
    rw [Geometry.bytesBefore, ih, Geometry.layoutAt, hlayout]
    rfl

/-- The image blocks of D0 (R22, R46). -/
theorem d0_imageBlocks : d0.imageBlocks = 1440 := by
  rw [Geometry.imageBlocks, Geometry.imageSize, d0_bytesBefore]
  rfl

/-! ## The MOUNT request -/

theorem State.takesRequest_of {s : State} (h : s.takesRequests) : s.takesRequest = true := by
  obtain ⟨-, hx, hb⟩ := h
  simp [State.takesRequest, hx, hb]

/-- A MOUNT that is taken is carried out in execution, and the arbiter and the stream follow. -/
theorem exec_mount_taken {s : State} (h : s.takesRequests) (tag : Byte) {p : List Byte} (hl : lengthOk 4 p = true)
    (hf : flagsOk 4 p = true) : exec (.mount tag p) s = .next ((s.entered 0x04#8 tag).doMount p).tend := by
  change execMount tag p s = _
  rw [execMount, whenPowered_present _ h.1, State.takeMount, tendingWhen_taken _ (State.takesRequest_of h),
    State.request_taken h tag _ hl hf]
  rfl

/-- To an answer that changes the link alone the cache has nothing to react to. -/
theorem State.Answers.reacted {s u : State} {kind tag : Byte} {payload : List Byte} (h : s.Answers u kind tag payload) :
    Reacted s u u.tend := by
  have hc : u.cache = s.cache := by rw [h.state]
  have hs : State.settle s u = u.tend := by rw [State.settle, ← hc, react_self]
  exact hs ▸ reacted_settle s u

/-- A MOUNT whose whole effect is its answer. -/
theorem exec_mount_answers {s : State} (h : s.takesRequests) (tag : Byte) {p : List Byte} (hl : lengthOk 4 p = true)
    (hf : flagsOk 4 p = true) {payload : List Byte} (ha : s.Answers ((s.entered 0x04#8 tag).doMount p) 0x04#8 tag payload) :
    ∃ u t, exec (.mount tag p) s = .next t ∧ Reacted s u t ∧ s.Answers u 0x04#8 tag payload :=
  ⟨_, _, exec_mount_taken h tag hl hf, ha.reacted, ha⟩

theorem doMount_of_mounted {s : State} (h : s.mount.state ≠ .unmounted) (p : List Byte) : s.doMount p = s.wrongState := by
  simp only [State.doMount, State.checkMount, if_pos h]

theorem doMount_of_noCard {s : State} (h : s.mount.state = .unmounted) (hc : s.card.state ≠ .ready) (p : List Byte) :
    s.doMount p = s.cardNotReady := by
  simp only [State.doMount, State.checkMount, if_neg (not_not.2 h), if_pos hc]

theorem doMount_of_fault {s : State} (h : s.mount.state = .unmounted) (hc : s.card.state = .ready) {p : List Byte} {c : MountCheck}
    {k : Option Nat} (hf : chainFault s.prof s.card.capacity ((byteAt p 0).getLsbD 1) (mountChain p) = some (c, k)) :
    s.doMount p = s.badField c.code (positionByte k) := by
  simp only [State.doMount, State.checkMount, if_neg (not_not.2 h), if_neg (not_not.2 hc), hf]

theorem doMount_of_accepted {s : State} (h : s.mount.state = .unmounted) (hc : s.card.state = .ready) {p : List Byte}
    (hf : chainFault s.prof s.card.capacity ((byteAt p 0).getLsbD 1) (mountChain p) = none) :
    s.doMount p = (s.acceptMount ((byteAt p 0).getLsbD 0) ((byteAt p 0).getLsbD 1) (mountChain p)).answer .ok 0#8
      (le4 s.prof.imageSize) := by
  simp only [State.doMount, State.checkMount, if_neg (not_not.2 h), if_neg (not_not.2 hc), hf]

/-- A MOUNT in UNMOUNTED with the card READY whose chain fails is answered with the check and its place (R42, R179). -/
theorem exec_mount_fault {s : State} (h : s.takesRequests) (tag : Byte) {p : List Byte} (hl : lengthOk 4 p = true)
    (hf : flagsOk 4 p = true) (hm : s.mount.state = .unmounted) (hc : s.card.state = .ready) {c : MountCheck} {k : Option Nat}
    (hfault : chainFault s.prof s.card.capacity ((byteAt p 0).getLsbD 1) (mountChain p) = some (c, k)) :
    ∃ u t, exec (.mount tag p) s = .next t ∧ Reacted s u t ∧ s.Answers u 0x04#8 tag [0x02#8, c.code, positionByte k] := by
  refine exec_mount_answers h tag hl hf ?_
  rw [doMount_of_fault (s := s.entered 0x04#8 tag) hm hc hfault]
  exact s.answers_of_entered 0x04#8 tag .badField c.code [positionByte k]

/-- Settles O26: each refusal is the first check that fails, and its whole effect. -/
theorem mountRefused : Obligations.MountRefused := by
  intro s tag p h hl hf
  refine ⟨fun hm => exec_mount_answers h tag hl hf ?_, fun hm hc => exec_mount_answers h tag hl hf ?_, fun hm hc hn => ?_⟩
  · rw [doMount_of_mounted (s := s.entered 0x04#8 tag) hm]
    exact s.answers_of_entered 0x04#8 tag .wrongState s.mount.state.code []
  · rw [doMount_of_noCard (s := s.entered 0x04#8 tag) hm hc]
    exact s.answers_of_entered 0x04#8 tag .cardNotReady s.card.state.code []
  · exact exec_mount_fault h tag hl hf hm hc (chainFault_of_count (by rwa [mountChain_length]) _ _ _)

/-- Settles O24: the records by their place, the first two checks of an extent, and the first faulty extent of a chain. -/
theorem zeroCountAndCapacityChecks : Obligations.ZeroCountAndCapacityChecks := by
  refine ⟨fun p _ => ⟨mountChain_length p, fun k hk => mountChain_getElem? p hk⟩,
    fun capacity before e => ⟨extentFault_eq_zeroCount_iff capacity before e, extentFault_eq_capacity_iff capacity before e⟩,
    fun before => ⟨?_, ?_⟩, ?_⟩
  · rw [Ne, extentFault_eq_capacity_iff]
    decide
  · rw [extentFault_eq_capacity_iff]
    decide
  · intro s tag p before after e check h hl hf hm hc hchain hlen hpass hfault
    refine exec_mount_fault h tag hl hf hm hc (chainFault_of_extent ?_ ?_ ?_ _ _)
    · rw [hchain]
      simp
      omega
    · rw [hchain]
      simp
      omega
    · rw [hchain, firstExtentFault_append hpass hfault, List.length_nil, Nat.zero_add]

/-- Settles O25: two ranges that overlap share a block; the total of a passing chain against the image blocks. -/
theorem overlapAndLengthChecks : Obligations.OverlapAndLengthChecks := by
  refine ⟨fun capacity before e hb => ?_, by decide, fun g capacity shortOk chain h0 h64 hf => chainFault_of_extents h0 h64 hf g shortOk,
    fun s tag p h hl hf hm hc h0 h64 hpass => ?_, d0_imageBlocks⟩
  · rw [extentFault_eq_overlap_iff]
    refine and_congr_right fun he => and_congr_right fun _ => exists_congr fun a => and_congr_right fun ha => ?_
    exact Extent.overlaps_iff (hb a ha) he
  · intro total htotal
    exact exec_mount_fault h tag hl hf hm hc ((chainFault_of_extents h0 h64 hpass _ _).2 htotal)

/-! ## A mount that is accepted (R47, R28, R34) -/

theorem State.reactWaiting_with (s : State) (p : Present) {l : Link} (ho : l.options = s.link.options) (old : Cache) :
    ({ s with pres := p, link := l } : State).reactWaiting old = { s.reactWaiting old with pres := p, link := l } := by
  unfold State.reactWaiting
  cases s.cache.waiting with
  | none => rfl
  | some tr =>
    by_cases h : (s.isMounted && decide (old.watch ≠ s.cache.watch)) = true
    · simp only [if_pos h]
      exact (if_pos h).trans (by rw [← ho]; rfl)
    · simp only [if_neg h]
      exact if_neg h

theorem State.lookAhead_with (s : State) (p : Present) {l : Link} (ho : l.options = s.link.options) :
    ({ s with pres := p, link := l } : State).lookAhead = { s.lookAhead with pres := p, link := l } := by
  unfold State.lookAhead
  by_cases h : (s.isMounted && s.link.options.readAhead) = true
  · simp only [if_pos h]
    exact if_pos (ho ▸ h)
  · simp only [if_neg h]
    exact if_neg (ho ▸ h)

/-- What the cache makes of a change hangs on neither the stream nor the link, but for its options. -/
theorem State.react_with (s : State) (p : Present) {l : Link} (ho : l.options = s.link.options) (old : Cache) :
    ({ s with pres := p, link := l } : State).react old = { s.react old with pres := p, link := l } := by
  have hlink : l.options = (s.reactWaiting old).link.options := by
    unfold State.reactWaiting
    split
    · exact ho
    · split <;> exact ho
  unfold State.react State.reactAhead
  rw [State.reactWaiting_with s p ho]
  split
  · exact State.lookAhead_with _ p hlink
  · rfl

/-- The encoder at rest stays at rest through an arrival (R90, R104). -/
theorem Present.reset_arrived : Present.reset.arrived = Present.reset := rfl

/-- Before a mount is accepted nothing turns and the stream rests. -/
theorem State.Follows.unmounted_rests {s : State} (h : s.Follows) (hm : s.mount.state = .unmounted) :
    s.rot.state = .stopped ∧ s.pres = Present.reset := by
  have hmounted : s.isMounted = false := (s.isMounted_eq_false_iff).2 (by simp [hm])
  have hspin := h.spin
  refine ⟨by simpa [State.spinDemand, hmounted] using hspin, h.stream ?_⟩
  simp [State.flowing, State.presented, hmounted]

/-- The mount of a request: record, defect list and latch, before the arrival (R47). -/
def State.withMount (s : State) (readOnly shortOk : Bool) (chain : List Extent) : State :=
  { s with mount := s.mountRecord readOnly shortOk chain, cache := s.cache.setDefects s.prof [], drive := { s.drive with latch := true } }

theorem State.acceptMount_eq (s : State) (readOnly shortOk : Bool) (chain : List Extent) :
    s.acceptMount readOnly shortOk chain = ((s.withMount readOnly shortOk chain).arrival none).reworkSpin := rfl

section Accepting
variable {s : State} (readOnly shortOk : Bool) (chain : List Extent)

theorem State.withMount_arrival_off (h : s.prof.locate s.drive.head s.drive.side = none) :
    (s.withMount readOnly shortOk chain).arrival none = s.withMount readOnly shortOk chain :=
  State.arrival_none (.inr h)

theorem State.withMount_arrival_at {tr : Track} (h : s.prof.locate s.drive.head s.drive.side = some tr) :
    (s.withMount readOnly shortOk chain).arrival none =
      (s.withMount readOnly shortOk chain).arrive.react (s.cache.setDefects s.prof []) := by
  have htrack : (s.withMount readOnly shortOk chain).currentTrack = some tr := h
  exact State.arrival_other rfl (by simp [htrack])

/-- The arrival touches the cache alone, as the stream rests. -/
theorem State.withMount_arrival_frame (hp : s.pres = Present.reset) :
    (s.withMount readOnly shortOk chain).arrival none =
      { s.withMount readOnly shortOk chain with cache := ((s.withMount readOnly shortOk chain).arrival none).cache } := by
  cases h : s.prof.locate s.drive.head s.drive.side with
  | none => rw [State.withMount_arrival_off readOnly shortOk chain h]
  | some tr =>
    rw [State.withMount_arrival_at readOnly shortOk chain h, react_eq]
    have hpres : (s.withMount readOnly shortOk chain).arrive.pres = (s.withMount readOnly shortOk chain).pres :=
      (congrArg Present.arrived hp).trans (Present.reset_arrived.trans hp.symm)
    simp only [State.arrive] at hpres ⊢
    rw [hpres]

end Accepting

/-- Settles O27: the arrival changes the cache alone, the rotation starts from STOPPED, and the answer is the link's. -/
theorem mountAccepted : Obligations.MountAccepted := by
  intro s tag p h hfol hl hf hm hc hchain mount fresh v
  obtain ⟨hstopped, hpres⟩ := hfol.unmounted_rests hm
  let e := s.entered 0x04#8 tag
  let w := e.withMount ((byteAt p 0).getLsbD 0) ((byteAt p 0).getLsbD 1) (mountChain p)
  have hframe : w.arrival none = { w with cache := (w.arrival none).cache } :=
    State.withMount_arrival_frame (s := e) _ _ _ hpres
  have hrot : (w.arrival none).rot = s.rot := by rw [hframe]; rfl
  have hmotor : (w.arrival none).motorActive = s.motorActive := by rw [hframe]; rfl
  have hdemand : (w.arrival none).spinDemand = s.motorActive := by
    rw [State.spinDemand, hmotor, hframe]
    rfl
  have hcache : (w.arrival none).reworkSpin.cache = (w.arrival none).cache :=
    reworkSpin_cache_same (.inr (by rw [hrot, hstopped]; decide))
  have hdo := (doMount_of_accepted (s := e) hm hc hchain).trans
    (congrArg (fun t : State => t.answer .ok 0#8 (le4 s.prof.imageSize)) (State.acceptMount_eq e _ _ _))
  refine ⟨_, _, (exec_mount_taken h tag hl hf).trans (by rw [hdo]), reacted_tend _, rfl, ?_, fun hoff => ?_, fun tr hon => ?_, ?_, ?_⟩
  · obtain ⟨c, r, hr⟩ : ∃ c r, (w.arrival none).reworkSpin = { w with cache := c, rot := r } :=
      ⟨_, _, (reworkSpin_frame _).trans (by rw [hframe])⟩
    rw [hr]
    rfl
  · exact hcache.trans (congrArg State.cache (State.withMount_arrival_off (s := e) _ _ _ hoff))
  · refine hcache.trans ?_
    rw [State.withMount_arrival_at (s := e) _ _ _ hon]
    have harrive : w.arrive = { w with
        cache := fresh.arrive s.prof mount s.link.options.fillLead s.rot.t (some tr), pres := w.pres.arrived } :=
      congrArg (fun at' => { w with cache := fresh.arrive s.prof mount s.link.options.fillLead s.rot.t at', pres := w.pres.arrived })
        (show w.currentTrack = some tr from hon)
    rw [harrive]
    refine Eq.trans (congrArg State.cache (State.react_with { v with
      cache := fresh.arrive s.prof mount s.link.options.fillLead s.rot.t (some tr) } w.pres.arrived (l := w.link) rfl fresh)) rfl
  · change (w.arrival none).reworkSpin.rot = _
    cases ha : s.motorActive
    · rw [reworkSpin_rests (hdemand.trans ha) (by rw [hrot, hstopped]), hrot]
      rfl
    · rw [reworkSpin_rot_started (hdemand.trans ha) (by rw [hrot, hstopped]), hrot, hframe]
      rfl
  · refine Link.answer_hasReply (q := ⟨0x04#8, tag, false, false, false⟩) ?_ rfl rfl _ _ _
    rw [reworkSpin_frame, hframe]
    rfl

end Sys2Proof.Machine
end

section
/-! PROOFS. The end of a mount (03 R51 to R58, 04 R81, 06 R125): a mount that leaves MOUNTED or DRAINING, UNMOUNT and DEFECTS. -/

namespace Sys2Proof.Machine

/-! ## Lines that lose their pin -/

theorem Cache.sector_unpinAll (c : Cache) (i l : Nat) : c.unpinAll.sector i l = c.sector i l := by
  rw [Cache.sector, Cache.line_unpinAll, Line.unpin_sectors, Cache.sector]

theorem Cache.pins_unpinAll (c : Cache) : c.unpinAll.pins = 0 := by
  rw [Cache.pins, List.countP_eq_zero]
  intro l hl
  obtain ⟨k, -, rfl⟩ := List.mem_map.1 hl
  unfold Line.unpin
  split <;> simp_all

theorem Line.unpin_failures (l : Line) : l.unpin.failures = l.failures := by
  unfold Line.unpin
  split <;> rfl

theorem Cache.nonClean_congr {c d : Cache} (h : ∀ i l, c.sector i l = d.sector i l) : c.nonClean = 0 ↔ d.nonClean = 0 := by
  simp only [Cache.nonClean_eq_zero, h]

theorem SectorState.nonClean_iff (st : SectorState) : st.nonClean = true ↔ st = .dirty ∨ st = .capture ∨ st = .flush := by
  cases st <;> decide

/-- A sector that is non-clean shows in the count of the whole cache. -/
theorem Cache.nonClean_ne_zero_of {c : Cache} {i l : Nat} {x : Sector} (hx : c.sector i l = some x) (hn : x.state.nonClean = true) :
    c.nonClean ≠ 0 := fun h => by simp [(c.nonClean_eq_zero).1 h i l x hx] at hn

/-! ## The capture that a leaving mount abandons (R125, R137) -/

/-- A sector write is in progress at a sector: the one that an abandoned capture leaves DIRTY. -/
def State.WritesAt (s : State) (i l : Nat) : Prop :=
  (s.cap.st = .hunt ∨ s.cap.st = .sectorData) ∧ s.cap.line = some i ∧ l = s.cap.logical

theorem captureAbandon_frame (s : State) :
    s.captureAbandon = { s with cap := s.captureAbandon.cap, cache := s.captureAbandon.cache } := by
  unfold State.captureAbandon
  cases s.cap.st with
  | idle | sectorTail | track | discard => rfl
  | hunt | sectorData => cases s.cap.line <;> rfl

theorem captureAbandon_st (s : State) : s.captureAbandon.cap.st = s.abandoned := by
  have aside : ∀ t : State, t.cap.st ≠ .idle → t.capAside.cap.st = t.abandoned := fun t ht => by
    rw [State.capAside_cap, State.abandoned]
    cases hg : t.drive.gateActive <;> simp [ht, Capture.rest, Capture.idle]
  unfold State.captureAbandon
  cases hst : s.cap.st with
  | idle => simp [State.abandoned, hst]
  | hunt | sectorData => cases s.cap.line <;> exact aside _ (by simp [hst])
  | sectorTail | track | discard => exact aside s (by simp [hst])

/-- Of the lines an abandoned capture changes the sector being written alone. -/
theorem captureAbandon_cases (s : State) :
    (s.captureAbandon.cache = s.cache ∧ ∀ i l, ¬ s.WritesAt i l) ∨
    ∃ i, s.WritesAt i s.cap.logical ∧ s.captureAbandon.cache = s.cache.modSector i s.cap.logical (fun x => x.enter .dirty) := by
  unfold State.captureAbandon
  cases hst : s.cap.st with
  | idle | sectorTail | track | discard => exact .inl ⟨rfl, fun i l h => by simp [State.WritesAt, hst] at h⟩
  | hunt | sectorData =>
    cases hline : s.cap.line with
    | none => exact .inl ⟨rfl, fun i l h => by simp [State.WritesAt, hline] at h⟩
    | some i => exact .inr ⟨i, ⟨by simp [hst], hline, rfl⟩, rfl⟩

/-- Of the cache the lines alone can change. -/
theorem captureAbandon_cache (s : State) : s.captureAbandon.cache = { s.cache with lines := s.captureAbandon.cache.lines } := by
  rcases captureAbandon_cases s with ⟨hc, -⟩ | ⟨i, -, hc⟩
  · rw [hc]
  · rw [hc]
    rfl

theorem captureAbandon_lru (s : State) : s.captureAbandon.cache.lru = s.cache.lru := by rw [captureAbandon_cache]
theorem captureAbandon_ram (s : State) : s.captureAbandon.cache.ram = s.cache.ram := by rw [captureAbandon_cache]
theorem captureAbandon_defects (s : State) : s.captureAbandon.cache.defects = s.cache.defects := by rw [captureAbandon_cache]
theorem captureAbandon_armed (s : State) : s.captureAbandon.cache.armed = s.cache.armed := by rw [captureAbandon_cache]

theorem captureAbandon_lines_length (s : State) : s.captureAbandon.cache.lines.length = s.cache.lines.length := by
  rcases captureAbandon_cases s with ⟨hc, -⟩ | ⟨i, -, hc⟩
  · rw [hc]
  · rw [hc]
    exact List.length_modify _ _ _

theorem captureAbandon_sector_other {s : State} {i l : Nat} (h : ¬ s.WritesAt i l) :
    s.captureAbandon.cache.sector i l = s.cache.sector i l := by
  rcases captureAbandon_cases s with ⟨hc, -⟩ | ⟨k, hk, hc⟩
  · rw [hc]
  · rw [hc, Cache.sector_modSector, if_neg (fun ⟨e, e'⟩ => h (by rw [e, e']; exact hk))]

theorem captureAbandon_sector_written {s : State} {i l : Nat} (h : s.WritesAt i l) :
    s.captureAbandon.cache.sector i l = (s.cache.sector i l).map (fun x => x.enter .dirty) := by
  rcases captureAbandon_cases s with ⟨-, hn⟩ | ⟨k, ⟨-, hline, -⟩, hc⟩
  · exact absurd h (hn i l)
  · obtain ⟨-, hi, hl⟩ := h
    rw [hc, Cache.sector_modSector, if_pos ⟨Option.some.inj (hi.symm.trans hline), hl⟩]

theorem captureAbandon_tag (s : State) (k : Nat) : (s.captureAbandon.cache.line k).tag = (s.cache.line k).tag := by
  rcases captureAbandon_cases s with ⟨hc, -⟩ | ⟨i, -, hc⟩
  · rw [hc]
  · rw [hc, Cache.tag_modSector]

/-- A sector DIRTY, or one that is being written, is DIRTY once the capture is abandoned; any other is as before. -/
theorem captureAbandon_sector_some {s : State} {i l : Nat} {x : Sector} (hx : s.cache.sector i l = some x) :
    s.captureAbandon.cache.sector i l = some x ∨
      s.WritesAt i l ∧ s.captureAbandon.cache.sector i l = some (x.enter .dirty) := by
  by_cases h : s.WritesAt i l
  · exact .inr ⟨h, by rw [captureAbandon_sector_written h, hx, Option.map_some]⟩
  · exact .inl ((captureAbandon_sector_other h).trans hx)

theorem captureAbandon_nonClean {s : State} (h : s.cache.nonClean ≠ 0) : s.captureAbandon.cache.nonClean ≠ 0 := by
  refine fun h0 => h ((Cache.nonClean_eq_zero _).2 fun i l x hx => ?_)
  rcases captureAbandon_sector_some hx with hy | ⟨-, hy⟩
  · exact (Cache.nonClean_eq_zero _).1 h0 i l x hy
  · have := (Cache.nonClean_eq_zero _).1 h0 i l _ hy
    rw [Sector.enter_state] at this
    exact absurd this (by decide)

/-- With no sector write in progress the lines are left alone. -/
theorem captureAbandon_cache_same {s : State} (hh : s.cap.st ≠ .hunt) (hd : s.cap.st ≠ .sectorData) :
    s.captureAbandon.cache = s.cache := by
  rcases captureAbandon_cases s with ⟨hc, -⟩ | ⟨i, ⟨hst, -⟩, -⟩
  · exact hc
  · exact absurd hst (not_or.2 ⟨hh, hd⟩)

/-! ## Leaving MOUNTED or DRAINING (R52, R54, R56) -/

/-- A dead fill is withdrawn from the queued slot, and nothing else. -/
theorem dropDeadFill_cases (s : State) :
    s.dropDeadFill = s ∨ s.dropDeadFill = { s with card := { s.card with queued := none } } := by
  unfold State.dropDeadFill
  split
  · exact .inl rfl
  · rename_i r hq
    split
    · rename_i hk _ _
      split
      · exact .inl rfl
      · exact .inr (by simp [State.withdraw, hq, hk])
    · exact .inl rfl

/-- Outside MOUNTED the spin demand moves the rotation alone. -/
theorem reworkSpin_outside_mounted {s : State} (h : s.isMounted = false) : s.reworkSpin = { s with rot := s.reworkSpin.rot } := by
  have hoff : (s.setRotation .stopped none).motorOff = s.setRotation .stopped none := if_neg (by simpa [State.isMounted] using h)
  unfold State.reworkSpin
  split
  · split <;> rfl
  · rfl
  · rw [hoff]
    rfl
  · rfl

/-- A mount that takes another state, its capture abandoned and its active line unpinned; the dead fill, the latch and the rotation are
still to follow. -/
def State.unseated (s : State) (st : MountState) : State :=
  { s with cap := s.captureAbandon.cap, cache := s.captureAbandon.cache.leaveMounted, mount := { s.mount with state := st } }

theorem leaveMounted_eq (s : State) (st : MountState) :
    s.leaveMounted st = (s.unseated st).dropDeadFill.setLatch.reworkSpin := by
  rw [State.leaveMounted, captureAbandon_frame s]
  rfl

theorem unseated_isMounted (s : State) {st : MountState} (hst : st ≠ .mounted) :
    (s.unseated st).dropDeadFill.setLatch.isMounted = false := by
  rw [State.isMounted_eq_false_iff, State.setLatch_mount, (settled_dropDeadFill _).mount]
  exact hst

/-- What a mount that leaves MOUNTED or DRAINING leaves behind: the rotation and the queued slot apart, it is all said here. -/
theorem leaveMounted_frame (s : State) {st : MountState} (hst : st ≠ .mounted) :
    ∃ rot queued, (queued = s.card.queued ∨ queued = none) ∧ s.leaveMounted st = { s.unseated st with
      drive := { s.drive with latch := true }, rot := rot, card := { s.card with queued := queued } } := by
  obtain ⟨queued, hor, hq⟩ : ∃ q, (q = s.card.queued ∨ q = none) ∧
      (s.unseated st).dropDeadFill = { s.unseated st with card := { s.card with queued := q } } :=
    (dropDeadFill_cases (s.unseated st)).elim (fun h => ⟨s.card.queued, .inl rfl, h⟩) (fun h => ⟨none, .inr rfl, h⟩)
  have hspin := reworkSpin_outside_mounted (unseated_isMounted s hst)
  refine ⟨(s.unseated st).dropDeadFill.setLatch.reworkSpin.rot, queued, hor, (leaveMounted_eq s st).trans (hspin.trans ?_)⟩
  rw [hq]
  rfl

theorem leaveMounted_rot {s : State} {st : MountState} (hst : st ≠ .mounted)
    (ht : s.rot.spinTimer ≠ none → s.rot.state = .spinningUp) :
    (s.leaveMounted st).rot = { s.rot with state := .stopped, spinTimer := none } := by
  have hrot : (s.unseated st).dropDeadFill.setLatch.rot = s.rot := (settled_dropDeadFill _).rot
  rw [leaveMounted_eq, reworkSpin_rot_stopped (by simp [State.spinDemand, unseated_isMounted s hst]) (by rwa [hrot]), hrot]

/-! ## The lines of a mount that has left MOUNTED -/

theorem Cache.sector_leaveMounted (c : Cache) (i l : Nat) : c.leaveMounted.sector i l = c.sector i l := c.sector_unpinAll i l

theorem Cache.line_leaveMounted (c : Cache) (k : Nat) : c.leaveMounted.line k = (c.line k).unpin := c.line_unpinAll k

theorem Cache.pins_leaveMounted (c : Cache) : c.leaveMounted.pins = 0 := c.pins_unpinAll

theorem Cache.pins_release (c : Cache) : c.release.pins = 0 := by
  rw [Cache.pins, List.countP_eq_zero]
  intro l hl
  obtain ⟨k, -, rfl⟩ := List.mem_map.1 hl
  decide

/-! ## UNMOUNT in MOUNTED (R51 to R53) -/

/-- A mount that enters DRAINING, before it is seen whether there is anything to drain. -/
def State.drains (s : State) : State :=
  { s.leaveMounted .draining with
    cache := (s.leaveMounted .draining).cache.joinAll (s.leaveMounted .draining).geom (s.leaveMounted .draining).writeRuns }

theorem drains_frame (s : State) :
    ∃ queued flushQ, s.drains = { s.unseated .draining with
      drive := { s.drive with latch := true }, rot := (s.leaveMounted .draining).rot, card := { s.card with queued := queued }
      cache := { s.captureAbandon.cache.leaveMounted with flushQ := flushQ } } := by
  obtain ⟨rot, queued, -, h⟩ := leaveMounted_frame s (st := .draining) (by decide)
  refine ⟨queued, s.drains.cache.flushQ, ?_⟩
  rw [State.drains, h]
  rfl

theorem drains_sector (s : State) (k l : Nat) : s.drains.cache.sector k l = s.captureAbandon.cache.sector k l := by
  obtain ⟨queued, flushQ, h⟩ := drains_frame s
  rw [h]
  exact Cache.sector_leaveMounted _ k l

theorem drains_tag (s : State) (k : Nat) : (s.drains.cache.line k).tag = (s.cache.line k).tag := by
  obtain ⟨queued, flushQ, h⟩ := drains_frame s
  rw [h]
  exact (congrArg Line.tag (Cache.line_leaveMounted _ k)).trans ((Line.unpin_tag _).trans (captureAbandon_tag s k))

/-- Every line with write-back work stands in the queue of a drain (R78). -/
theorem drains_queue {s : State} {k : Nat} (hk : k ∈ s.cache.lru)
    (hw : s.drains.cache.hasWriteWork s.drains.geom s.drains.writeRuns k = true) : k ∈ s.drains.cache.flushQ := by
  refine (Cache.mem_join_flushQ _ _ _).2 (.inr ⟨?_, hw⟩)
  obtain ⟨rot, queued, -, h⟩ := leaveMounted_frame s (st := .draining) (by decide)
  rw [h]
  change k ∈ s.captureAbandon.cache.lru
  rwa [captureAbandon_cache]

theorem drains_nonClean (s : State) : s.drains.cache.nonClean = 0 ↔ s.captureAbandon.cache.nonClean = 0 :=
  Cache.nonClean_congr (drains_sector s)

/-- A drain with a non-clean sector goes on; one without any ends at once (R52, R53). -/
theorem enterDraining_eq (s : State) :
    s.enterDraining = if s.captureAbandon.cache.nonClean = 0 then s.drains.endMount 0 else s.drains := by
  have hd : s.enterDraining = s.drains.drainCheck := rfl
  obtain ⟨queued, flushQ, h⟩ := drains_frame s
  have hst : s.drains.mount.state = .draining := by rw [h]; rfl
  simp only [hd, State.drainCheck, drains_nonClean, hst, true_and]

theorem enterDraining_stays {s : State} (h : s.cache.nonClean ≠ 0) : s.enterDraining = s.drains := by
  rw [enterDraining_eq, if_neg (captureAbandon_nonClean h)]

theorem enterDraining_ends {s : State} (h : s.cache.nonClean = 0) (hh : s.cap.st ≠ .hunt) (hd : s.cap.st ≠ .sectorData) :
    s.enterDraining = s.drains.endMount 0 := by
  rw [enterDraining_eq, if_pos (captureAbandon_cache_same hh hd ▸ h)]

/-- What a drain and its end at once have in common (R31, R52, R68, R70, R80). -/
theorem enterDraining_both (s : State) :
    s.enterDraining.drive = { s.drive with latch := true } ∧ s.enterDraining.rot = (s.leaveMounted .draining).rot ∧
    s.enterDraining.cap = s.captureAbandon.cap ∧ s.enterDraining.cache.idleTimer = none ∧ s.enterDraining.cache.waiting = none ∧
    s.enterDraining.cache.forced = none ∧ s.enterDraining.cache.pins = 0 ∧ s.enterDraining.cache.lru = s.cache.lru ∧
    s.enterDraining.cache.ram = s.cache.ram ∧ ∃ queued, s.enterDraining.card = { s.card with queued := queued } := by
  obtain ⟨queued, flushQ, h⟩ := drains_frame s
  have hlru : s.drains.cache.lru = s.cache.lru := by rw [h]; exact captureAbandon_lru s
  have hram : s.drains.cache.ram = s.cache.ram := by rw [h]; exact captureAbandon_ram s
  rw [enterDraining_eq]
  split
  · have hdrive : s.drains.drive = { s.drive with latch := true } := by rw [h]
    have hrot : s.drains.rot = (s.leaveMounted .draining).rot := by rw [h]
    have hcap : s.drains.cap = s.captureAbandon.cap := by rw [h]; rfl
    have hcard : s.drains.card = { s.card with queued := queued } := by rw [h]
    exact ⟨congrArg (fun d : Drive => { d with latch := true }) hdrive, hrot, hcap, rfl, rfl, rfl, Cache.pins_release _, hlru, hram,
      queued, hcard⟩
  · refine ⟨?_, ?_, ?_, ?_, ?_, ?_, ?_, hlru, hram, queued, ?_⟩ <;> rw [h]
    · rfl
    · rfl
    · rfl
    · rfl
    · exact Cache.pins_leaveMounted _

/-! ## The UNMOUNT and DEFECTS requests -/

theorem settlingWhen_taken {p : State → Bool} (f : State → State) {s : State} (h : p s = true) :
    settlingWhen p f s = State.settle s (f s) := if_pos h

theorem exec_unmount_taken {s : State} (h : s.takesRequests) (tag : Byte) :
    exec (.unmount tag []) s = .next (State.settle s (s.entered 0x05#8 tag).doUnmount) := by
  change execUnmount tag [] s = _
  rw [execUnmount, whenPowered_present _ h.1, State.takeUnmount, settlingWhen_taken _ (State.takesRequest_of h),
    State.request_taken h tag _ rfl rfl]
  rfl

theorem exec_defects_taken {s : State} (h : s.takesRequests) (tag b : Byte) (hb : b.toNat ≤ 1) :
    exec (.defects tag [b]) s = .next ((s.entered 0x09#8 tag).doDefects [b]) := by
  have hf : flagsOk 9 [b] = true := decide_eq_true (Nat.lt_succ_of_le hb)
  change execDefects tag [b] s = _
  rw [execDefects, whenPowered_present _ h.1, State.takeDefects, State.request_taken h tag _ rfl hf]
  rfl

/-- The link of a request that has just been answered OK holds the reply, and the notices that waited or fewer. -/
theorem entered_answer_link (s : State) (kind tag : Byte) (st : ReplyStatus) (d : Byte) (bs : List Byte) :
    ((s.entered kind tag).answer st d bs).link.hasReply (0x80#8 + kind) tag (st.code :: d :: bs) ∧
      ((s.entered kind tag).answer st d bs).link.notices.length ≤ s.link.notices.length :=
  ⟨(s.answers_of_entered kind tag st d bs).reply, (Link.startTx_bounds _).1⟩

/-- A notice of the mount's end joins a queue with room, if its kind is not masked off. -/
theorem hasNotice_endMount {s : State} (n : Nat) (hm : s.link.options.noticeMask.getLsbD 1 = true) (hl : s.link.notices.length < 16) :
    (s.endMount n).link.hasNotice (.mountState .unmounted n) :=
  Link.hasNotice_post _ (by simp) hm hl

theorem doUnmount_of_unmounted {s : State} (h : s.mount.state = .unmounted) : s.doUnmount = s.wrongState := by
  simp only [State.doUnmount, h]

theorem doUnmount_of_mounted {s : State} (h : s.mount.state = .mounted) : s.doUnmount = (s.answer .ok 0#8 []).enterDraining := by
  simp only [State.doUnmount, h]

theorem doUnmount_of_draining {s : State} (h : s.mount.state = .draining) : s.doUnmount = s.answer .ok 0#8 [] := by
  simp only [State.doUnmount, h]

theorem doUnmount_of_lost {s : State} (h : s.mount.state = .lost) : s.doUnmount = s.unmountLost := by
  simp only [State.doUnmount, h]

/-- UNMOUNT builds no card state: the queued slot alone can change. -/
theorem doUnmount_card (s : State) : ∃ queued, s.doUnmount.card = { s.card with queued := queued } := by
  cases hm : s.mount.state with
  | unmounted => exact ⟨_, by rw [doUnmount_of_unmounted hm]; rfl⟩
  | draining => exact ⟨_, by rw [doUnmount_of_draining hm]; rfl⟩
  | lost => exact ⟨_, by rw [doUnmount_of_lost hm]; rfl⟩
  | mounted =>
    rw [doUnmount_of_mounted hm]
    obtain ⟨-, -, -, -, -, -, -, -, -, hcard⟩ := enterDraining_both (s.answer .ok 0#8 [])
    exact hcard

/-- A drain goes on while a sector is non-clean: the lines keep their tracks and bytes, the sector being written is DIRTY (R52, R125). -/
theorem drains_spec (s : State) :
    s.drains.mount = { s.mount with state := .draining } ∧ s.drains.cache.defects = s.cache.defects ∧
    s.drains.cache.armed = s.cache.armed ∧ (∀ k, (s.drains.cache.line k).tag = (s.cache.line k).tag) ∧
    (∀ k l, ¬ s.WritesAt k l → s.drains.cache.sector k l = s.cache.sector k l) ∧
    (∀ k l x, s.WritesAt k l → s.cache.sector k l = some x → ∃ y, s.drains.cache.sector k l = some y ∧ y.state = .dirty) ∧
    (s.cache.lru.Perm (List.range 8) →
      ∀ k < 8, s.drains.cache.hasWriteWork s.drains.geom s.drains.writeRuns k = true → k ∈ s.drains.cache.flushQ) := by
  obtain ⟨queued, flushQ, h⟩ := drains_frame s
  refine ⟨by rw [h]; rfl, ?_, ?_, drains_tag s, fun k l hw => ?_, fun k l x hw hx => ⟨x.enter .dirty, ?_, Sector.enter_state _ _⟩,
    fun hlru k hk hwork => drains_queue (hlru.mem_iff.2 (List.mem_range.2 hk)) hwork⟩
  · rw [h]
    exact captureAbandon_defects s
  · rw [h]
    exact captureAbandon_armed s
  · rw [drains_sector, captureAbandon_sector_other hw]
  · rw [drains_sector, captureAbandon_sector_written hw, hx, Option.map_some]

/-- A drain without a non-clean sector ends at once in UNMOUNTED (R53, R58). -/
theorem drains_endMount_spec (s : State) :
    (s.drains.endMount 0).mount = Mount.cleared s.mount.serial ∧
    (s.drains.endMount 0).cache.lines = s.cache.lines.map (fun _ => Line.free) ∧ (s.drains.endMount 0).cache.defects = [] ∧
    (s.drains.endMount 0).cache.flushQ = [] ∧ (s.drains.endMount 0).cache.armed = false ∧
    (s.link.options.noticeMask.getLsbD 1 = true → s.link.notices.length < 16 →
      (s.drains.endMount 0).link.hasNotice (.mountState .unmounted 0)) := by
  obtain ⟨queued, flushQ, h⟩ := drains_frame s
  have hlink : s.drains.link = s.link := by rw [h]; rfl
  have hserial : s.drains.mount.serial = s.mount.serial := by rw [h]; rfl
  have hlines : s.drains.cache.lines.length = s.cache.lines.length := by
    rw [h]
    exact (List.length_map _).trans (captureAbandon_lines_length s)
  refine ⟨congrArg Mount.cleared hserial, ?_, rfl, rfl, rfl, fun hmask hlen => ?_⟩
  · change s.drains.cache.lines.map (fun _ => Line.free) = _
    rw [List.map_const', List.map_const', hlines]
  · exact hasNotice_endMount 0 (hlink ▸ hmask) (hlink ▸ hlen)

theorem enterDraining_hasReply {s : State} {kind tag : Byte} {payload : List Byte} (h : s.link.hasReply kind tag payload) :
    s.enterDraining.link.hasReply kind tag payload := by
  obtain ⟨queued, flushQ, hd⟩ := drains_frame s
  have hlink : s.drains.link = s.link := by rw [hd]; rfl
  rw [enterDraining_eq]
  split
  · exact Link.post_hasReply (hlink ▸ h) _
  · exact hlink ▸ h

/-- The list emptied: every defective part of a line that holds a track is false (R87). -/
theorem Cache.setDefects_nil (c : Cache) (g : Geometry) : c.setDefects g [] = { c with
    defects := []
    lines := c.lines.map (fun ln => if ln.tag = none then ln
      else { ln with sectors := ln.sectors.map (fun x => { x with defective := false }) }) } := by
  have hline : ∀ ln : Line, Line.syncDefects g [] ln = if ln.tag = none then ln
      else { ln with sectors := ln.sectors.map (fun x => { x with defective := false }) } := fun ln => by
    unfold Line.syncDefects
    cases htag : ln.tag with
    | none => rfl
    | some tr =>
      have hsectors : ln.sectors.mapIdx (fun l x => { x with defective := names [] tr ((g.zone ln.zone).idSector l) }) =
          ln.sectors.map (fun x => { x with defective := false }) := List.ext_getElem (by simp) (fun n h1 h2 => by simp [names])
      rw [if_neg (by simp)]
      simp only [hsectors]
  rw [Cache.setDefects, funext hline]

/-- Settles O28: UNMOUNT by the mount's state, a drain that goes on or ends at once; DEFECTS answers and then empties the list. -/
theorem unmountAndDefectsRequests : Obligations.UnmountAndDefectsRequests := by
  refine ⟨fun s tag h hfol => ?_, fun s tag b h hb => ?_⟩
  · have hkept := kept_doUnmount (s.entered 0x05#8 tag)
    obtain ⟨queued, hcard⟩ := doUnmount_card (s.entered 0x05#8 tag)
    have hlink := entered_answer_link s 0x05#8 tag .ok 0#8 []
    let b := (s.entered 0x05#8 tag).answer .ok 0#8 []
    refine ⟨_, _, exec_unmount_taken h tag, reacted_settle _ _, fun hm => ?_, fun hm => ?_, fun hm => ?_, fun hm => ?_,
      by rw [hcard]; rfl, by rw [hcard]; rfl, hkept.prof, hkept.inputs, hkept.powered.trans h.1, hkept.pending, hkept.options⟩
    · have hcode : s.mount.state.code = 0x00#8 := by rw [hm]; rfl
      rw [doUnmount_of_unmounted (s := s.entered 0x05#8 tag) hm, ← hcode]
      exact s.answers_of_entered 0x05#8 tag .wrongState s.mount.state.code []
    · rw [doUnmount_of_draining (s := s.entered 0x05#8 tag) hm]
      exact s.answers_of_entered 0x05#8 tag .ok 0#8 []
    · rw [doUnmount_of_mounted (s := s.entered 0x05#8 tag) hm]
      obtain ⟨hdrive, hrot, hcap, hidle, hwaiting, hforced, hpins, hlru, hram, -⟩ := enterDraining_both b
      refine ⟨?_, hdrive, hrot.trans (leaveMounted_rot (by decide) hfol.timer), ?_, hidle, hwaiting, hforced, hpins, hlru, hram, ?_,
        fun hn => ?_, fun hn hh hd => ?_⟩
      · exact enterDraining_hasReply hlink.1
      · exact (congrArg Capture.st hcap).trans (captureAbandon_st b)
      · exact fun ⟨i, l, x, hx, hst⟩ => Cache.nonClean_ne_zero_of hx ((SectorState.nonClean_iff _).2 hst)
      · rw [enterDraining_stays (s := b) hn]
        obtain ⟨hmount, hdefects, harmed, htag, hother, hwritten, hqueue⟩ := drains_spec b
        refine ⟨hmount, hdefects, harmed, htag, fun k l hno => hother k l ?_,
          fun i x hst hline hx => hwritten i _ x ⟨hst, hline, rfl⟩ hx, hqueue⟩
        exact fun ⟨hst, hline, hl⟩ => (hno k hst hline).elim (· rfl) (· hl)
      · rw [enterDraining_ends (s := b) hn hh hd]
        obtain ⟨hmount, hlines, hdefects, hqueue, harmed, hnotice⟩ := drains_endMount_spec b
        refine ⟨hmount, hlines, hdefects, hqueue, harmed, fun hmask hlen => hnotice ?_ (hlink.2.trans_lt hlen)⟩
        rw [State.answer_link, Link.answer_options]
        exact hmask
    · rw [doUnmount_of_lost (s := s.entered 0x05#8 tag) hm]
      refine ⟨Link.post_hasReply hlink.1 _, rfl, rfl, rfl, rfl, rfl, rfl, rfl, rfl, rfl, rfl, fun hmask hlen => ?_⟩
      refine Link.hasNotice_post _ (by simp) ?_ (hlink.2.trans_lt hlen)
      rw [State.answer_link, Link.answer_options]
      exact hmask
  · refine ⟨_, exec_defects_taken h tag b hb, ?_⟩
    let e := s.entered 0x09#8 tag
    let answered := e.answer .ok (byteOf s.cache.defects.length) (s.cache.defects.flatMap Defect.bytes)
    have hdo : e.doDefects [b] = { answered with cache := if b.getLsbD 0 then s.cache.setDefects s.geom [] else s.cache } := by
      change (if b.getLsbD 0 then _ else answered) = _
      cases b.getLsbD 0 <;> rfl
    rw [hdo]
    refine ⟨rfl, (s.answers_of_entered 0x09#8 tag .ok _ _).reply, fun h0 => by rw [h0]; rfl, fun h1 => ?_⟩
    rw [h1, ← Cache.setDefects_nil s.cache s.geom]
    rfl

end Sys2Proof.Machine
end

section
/-! PROOFS. Block transfers (08 R142, R145, R149): the step of a block boundary and of a failed attempt; STALE (03 R50, 08 R159). -/

namespace Sys2Proof.Machine

/-! ## The three commands of a block transfer -/

/-- The command `c` ends in what the reactions make of `u`. -/
def State.EndsIn (s : State) (c : Instr) (u : State) : Prop := ∃ t, exec c s = .next t ∧ Reacted s u t

theorem State.EndsIn.congr {s : State} {c : Instr} {u v : State} (h : s.EndsIn c u) (huv : u = v) : s.EndsIn c v := huv ▸ h

/-- The command that brings a failed attempt, and its error (R145). -/
def FailsWith (c : Instr) (e : RunError) : Prop := (c = .blockLimitExpiry ∧ e = .timeout) ∨ (c = .blockCardError ∧ e = .cardError)

/-- What a block of a run leaves in the card record and in the run, a fill's apart: the run has received one block more (R145). -/
def Run.gaining (r : Run) (data : List Byte) : Run :=
  { r with
    received := r.received + 1
    data := if r.kind = .panelRead then (List.range 512).map (byteAt data) else r.data }

/-- The state at the block boundary of a run that is no fill (R145). -/
def State.received (s : State) (r : Run) (data : List Byte) : State :=
  { s with card := { s.card with
      active := some (r.gaining data), mergeBuf := if r.kind = .mergeRead then data else s.card.mergeBuf } }

theorem handBlock_eq {r : Run} (hk : r.kind ≠ .fill) (s : State) (data : List Byte) :
    s.handBlock r data = ({ s with card := { s.card with mergeBuf := if r.kind = .mergeRead then data else s.card.mergeBuf } },
      { r with data := if r.kind = .panelRead then (List.range 512).map (byteAt data) else r.data }) := by
  obtain ⟨_, kind⟩ := r
  cases kind with
  | fill => exact absurd rfl hk
  | flush | mergeRead | panelRead | panelWrite => simp [State.handBlock]

theorem blockReceived_eq {s : State} {r : Run} (ha : s.card.active = some r) (hk : r.kind ≠ .fill) (data : List Byte) :
    s.blockReceived data = s.received r data := by
  simp only [State.blockReceived, ha, handBlock_eq hk, State.received, Run.gaining]

theorem blockDone_eq {s : State} {r : Run} (ha : s.card.active = some r) (hk : r.kind ≠ .fill) (data : List Byte) :
    s.blockDone data = (s.received r data).boundary (r.gaining data) := by
  rw [State.blockDone, blockReceived_eq ha hk]
  rfl

/-- A block of a run that is no fill changes no line, so that its reactions are those to the boundary (R71). -/
theorem endsIn_boundary {s : State} {r : Run} (hp : s.powered = true) (ha : s.card.active = some r) (hk : r.kind ≠ .fill)
    (data : List Byte) : s.EndsIn (.blockTransferDone data) ((s.received r data).boundary (r.gaining data)) := by
  refine ⟨_, ?_, reacted_settle s _⟩
  change execBlockTransferDone data s = _
  rw [execBlockTransferDone, whenPowered_present _ hp, State.transferEnds, if_pos (by rw [ha]; rfl), blockDone_eq ha hk,
    blockReceived_eq ha hk]
  rfl

theorem endsIn_attemptFails {s : State} {r : Run} {c : Instr} {e : RunError} (hp : s.powered = true) (ha : s.card.active = some r)
    (hf : FailsWith c e) : s.EndsIn c (s.attemptFails e) := by
  have htaken : (fun t : State => t.card.active.isSome) s = true := by simp [ha]
  refine ⟨_, ?_, reacted_settle s _⟩
  rcases hf with ⟨rfl, rfl⟩ | ⟨rfl, rfl⟩
  · change execBlockLimitExpiry s = _
    rw [execBlockLimitExpiry, whenPowered_present _ hp, settlingWhen_taken _ htaken]
  · change execBlockCardError s = _
    rw [execBlockCardError, whenPowered_present _ hp, settlingWhen_taken _ htaken]

/-- Without a run only the limit's timer stops (log 9). -/
theorem exec_transfer_of_no_run {s : State} (hp : s.powered = true) (ha : s.card.active = none) (data : List Byte) :
    exec (.blockTransferDone data) s = .next s ∧
      exec .blockLimitExpiry s = .next { s with card := { s.card with blockLimit := none } } ∧
      exec .blockCardError s = .next { s with card := { s.card with blockLimit := none } } := by
  have hnot : ¬ (fun t : State => t.card.active.isSome) s = true := by simp [ha]
  have hfails : ∀ e, s.attemptFails e = { s with card := { s.card with blockLimit := none } } := fun e => by
    simp only [State.attemptFails, ha]
  refine ⟨?_, ?_, ?_⟩
  · change execBlockTransferDone data s = _
    rw [execBlockTransferDone, whenPowered_present _ hp, State.transferEnds, if_neg hnot]
  · change execBlockLimitExpiry s = _
    rw [execBlockLimitExpiry, whenPowered_present _ hp, settlingWhen, if_neg hnot, hfails]
  · change execBlockCardError s = _
    rw [execBlockCardError, whenPowered_present _ hp, settlingWhen, if_neg hnot, hfails]

/-! ## The boundary of a run that is no fill (R145, R149) -/

theorem cancels_eq_runEnded {s : State} {r : Run} (hk : r.kind = .flush ∨ r.kind = .mergeRead) : s.cancels r = s.runEnded r := by
  rcases hk with hk | hk <;> simp only [State.cancels, hk]

theorem cancels_panel {s : State} {r : Run} (hk : r.kind = .panelRead ∨ r.kind = .panelWrite) : s.cancels r = false := by
  rcases hk with hk | hk <;> simp only [State.cancels, hk]

theorem boundary_cancelled {s : State} {r : Run} (h : s.cancels r = true) : s.boundary r = s.finishRun r .cancelled := if_pos h

theorem boundary_done {s : State} {r : Run} (h : s.cancels r = false) (hl : r.count ≤ r.base + r.received) :
    s.boundary r = s.runDone r := by
  rw [State.boundary, if_neg (by simp [h]), if_pos (show r.count ≤ r.delivered from hl)]

theorem boundary_goes_on {s : State} {r : Run} (h : s.cancels r = false) (hl : r.base + r.received < r.count) :
    s.boundary r = { s with card := { s.card with active := some r, blockLimit := some r.kind.limit } } := by
  rw [State.boundary, if_neg (by simp [h]), if_neg (show ¬ r.count ≤ r.delivered from Nat.not_le.2 hl)]

/-- The class of write-back work: DEMAND for the forced line (R148). -/
def State.writeClass (s : State) (r : Run) : RunClass := if r.line ≠ none ∧ s.cache.forced = r.line then .demand else .writeback

theorem runClass_write {s : State} {r : Run} (hk : r.kind = .flush ∨ r.kind = .mergeRead) : s.runClass r = s.writeClass r := by
  have hline : (r.line.isSome && s.cache.forced == r.line) = decide (r.line ≠ none ∧ s.cache.forced = r.line) := by
    rw [Bool.beq_eq_decide_eq]
    cases r.line <;> simp
  rcases hk with hk | hk <;> simp [State.runClass, State.writeClass, hk, hline]

theorem runClass_panel {s : State} {r : Run} (hk : r.kind = .panelRead ∨ r.kind = .panelWrite) : s.runClass r = .panel := by
  rcases hk with hk | hk <;> simp only [State.runClass, hk]

/-! ## STALE (R50, R159) -/

/-- An extent with storage holds a card block. -/
def Extent.Holds (e : Extent) (b : Nat) : Prop := e.skip = false ∧ e.start ≤ b ∧ b < e.start + e.count

theorem imageBlockIn_eq_some_iff (es : List Extent) (n b i : Nat) :
    imageBlockIn es n b = some i ↔ ∃ before e after, es = before ++ e :: after ∧ e.Holds b ∧ (∀ a ∈ before, ¬ a.Holds b) ∧
      i = n + ((before.map (fun a => a.count)).sum + (b - e.start)) := by
  induction es generalizing n with
  | nil => simp [imageBlockIn]
  | cons x xs ih =>
    have htest : (!x.skip && decide (x.start ≤ b) && decide (b < x.start + x.count)) = true ↔ x.Holds b := by
      simp [Extent.Holds, and_assoc]
    rw [imageBlockIn]
    by_cases hx : x.Holds b
    · rw [if_pos (htest.2 hx)]
      constructor
      · intro h
        exact ⟨[], x, xs, rfl, hx, by simp, by simpa using (Option.some.inj h).symm⟩
      · rintro ⟨before, e, after, heq, -, hnone, rfl⟩
        cases before with
        | nil =>
          obtain ⟨rfl, -⟩ := List.cons.inj heq
          simp
        | cons a rest =>
          obtain ⟨rfl, -⟩ := List.cons.inj heq
          exact absurd hx (hnone _ List.mem_cons_self)
    · rw [if_neg (fun h => hx (htest.1 h)), ih]
      constructor
      · rintro ⟨before, e, after, rfl, he, hnone, rfl⟩
        refine ⟨x :: before, e, after, rfl, he, fun a ha => ?_, by simp; omega⟩
        rcases List.mem_cons.1 ha with rfl | ha
        · exact hx
        · exact hnone a ha
      · rintro ⟨before, e, after, heq, he, hnone, rfl⟩
        cases before with
        | nil =>
          obtain ⟨rfl, -⟩ := List.cons.inj heq
          exact absurd he hx
        | cons a rest =>
          obtain ⟨rfl, rfl⟩ := List.cons.inj heq
          exact ⟨rest, e, after, rfl, he, fun k hk => hnone k (List.mem_cons_of_mem _ hk), by simp; omega⟩

/-- A test of some line that carries a track is a test of some line by number. -/
theorem Cache.any_line_iff (c : Cache) (p : Track → Line → Bool) :
    c.lines.any (fun ln => match ln.tag with | none => false | some tr => p tr ln) = true ↔
      ∃ k tr, (c.line k).tag = some tr ∧ p tr (c.line k) = true := by
  rw [List.any_eq_true]
  constructor
  · rintro ⟨ln, hmem, hp⟩
    obtain ⟨k, hk, rfl⟩ := List.getElem_of_mem hmem
    have hline : c.line k = c.lines[k] := by simp [Cache.line, List.getD_eq_getElem?_getD, hk]
    cases htag : c.lines[k].tag with
    | none => simp [htag] at hp
    | some tr => exact ⟨k, tr, hline ▸ htag, by simpa [htag, hline] using hp⟩
  · rintro ⟨k, tr, htag, hp⟩
    have hk := Cache.line_lt htag
    have hline : c.line k = c.lines[k] := by simp [Cache.line, List.getD_eq_getElem?_getD, hk]
    refine ⟨c.line k, hline ▸ List.getElem_mem hk, ?_⟩
    rw [htag]
    exact hp

theorem stale_iff (s : State) (blk : Nat) : s.stale blk = true ↔ s.mount.state ≠ .unmounted ∧
    ∃ before e after, s.mount.chain = before ++ e :: after ∧ e.Holds blk ∧ (∀ a ∈ before, ¬ a.Holds blk) ∧
      ∃ k tr l x, (s.cache.line k).tag = some tr ∧ s.cache.sector k l = some x ∧
        (x.state = .dirty ∨ x.state = .capture ∨ x.state = .flush) ∧
        s.geom.covers tr l ((before.map (fun a => a.count)).sum + (blk - e.start)) = true := by
  have hlines : ∀ i, s.cache.lines.any (fun ln => match ln.tag with
        | none => false
        | some tr => ln.sectors.zipIdx.any (fun (x, l) => x.state.nonClean && s.geom.covers tr l i)) = true ↔
      ∃ k tr l x, (s.cache.line k).tag = some tr ∧ s.cache.sector k l = some x ∧
        (x.state = .dirty ∨ x.state = .capture ∨ x.state = .flush) ∧ s.geom.covers tr l i = true := fun i => by
    refine (s.cache.any_line_iff (fun tr ln => ln.sectors.zipIdx.any fun (x, l) => x.state.nonClean && s.geom.covers tr l i)).trans ?_
    simp only [List.any_eq_true, Prod.exists, List.mem_zipIdx_iff_getElem?, Bool.and_eq_true, SectorState.nonClean_iff, Cache.sector]
    exact ⟨fun ⟨k, tr, ht, x, l, h⟩ => ⟨k, tr, l, x, ht, h⟩, fun ⟨k, tr, l, x, ht, h⟩ => ⟨k, tr, ht, x, l, h⟩⟩
  by_cases hm : s.mount.state = .unmounted
  · simp [State.stale, Mount.imageBlockOf, hm]
  · have hblock : s.mount.imageBlockOf blk = imageBlockIn s.mount.chain 0 blk := if_neg hm
    rw [State.stale, hblock]
    constructor
    · intro h
      cases hi : imageBlockIn s.mount.chain 0 blk with
      | none => simp [hi] at h
      | some i =>
        rw [hi] at h
        obtain ⟨before, e, after, hchain, he, hnone, rfl⟩ := (imageBlockIn_eq_some_iff _ _ _ _).1 hi
        rw [Nat.zero_add] at h
        exact ⟨hm, before, e, after, hchain, he, hnone, (hlines _).1 h⟩
    · rintro ⟨-, before, e, after, hchain, he, hnone, h⟩
      rw [(imageBlockIn_eq_some_iff _ 0 blk _).2 ⟨before, e, after, hchain, he, hnone, rfl⟩, Nat.zero_add]
      exact (hlines _).2 h

end Sys2Proof.Machine
end

section
/-! PROOFS. Runs that end DONE (08 R146, R153, R154, R156, R159, R160): what the cache, the mount table and the link make of a write run, a
merge read and a panel run. -/

namespace Sys2Proof.Machine

/-! ## Notices posted in a row -/

theorem Link.postAll_append (l : Link) (as bs : List NoticeBody) : l.postAll (as ++ bs) = (l.postAll as).postAll bs :=
  List.foldl_append

/-! ## A write run that is DONE, line by line (R83) -/

/-- The run `r` is one of line `i` and of the track `tr` that the line still carries. -/
def State.Carried (s : State) (r : Run) (i : Nat) (tr : Track) : Prop :=
  r.line = some i ∧ r.track = some tr ∧ (s.cache.line i).tag = some tr

theorem carries_iff (c : Cache) (i : Nat) (t : Option Track) : c.carries i t = true ↔ ∃ tr, t = some tr ∧ (c.line i).tag = some tr := by
  cases t <;> simp [Cache.carries]

theorem Cache.line_writeDone (c : Cache) (g : Geometry) (i k : Nat) (tr : Track) (r : Run) :
    (c.writeDone g i tr r).line k =
      if k = i then { c.line k with sectors := (c.line k).sectors.mapIdx (progressOf g tr r), failures := 0 } else c.line k := by
  rw [Cache.writeDone, Cache.line_modLine _ _ _ _ (.inl rfl), Cache.mapSectors, Cache.line_modLine _ _ _ _ (.inl rfl)]
  split <;> rfl

theorem Cache.sector_writeDone (c : Cache) (g : Geometry) (i l : Nat) (tr : Track) (r : Run) :
    (c.writeDone g i tr r).sector i l = (c.sector i l).map (progressOf g tr r l) := by
  rw [Cache.sector, Cache.line_writeDone, if_pos rfl, List.getElem?_mapIdx, Cache.sector]

/-- An image block is one of a run's. -/
def Run.Held (r : Run) (b : Nat) : Prop := ∃ f, r.firstImage = some f ∧ f ≤ b ∧ b < f + r.count

theorem Run.holds_iff (r : Run) (b : Nat) : r.holds b = true ↔ r.Held b := by
  unfold Run.holds Run.Held
  cases r.firstImage <;> simp

/-- A member of a DONE write run is CLEAN once each of its blocks is written, and its progress grows until then (R83). -/
theorem progressOf_spec (g : Geometry) (tr : Track) (r : Run) (l : Nat) (x : Sector) :
    let member := x.state = .flush ∧ (l, x.stamp) ∈ r.members
    let whole := ∀ p ∈ g.sectorBlocks tr l, r.Held p ∨ p ∈ x.progress
    (¬ member → progressOf g tr r l x = x) ∧
    (member → whole → progressOf g tr r l x = { x with state := .clean, progress := [] }) ∧
    (member → ¬ whole → ∃ y, progressOf g tr r l x = { x with progress := y } ∧
      ∀ p, p ∈ y ↔ p ∈ g.sectorBlocks tr l ∧ (r.Held p ∨ p ∈ x.progress)) := by
  intro member whole
  let grown := (g.sectorBlocks tr l).filter (fun b => r.holds b || x.progress.contains b)
  have hmember : (x.state = .flush ∧ r.members.contains (l, x.stamp) = true) ↔ member := by simp [member]
  have hgrown : ∀ p, p ∈ grown ↔ p ∈ g.sectorBlocks tr l ∧ (r.Held p ∨ p ∈ x.progress) := fun p => by
    simp [grown, Run.holds_iff]
  have hwhole : grown = g.sectorBlocks tr l ↔ whole := by
    simp [grown, whole, List.filter_eq_self, Run.holds_iff]
  refine ⟨fun h => if_neg (mt hmember.1 h), fun h hw => ?_, fun h hw => ⟨grown, ?_, hgrown⟩⟩
  · have hclean : progressOf g tr r l x = x.enter .clean := (if_pos (hmember.2 h)).trans (if_pos (hwhole.2 hw))
    rw [hclean, Sector.enter, if_neg (by rw [h.1]; decide)]
  · exact (if_pos (hmember.2 h)).trans (if_neg (mt hwhole.1 hw))

/-- The cache once it has taken a write run that is DONE (R83). -/
def State.writtenBack (s : State) (r : Run) : Cache :=
  match r.line, r.track with
  | some i, some tr => if s.cache.carries i r.track then s.cache.writeDone s.geom i tr r else s.cache
  | _, _ => s.cache

theorem writtenBack_carried {s : State} {r : Run} {i : Nat} {tr : Track} (h : s.Carried r i tr) :
    s.writtenBack r = s.cache.writeDone s.geom i tr r := by
  obtain ⟨hline, htrack, htag⟩ := h
  simp only [State.writtenBack, hline, htrack, if_pos ((carries_iff _ _ _).2 ⟨tr, rfl, htag⟩)]

/-- The line of a DONE write run: its failure count is 0 and the members' progress has grown, CLEAN when whole (R83). -/
theorem writtenBack_spec {s : State} {r : Run} {i : Nat} {tr : Track} (h : s.Carried r i tr) :
    (∀ k, k ≠ i → (s.writtenBack r).line k = s.cache.line k) ∧ ((s.writtenBack r).line i).tag = some tr ∧
    ((s.writtenBack r).line i).failures = 0 ∧
    ∀ l x, s.cache.sector i l = some x →
      let member := x.state = .flush ∧ (l, x.stamp) ∈ r.members
      let whole := ∀ p ∈ s.geom.sectorBlocks tr l, r.Held p ∨ p ∈ x.progress
      (¬ member → (s.writtenBack r).sector i l = some x) ∧
      (member → whole → (s.writtenBack r).sector i l = some { x with state := .clean, progress := [] }) ∧
      (member → ¬ whole → ∃ y, (s.writtenBack r).sector i l = some { x with progress := y } ∧
        ∀ p, p ∈ y ↔ p ∈ s.geom.sectorBlocks tr l ∧ (r.Held p ∨ p ∈ x.progress)) := by
  rw [writtenBack_carried h]
  refine ⟨fun k hk => by rw [Cache.line_writeDone, if_neg hk], ?_, ?_, fun l x hx => ?_⟩
  · rw [Cache.line_writeDone, if_pos rfl]
    exact h.2.2
  · rw [Cache.line_writeDone, if_pos rfl]
  · intro member whole
    obtain ⟨hno, hclean, hgrows⟩ := progressOf_spec s.geom tr r l x
    rw [Cache.sector_writeDone, hx, Option.map_some]
    refine ⟨fun h => congrArg some (hno h), fun h hw => congrArg some (hclean h hw), fun h hw => ?_⟩
    obtain ⟨y, hy, hmem⟩ := hgrows h hw
    exact ⟨y, congrArg some hy, hmem⟩

theorem writtenBack_not_carried {s : State} {r : Run} (h : ∀ i tr, ¬ s.Carried r i tr) : s.writtenBack r = s.cache := by
  unfold State.writtenBack
  split
  · rename_i i tr hline htrack
    refine if_neg fun hc => ?_
    obtain ⟨tr', ht, htag⟩ := (carries_iff _ _ _).1 hc
    exact h i tr' ⟨hline, ht, htag⟩
  · rfl

theorem writtenBack_lines (s : State) (r : Run) : s.writtenBack r = { s.cache with lines := (s.writtenBack r).lines } := by
  unfold State.writtenBack
  split
  · split <;> rfl
  · rfl

/-! ## FLUSH_DONE, EXTENT_REACHED and the end of a drain, in this order (log 14) -/

theorem flushDoneCheck_eq (s : State) : s.flushDoneCheck = { s with
    cache := { s.cache with armed := if s.cache.nonClean = 0 then false else s.cache.armed }
    link := s.link.postAll (if s.cache.armed = true ∧ s.cache.nonClean = 0 then [.flushDone true] else []) } := by
  unfold State.flushDoneCheck State.postFlushDone
  by_cases hn : s.cache.nonClean = 0
  · cases ha : s.cache.armed with
    | true => simp [hn, State.post, Link.postAll]
    | false =>
      have hkeep : ({ s.cache with armed := false } : Cache) = s.cache := by rw [← ha]
      simp [hn, Link.postAll, hkeep]
  · simp [hn, Link.postAll]

/-- EXTENT_REACHED for the extent of a run, where it carries NOTIFY (R59). -/
def State.reachedBy (s : State) (r : Run) : List NoticeBody :=
  match r.extent with
  | none => []
  | some e =>
    match s.mount.chain[e]? with
    | none => []
    | some x => if x.notify then [NoticeBody.extentReached s.mount.serial (1#64 <<< e)] else []

theorem extentReached_eq (s : State) (r : Run) : s.extentReached r = { s with link := s.link.postAll (s.reachedBy r) } := by
  unfold State.extentReached State.reachedBy
  cases r.extent with
  | none => rfl
  | some e =>
    cases hx : s.mount.chain[e]? with
    | none =>
      simp only [hx]
      rfl
    | some x =>
      simp only [hx]
      cases x.notify <;> rfl

/-- The notices with which a write run ends DONE, but for the end of a drain. -/
def State.writeNotices (s : State) (r : Run) : List NoticeBody :=
  (if s.cache.armed = true ∧ (s.writtenBack r).nonClean = 0 then [.flushDone true] else []) ++ s.reachedBy r

/-- The state after a write run that is DONE, but for the end of a drain. -/
def State.writeDelivered (s : State) (r : Run) : State :=
  { s with
    cache := { s.writtenBack r with armed := if (s.writtenBack r).nonClean = 0 then false else s.cache.armed }
    link := s.link.postAll (s.writeNotices r) }

theorem flushRunDone_eq {s : State} {r : Run} (h : s.runEnded r = false) : s.flushRunDone r = (s.writeDelivered r).drainCheck := by
  have harmed : (s.writtenBack r).armed = s.cache.armed := by rw [writtenBack_lines]
  have hwritten : s.flushRunDone r = ((({ s with cache := s.writtenBack r } : State).flushDoneCheck).extentReached r).drainCheck := by
    rw [State.flushRunDone, if_neg (by simp [h]), State.writtenBack]
    cases r.line with
    | none => rfl
    | some i =>
      cases r.track with
      | none => rfl
      | some tr => simp only; split <;> rfl
  rw [hwritten, flushDoneCheck_eq, extentReached_eq, State.writeDelivered, State.writeNotices, Link.postAll_append]
  simp only [harmed]
  rfl

/-- A drain goes on while a sector is non-clean, and no other mount ends with a write run (R53). -/
theorem drainCheck_stays {s : State} (h : s.mount.state ≠ .draining ∨ s.cache.nonClean ≠ 0) : s.drainCheck = s :=
  if_neg fun ⟨hd, hn⟩ => h.elim (· hd) (· hn)

theorem drainCheck_ends {s : State} (hd : s.mount.state = .draining) (hn : s.cache.nonClean = 0) : s.drainCheck = s.endMount 0 :=
  if_pos ⟨hd, hn⟩

theorem writeDelivered_stays {s : State} {r : Run} (h : s.mount.state ≠ .draining ∨ (s.writtenBack r).nonClean ≠ 0) :
    (s.writeDelivered r).drainCheck = s.writeDelivered r := drainCheck_stays h

theorem writeDelivered_ends {s : State} {r : Run} (hd : s.mount.state = .draining) (hn : (s.writtenBack r).nonClean = 0) :
    (s.writeDelivered r).drainCheck = { s with
      cache := { s.writtenBack r with
        lines := (s.writtenBack r).lines.map (fun _ => Line.free), flushQ := [], defects := [], idleTimer := none, waiting := none
        forced := none, armed := false }
      mount := Mount.cleared s.mount.serial
      drive := { s.drive with latch := true }
      link := s.link.postAll (s.writeNotices r ++ [.mountState .unmounted 0]) } := by
  rw [drainCheck_ends (by exact hd) (by exact hn), Link.postAll_append]
  rfl

/-! ## The runs of a mount that end DONE -/

/-- The card record once the active run has ended, its failures in a row being `n` (R146). -/
def State.cardEnded (s : State) (r : Run) (st : RunStatus) (n : Nat) : Card :=
  { s.card with active := none, blockLimit := none, failCount := n, lastRun := some { r with cls := s.runClass r, status := st } }

theorem received_runDone (s : State) (r : Run) (data : List Byte) :
    (s.received r data).runDone (r.gaining data) = ({ s with card := { s.cardEnded (r.gaining data) .done 0 with
      mergeBuf := if r.kind = .mergeRead then data else s.card.mergeBuf } } : State).handDone (r.gaining data) := rfl

theorem Run.gaining_of_no_read {r : Run} (h : r.kind ≠ .panelRead) (data : List Byte) :
    r.gaining data = { r with received := r.received + 1 } := by
  simp only [Run.gaining, if_neg h]

theorem cancels_received (s : State) {r : Run} (hk : r.kind = .flush ∨ r.kind = .mergeRead) (data : List Byte) :
    (s.received r data).cancels (r.gaining data) = s.runEnded r := cancels_eq_runEnded hk

theorem gaining_goes_on {s : State} {r : Run} {data : List Byte} (hc : (s.received r data).cancels (r.gaining data) = false)
    (hl : r.base + r.received + 1 < r.count) : (s.received r data).boundary (r.gaining data) =
      { s.received r data with card := { (s.received r data).card with
        active := some (r.gaining data), blockLimit := some r.kind.limit } } := boundary_goes_on hc hl

theorem gaining_done {s : State} {r : Run} {data : List Byte} (hc : (s.received r data).cancels (r.gaining data) = false)
    (hl : r.count ≤ r.base + r.received + 1) : (s.received r data).boundary (r.gaining data) =
      ({ s with card := { s.cardEnded (r.gaining data) .done 0 with
        mergeBuf := if r.kind = .mergeRead then data else s.card.mergeBuf } } : State).handDone (r.gaining data) :=
  (boundary_done hc hl).trans (received_runDone s r data)

theorem handDone_flush {s : State} {r : Run} (hk : r.kind = .flush) : s.handDone r = s.flushRunDone r := by
  simp only [State.handDone, hk]

theorem handDone_mergeRead {s : State} {r : Run} (hk : r.kind = .mergeRead) : s.handDone r = s.mergeReadDone r := by
  simp only [State.handDone, hk]

theorem handDone_panelRead {s : State} {r : Run} (hk : r.kind = .panelRead) :
    s.handDone r = s.answerPanel .ok (flagByte [s.stale r.start]) r.data := by
  simp only [State.handDone, hk]

theorem handDone_panelWrite {s : State} {r : Run} (hk : r.kind = .panelWrite) : s.handDone r = s.answerPanel .ok 0#8 [] := by
  simp only [State.handDone, hk]

/-- A write run that stands and has blocks left goes on (R145). -/
theorem flush_goes_on {s : State} {r : Run} (hp : s.powered = true) (ha : s.card.active = some r) (hk : r.kind = .flush)
    (hr : s.runEnded r = false) (hl : r.base + r.received + 1 < r.count) (data : List Byte) :
    s.EndsIn (.blockTransferDone data) { s with card := { s.card with
      active := some { r with received := r.received + 1 }, blockLimit := some 6000000 } } := by
  have h := endsIn_boundary hp ha (by simp [hk]) data
  rw [gaining_goes_on ((cancels_received s (.inl hk) data).trans hr) hl, Run.gaining_of_no_read (by simp [hk])] at h
  have hlimit : RunKind.flush.limit = 6000000 := rfl
  simpa [State.received, hk, hlimit] using h

/-- A write run that stands ends DONE after its last block (R156). -/
theorem flush_ends_done {s : State} {r : Run} (hp : s.powered = true) (ha : s.card.active = some r) (hk : r.kind = .flush)
    (hr : s.runEnded r = false) (hl : r.count ≤ r.base + r.received + 1) (data : List Byte) :
    s.EndsIn (.blockTransferDone data)
      (({ s with card := s.cardEnded { r with received := r.received + 1 } .done 0 } : State).writeDelivered r).drainCheck := by
  have h := endsIn_boundary hp ha (by simp [hk]) data
  have hd : ∀ t : State, t.runEnded r = false →
      t.handDone { r with received := r.received + 1 } = (t.writeDelivered r).drainCheck := fun t ht =>
    (handDone_flush hk).trans (flushRunDone_eq ht)
  rw [gaining_done ((cancels_received s (.inl hk) data).trans hr) hl, Run.gaining_of_no_read (by simp [hk]), hd _ (by exact hr),
    if_neg (by simp [hk])] at h
  exact h

end Sys2Proof.Machine
end

section
/-! PROOFS. Merge reads and panel runs that end DONE, dropped replies, and runs of an ended mount (08 R146, R149, R153, R159, R160,
09 R175). -/

namespace Sys2Proof.Machine

/-! ## A merge read that is DONE (R153) -/

/-- The mount is MOUNTED or DRAINING. -/
def State.Stands (s : State) : Prop := s.mount.state = .mounted ∨ s.mount.state = .draining

theorem mountStands_iff (s : State) : s.mountStands = true ↔ s.Stands := by simp [State.mountStands, State.Stands]

theorem mountStands_eq_false_iff (s : State) : s.mountStands = false ↔ ¬ s.Stands := by rw [← mountStands_iff, Bool.not_eq_true]

theorem writesBack_iff (s : State) : s.writesBack = true ↔ s.Stands := by simp [State.writesBack, State.Stands]

/-- A run that is no write run does not count among the write runs of the slots: they stay as they are when it leaves the active slot. -/
theorem writeRuns_of_leaving {s : State} {r : Run} (ha : s.card.active = some r) (hk : r.kind ≠ .flush) {c : Card}
    (hc : c.active = none) (hq : c.queued = s.card.queued) : ({ s with card := c } : State).writeRuns = s.writeRuns := by
  have hruns : ∀ rs : List Run,
      (rs.filter (fun r => !r.kind.isPanel && !({ s with card := c } : State).runEnded r)).filter (·.kind == .flush) =
      (rs.filter (fun r => !r.kind.isPanel && !s.runEnded r)).filter (·.kind == .flush) := fun _ => rfl
  have hnot : (r.kind == .flush) = false := by simp [hk]
  simp only [State.writeRuns, State.mountRuns, Card.runs, hc, hq, ha, hruns, Option.toList_none, Option.toList_some, List.nil_append,
    List.singleton_append, List.filter_cons]
  split <;> simp [hnot]

theorem makeFlush_card (s : State) (cls : RunClass) (i blk n : Nat) (buf : Option (List Byte)) :
    (s.makeFlush cls i blk n buf).1.card = s.card := by
  unfold State.makeFlush
  split <;> rfl

theorem makeFlush_kind (s : State) (cls : RunClass) (i blk n : Nat) (buf : Option (List Byte)) :
    (s.makeFlush cls i blk n buf).2.kind = .flush := by
  unfold State.makeFlush
  split <;> rfl

/-- The card record after a merge read that is DONE: its block has left the merge buffer. -/
def State.mergeEnded (s : State) (r : Run) : Card :=
  { s.cardEnded { r with received := r.received + 1 } .done 0 with mergeBuf := [] }

/-- The outcome of a merge read that is DONE: its write run in the active slot while its block is write-back work. -/
def State.mergeRewritten (s : State) (r : Run) (i blk : Nat) (data : List Byte) : State :=
  let t : State := { s with card := s.mergeEnded r }
  let w := t.makeFlush (s.writeClass r) i blk 1 (some data)
  if s.writesBack && s.cache.carries i r.track && s.writeWork i blk then w.1.start w.2 else t

theorem mergeReadDone_at (s : State) {r : Run} {i blk : Nat} (hline : r.line = some i) (hfirst : r.firstImage = some blk) :
    s.mergeReadDone r =
      let t : State := { s with card := { s.card with mergeBuf := [] } }
      let w := t.makeFlush (t.runClass r) i blk 1 (some s.card.mergeBuf)
      if !t.runEnded r && t.writesBack && t.cache.carries i r.track && t.writeWork i blk then w.1.start w.2 else t := by
  simp only [State.mergeReadDone, hline, hfirst]

theorem mergeReadDone_eq {s : State} {r : Run} {i blk : Nat} (ha : s.card.active = some r) (hk : r.kind = .mergeRead)
    (hr : s.runEnded r = false) (hline : r.line = some i) (hfirst : r.firstImage = some blk) (data : List Byte) :
    ({ s with card := { s.cardEnded { r with received := r.received + 1 } .done 0 with mergeBuf := data } } : State).mergeReadDone
      { r with received := r.received + 1 } = s.mergeRewritten r i blk data := by
  let t : State := { s with card := s.mergeEnded r }
  let gained : Run := { r with received := r.received + 1 }
  have hwork : t.writeWork i blk = s.writeWork i blk :=
    congrArg (fun rs => s.cache.isWriteWork s.geom rs i blk) (writeRuns_of_leaving (c := s.mergeEnded r) ha (by simp [hk]) rfl rfl)
  have hclass : t.runClass gained = s.writeClass r := runClass_write (s := s) (.inr hk)
  have hnot : t.runEnded gained = false := hr
  rw [mergeReadDone_at _ (r := gained) hline hfirst]
  change (if !t.runEnded gained && t.writesBack && t.cache.carries i r.track && t.writeWork i blk then
    (t.makeFlush (t.runClass gained) i blk 1 (some data)).1.start (t.makeFlush (t.runClass gained) i blk 1 (some data)).2 else t) = _
  rw [hnot, hclass, hwork]
  rfl

theorem mergeRead_ends_done {s : State} {r : Run} {i blk : Nat} (hp : s.powered = true) (ha : s.card.active = some r)
    (hk : r.kind = .mergeRead) (hr : s.runEnded r = false) (hl : r.count ≤ r.base + r.received + 1) (hline : r.line = some i)
    (hfirst : r.firstImage = some blk) (data : List Byte) :
    s.EndsIn (.blockTransferDone data) (s.mergeRewritten r i blk data) := by
  have h := endsIn_boundary hp ha (by simp [hk]) data
  rw [gaining_done ((cancels_received s (.inr hk) data).trans hr) hl, Run.gaining_of_no_read (by simp [hk]), if_pos hk] at h
  exact mergeReadDone_eq ha hk hr hline hfirst data ▸ handDone_mergeRead (r := { r with received := r.received + 1 }) hk ▸ h

theorem mergeRewritten_written {s : State} {r : Run} {i blk : Nat} (hst : s.Stands) (hc : ∃ tr, s.Carried r i tr)
    (hw : s.writeWork i blk = true) (data : List Byte) :
    let w := ({ s with card := s.mergeEnded r } : State).makeFlush (s.writeClass r) i blk 1 (some data)
    s.mergeRewritten r i blk data = { w.1 with card := { s.mergeEnded r with
      active := some { w.2 with status := .inProgress }, blockLimit := some 6000000 } } := by
  intro w
  obtain ⟨tr, -, htrack, htag⟩ := hc
  have hlimit : w.2.kind.limit = 6000000 := by rw [makeFlush_kind]; rfl
  have hcard : w.1.card = s.mergeEnded r := makeFlush_card _ _ _ _ _ _
  have htaken : (s.writesBack && s.cache.carries i r.track && s.writeWork i blk) = true := by
    simp [(writesBack_iff s).2 hst, (carries_iff s.cache i r.track).2 ⟨tr, htrack, htag⟩, hw]
  refine (if_pos htaken).trans ?_
  change w.1.start w.2 = _
  rw [State.start, hlimit, hcard]

theorem mergeRewritten_dropped {s : State} {r : Run} {i blk : Nat} (hline : r.line = some i)
    (h : ¬ (s.Stands ∧ (∃ tr, s.Carried r i tr) ∧ s.writeWork i blk = true)) (data : List Byte) :
    s.mergeRewritten r i blk data = { s with card := s.mergeEnded r } := by
  refine if_neg fun hall => h ?_
  simp only [Bool.and_eq_true, writesBack_iff, carries_iff] at hall
  obtain ⟨⟨hst, tr, htrack, htag⟩, hw⟩ := hall
  exact ⟨hst, ⟨tr, hline, htrack, htag⟩, hw⟩

/-! ## Panel runs (R159, R160, R175) -/

/-- The card record once a panel run has ended: its work has left the card too (R146, R159, R160). -/
def State.panelEnded (s : State) (r : Run) (st : RunStatus) (n : Nat) : Card :=
  { s.card with active := none, blockLimit := none, panel := none, failCount := n, lastRun := some { r with cls := .panel, status := st } }

theorem cardEnded_panel {s : State} {r : Run} (hk : r.kind = .panelRead ∨ r.kind = .panelWrite) (st : RunStatus) (n : Nat) :
    ({ s.cardEnded r st n with panel := none } : Card) = s.panelEnded r st n := by
  rw [State.cardEnded, runClass_panel hk]
  rfl

theorem panel_ends_done {s : State} {r : Run} (hp : s.powered = true) (ha : s.card.active = some r)
    (hk : r.kind = .panelRead ∨ r.kind = .panelWrite) (hl : r.count ≤ r.base + r.received + 1) (data : List Byte) :
    s.EndsIn (.blockTransferDone data) { s with
      card := s.panelEnded (r.gaining data) .done 0
      link := s.link.answer .ok (if r.kind = .panelRead then flagByte [s.stale r.start] else 0#8)
        (if r.kind = .panelRead then (List.range 512).map (byteAt data) else []) } := by
  have hno : r.kind ≠ .fill ∧ r.kind ≠ .mergeRead := by rcases hk with hk | hk <;> simp [hk]
  have h := endsIn_boundary hp ha hno.1 data
  rw [gaining_done (cancels_panel hk) hl, if_neg hno.2] at h
  rw [← cardEnded_panel (r := r.gaining data) hk]
  have hanswer : ∀ t : State, t.stale = s.stale → t.handDone (r.gaining data) =
      t.answerPanel .ok (if r.kind = .panelRead then flagByte [s.stale r.start] else 0#8)
        (if r.kind = .panelRead then (List.range 512).map (byteAt data) else []) := fun t ht => by
    rcases hk with hk | hk
    · rw [handDone_panelRead (show (r.gaining data).kind = .panelRead from hk), ht]
      simp only [Run.gaining, if_pos hk]
    · rw [handDone_panelWrite (show (r.gaining data).kind = .panelWrite from hk)]
      simp [hk]
  rw [hanswer _ (by exact rfl)] at h
  exact h

theorem flagByte_one (b : Bool) : flagByte [b] = if b then 0x01#8 else 0x00#8 := by cases b <;> rfl

/-- The reply of a panel run that is done is made in the same step. -/
theorem panel_done_replies {s : State} {r : Run} {q : Request} (hp : s.powered = true) (ha : s.card.active = some r)
    (hk : r.kind = .panelRead ∨ r.kind = .panelWrite) (hl : r.count ≤ r.base + r.received + 1) (hq : s.link.executing = some q)
    (hm : q.made = false) (hd : q.drop = false) (data : List Byte) :
    ∃ u, s.EndsIn (.blockTransferDone data) u ∧ u = { s with card := u.card, link := u.link } ∧
      u.card = s.panelEnded (r.gaining data) .done 0 ∧
      u.link.hasReply (0x80#8 + q.kind) q.tag (0x00#8 :: (if r.kind = .panelRead then flagByte [s.stale r.start] else 0#8) ::
        (if r.kind = .panelRead then (List.range 512).map (byteAt data) else [])) :=
  ⟨_, panel_ends_done hp ha hk hl data, rfl, rfl, Link.answer_hasReply hq hm hd _ _ _⟩

/-- The link of a request whose reply a link break has marked: it leaves execution unanswered (R175). -/
theorem Link.answer_dropped {l : Link} {q : Request} (hq : l.executing = some q) (hm : q.made = false) (hd : q.drop = true)
    (st : ReplyStatus) (d : Byte) (bs : List Byte) : l.answer st d bs = { l with executing := none } := by
  simp [Link.answer, hq, hm, hd]

/-! ## Failures with fewer than three in a row before (R142, R155 to R157) -/

theorem attemptFails_few {s : State} {r : Run} (ha : s.card.active = some r) (hn : s.card.failCount < 3)
    (hk : r.kind ≠ .fill ∨ r.attempt ≠ 1) (e : RunError) :
    s.attemptFails e = ({ s with card := s.cardEnded r (.failed e) (s.card.failCount + 1) } : State).handFailure r e := by
  simp only [State.attemptFails, ha, if_neg (Nat.not_le.2 hn)]
  exact if_neg fun ⟨hf, h1⟩ => hk.elim (· hf) (· h1)

theorem attemptFails_retry {s : State} {r : Run} (ha : s.card.active = some r) (hn : s.card.failCount < 3)
    (hk : r.kind = .fill) (h1 : r.attempt = 1) (hw : s.workRemains r (r.base + r.received) = true) (e : RunError) :
    s.attemptFails e = { s with card := { s.card with
      failCount := s.card.failCount + 1
      active := some { r with attempt := 2, base := r.base + r.received, received := 0 }, blockLimit := some 2400000 } } := by
  have hlimit : r.kind.limit = 2400000 := by rw [hk]; rfl
  simp only [State.attemptFails, ha, if_neg (Nat.not_le.2 hn), if_pos (And.intro hk h1)]
  refine (if_pos (show (s.setFailures _).workRemains r r.delivered = true from hw)).trans ?_
  rw [hlimit]
  rfl

theorem handFailure_panel {s : State} {r : Run} (hk : r.kind = .panelRead ∨ r.kind = .panelWrite) (e : RunError) :
    s.handFailure r e = s.answerPanel .cardFault e.code [] := by
  rcases hk with hk | hk <;> simp only [State.handFailure, hk]

/-- A panel run that fails answers its request (R159, R160). -/
theorem panel_ends_failed {s : State} {r : Run} {c : Instr} {e : RunError} (hp : s.powered = true) (ha : s.card.active = some r)
    (hk : r.kind = .panelRead ∨ r.kind = .panelWrite) (hf : FailsWith c e) (hn : s.card.failCount < 3) :
    s.EndsIn c { s with
      card := s.panelEnded r (.failed e) (s.card.failCount + 1)
      link := s.link.answer .cardFault e.code [] } := by
  have h := endsIn_attemptFails hp ha hf
  rw [attemptFails_few ha hn (.inl (by rcases hk with hk | hk <;> simp [hk])), handFailure_panel hk] at h
  rw [← cardEnded_panel hk]
  exact h

/-! ## Runs of an ended mount (R146, R149, log 44) -/

theorem ended_cancelled {s : State} {r : Run} (hp : s.powered = true) (ha : s.card.active = some r)
    (hk : r.kind = .flush ∨ r.kind = .mergeRead) (hr : s.runEnded r = true) (data : List Byte) :
    s.EndsIn (.blockTransferDone data) { s with card :=
      { s.cardEnded { r with received := r.received + 1 } .cancelled s.card.failCount with
        mergeBuf := if r.kind = .mergeRead then data else s.card.mergeBuf } } := by
  have hno : r.kind ≠ .fill ∧ r.kind ≠ .panelRead := by rcases hk with hk | hk <;> simp [hk]
  have h := endsIn_boundary hp ha hno.1 data
  rw [boundary_cancelled ((cancels_received s hk data).trans hr), Run.gaining_of_no_read hno.2] at h
  exact h

theorem ended_failed {s : State} {r : Run} {c : Instr} {e : RunError} (hp : s.powered = true) (ha : s.card.active = some r)
    (hk : r.kind = .flush ∨ r.kind = .mergeRead) (hr : s.runEnded r = true) (hf : FailsWith c e) (hn : s.card.failCount < 3) :
    s.EndsIn c { s with card := { s.cardEnded r (.failed e) (s.card.failCount + 1) with
      mergeBuf := if r.kind = .mergeRead then [] else s.card.mergeBuf } } := by
  have h := endsIn_attemptFails hp ha hf
  rw [attemptFails_few ha hn (.inl (by rcases hk with hk | hk <;> simp [hk]))] at h
  rcases hk with hk | hk
  · have hsame : ∀ t : State, t.runEnded r = true → t.handFailure r e = t := fun t ht => by
      simp only [State.handFailure, hk, State.flushFailed, if_pos ht]
    rw [hsame _ (by exact hr)] at h
    rw [if_neg (by simp [hk])]
    exact h
  · have hempty : ∀ t : State, t.runEnded r = true →
        t.handFailure r e = { t with card := { t.card with mergeBuf := [] } } := fun t ht => by
      simp only [State.handFailure, hk, State.mergeFailed]
      exact if_pos ht
    rw [hempty _ (by exact hr)] at h
    rw [if_pos hk]
    exact h

end Sys2Proof.Machine
end

section
/-! PROOFS. Notices posted in a row (R172), sectors made DIRTY, and the entry to LOST (03 R56, 04 R79, R81). -/

namespace Sys2Proof.Machine

/-! ## Notices posted one after another -/

theorem Link.startTx_hasNotice {l : Link} {b : NoticeBody} (h : l.hasNotice b) : l.startTx.hasNotice b := by
  rcases l.startTx_cases with e | ⟨r, rest, htx, hr, e⟩ | ⟨n, rest, htx, hr, hn, e⟩
  · rwa [e]
  · rw [e]
    rcases h with h | ⟨f, d, hf, -⟩
    · exact .inl h
    · rw [htx] at hf
      exact absurd hf (by simp)
  · rw [e]
    rcases h with ⟨m, hm, hb⟩ | ⟨f, d, hf, -⟩
    · rw [hn] at hm
      rcases List.mem_cons.1 hm with rfl | hm
      · exact .inr ⟨_, m.dropped, rfl, by rw [← hb]⟩
      · exact .inl ⟨m, hm, hb⟩
    · rw [htx] at hf
      exact absurd hf (by simp)

theorem Link.enqueue_hasNotice {l : Link} {b : NoticeBody} (h : l.hasNotice b) (b' : NoticeBody) : (l.enqueue b').hasNotice b := by
  unfold Link.enqueue
  split
  · exact Link.startTx_hasNotice (h.imp (fun ⟨n, hn, hb⟩ => ⟨n, List.mem_append_left _ hn, hb⟩) id)
  · exact h

/-- A notice that waits stays until it has been sent: only an EXTENT_REACHED is merged with another (R60, R172). -/
theorem Link.post_hasNotice {l : Link} {b : NoticeBody} (hb : ∀ m set, b ≠ .extentReached m set) (h : l.hasNotice b)
    (b' : NoticeBody) : (l.post b').hasNotice b := by
  unfold Link.post
  split
  · exact h
  · split
    · split
      · rename_i m set _
        refine h.imp (fun ⟨n, hn, hbody⟩ => ⟨n, List.mem_map.2 ⟨n, hn, if_neg ?_⟩, hbody⟩) id
        cases hx : n.body with
        | extentReached k old => exact absurd (hbody.symm.trans hx) (hb k old)
        | _ => simp [Notice.isExtentOf, hx]
      · exact Link.enqueue_hasNotice h _
    · exact Link.enqueue_hasNotice h _

theorem Link.post_notices_length (l : Link) (b : NoticeBody) : (l.post b).notices.length ≤ l.notices.length + 1 := by
  have enq : (l.enqueue b).notices.length ≤ l.notices.length + 1 := by
    unfold Link.enqueue
    split
    · exact (Link.startTx_bounds _).1.trans (by simp)
    · exact Nat.le_succ _
  unfold Link.post
  split
  · exact Nat.le_succ _
  · split
    · split
      · simp
      · exact enq
    · exact enq

theorem Link.postAll_hasNotice {l : Link} {b : NoticeBody} (hb : ∀ m set, b ≠ .extentReached m set) (h : l.hasNotice b)
    (bs : List NoticeBody) : (l.postAll bs).hasNotice b :=
  foldl_preserves (fun l => Link.hasNotice l b) Link.post bs l h (fun _ b' _ hl => Link.post_hasNotice hb hl b')

theorem Link.postAll_hasReply {l : Link} {k t : Byte} {p : List Byte} (h : l.hasReply k t p) (bs : List NoticeBody) :
    (l.postAll bs).hasReply k t p :=
  foldl_preserves (fun l => Link.hasReply l k t p) Link.post bs l h (fun _ b' _ hl => Link.post_hasReply hl b')

theorem Link.postAll_options (l : Link) (bs : List NoticeBody) : (l.postAll bs).options = l.options :=
  foldl_preserves (fun x => x.options = l.options) Link.post bs l rfl (fun x b' _ hx => (x.post_options b').trans hx)

theorem Link.postAll_executing (l : Link) (bs : List NoticeBody) : (l.postAll bs).executing = l.executing :=
  foldl_preserves (fun x => x.executing = l.executing) Link.post bs l rfl (fun x b' _ hx => (x.post_executing b').trans hx)

theorem Link.postAll_notices_length (l : Link) (bs : List NoticeBody) : (l.postAll bs).notices.length ≤ l.notices.length + bs.length := by
  induction bs generalizing l with
  | nil => exact le_refl _
  | cons b bs ih =>
    refine (ih (l.post b)).trans ?_
    have := l.post_notices_length b
    simp only [List.length_cons]
    omega

/-- Every notice of a row finds its place while there is room for all of them. -/
theorem Link.postAll_brings {l : Link} {b : NoticeBody} {bs : List NoticeBody} (hb : ∀ m set, b ≠ .extentReached m set) (hmem : b ∈ bs)
    (hm : l.options.noticeMask.getLsbD (b.code - 1) = true) (hl : l.notices.length + bs.length ≤ 16) : (l.postAll bs).hasNotice b := by
  obtain ⟨as, cs, rfl⟩ := List.append_of_mem hmem
  have hlen := l.postAll_notices_length as
  rw [Link.postAll_append]
  refine Link.postAll_hasNotice (l := (l.postAll as).post b) hb (Link.hasNotice_post b hb ?_ ?_) cs
  · rwa [Link.postAll_options]
  · simp only [List.length_append, List.length_cons] at hl
    omega

/-! ## Sectors made DIRTY -/

theorem Sector.enter_enter_dirty (x : Sector) : (x.enter .dirty).enter .dirty = x.enter .dirty := if_pos (Sector.enter_state x _)

/-- A line of which some sectors have been made DIRTY and the pin may have been taken. -/
structure Line.Dirtied (a b : Line) : Prop where
  tag : b.tag = a.tag
  failures : b.failures = a.failures
  sector : ∀ (l : Nat) (x : Sector), a.sectors[l]? = some x → b.sectors[l]? = some x ∨ b.sectors[l]? = some (x.enter .dirty)

/-- Lines of which some sectors have been made DIRTY. -/
structure Cache.Dirtied (c d : Cache) : Prop where
  length : d.lines.length = c.lines.length
  line : ∀ k, (c.line k).Dirtied (d.line k)

theorem Line.Dirtied.refl (a : Line) : a.Dirtied a := ⟨rfl, rfl, fun _ _ h => .inl h⟩

theorem Line.Dirtied.trans {a b c : Line} (h : a.Dirtied b) (h' : b.Dirtied c) : a.Dirtied c where
  tag := h'.tag.trans h.tag
  failures := h'.failures.trans h.failures
  sector l x hx := by
    rcases h.sector l x hx with hb | hb
    · exact h'.sector l x hb
    · rcases h'.sector l _ hb with hc | hc
      · exact .inr hc
      · exact .inr (by rw [hc, Sector.enter_enter_dirty])

theorem Cache.Dirtied.refl (c : Cache) : c.Dirtied c := ⟨rfl, fun _ => .refl _⟩

theorem Cache.Dirtied.trans {c d e : Cache} (h : c.Dirtied d) (h' : d.Dirtied e) : c.Dirtied e :=
  ⟨h'.length.trans h.length, fun k => (h.line k).trans (h'.line k)⟩

theorem Cache.Dirtied.sector {c d : Cache} (h : c.Dirtied d) {k l : Nat} {x : Sector} (hx : c.sector k l = some x) :
    d.sector k l = some x ∨ d.sector k l = some (x.enter .dirty) := (h.line k).sector l x hx

theorem Cache.Dirtied.of_dirty {c d : Cache} (h : c.Dirtied d) {k l : Nat} {x : Sector} (hx : c.sector k l = some x)
    (hd : x.state = .dirty) : d.sector k l = some x := by
  rcases h.sector hx with hy | hy
  · exact hy
  · rwa [Sector.enter, if_pos hd] at hy

theorem Cache.Dirtied.modLine (c : Cache) (i : Nat) {f : Line → Line} (hfree : f Line.free = Line.free) (hf : ∀ a : Line, a.Dirtied (f a)) :
    c.Dirtied (c.modLine i f) where
  length := List.length_modify _ _ _
  line k := by
    rw [Cache.line_modLine _ _ _ _ (.inl hfree)]
    split
    · exact hf _
    · exact .refl _

theorem Cache.Dirtied.map (c : Cache) {f : Line → Line} (hfree : f Line.free = Line.free) (hf : ∀ a : Line, a.Dirtied (f a)) :
    c.Dirtied { c with lines := c.lines.map f } where
  length := List.length_map _
  line k := by
    rw [Cache.line_map _ _ hfree]
    exact hf _

theorem Line.dirtied_mapIdx (a : Line) {f : Nat → Sector → Sector} (hf : ∀ l x, f l x = x ∨ f l x = x.enter .dirty) :
    a.Dirtied { a with sectors := a.sectors.mapIdx f } where
  tag := rfl
  failures := rfl
  sector l x hx := by
    rw [List.getElem?_mapIdx, hx, Option.map_some]
    exact (hf l x).imp (congrArg some) (congrArg some)

theorem Cache.dirtied_fromFlush (c : Cache) (g : Geometry) (i : Nat) (tr : Track) (r : Run) : c.Dirtied (c.fromFlush g i tr r) :=
  .modLine c i rfl fun a => a.dirtied_mapIdx fun l x => by
    split
    · exact .inr rfl
    · exact .inl rfl

theorem Cache.dirtied_dirtyOverlap (c : Cache) (g : Geometry) (r : Run) :
    c.Dirtied { c with lines := c.lines.map (Line.dirtyOverlap g r) } :=
  .map c rfl fun a => by
    unfold Line.dirtyOverlap
    split
    · exact .refl a
    · refine a.dirtied_mapIdx fun l x => ?_
      split
      · exact .inr rfl
      · exact .inl rfl

theorem Cache.dirtied_unpinAll (c : Cache) : c.Dirtied c.unpinAll :=
  .map c rfl fun a => ⟨Line.unpin_tag a, Line.unpin_failures a, fun l x hx => .inl (by rw [Line.unpin_sectors, hx])⟩

theorem captureAbandon_dirtied (s : State) : s.cache.Dirtied s.captureAbandon.cache := by
  rcases captureAbandon_cases s with ⟨hc, -⟩ | ⟨i, -, hc⟩
  · rw [hc]
    exact .refl _
  · rw [hc]
    refine .modLine _ i (by simp [Line.free]) fun a => ⟨rfl, rfl, fun l x hx => ?_⟩
    by_cases hl : l = s.cap.logical
    · exact .inr (by rw [hl] at hx ⊢; simp [hx])
    · exact .inl ((List.getElem?_modify_ne _ _ (Ne.symm hl)).trans hx)

theorem unflush_frame (s : State) (r : Run) : s.unflush r = { s with cache := { s.cache with lines := (s.unflush r).cache.lines } } := by
  unfold State.unflush
  split
  · split <;> rfl
  · rfl

theorem unflush_dirtied (s : State) (r : Run) : s.cache.Dirtied (s.unflush r).cache := by
  unfold State.unflush
  split
  · split
    · exact .refl _
    · exact Cache.dirtied_fromFlush _ _ _ _ _
  · exact .refl _

theorem rejoin_frame (s : State) (r : Run) : s.rejoin r = { s with cache := { s.cache with flushQ := (s.rejoin r).cache.flushQ } } := by
  unfold State.rejoin
  split
  · split <;> rfl
  · rfl

theorem rejoin_outside_mounted {s : State} (h : s.isMounted = false) (r : Run) : s.rejoin r = s := by
  unfold State.rejoin
  split
  · exact if_neg (by simp [h])
  · rfl

/-- A withdrawal empties the queued slot and makes FLUSH sectors DIRTY; in MOUNTED alone a line joins the flush queue (R79, R148). -/
theorem withdraw_frame (s : State) : ∃ lines flushQ,
    s.withdraw = { s with card := { s.card with queued := none }, cache := { s.cache with lines := lines, flushQ := flushQ } } ∧
    s.cache.Dirtied { s.cache with lines := lines } ∧ (s.isMounted = false → flushQ = s.cache.flushQ) := by
  cases hq : s.card.queued with
  | none => exact ⟨s.cache.lines, s.cache.flushQ, by simp only [State.withdraw, hq]; rw [← hq], .refl _, fun _ => rfl⟩
  | some r =>
    let t : State := { s with card := { s.card with queued := none } }
    by_cases hk : r.kind = .flush
    · have hw : s.withdraw = (t.unflush r).rejoin r := by
        simp only [State.withdraw, hq]
        exact if_pos hk
      have hd := unflush_dirtied t r
      refine ⟨(t.unflush r).cache.lines, ((t.unflush r).rejoin r).cache.flushQ, ?_, ⟨hd.length, hd.line⟩, fun hm => ?_⟩
      · rw [hw]
        refine (rejoin_frame _ r).trans ?_
        rw [unflush_frame t r]
      · rw [rejoin_outside_mounted (by rw [unflush_frame]; exact hm), unflush_frame]
    · refine ⟨s.cache.lines, s.cache.flushQ, ?_, .refl _, fun _ => rfl⟩
      simp only [State.withdraw, hq]
      exact if_neg hk

/-! ## The entry to LOST (R56, R81) -/

/-- Two effects in either order (log 15, log 17). -/
theorem inFreeOrder_two (f g : State → State) (s : State) :
    inFreeOrder [f, g] s = g (f { s with free := s.free + 1 }) ∨ inFreeOrder [f, g] s = f (g { s with free := s.free + 1 }) := by
  have hg : ∀ k, arrange k [g] = [g] := fun k => by simp [arrange, Nat.mod_one]
  have h : inFreeOrder [f, g] s =
      ([g].insertIdx (Config.tie s.free % 2) f).foldl (fun t f => f t) { s with free := s.free + 1 } := by
    simp [inFreeOrder, arrange, Nat.mod_one]
  rcases Nat.mod_two_eq_zero_or_one (Config.tie s.free) with h2 | h2
  · exact .inl (by rw [h, h2]; rfl)
  · exact .inr (by rw [h, h2]; rfl)

/-- A queued run of the mount goes, and panel work stays (R56). -/
theorem withdrawMountRun_outside_mounted {s : State} (h : s.isMounted = false) : ∃ queued lines,
    (queued = s.card.queued ∨ queued = none) ∧
    s.withdrawMountRun = { s with card := { s.card with queued := queued }, cache := { s.cache with lines := lines } } ∧
    s.cache.Dirtied { s.cache with lines := lines } := by
  unfold State.withdrawMountRun
  split
  · split
    · exact ⟨s.card.queued, s.cache.lines, .inl rfl, rfl, .refl _⟩
    · obtain ⟨lines, flushQ, hw, hd, hq⟩ := withdraw_frame s
      exact ⟨none, lines, .inr rfl, by rw [hw, hq h], hd⟩
  · exact ⟨s.card.queued, s.cache.lines, .inl rfl, rfl, .refl _⟩

/-- The notices of an entry to LOST, in one of their orders (R58, R81). -/
def Cache.lostNotices (c : Cache) : List NoticeBody :=
  (if c.armed then [NoticeBody.flushDone false] else []) ++ [NoticeBody.mountState .lost c.nonClean]

/-- FLUSH_DONE FAILED when armed, and MOUNT_STATE, in either order (log 15). -/
theorem lostNotices_posted (s : State) : ∃ free bs,
    inFreeOrder ((if s.cache.armed then [State.flushLost] else []) ++ [State.postLost]) s =
      { s with free := free, cache := { s.cache with armed := false }, link := s.link.postAll bs } ∧ bs.Perm s.cache.lostNotices := by
  cases ha : s.cache.armed with
  | false =>
    refine ⟨s.free, _, ?_, .refl _⟩
    have hsame : ({ s.cache with armed := false } : Cache) = s.cache := by rw [← ha]
    simp only [Cache.lostNotices, ha, Bool.false_eq_true, if_false, List.nil_append, inFreeOrder_one, hsame]
    rfl
  | true =>
    simp only [Cache.lostNotices, ha, if_true, List.singleton_append]
    have hflush : ∀ t : State, t.cache.armed = true →
        t.flushLost = { t with cache := { t.cache with armed := false }, link := t.link.post (.flushDone false) } := fun t ht => if_pos ht
    rcases inFreeOrder_two State.flushLost State.postLost s with h | h
    · refine ⟨s.free + 1, [.flushDone false, .mountState .lost s.cache.nonClean], ?_, .refl _⟩
      rw [h, hflush _ (by exact ha)]
      rfl
    · refine ⟨s.free + 1, [.mountState .lost s.cache.nonClean, .flushDone false], ?_, .swap _ _ _⟩
      rw [h, hflush _ (by exact ha)]
      rfl

/-- The cache of a mount that is LOST, but for the lines. -/
def Cache.lapsed (c : Cache) (lines : List Line) : Cache :=
  { c with lines := lines, flushQ := [], idleTimer := none, waiting := none, forced := none, armed := false }

/-- What a mount that enters LOST leaves behind: the rotation and the queued slot apart, it is all said here. -/
theorem enterLost_frame (s : State) : ∃ free rot queued lines bs,
    s.enterLost = { s with
      free := free, rot := rot, cap := s.captureAbandon.cap, drive := { s.drive with latch := true }
      mount := { s.mount with state := .lost }, card := { s.card with queued := queued }
      cache := s.cache.lapsed lines, link := s.link.postAll bs } ∧
    (queued = s.card.queued ∨ queued = none) ∧ s.cache.Dirtied { s.cache with lines := lines } ∧
    bs.Perm ({ s.cache with lines := lines } : Cache).lostNotices := by
  obtain ⟨rot, queued, hor, hleave⟩ := leaveMounted_frame s (st := .lost) (by decide)
  let unpinned : List Line := s.captureAbandon.cache.unpinAll.lines
  let left : State := { s with
    rot := rot, cap := s.captureAbandon.cap, drive := { s.drive with latch := true }, mount := { s.mount with state := .lost }
    card := { s.card with queued := queued }
    cache := { s.cache with lines := unpinned, flushQ := [], idleTimer := none, waiting := none, forced := none } }
  have hleft : ({ s.leaveMounted .lost with cache := { (s.leaveMounted .lost).cache with flushQ := [] } } : State) = left := by
    rw [hleave]
    simp only [State.unseated, Cache.leaveMounted]
    rw [captureAbandon_cache]
    rfl
  obtain ⟨queued', lines, hor', hwithdraw, hdirtied⟩ := withdrawMountRun_outside_mounted (s := left) rfl
  obtain ⟨free, bs, hposted, hperm⟩ := lostNotices_posted left.withdrawMountRun
  refine ⟨free, rot, queued', lines, bs, ?_, hor'.elim (fun h => h.symm ▸ hor) .inr, ?_, ?_⟩
  · rw [State.enterLost, hleft, hposted, hwithdraw]
    rfl
  · have h := (captureAbandon_dirtied s).trans (Cache.dirtied_unpinAll _)
    have hleft' : s.cache.Dirtied left.cache := ⟨h.length, h.line⟩
    exact ⟨(hleft'.trans hdirtied).length, (hleft'.trans hdirtied).line⟩
  · rw [hwithdraw] at hperm
    exact hperm

end Sys2Proof.Machine
end

section
/-! PROOFS. A write run or a merge read that fails (04 R84, 08 R156, R157): the sectors that it makes DIRTY. -/

namespace Sys2Proof.Machine

/-! ## The sectors that a failed write run makes DIRTY (R84 steps 1 and 2) -/

/-- Step 2 of R84: a CLEAN sector of any line in the run's blocks. -/
def State.Spoils (s : State) (r : Run) (k l : Nat) (x : Sector) : Prop :=
  r.kind = .flush ∧ x.state = .clean ∧ x.hole = false ∧
    ∃ tr, (s.cache.line k).tag = some tr ∧ ∃ p ∈ s.geom.sectorBlocks tr l, r.Held p

/-- Step 1 of R84: a FLUSH sector of the run's line in its blocks. -/
def State.Returns (s : State) (r : Run) (k l : Nat) (x : Sector) : Prop :=
  r.kind = .flush ∧ x.state = .flush ∧ ∃ tr, s.Carried r k tr ∧ ∃ p ∈ s.geom.sectorBlocks tr l, r.Held p

/-- Step 2 of R84 finds a sector of line `k`. -/
def State.Spoilt (s : State) (r : Run) (k : Nat) : Prop := ∃ l x, s.cache.sector k l = some x ∧ s.Spoils r k l x

theorem Sector.enter_of_ne {x : Sector} {st : SectorState} (h : x.state ≠ st) : x.enter st = { x with state := st, progress := [] } :=
  if_neg h

theorem touches_iff_held {g : Geometry} {tr : Track} {r : Run} {l : Nat} : touches g tr r l = true ↔ ∃ p ∈ g.sectorBlocks tr l, r.Held p :=
  touches_iff

theorem unflush_not_carried {s : State} {r : Run} (h : ∀ i tr, ¬ s.Carried r i tr) : s.unflush r = s := by
  unfold State.unflush
  split
  · rename_i i tr hline htrack
    refine if_pos ?_
    rw [Bool.or_eq_true, Bool.not_eq_true', ← Bool.not_eq_true, carries_iff]
    exact .inr fun ⟨tr', ht, htag⟩ => h i tr' ⟨hline, ht, htag⟩
  · rfl

theorem unflush_carried {s : State} {r : Run} {i : Nat} {tr : Track} (hr : s.runEnded r = false) (h : s.Carried r i tr) :
    s.unflush r = { s with cache := s.cache.fromFlush s.geom i tr r } := by
  obtain ⟨hline, htrack, htag⟩ := h
  have hcarries : s.cache.carries i (some tr) = true := (carries_iff _ _ _).2 ⟨tr, rfl, htag⟩
  simp only [State.unflush, hline, htrack, hr, hcarries, Bool.not_true, Bool.or_false, Bool.false_eq_true, if_false]

/-- The FLUSH sectors of a standing run are DIRTY again, and no other sector changes (R79). -/
theorem unflush_sector {s : State} {r : Run} (hr : s.runEnded r = false) (hk : r.kind = .flush) {k l : Nat} {x : Sector}
    (hx : s.cache.sector k l = some x) :
    (s.Returns r k l x → (s.unflush r).cache.sector k l = some (x.enter .dirty)) ∧
    (¬ s.Returns r k l x → (s.unflush r).cache.sector k l = some x) := by
  by_cases hc : ∃ i tr, s.Carried r i tr
  · obtain ⟨i, tr, hc⟩ := hc
    have hreturns : s.Returns r k l x ↔ k = i ∧ x.state = .flush ∧ touches s.geom tr r l = true := by
      rw [touches_iff_held]
      constructor
      · rintro ⟨-, hst, tr', ⟨hline, htrack, -⟩, hp⟩
        obtain rfl : k = i := Option.some.inj (hline.symm.trans hc.1)
        obtain rfl : tr' = tr := Option.some.inj (htrack.symm.trans hc.2.1)
        exact ⟨rfl, hst, hp⟩
      · rintro ⟨rfl, hst, hp⟩
        exact ⟨hk, hst, tr, hc, hp⟩
    rw [unflush_carried hr hc, hreturns]
    have hsector : (s.cache.fromFlush s.geom i tr r).sector k l =
        some (if k = i then if x.state = .flush ∧ touches s.geom tr r l then x.enter .dirty else x else x) := by
      rw [Cache.fromFlush, Cache.sector_mapSectors, hx, Option.map_some]
    refine ⟨fun ⟨hki, hst, ht⟩ => ?_, fun hno => ?_⟩
    · exact hsector.trans (by rw [if_pos hki, if_pos ⟨hst, ht⟩])
    · refine hsector.trans ?_
      by_cases hki : k = i
      · rw [if_pos hki, if_neg (fun ⟨hst, ht⟩ => hno ⟨hki, hst, ht⟩)]
      · rw [if_neg hki]
  · have hno : ∀ i tr, ¬ s.Carried r i tr := fun i tr h => hc ⟨i, tr, h⟩
    rw [unflush_not_carried hno]
    exact ⟨fun ⟨_, _, tr, h, _⟩ => absurd h (hno k tr), fun _ => hx⟩

theorem unflush_tag (s : State) (r : Run) (k : Nat) : ((s.unflush r).cache.line k).tag = (s.cache.line k).tag :=
  ((unflush_dirtied s r).line k).tag

/-- The sectors that step 2 finds after step 1 are those that it finds before: step 1 takes from FLUSH to DIRTY. -/
theorem unflush_spoils {s : State} {r : Run} (hr : s.runEnded r = false) (hk : r.kind = .flush) (k l : Nat) :
    (∃ y, (s.unflush r).cache.sector k l = some y ∧ (s.unflush r).Spoils r k l y) ↔
      ∃ x, s.cache.sector k l = some x ∧ s.Spoils r k l x := by
  have hframe : ∀ x, (s.unflush r).Spoils r k l x ↔ s.Spoils r k l x := fun x => by
    have hgeom : (s.unflush r).geom = s.geom := by rw [unflush_frame]; rfl
    rw [State.Spoils, unflush_tag, hgeom]
    rfl
  simp only [hframe]
  constructor
  · rintro ⟨y, hy, hs⟩
    cases hx : s.cache.sector k l with
    | none =>
      have := (tended_unflush s r).sector k l
      rw [hx, hy] at this
      exact absurd this (by simp)
    | some x =>
      by_cases hret : s.Returns r k l x
      · rw [(unflush_sector hr hk hx).1 hret] at hy
        have : y.state = .dirty := by rw [← Option.some.inj hy, Sector.enter_state]
        rw [hs.2.1] at this
        cases this
      · rw [(unflush_sector hr hk hx).2 hret] at hy
        exact ⟨x, rfl, Option.some.inj hy ▸ hs⟩
  · rintro ⟨x, hx, hs⟩
    refine ⟨x, (unflush_sector hr hk hx).2 (fun hret => ?_), hs⟩
    have := hs.2.1
    rw [hret.2.1] at this
    cases this

theorem Line.dirty_calm (l : Line) : l.calm.dirty = l.dirty := by
  simp [Line.dirty, Line.calm, List.any_map, Function.comp_def, Sector.calm_nonClean]

theorem unflush_line_dirty (s : State) (r : Run) (k : Nat) : ((s.unflush r).cache.line k).dirty = (s.cache.line k).dirty := by
  rw [← Line.dirty_calm, (tended_unflush s r).line k, Line.dirty_calm]

theorem Line.mapIdx_eq_self_iff (ln : Line) (f : Nat → Sector → Sector) :
    ({ ln with sectors := ln.sectors.mapIdx f } : Line) = ln ↔ ∀ l x, ln.sectors[l]? = some x → f l x = x := by
  constructor
  · intro h l x hx
    have hsector := congrArg (fun a : Line => a.sectors[l]?) h
    simpa only [List.getElem?_mapIdx, hx, Option.map_some, Option.some.injEq] using hsector
  · intro h
    have hsectors : ln.sectors.mapIdx f = ln.sectors := by
      refine List.ext_getElem? fun l => ?_
      rw [List.getElem?_mapIdx]
      cases hx : ln.sectors[l]? with
      | none => rfl
      | some x => rw [Option.map_some, h l x hx]
    rw [hsectors]

theorem dirtyOverlap_of_tag {ln : Line} {tr : Track} (h : ln.tag = some tr) (g : Geometry) (r : Run) :
    Line.dirtyOverlap g r ln = { ln with sectors := ln.sectors.mapIdx (fun l x =>
      if x.state = .clean ∧ x.hole = false ∧ touches g tr r l then x.enter .dirty else x) } := by
  rw [Line.dirtyOverlap, h]

/-- A line is overlapped when step 2 of R84 finds a sector of it. -/
theorem dirtyOverlap_ne_iff (g : Geometry) (r : Run) (ln : Line) : Line.dirtyOverlap g r ln ≠ ln ↔
    ∃ tr l x, ln.tag = some tr ∧ ln.sectors[l]? = some x ∧ x.state = .clean ∧ x.hole = false ∧ touches g tr r l = true := by
  cases htag : ln.tag with
  | none =>
    have hsame : Line.dirtyOverlap g r ln = ln := by rw [Line.dirtyOverlap, htag]
    simp [hsame]
  | some tr =>
    have hkeeps : ∀ l (x : Sector), (if x.state = .clean ∧ x.hole = false ∧ touches g tr r l then x.enter .dirty else x) = x ↔
        ¬ (x.state = .clean ∧ x.hole = false ∧ touches g tr r l = true) := fun l x => by
      by_cases hs : x.state = .clean ∧ x.hole = false ∧ touches g tr r l = true
      · rw [if_pos hs]
        refine iff_of_false (fun h => ?_) (fun h => h hs)
        have hstate := congrArg Sector.state h
        rw [Sector.enter_state, hs.1] at hstate
        cases hstate
      · rw [if_neg hs]
        exact iff_of_true rfl hs
    rw [dirtyOverlap_of_tag htag, ne_eq, Line.mapIdx_eq_self_iff]
    simp only [hkeeps]
    constructor
    · intro h
      push Not at h
      obtain ⟨l, x, hx, hs⟩ := h
      exact ⟨tr, l, x, rfl, hx, hs⟩
    · rintro ⟨tr', l, x, htr, hx, hs⟩ h
      obtain rfl := Option.some.inj htr
      exact h l x hx hs

/-- The lines after steps 1 and 2 of R84; a merge read makes no sector DIRTY (R157). -/
def State.spoiled (s : State) (r : Run) : List Line :=
  if r.kind = .flush then (s.unflush r).cache.lines.map (Line.dirtyOverlap s.geom r) else s.cache.lines

/-- The lines that step 2 of R84 touches. -/
def State.spoiltLines (s : State) (r : Run) : List Nat :=
  if r.kind = .flush then (List.range 8).filter (fun i => (s.unflush r).cache.overlapped s.geom r i) else []

/-- Those of them that held nothing unsaved (R84 step 6). -/
def State.writtenLines (s : State) (r : Run) : List Nat := (s.spoiltLines r).filter (fun i => !(s.cache.line i).dirty)

theorem mem_spoiltLines {s : State} {r : Run} (hr : s.runEnded r = false) (k : Nat) : k ∈ s.spoiltLines r ↔ k < 8 ∧ s.Spoilt r k := by
  unfold State.spoiltLines State.Spoilt
  by_cases hk : r.kind = .flush
  · rw [if_pos hk, List.mem_filter, List.mem_range, Cache.overlapped, decide_eq_true_eq, dirtyOverlap_ne_iff]
    refine and_congr_right fun _ => ?_
    have hgeom : (s.unflush r).geom = s.geom := by rw [unflush_frame]; rfl
    have hspoils : (∃ l y, (s.unflush r).cache.sector k l = some y ∧ (s.unflush r).Spoils r k l y) ↔
        ∃ l x, s.cache.sector k l = some x ∧ s.Spoils r k l x := exists_congr fun l => unflush_spoils hr hk k l
    rw [← hspoils]
    simp only [State.Spoils, hgeom, touches_iff_held]
    constructor
    · rintro ⟨tr, l, x, htag, hx, hc, hh, ht⟩
      exact ⟨l, x, hx, hk, hc, hh, tr, htag, ht⟩
    · rintro ⟨l, x, hx, -, hc, hh, tr, htag, ht⟩
      exact ⟨tr, l, x, htag, hx, hc, hh, ht⟩
  · rw [if_neg hk]
    exact iff_of_false List.not_mem_nil fun ⟨_, _, _, _, hs⟩ => hk hs.1

theorem mem_writtenLines {s : State} {r : Run} (hr : s.runEnded r = false) (k : Nat) :
    k ∈ s.writtenLines r ↔ k < 8 ∧ s.Spoilt r k ∧ ∀ x ∈ (s.cache.line k).sectors, x.state.nonClean = false := by
  rw [State.writtenLines, List.mem_filter, mem_spoiltLines hr, and_assoc]
  simp [Line.dirty]

theorem writtenLines_sorted (s : State) (r : Run) : (s.writtenLines r).Pairwise (· < ·) := by
  unfold State.writtenLines State.spoiltLines
  split
  · exact (List.pairwise_lt_range.filter _).filter _
  · exact List.Pairwise.nil

theorem spoiled_dirtied (s : State) (r : Run) : s.cache.Dirtied { s.cache with lines := s.spoiled r } := by
  unfold State.spoiled
  split
  · have h := (unflush_dirtied s r).trans (Cache.dirtied_dirtyOverlap _ s.geom r)
    exact ⟨h.length, h.line⟩
  · exact .refl _

theorem spoiled_sector {s : State} {r : Run} (hr : s.runEnded r = false) {k l : Nat} {x : Sector} (hx : s.cache.sector k l = some x) :
    ((s.Spoils r k l x ∨ s.Returns r k l x) →
      ({ s.cache with lines := s.spoiled r } : Cache).sector k l = some { x with state := .dirty, progress := [] }) ∧
    (¬ (s.Spoils r k l x ∨ s.Returns r k l x) → ({ s.cache with lines := s.spoiled r } : Cache).sector k l = some x) := by
  by_cases hk : r.kind = .flush
  · have hlines : ∀ y, (s.unflush r).cache.sector k l = some y →
        ((s.Spoils r k l y → ({ s.cache with lines := s.spoiled r } : Cache).sector k l = some (y.enter .dirty)) ∧
        (¬ s.Spoils r k l y → ({ s.cache with lines := s.spoiled r } : Cache).sector k l = some y)) := fun y hy => by
      have hsector := Cache.sector_dirtyOverlap (s.unflush r).cache s.geom r k l
      rw [hy, Option.map_some, unflush_tag] at hsector
      have hspoiled : ({ s.cache with lines := s.spoiled r } : Cache).sector k l =
          ({ (s.unflush r).cache with lines := (s.unflush r).cache.lines.map (Line.dirtyOverlap s.geom r) } : Cache).sector k l := by
        rw [State.spoiled, if_pos hk]
        rfl
      rw [hspoiled, hsector]
      have hspoils : s.Spoils r k l y ↔ ∃ tr, (s.cache.line k).tag = some tr ∧
          (y.state = .clean ∧ y.hole = false ∧ touches s.geom tr r l = true) := by
        simp only [State.Spoils, touches_iff_held]
        exact ⟨fun ⟨_, hc, hh, tr, ht, hp⟩ => ⟨tr, ht, hc, hh, hp⟩, fun ⟨tr, ht, hc, hh, hp⟩ => ⟨hk, hc, hh, tr, ht, hp⟩⟩
      rw [hspoils]
      cases (s.cache.line k).tag with
      | none => simp
      | some tr => simp +contextual
    by_cases hret : s.Returns r k l x
    · have hdirty := (unflush_sector hr hk hx).1 hret
      have hno : ¬ s.Spoils r k l (x.enter .dirty) := fun h => by
        have := h.2.1
        rw [Sector.enter_state] at this
        cases this
      refine ⟨fun _ => ?_, fun h => absurd (.inr hret) h⟩
      rw [(hlines _ hdirty).2 hno, Sector.enter_of_ne (by rw [hret.2.1]; decide)]
    · have hsame := (unflush_sector hr hk hx).2 hret
      refine ⟨fun h => ?_, fun h => (hlines _ hsame).2 (fun hs => h (.inl hs))⟩
      have hs : s.Spoils r k l x := h.resolve_right hret
      rw [(hlines _ hsame).1 hs, Sector.enter_of_ne (by rw [hs.2.1]; decide)]
  · have hspoiled : s.spoiled r = s.cache.lines := if_neg hk
    rw [hspoiled]
    exact ⟨fun h => absurd (h.elim (·.1) (·.1)) hk, fun _ => hx⟩

end Sys2Proof.Machine
end

section
/-! PROOFS. The failure count, the flush queue and the notices of a write run or merge read that fails (03 R55, 04 R66, R81, R84,
08 R156, R157). -/

namespace Sys2Proof.Machine

/-! ## The failure count of the run's line (R84 step 3, R55) -/

/-- The cache once the failure count of the run's line has risen. -/
def State.counted (s : State) (r : Run) : Cache :=
  match r.line with
  | none => s.cache
  | some i => if s.cache.carries i r.track then s.cache.countFailure i else s.cache

/-- The third failure of the run's line. -/
def State.ThirdFailure (s : State) (r : Run) : Prop := s.Stands ∧ ∃ i tr, s.Carried r i tr ∧ 2 ≤ (s.cache.line i).failures

theorem Cache.line_countFailure {c : Cache} {i : Nat} (hi : i < c.lines.length) (k : Nat) :
    (c.countFailure i).line k = if k = i then { c.line k with failures := min 3 ((c.line k).failures + 1) } else c.line k :=
  Cache.line_modLine _ _ _ _ (.inr (.inl hi))

theorem counted_carried {s : State} {r : Run} {i : Nat} {tr : Track} (h : s.Carried r i tr) : s.counted r = s.cache.countFailure i := by
  obtain ⟨hline, htrack, htag⟩ := h
  simp only [State.counted, hline]
  exact if_pos ((carries_iff _ _ _).2 ⟨tr, htrack, htag⟩)

theorem counted_not_carried {s : State} {r : Run} (h : ∀ i tr, ¬ s.Carried r i tr) : s.counted r = s.cache := by
  unfold State.counted
  split
  · rfl
  · rename_i i hline
    refine if_neg fun hc => ?_
    obtain ⟨tr, ht, htag⟩ := (carries_iff _ _ _).1 hc
    exact h i tr ⟨hline, ht, htag⟩

theorem counted_frame (s : State) (r : Run) : s.counted r = { s.cache with lines := (s.counted r).lines } := by
  unfold State.counted
  split
  · rfl
  · split <;> rfl

theorem counted_line (s : State) (r : Run) (k : Nat) :
    ((s.counted r).line k).tag = (s.cache.line k).tag ∧ ((s.counted r).line k).sectors = (s.cache.line k).sectors ∧
    ((∃ tr, s.Carried r k tr) → ((s.counted r).line k).failures = min 3 ((s.cache.line k).failures + 1)) ∧
    ((∀ tr, ¬ s.Carried r k tr) → ((s.counted r).line k).failures = (s.cache.line k).failures) := by
  by_cases hc : ∃ i tr, s.Carried r i tr
  · obtain ⟨i, tr, hc⟩ := hc
    rw [counted_carried hc, Cache.line_countFailure (Cache.line_lt hc.2.2)]
    by_cases hk : k = i
    · subst hk
      rw [if_pos rfl]
      exact ⟨rfl, rfl, fun _ => rfl, fun h => absurd hc (h tr)⟩
    · rw [if_neg hk]
      exact ⟨rfl, rfl, fun ⟨tr', h⟩ => absurd (Option.some.inj (h.1.symm.trans hc.1)) hk, fun _ => rfl⟩
  · have hno : ∀ i tr, ¬ s.Carried r i tr := fun i tr h => hc ⟨i, tr, h⟩
    rw [counted_not_carried hno]
    exact ⟨rfl, rfl, fun ⟨tr, h⟩ => absurd h (hno k tr), fun _ => rfl⟩

theorem countFailure_eq (s : State) (r : Run) :
    (s.ThirdFailure r → s.countFailure r = ({ s with cache := s.counted r } : State).enterLost) ∧
    (¬ s.ThirdFailure r → s.countFailure r = { s with cache := s.counted r }) := by
  by_cases hc : ∃ i tr, s.Carried r i tr
  · obtain ⟨i, tr, hc⟩ := hc
    have htest : (((s.cache.countFailure i).line i).failures = 3 ∧ s.mountStands = true) ↔ s.ThirdFailure r := by
      rw [Cache.line_countFailure (Cache.line_lt hc.2.2), if_pos rfl, mountStands_iff]
      constructor
      · rintro ⟨h3, hst⟩
        exact ⟨hst, i, tr, hc, by simp only at h3; omega⟩
      · rintro ⟨hst, k, tr', hk, h2⟩
        obtain rfl : k = i := Option.some.inj (hk.1.symm.trans hc.1)
        exact ⟨by simp only; omega, hst⟩
    have heq : s.countFailure r = if ((s.cache.countFailure i).line i).failures = 3 ∧ s.mountStands = true then
        ({ s with cache := s.cache.countFailure i } : State).enterLost else { s with cache := s.cache.countFailure i } := by
      obtain ⟨hline, htrack, htag⟩ := hc
      have hcarries : s.cache.carries i r.track = true := (carries_iff _ _ _).2 ⟨tr, htrack, htag⟩
      simp only [State.countFailure, hline, hcarries, Bool.not_true, Bool.false_eq_true, if_false]
      rfl
    rw [heq, counted_carried hc]
    exact ⟨fun h => if_pos (htest.2 h), fun h => if_neg (mt htest.1 h)⟩
  · have hno : ∀ i tr, ¬ s.Carried r i tr := fun i tr h => hc ⟨i, tr, h⟩
    rw [counted_not_carried hno]
    refine ⟨fun ⟨_, i, tr, h, _⟩ => absurd h (hno i tr), fun _ => ?_⟩
    unfold State.countFailure
    split
    · rfl
    · rename_i i hline
      refine if_pos ?_
      rw [Bool.not_eq_true', ← Bool.not_eq_true, carries_iff]
      exact fun ⟨tr', ht, htag⟩ => hno i tr' ⟨hline, ht, htag⟩

/-! ## The lines that queue again (R84 step 4) -/

theorem requeue_fallen {s : State} (h : ¬ s.Stands) (r : Run) (also : List Nat) : s.requeue r also = s :=
  if_pos (by rw [(mountStands_eq_false_iff s).2 h]; rfl)

/-- The flush queue once the run's line and the lines made DIRTY have joined it: the forced line stands at its front. -/
theorem requeue_stands {s : State} (h : s.Stands) (r : Run) (also : List Nat) :
    let p := fun k => (r.line == some k || also.contains k) && s.cache.hasWriteWork s.geom s.writeRuns k
    let queue := (s.cache.joining p).filter (fun k => decide (s.cache.forced = some k)) ++ s.cache.flushQ ++
      (s.cache.joining p).filter (fun k => decide (s.cache.forced ≠ some k))
    ∃ flushQ, s.requeue r also = { s with cache := { s.cache with flushQ := flushQ } } ∧
      (∀ f, s.cache.forced = some f → r.line = some f → f ∈ queue → flushQ = f :: queue.filter (· != f)) ∧
      (¬ (∃ f, s.cache.forced = some f ∧ r.line = some f ∧ f ∈ queue) → flushQ = queue) := by
  intro p queue
  have hqueue : (s.cache.join p).flushQ = queue := by
    have heq : (fun k => s.cache.forced == some k) = fun k => decide (s.cache.forced = some k) := funext fun k => Bool.beq_eq_decide_eq _ _
    have hne : (fun k => s.cache.forced != some k) = fun k => decide (s.cache.forced ≠ some k) := funext fun k => by
      rw [bne, Bool.beq_eq_decide_eq, decide_not]
    simp only [Cache.join, heq, hne, queue]
  have hjoin : s.cache.join p = { s.cache with flushQ := queue } := by rw [← hqueue]; rfl
  have htaken : ¬ (!s.mountStands) = true := by rw [(mountStands_iff s).2 h]; decide
  cases hf : s.cache.forced with
  | none =>
    refine ⟨queue, ?_, fun f h' => absurd h' (by simp), fun _ => rfl⟩
    rw [State.requeue, if_neg htaken]
    simp only [p] at hjoin
    simp only [hjoin, hf]
  | some f =>
    have hrequeue : s.requeue r also = if r.line = some f ∧ queue.contains f = true then
        { s with cache := { s.cache with flushQ := toFront queue f } } else { s with cache := { s.cache with flushQ := queue } } := by
      rw [State.requeue, if_neg htaken]
      simp only [p] at hjoin
      simp only [hjoin, hf]
    rw [hrequeue]
    by_cases hfront : r.line = some f ∧ f ∈ queue
    · refine ⟨toFront queue f, if_pos (by simpa using hfront), fun f' h' _ _ => ?_, fun hno => absurd ⟨f, rfl, hfront⟩ hno⟩
      obtain rfl := Option.some.inj h'
      rfl
    · refine ⟨queue, if_neg (by simpa using hfront), fun f' h' hline hmem => ?_, fun _ => rfl⟩
      obtain rfl := Option.some.inj h'
      exact absurd ⟨hline, hmem⟩ hfront

theorem requeue_frame (s : State) (r : Run) (also : List Nat) :
    ∃ flushQ, s.requeue r also = { s with cache := { s.cache with flushQ := flushQ } } := by
  by_cases h : s.Stands
  · obtain ⟨flushQ, hq, -⟩ := requeue_stands h r also
    exact ⟨flushQ, hq⟩
  · exact ⟨s.cache.flushQ, requeue_fallen h r also⟩

/-! ## The notices of a failed write run (R66, R81) -/

theorem postFlushDone_eq (s : State) (ok : Bool) : s.postFlushDone ok = { s with
    cache := { s.cache with armed := false }
    link := s.link.postAll (if s.cache.armed then [.flushDone ok] else []) } := by
  unfold State.postFlushDone
  cases ha : s.cache.armed with
  | true => rfl
  | false =>
    have hsame : ({ s.cache with armed := false } : Cache) = s.cache := by rw [← ha]
    simp [hsame, Link.postAll]

theorem postWritten_eq (s : State) (tracks : List Track) :
    s.postWritten tracks = { s with link := s.link.postAll (tracks.map (fun tr => .trackWritten tr)) } := by
  induction tracks generalizing s with
  | nil => rfl
  | cons tr tracks ih => exact ih (s.post (.trackWritten tr))

/-! ## The failure as a whole -/

/-- A write run or merge read that fails, after steps 1 and 2 of R84; the block of a merge read has left the merge buffer (R157). -/
def State.spoilt (s : State) (r : Run) : State :=
  { s with
    card := { s.card with mergeBuf := if r.kind = .mergeRead then [] else s.card.mergeBuf }
    cache := { s.cache with lines := s.spoiled r } }

/-- The tracks whose lines held nothing unsaved before the failure (R66, R84 step 6). -/
def State.writtenTracks (s : State) (r : Run) : List Track := (s.writtenLines r).filterMap (fun k => (s.cache.line k).tag)

theorem handFailure_write {s : State} {r : Run} (hk : r.kind = .flush ∨ r.kind = .mergeRead) (hr : s.runEnded r = false)
    (e : RunError) : s.handFailure r e =
      ((((s.spoilt r).countFailure r).requeue r (s.spoiltLines r)).postFlushDone false).postWritten (s.writtenTracks r) := by
  rcases hk with hk | hk
  · have htracks : (s.spoiltLines r).filterMap
        (fun i => if ((s.unflush r).cache.line i).dirty then none else ((s.unflush r).cache.line i).tag) = s.writtenTracks r := by
      rw [State.writtenTracks, State.writtenLines, List.filterMap_filter]
      simp only [unflush_line_dirty, unflush_tag]
      refine List.filterMap_congr fun k _ => ?_
      cases (s.cache.line k).dirty <;> rfl
    have hlines : (s.unflush r).dirtyOverlap r = s.spoilt r := by
      rw [State.spoilt, State.spoiled, if_pos hk, if_neg (by simp [hk]), State.dirtyOverlap, unflush_frame]
      rfl
    have htouched : (List.range 8).filter (fun i => (s.unflush r).cache.overlapped (s.unflush r).geom r i) = s.spoiltLines r := by
      have hgeom : (s.unflush r).geom = s.geom := by rw [unflush_frame]; rfl
      rw [State.spoiltLines, if_pos hk, hgeom]
    have hfail : s.handFailure r e = s.flushFailed r := by simp only [State.handFailure, hk]
    rw [hfail, State.flushFailed, if_neg (by simp [hr])]
    simp only [htouched, htracks, hlines]
  · have hnone : s.spoiltLines r = [] := if_neg (by simp [hk])
    have htracks : s.writtenTracks r = [] := by rw [State.writtenTracks, State.writtenLines, hnone]; rfl
    have hspoilt : s.spoilt r = { s with card := { s.card with mergeBuf := [] } } := by
      rw [State.spoilt, State.spoiled, if_neg (by simp [hk]), if_pos hk]
    have hfail : s.handFailure r e = s.mergeFailed r := by simp only [State.handFailure, hk]
    rw [hfail, hnone, htracks, hspoilt, State.mergeFailed]
    exact if_neg (by rw [Bool.not_eq_true]; exact hr)

end Sys2Proof.Machine
end

section
/-! PROOFS. What a write run or merge read that fails leaves behind, the mount standing or LOST (03 R55, 04 R84, 08 R156, R157). -/

namespace Sys2Proof.Machine

/-- A failed write run or merge read after step 3 of R84, but for the entry to LOST. -/
def State.recounted (s : State) (r : Run) : State := { s.spoilt r with cache := (s.spoilt r).counted r }

theorem recounted_cache (s : State) (r : Run) : (s.recounted r).cache = { s.cache with lines := (s.recounted r).cache.lines } :=
  (counted_frame (s.spoilt r) r).trans rfl

theorem spoilt_carried (s : State) (r : Run) (i : Nat) (tr : Track) : (s.spoilt r).Carried r i tr ↔ s.Carried r i tr := by
  have htag : ((s.spoilt r).cache.line i).tag = (s.cache.line i).tag := ((spoiled_dirtied s r).line i).tag
  rw [State.Carried, htag]
  rfl

theorem spoilt_failures (s : State) (r : Run) (k : Nat) : ((s.spoilt r).cache.line k).failures = (s.cache.line k).failures :=
  ((spoiled_dirtied s r).line k).failures

theorem spoilt_thirdFailure (s : State) (r : Run) : (s.spoilt r).ThirdFailure r ↔ s.ThirdFailure r := by
  simp only [State.ThirdFailure, spoilt_carried, spoilt_failures]
  rfl

theorem recounted_tag (s : State) (r : Run) (k : Nat) : ((s.recounted r).cache.line k).tag = (s.cache.line k).tag :=
  (counted_line (s.spoilt r) r k).1.trans ((spoiled_dirtied s r).line k).tag

theorem recounted_failures (s : State) (r : Run) (k : Nat) :
    ((∃ tr, s.Carried r k tr) → ((s.recounted r).cache.line k).failures = min 3 ((s.cache.line k).failures + 1)) ∧
    ((∀ tr, ¬ s.Carried r k tr) → ((s.recounted r).cache.line k).failures = (s.cache.line k).failures) := by
  obtain ⟨-, -, hraised, hkept⟩ := counted_line (s.spoilt r) r k
  simp only [spoilt_carried, spoilt_failures] at hraised hkept
  exact ⟨hraised, hkept⟩

theorem recounted_sector {s : State} {r : Run} (hr : s.runEnded r = false) {k l : Nat} {x : Sector} (hx : s.cache.sector k l = some x) :
    ((s.Spoils r k l x ∨ s.Returns r k l x) → (s.recounted r).cache.sector k l = some { x with state := .dirty, progress := [] }) ∧
    (¬ (s.Spoils r k l x ∨ s.Returns r k l x) → (s.recounted r).cache.sector k l = some x) := by
  have hsame : (s.recounted r).cache.sector k l = (s.spoilt r).cache.sector k l :=
    congrArg (fun xs : List Sector => xs[l]?) (counted_line (s.spoilt r) r k).2.1
  rw [hsame]
  exact spoiled_sector hr hx

/-- The third failure of a line: what follows the entry to LOST is TRACK_WRITTEN alone. -/
theorem handFailure_lost {s : State} {r : Run} (hk : r.kind = .flush ∨ r.kind = .mergeRead) (hr : s.runEnded r = false)
    (h3 : s.ThirdFailure r) (e : RunError) : s.handFailure r e = (s.recounted r).enterLost.postWritten (s.writtenTracks r) := by
  obtain ⟨free, rot, queued, lines, bs, hlost, -, -, -⟩ := enterLost_frame (s.recounted r)
  have hcount : (s.spoilt r).countFailure r = (s.recounted r).enterLost := (countFailure_eq _ r).1 ((spoilt_thirdFailure s r).2 h3)
  have hfallen : ¬ (s.recounted r).enterLost.Stands := by
    rw [hlost]
    rintro (h | h) <;> cases h
  have harmed : (s.recounted r).enterLost.cache.armed = false := by
    rw [hlost]
    rfl
  rw [handFailure_write hk hr, hcount, requeue_fallen hfallen, State.postFlushDone, if_neg (by simp [harmed])]

/-- The state that a failure short of the third leaves, its flush queue being `flushQ`. -/
def State.failed (s : State) (r : Run) (flushQ : List Nat) : State :=
  { s.recounted r with
    cache := { (s.recounted r).cache with flushQ := flushQ, armed := false }
    link := s.link.postAll ((if s.cache.armed then [.flushDone false] else []) ++
      (s.writtenTracks r).map (fun tr => .trackWritten tr)) }

theorem handFailure_stays {s : State} {r : Run} (hk : r.kind = .flush ∨ r.kind = .mergeRead) (hr : s.runEnded r = false)
    (h3 : ¬ s.ThirdFailure r) (e : RunError) : ∃ flushQ, s.handFailure r e = s.failed r flushQ ∧
      (s.recounted r).requeue r (s.spoiltLines r) =
        { s.recounted r with cache := { (s.recounted r).cache with flushQ := flushQ } } := by
  have hcount : (s.spoilt r).countFailure r = s.recounted r := (countFailure_eq _ r).2 (mt (spoilt_thirdFailure s r).1 h3)
  obtain ⟨flushQ, hq⟩ := requeue_frame (s.recounted r) r (s.spoiltLines r)
  refine ⟨flushQ, ?_, hq⟩
  have harmed : (s.recounted r).cache.armed = s.cache.armed := by rw [recounted_cache]
  rw [handFailure_write hk hr, hcount, hq, postFlushDone_eq, postWritten_eq, State.failed, Link.postAll_append]
  simp only [harmed]
  rfl

theorem failed_frame (s : State) (r : Run) (flushQ : List Nat) : s.failed r flushQ =
    { s with
      card := if r.kind = .mergeRead then { s.card with mergeBuf := [] } else s.card
      cache := (s.failed r flushQ).cache
      link := (s.failed r flushQ).link } := by
  have hcard : (s.failed r flushQ).card = if r.kind = .mergeRead then { s.card with mergeBuf := [] } else s.card := by
    change ({ s.card with mergeBuf := if r.kind = .mergeRead then [] else s.card.mergeBuf } : Card) = _
    split <;> rfl
  rw [← hcard]
  rfl

/-- No line queues again for a mount that does not stand. -/
theorem failed_queue_fallen {s : State} {r : Run} {flushQ : List Nat}
    (hq : (s.recounted r).requeue r (s.spoiltLines r) =
      { s.recounted r with cache := { (s.recounted r).cache with flushQ := flushQ } })
    (h : ¬ s.Stands) : flushQ = s.cache.flushQ := by
  rw [requeue_fallen (s := s.recounted r) h] at hq
  have hqueue : (s.recounted r).cache.flushQ = flushQ := congrArg (fun t : State => t.cache.flushQ) hq
  rw [← hqueue, recounted_cache]

/-- The lines that queue again, those furthest back in the LRU order first. -/
theorem failed_queue {s : State} {r : Run} (hr : s.runEnded r = false) {flushQ : List Nat}
    (hq : (s.recounted r).requeue r (s.spoiltLines r) =
      { s.recounted r with cache := { (s.recounted r).cache with flushQ := flushQ } })
    (hst : s.Stands) (hlru : s.cache.lru.Perm (List.range 8)) :
    ∃ joining : List Nat, joining.Sublist s.cache.lru.reverse ∧
      (∀ k, k ∈ joining ↔ k < 8 ∧ k ∉ s.cache.flushQ ∧ (r.line = some k ∨ s.Spoilt r k) ∧
        (s.failed r flushQ).cache.hasWriteWork (s.failed r flushQ).geom (s.failed r flushQ).writeRuns k = true) ∧
      (let queue := joining.filter (fun k => decide (s.cache.forced = some k)) ++ s.cache.flushQ ++
          joining.filter (fun k => decide (s.cache.forced ≠ some k))
       (∀ f, s.cache.forced = some f → r.line = some f → f ∈ queue → flushQ = f :: queue.filter (· != f)) ∧
       (¬ (∃ f, s.cache.forced = some f ∧ r.line = some f ∧ f ∈ queue) → flushQ = queue)) := by
  have hqueue : (s.recounted r).cache.flushQ = s.cache.flushQ := by rw [recounted_cache]
  have hforced : (s.recounted r).cache.forced = s.cache.forced := by rw [recounted_cache]
  have hlru' : (s.recounted r).cache.lru = s.cache.lru := by rw [recounted_cache]
  obtain ⟨flushQ', hq', hqueues⟩ := requeue_stands (s := s.recounted r) hst r (s.spoiltLines r)
  obtain rfl : flushQ' = flushQ := by
    rw [hq'] at hq
    exact congrArg (fun t : State => t.cache.flushQ) hq
  simp only [hqueue, hforced] at hqueues
  refine ⟨_, ?_, fun k => ?_, hqueues⟩
  · rw [Cache.joining, hlru']
    exact List.filter_sublist
  · have hk8 : k ∈ s.cache.lru ↔ k < 8 := by rw [hlru.mem_iff, List.mem_range]
    have hwork : (s.failed r flushQ').cache.hasWriteWork (s.failed r flushQ').geom (s.failed r flushQ').writeRuns k =
        (s.recounted r).cache.hasWriteWork (s.recounted r).geom (s.recounted r).writeRuns k := rfl
    have hspoilt : (r.line = some k ∨ k ∈ s.spoiltLines r) ↔ r.line = some k ∨ (k < 8 ∧ s.Spoilt r k) := by rw [mem_spoiltLines hr]
    rw [hwork, Cache.joining, hlru', hqueue]
    simp only [List.mem_filter, List.mem_reverse, hk8, Bool.and_eq_true, Bool.or_eq_true, beq_iff_eq, List.contains_eq_mem,
      decide_eq_true_eq, hspoilt, Bool.not_eq_true', decide_eq_false_iff_not]
    tauto

theorem Cache.mem_lostNotices (c : Cache) (b : NoticeBody) :
    b ∈ c.lostNotices ↔ (c.armed = true ∧ b = .flushDone false) ∨ b = .mountState .lost c.nonClean := by
  cases ha : c.armed <;> simp [Cache.lostNotices, ha]

theorem Cache.lostNotices_length (c : Cache) : c.lostNotices.length ≤ 2 := by
  unfold Cache.lostNotices
  split <;> simp

/-- What an entry to LOST posts finds its place in a queue with room for two (R58, R81). -/
theorem lost_notices {l : Link} {c : Cache} {bs : List NoticeBody} (hbs : bs.Perm c.lostNotices) (hl : l.notices.length ≤ 14) :
    (c.armed = true → l.options.noticeMask.getLsbD 6 = true → (l.postAll bs).hasNotice (.flushDone false)) ∧
    (l.options.noticeMask.getLsbD 1 = true → (l.postAll bs).hasNotice (.mountState .lost c.nonClean)) := by
  have hlen : l.notices.length + bs.length ≤ 16 := by
    have := c.lostNotices_length
    rw [hbs.length_eq]
    omega
  exact ⟨fun ha hm => Link.postAll_brings (by simp) (hbs.mem_iff.2 ((c.mem_lostNotices _).2 (.inl ⟨ha, rfl⟩))) hm hlen,
    fun hm => Link.postAll_brings (by simp) (hbs.mem_iff.2 ((c.mem_lostNotices _).2 (.inr rfl))) hm hlen⟩

/-- What a failure leaves behind, be the mount LOST or not. -/
theorem handFailure_both {s : State} {r : Run} (hk : r.kind = .flush ∨ r.kind = .mergeRead) (hr : s.runEnded r = false) (e : RunError) :
    let u := s.handFailure r e
    (∀ k, (u.cache.line k).tag = (s.cache.line k).tag) ∧ u.cache.ram = s.cache.ram ∧ u.cache.lru = s.cache.lru ∧
    u.card.lastRun = s.card.lastRun ∧ u.card.active = s.card.active ∧ u.card.failCount = s.card.failCount ∧ u.cache.armed = false ∧
    (∀ k, ((∃ tr, s.Carried r k tr) → (u.cache.line k).failures = min 3 ((s.cache.line k).failures + 1)) ∧
      ((∀ tr, ¬ s.Carried r k tr) → (u.cache.line k).failures = (s.cache.line k).failures)) := by
  have hram : (s.recounted r).cache.ram = s.cache.ram := by rw [recounted_cache]
  have hlru : (s.recounted r).cache.lru = s.cache.lru := by rw [recounted_cache]
  by_cases h3 : s.ThirdFailure r
  · obtain ⟨free, rot, queued, lines, bs, hlost, -, hdirtied, -⟩ := enterLost_frame (s.recounted r)
    intro u
    have hu : u = (s.recounted r).enterLost.postWritten (s.writtenTracks r) := handFailure_lost hk hr h3 e
    rw [postWritten_eq, hlost] at hu
    rw [hu]
    refine ⟨fun k => (hdirtied.line k).tag.trans (recounted_tag s r k), hram, hlru, rfl, rfl, rfl, rfl, fun k => ?_⟩
    have hline : ((State.cache { s.recounted r with cache := (s.recounted r).cache.lapsed lines }).line k).failures =
        ((s.recounted r).cache.line k).failures := (hdirtied.line k).failures
    obtain ⟨hraised, hkept⟩ := recounted_failures s r k
    exact ⟨fun h => hline.trans (hraised h), fun h => hline.trans (hkept h)⟩
  · obtain ⟨flushQ, hu, -⟩ := handFailure_stays hk hr h3 e
    intro u
    have hu' : u = s.failed r flushQ := hu
    rw [hu']
    exact ⟨recounted_tag s r, hram, hlru, rfl, rfl, rfl, rfl, recounted_failures s r⟩

/-- The third failure of a line takes the mount to LOST (R55, R56, R81, R125). -/
theorem handFailure_lost_spec {s : State} {r : Run} (hk : r.kind = .flush ∨ r.kind = .mergeRead) (hr : s.runEnded r = false)
    (h3 : s.ThirdFailure r) (e : RunError) :
    let u := s.handFailure r e
    u.mount = { s.mount with state := .lost } ∧ u.cache.flushQ = [] ∧ u.drive = { s.drive with latch := true } ∧
    u.cap.st = s.abandoned ∧
    (s.cache.armed = true → s.link.options.noticeMask.getLsbD 6 = true → s.link.notices.length ≤ 14 →
      u.link.hasNotice (.flushDone false)) ∧
    (∀ k l x, s.cache.sector k l = some x → (s.Spoils r k l x ∨ s.Returns r k l x) →
      ∃ y, u.cache.sector k l = some y ∧ y.state = .dirty) ∧
    (s.link.options.noticeMask.getLsbD 1 = true → s.link.notices.length ≤ 14 →
      ∃ n, u.link.hasNotice (.mountState .lost n) ∧ n = u.cache.nonClean) := by
  obtain ⟨free, rot, queued, lines, bs, hlost, -, hdirtied, hbs⟩ := enterLost_frame (s.recounted r)
  intro u
  have hu : u = (s.recounted r).enterLost.postWritten (s.writtenTracks r) := handFailure_lost hk hr h3 e
  rw [postWritten_eq, hlost] at hu
  rw [hu]
  have harmed : ({ (s.recounted r).cache with lines := lines } : Cache).armed = s.cache.armed := by rw [recounted_cache]
  have hnotices : s.link.notices.length ≤ 14 → _ := fun hl => lost_notices (l := s.link) hbs hl
  refine ⟨rfl, rfl, rfl, captureAbandon_st (s.recounted r), fun ha hm hl => ?_, fun k l x hx hs => ?_, fun hm hl => ?_⟩
  · exact Link.postAll_hasNotice (by simp) ((hnotices hl).1 (harmed.trans ha) hm) _
  · have hdirty := (recounted_sector hr hx).1 hs
    exact ⟨_, hdirtied.of_dirty hdirty rfl, rfl⟩
  · exact ⟨_, Link.postAll_hasNotice (by simp) ((hnotices hl).2 hm) _, rfl⟩

end Sys2Proof.Machine
end

section
/-! PROOFS. What is unsaved stays in the cache when it reacts by itself (04 R69 to R72): no line that holds a non-clean sector is taken,
and no sector becomes non-clean. -/

namespace Sys2Proof.Machine

/-- A line of a track with a non-clean sector: what a mount loses when it cannot be written. -/
def Line.Unsaved (a : Line) : Prop := a.tag ≠ none ∧ a.dirty = true

/-- Some line holds something unsaved. -/
def Cache.HoldsUnsaved (c : Cache) : Prop := ∃ k, (c.line k).Unsaved

theorem Cache.holdsUnsaved_iff (c : Cache) : c.HoldsUnsaved ↔
    ∃ k tr l x, (c.line k).tag = some tr ∧ c.sector k l = some x ∧ x.state.nonClean = true := by
  refine exists_congr fun k => ?_
  simp only [Line.Unsaved, Line.dirty, List.any_eq_true, Option.ne_none_iff_exists', List.mem_iff_getElem?, Cache.sector]
  exact ⟨fun ⟨⟨tr, ht⟩, x, ⟨l, hx⟩, hn⟩ => ⟨tr, l, x, ht, hx, hn⟩, fun ⟨tr, l, x, ht, hx, hn⟩ => ⟨⟨tr, ht⟩, x, ⟨l, hx⟩, hn⟩⟩

theorem Cache.HoldsUnsaved.nonClean {c : Cache} (h : c.HoldsUnsaved) : c.nonClean ≠ 0 := by
  obtain ⟨k, tr, l, x, -, hx, hn⟩ := c.holdsUnsaved_iff.1 h
  exact Cache.nonClean_ne_zero_of hx hn

theorem Cache.nonClean_eq_zero_iff_lines (c : Cache) : c.nonClean = 0 ↔ ∀ k, (c.line k).dirty = false := by
  rw [Cache.nonClean_eq_zero]
  simp only [Line.dirty, List.any_eq_false, List.mem_iff_getElem?, Bool.not_eq_true, Cache.sector]
  exact ⟨fun h k x ⟨l, hx⟩ => h k l x hx, fun h k l x hx => h k x ⟨l, hx⟩⟩

/-- What was unsaved in a line still is. -/
def Line.Retains (a b : Line) : Prop := a.Unsaved → b.Unsaved

/-- As many lines as before, and what was unsaved in any of them still is. -/
structure Cache.Retains (c d : Cache) : Prop where
  length : d.lines.length = c.lines.length
  line : ∀ k, (c.line k).Retains (d.line k)

theorem Cache.Retains.refl (c : Cache) : c.Retains c := ⟨rfl, fun _ h => h⟩

theorem Cache.Retains.trans {c d e : Cache} (h : c.Retains d) (h' : d.Retains e) : c.Retains e :=
  ⟨h'.length.trans h.length, fun k hk => h'.line k (h.line k hk)⟩

theorem Cache.Retains.holds {c d : Cache} (h : c.Retains d) (hc : c.HoldsUnsaved) : d.HoldsUnsaved :=
  hc.imp fun k hk => h.line k hk

theorem Sector.enter_dirty_nonClean (x : Sector) : (x.enter .dirty).state.nonClean = true := by rw [Sector.enter_state]; rfl

theorem Cache.Dirtied.retains {c d : Cache} (h : c.Dirtied d) : c.Retains d where
  length := h.length
  line k := by
    rintro ⟨htag, hdirty⟩
    refine ⟨by rwa [(h.line k).tag], ?_⟩
    obtain ⟨x, hx, hn⟩ := List.any_eq_true.1 hdirty
    obtain ⟨l, hl⟩ := List.mem_iff_getElem?.1 hx
    refine List.any_eq_true.2 ?_
    rcases (h.line k).sector l x hl with hy | hy
    · exact ⟨x, List.mem_of_getElem? hy, hn⟩
    · exact ⟨_, List.mem_of_getElem? hy, x.enter_dirty_nonClean⟩

/-! ## The cache's own reactions -/

/-- What was unsaved in any line still is, and no line that was clean has a non-clean sector. -/
structure Cache.Recalls (c d : Cache) : Prop where
  length : d.lines.length = c.lines.length
  line : ∀ k, (c.line k).Retains (d.line k)
  clean : ∀ k, (c.line k).dirty = false → (d.line k).dirty = false

theorem Cache.Recalls.retains {c d : Cache} (h : c.Recalls d) : c.Retains d := ⟨h.length, h.line⟩

theorem Cache.Recalls.nonClean {c d : Cache} (h : c.Recalls d) (hc : c.nonClean = 0) : d.nonClean = 0 :=
  d.nonClean_eq_zero_iff_lines.2 fun k => h.clean k (c.nonClean_eq_zero_iff_lines.1 hc k)

theorem Cache.Recalls.refl (c : Cache) : c.Recalls c := ⟨rfl, fun _ h => h, fun _ h => h⟩

theorem Cache.Recalls.trans {c d e : Cache} (h : c.Recalls d) (h' : d.Recalls e) : c.Recalls e :=
  ⟨h'.length.trans h.length, fun k hk => h'.line k (h.line k hk), fun k hk => h'.clean k (h.clean k hk)⟩

theorem Cache.Recalls.of_lines {c d : Cache} (h : d.lines = c.lines) : c.Recalls d := by
  have hline : ∀ k, d.line k = c.line k := fun k => by rw [Cache.line, h, Cache.line]
  exact ⟨by rw [h], fun k => by rw [hline]; exact id, fun k => by rw [hline]; exact id⟩

theorem freshSectors_clean (g : Geometry) (m : Mount) (ds : List Defect) (tr : Track) :
    (freshSectors g m ds tr).any (fun x => x.state.nonClean) = false := by
  rw [List.any_eq_false]
  intro x hx
  obtain ⟨l, -, rfl⟩ := List.mem_map.1 hx
  cases h : sectorHole g m tr l <;> simp [SectorState.nonClean]

/-- A line that may be taken holds nothing unsaved (R69). -/
theorem pickLine_saved {c : Cache} {order : List Nat} {i : Nat} (h : c.pickLine order = some i) : ¬ (c.line i).Unsaved := by
  rintro ⟨htag, hdirty⟩
  rcases Cache.pickLine_spec h with hfree | hgoes
  · exact htag hfree
  · simp [Line.evictable, hdirty] at hgoes

theorem Cache.line_set (c : Cache) (i k : Nat) (a : Line) :
    ({ c with lines := c.lines.set i a } : Cache).line k = c.line k ∨
      k = i ∧ ({ c with lines := c.lines.set i a } : Cache).line k = a := by
  unfold Cache.line
  simp only [List.getD_eq_getElem?_getD, List.getElem?_set]
  by_cases hk : i = k
  · subst hk
    by_cases hi : i < c.lines.length
    · exact .inr ⟨rfl, by simp [hi]⟩
    · exact .inl (by simp [hi])
  · exact .inl (by simp [hk])

theorem Cache.recalls_occupy {c : Cache} {i : Nat} (h : ¬ (c.line i).Unsaved) (g : Geometry) (m : Mount) (tr : Track) (o : Origin) :
    c.Recalls (c.occupy g m i tr o) := by
  let fresh : Line :=
    { tag := some tr, zone := g.zoneOf tr, origin := o, pinned := false, failures := 0, sectors := freshSectors g m c.defects tr }
  have hline : ∀ k, (c.occupy g m i tr o).line k = c.line k ∨ k = i ∧ (c.occupy g m i tr o).line k = fresh :=
    fun k => c.line_set i k fresh
  refine ⟨List.length_set, fun k hk => ?_, fun k hk => ?_⟩
  · rcases hline k with hl | ⟨rfl, -⟩
    · rwa [hl]
    · exact absurd hk h
  · rcases hline k with hl | ⟨-, hl⟩
    · rwa [hl]
    · rw [hl]
      exact freshSectors_clean g m c.defects tr

/-- A line of which MISSING sectors become PENDING (R28). -/
theorem Cache.recalls_activate (c : Cache) (g : Geometry) (lead t i : Nat) (tr : Track) : c.Recalls (c.activate g lead t i tr) := by
  let turn : Line → Line := fun a => { a with
    pinned := true, origin := .demand, sectors := a.sectors.map (fun x => if x.state = .missing then x.enter .pending else x) }
  have hdirty : ∀ a : Line, (turn a).dirty = a.dirty := fun a => by
    simp only [turn, Line.dirty, List.any_map]
    refine congrArg a.sectors.any (funext fun x => ?_)
    by_cases hx : x.state = .missing
    · simp [hx, Sector.enter_state, SectorState.nonClean]
    · simp [hx]
  have hline : ∀ k, (c.activate g lead t i tr).line k = c.line k ∨ (c.activate g lead t i tr).line k = turn (c.line k) := fun k => by
    by_cases hki : k ≠ i ∨ i < c.lines.length
    · have h := c.line_modLine i k turn (by tauto)
      by_cases hk : k = i
      · exact .inr (h.trans (if_pos hk))
      · exact .inl (h.trans (if_neg hk))
    · have hsame : c.lines.modify i turn = c.lines := List.modify_eq_self (by omega)
      exact .inl (congrArg (fun ls : List Line => ls.getD k Line.free) hsame)
  refine ⟨List.length_modify _ _ _, fun k hk => ?_, fun k hk => ?_⟩
  · rcases hline k with h | h
    · rwa [h]
    · rw [h]
      exact ⟨hk.1, (hdirty _).trans hk.2⟩
  · rcases hline k with h | h
    · rwa [h]
    · rw [h, hdirty]
      exact hk

theorem Line.dirty_mapIdx {f : Nat → Sector → Sector} (hf : ∀ l x, (f l x).state.nonClean = x.state.nonClean) (a : Line) :
    ({ a with sectors := a.sectors.mapIdx f } : Line).dirty = a.dirty := by
  rw [Bool.eq_iff_iff]
  simp only [Line.dirty, List.any_eq_true, List.mem_iff_getElem?, List.getElem?_mapIdx, Option.map_eq_some_iff]
  constructor
  · rintro ⟨y, ⟨l, x, hx, rfl⟩, hn⟩
    exact ⟨x, ⟨l, hx⟩, (hf l x).symm.trans hn⟩
  · rintro ⟨x, ⟨l, hx⟩, hn⟩
    exact ⟨f l x, ⟨l, x, hx, rfl⟩, (hf l x).trans hn⟩

/-- A fill that fails takes PENDING sectors to MISSING: none of them holds anything unsaved (R77). -/
theorem Cache.recalls_failFill (c : Cache) (g : Geometry) (i : Nat) (tr : Track) (r : Run) : c.Recalls (c.failFill g i tr r) := by
  let miss : Nat → Sector → Sector := fun l x => if x.state = .pending ∧ touches g tr r l then x.enter .missing else x
  have hmiss : ∀ l x, (miss l x).state.nonClean = x.state.nonClean := fun l x => by
    by_cases hx : x.state = .pending ∧ touches g tr r l = true
    · simp [miss, hx, Sector.enter_state, SectorState.nonClean]
    · simp [miss, hx]
  have hline : ∀ k, (c.failFill g i tr r).line k =
      if k = i then { c.line k with sectors := (c.line k).sectors.mapIdx miss } else c.line k := fun k =>
    c.line_modLine i k (fun a => { a with sectors := a.sectors.mapIdx miss }) (.inl rfl)
  refine ⟨List.length_modify _ _ _, fun k hk => ?_, fun k hk => ?_⟩
  · rw [hline]
    split
    · exact ⟨hk.1, (Line.dirty_mapIdx hmiss _).trans hk.2⟩
    · exact hk
  · rw [hline]
    split
    · exact (Line.dirty_mapIdx hmiss _).trans hk
    · exact hk

theorem Cache.recalls_chooseForced (c : Cache) : c.Recalls c.chooseForced := .of_lines (by unfold Cache.chooseForced; split <;> rfl)

theorem Cache.recalls_retryWaiting (c : Cache) (g : Geometry) (m : Mount) (lead t : Nat) (tr : Track) :
    c.Recalls (c.retryWaiting g m lead t tr) := by
  unfold Cache.retryWaiting
  split
  · rename_i i hi
    exact (recalls_occupy (pickLine_saved hi) g m tr .demand).trans (recalls_activate _ g lead t i tr)
  · split
    · exact c.recalls_chooseForced
    · split
      · exact .refl c
      · exact .trans (d := { c with forced := none }) (.of_lines rfl) (recalls_chooseForced _)

theorem Cache.recalls_tryAhead (g : Geometry) (m : Mount) (c : Cache) (tr : Track) : c.Recalls (c.tryAhead g m tr) := by
  unfold Cache.tryAhead
  split
  · exact .refl c
  · split
    · exact .refl c
    · rename_i i hi
      exact (recalls_occupy (pickLine_saved hi) g m tr .ahead).trans (.of_lines rfl)

theorem Cache.recalls_considerAhead (c : Cache) (g : Geometry) (m : Mount) (d : Bool) : c.Recalls (c.considerAhead g m d) := by
  unfold Cache.considerAhead
  split
  · exact foldl_preserves (fun x => c.Recalls x) _ _ c (.refl c) (fun x tr _ hx => hx.trans (recalls_tryAhead g m x tr))
  · exact .refl c

theorem recalls_lookAhead (s : State) : s.cache.Recalls s.lookAhead.cache := by
  unfold State.lookAhead
  split
  · exact Cache.recalls_considerAhead _ _ _ _
  · exact .refl _

/-- The cache's own reactions take no line that holds something unsaved, and make no sector non-clean (R69 to R72). -/
theorem recalls_react (s : State) (old : Cache) : s.cache.Recalls (s.react old).cache := by
  have hwaiting : s.cache.Recalls (s.reactWaiting old).cache := by
    unfold State.reactWaiting
    split
    · exact .refl _
    · split
      · exact Cache.recalls_retryWaiting _ _ _ _ _ _
      · exact .refl _
  unfold State.react State.reactAhead
  split
  · exact hwaiting.trans (recalls_lookAhead _)
  · exact hwaiting

end Sys2Proof.Machine
end

section
/-! PROOFS. The steps of the fourth failure in a row (08 R142, R158, log 17): what the failure and the card engine each leave behind. -/

namespace Sys2Proof.Machine

/-! ## An answer keeps the notices that wait -/

theorem Link.answer_hasNotice {l : Link} {b : NoticeBody} (h : l.hasNotice b) (st : ReplyStatus) (d : Byte) (bs : List Byte) :
    (l.answer st d bs).hasNotice b := by
  rcases l.answer_cases st d bs with e | ⟨q, -, e⟩ | ⟨q, -, -, -, e⟩
  · rwa [e]
  · rw [e]
    exact h
  · rw [e]
    exact Link.startTx_hasNotice h

theorem Link.answer_notices_length (l : Link) (st : ReplyStatus) (d : Byte) (bs : List Byte) :
    (l.answer st d bs).notices.length ≤ l.notices.length := by
  rcases l.answer_cases st d bs with e | ⟨q, -, e⟩ | ⟨q, -, -, -, e⟩
  · rw [e]
  · rw [e]
  · rw [e]
    exact (Link.startTx_bounds _).1

/-! ## A failure that reports: the card record and the notices -/

/-- `t` follows `s` with at most `k` notices more; of the card record the queued run may have gone and the merge buffer have changed. -/
structure State.Reports (k : Nat) (s t : State) : Prop where
  card : t.card = { s.card with queued := t.card.queued, mergeBuf := t.card.mergeBuf }
  queued : t.card.queued = s.card.queued ∨ t.card.queued = none
  link : ∃ bs, bs.length ≤ k ∧ t.link = s.link.postAll bs

theorem State.Reports.trans {j k : Nat} {s t u : State} (h : s.Reports j t) (h' : t.Reports k u) : s.Reports (j + k) u where
  card := by
    have hcard := h'.card
    rw [h.card] at hcard
    exact hcard
  queued := by
    rcases h'.queued with hq | hq
    · rw [hq]
      exact h.queued
    · exact .inr hq
  link := by
    obtain ⟨as, has, hl⟩ := h.link
    obtain ⟨bs, hbs, hl'⟩ := h'.link
    refine ⟨as ++ bs, ?_, ?_⟩
    · rw [List.length_append]
      omega
    · rw [hl', hl, Link.postAll_append]

theorem State.Reports.options {k : Nat} {s t : State} (h : s.Reports k t) : t.link.options = s.link.options := by
  obtain ⟨bs, -, hl⟩ := h.link
  rw [hl, Link.postAll_options]

theorem State.Reports.executing {k : Nat} {s t : State} (h : s.Reports k t) : t.link.executing = s.link.executing := by
  obtain ⟨bs, -, hl⟩ := h.link
  rw [hl, Link.postAll_executing]

theorem State.Reports.notices {k : Nat} {s t : State} (h : s.Reports k t) : t.link.notices.length ≤ s.link.notices.length + k := by
  obtain ⟨bs, hbs, hl⟩ := h.link
  have := s.link.postAll_notices_length bs
  rw [hl]
  omega

theorem State.Reports.hasNotice {k : Nat} {s t : State} (h : s.Reports k t) {b : NoticeBody} (hb : ∀ m set, b ≠ .extentReached m set)
    (hn : s.link.hasNotice b) : t.link.hasNotice b := by
  obtain ⟨bs, -, hl⟩ := h.link
  rw [hl]
  exact Link.postAll_hasNotice hb hn bs

theorem State.Reports.hasReply {k : Nat} {s t : State} (h : s.Reports k t) {kind tag : Byte} {p : List Byte}
    (hr : s.link.hasReply kind tag p) : t.link.hasReply kind tag p := by
  obtain ⟨bs, -, hl⟩ := h.link
  rw [hl]
  exact Link.postAll_hasReply hr bs

/-! ## The failure goes to the run's owner (R77, R84, R146, R157) -/

theorem fillFailed_cases (s : State) (r : Run) (e : RunError) : s.fillFailed r e = s ∨ ∃ i tr bs, bs.length ≤ 1 ∧
    s.fillFailed r e = { s with cache := s.cache.failFill s.geom i tr r, link := s.link.postAll bs } := by
  unfold State.fillFailed
  split
  · rename_i i tr _ _
    split
    · exact .inl rfl
    · refine .inr ⟨i, tr, if (s.cache.line i).origin == .demand then [.fillError tr e] else [], ?_, ?_⟩
      · split <;> simp
      · cases (s.cache.line i).origin == .demand <;> rfl
  · exact .inl rfl

theorem handFailure_fill {s : State} {r : Run} (hk : r.kind = .fill) (e : RunError) : s.handFailure r e = s.fillFailed r e := by
  simp only [State.handFailure, hk]

/-- The failure of a run of an ended mount empties the merge buffer at most (R146). -/
theorem handFailure_ended {s : State} {r : Run} (hk : r.kind ≠ .panelRead ∧ r.kind ≠ .panelWrite) (hr : s.runEnded r = true)
    (e : RunError) : ∃ buf, s.handFailure r e = { s with card := { s.card with mergeBuf := buf } } := by
  cases hkind : r.kind with
  | fill =>
    refine ⟨s.card.mergeBuf, (handFailure_fill hkind e).trans ?_⟩
    unfold State.fillFailed
    split
    · exact if_pos (by simp [hr])
    · rfl
  | flush =>
    refine ⟨s.card.mergeBuf, ?_⟩
    simp only [State.handFailure, hkind]
    exact if_pos hr
  | mergeRead =>
    refine ⟨[], ?_⟩
    simp only [State.handFailure, hkind]
    exact if_pos hr
  | panelRead => exact absurd hkind hk.1
  | panelWrite => exact absurd hkind hk.2

theorem writtenTracks_length (s : State) (r : Run) : (s.writtenTracks r).length ≤ 8 := by
  have hspoilt : (s.spoiltLines r).length ≤ 8 := by
    unfold State.spoiltLines
    split
    · exact (List.length_filter_le _ _).trans (by simp)
    · simp
  exact (List.length_filterMap_le _ _).trans ((List.length_filter_le _ _).trans hspoilt)

/-- The notices of a failure that leaves the mount standing (R66, R81). -/
def State.failNotices (s : State) (r : Run) : List NoticeBody :=
  (if s.cache.armed then [.flushDone false] else []) ++ (s.writtenTracks r).map (fun tr => .trackWritten tr)

theorem failNotices_length (s : State) (r : Run) : (s.failNotices r).length ≤ 9 := by
  have := writtenTracks_length s r
  unfold State.failNotices
  split <;> simp <;> omega

/-- The shapes of a failure: of a run of an ended mount or a fill, of a write that takes the mount to LOST, and of one that does not. -/
theorem handFailure_cases {r : Run} (hk : r.kind ≠ .panelRead ∧ r.kind ≠ .panelWrite) (s : State) (e : RunError) :
    (∃ buf, s.handFailure r e = { s with card := { s.card with mergeBuf := buf } }) ∨
    (r.kind = .fill ∧ ∃ i tr bs, bs.length ≤ 1 ∧
      s.handFailure r e = { s with cache := s.cache.failFill s.geom i tr r, link := s.link.postAll bs }) ∨
    ((r.kind = .flush ∨ r.kind = .mergeRead) ∧ s.runEnded r = false ∧ s.ThirdFailure r ∧
      s.handFailure r e = (s.recounted r).enterLost.postWritten (s.writtenTracks r)) ∨
    ((r.kind = .flush ∨ r.kind = .mergeRead) ∧ ¬ s.ThirdFailure r ∧ ∃ flushQ, s.handFailure r e = s.failed r flushQ ∧
      (s.recounted r).requeue r (s.spoiltLines r) =
        { s.recounted r with cache := { (s.recounted r).cache with flushQ := flushQ } }) := by
  by_cases hr : s.runEnded r = true
  · exact .inl (handFailure_ended hk hr e)
  · have hr := Bool.eq_false_iff.2 hr
    by_cases hfill : r.kind = .fill
    · rw [handFailure_fill hfill]
      rcases fillFailed_cases s r e with h | h
      · exact .inl ⟨s.card.mergeBuf, h⟩
      · exact .inr (.inl ⟨hfill, h⟩)
    · have hwrite : r.kind = .flush ∨ r.kind = .mergeRead := by
        revert hk hfill
        cases r.kind <;> simp
      by_cases h3 : s.ThirdFailure r
      · exact .inr (.inr (.inl ⟨hwrite, hr, h3, handFailure_lost hwrite hr h3 e⟩))
      · exact .inr (.inr (.inr ⟨hwrite, h3, handFailure_stays hwrite hr h3 e⟩))

theorem reports_handFailure {r : Run} (hk : r.kind ≠ .panelRead ∧ r.kind ≠ .panelWrite) (s : State) (e : RunError) :
    s.Reports 10 (s.handFailure r e) := by
  rcases handFailure_cases hk s e with ⟨buf, h⟩ | ⟨-, i, tr, bs, hbs, h⟩ | ⟨-, -, -, h⟩ | ⟨-, -, flushQ, h, -⟩
  · rw [h]
    exact ⟨rfl, .inl rfl, [], by simp, rfl⟩
  · rw [h]
    exact ⟨rfl, .inl rfl, bs, by omega, rfl⟩
  · obtain ⟨free, rot, queued, lines, bs, hlost, hor, -, hbs⟩ := enterLost_frame (s.recounted r)
    rw [h, postWritten_eq, hlost]
    refine ⟨rfl, hor, bs ++ (s.writtenTracks r).map (fun tr => .trackWritten tr), ?_, (Link.postAll_append _ _ _).symm⟩
    have h2 := Cache.lostNotices_length { (s.recounted r).cache with lines := lines }
    have h8 := writtenTracks_length s r
    rw [List.length_append, List.length_map, hbs.length_eq]
    omega
  · rw [h]
    exact ⟨rfl, .inl rfl, s.failNotices r, (failNotices_length s r).trans (by omega), rfl⟩

/-- The failure of a run while no mount stands leaves the mount, the drive and the capture unit alone. -/
structure State.FailedAside (s t : State) : Prop where
  mount : t.mount = s.mount
  drive : t.drive = s.drive
  cap : t.cap = s.cap
  defects : t.cache.defects = s.cache.defects
  flushQ : t.cache.flushQ = s.cache.flushQ
  armed : s.cache.armed = false → t.cache.armed = false

theorem handFailure_fallen {r : Run} (hk : r.kind ≠ .panelRead ∧ r.kind ≠ .panelWrite) {s : State} (hst : ¬ s.Stands) (e : RunError) :
    s.FailedAside (s.handFailure r e) := by
  rcases handFailure_cases hk s e with ⟨buf, h⟩ | ⟨-, i, tr, bs, -, h⟩ | ⟨-, -, h3, -⟩ | ⟨-, -, flushQ, h, hq⟩
  · rw [h]
    exact ⟨rfl, rfl, rfl, rfl, rfl, id⟩
  · rw [h]
    exact ⟨rfl, rfl, rfl, rfl, rfl, id⟩
  · exact absurd h3.1 hst
  · have hdefects : (s.recounted r).cache.defects = s.cache.defects := by rw [recounted_cache]
    rw [h]
    exact ⟨rfl, rfl, rfl, hdefects, failed_queue_fallen hq hst, fun _ => rfl⟩

/-! ## The mount between the failure and the departure of the card -/

/-- The mount of `v` still stands in `t`, the failed run being `r`: what was unsaved is held, and an armed FLUSH_DONE is armed yet or has
been posted. At most `k` notices have been posted. -/
structure State.StandsYet (r : Run) (k : Nat) (v t : State) : Prop where
  mount : t.mount = v.mount
  drive : t.drive = v.drive
  cap : t.cap = v.cap
  defects : t.cache.defects = v.cache.defects
  retains : v.cache.Retains t.cache
  clean : v.cache.nonClean = 0 → r.kind ≠ .flush → r.kind ≠ .mergeRead → t.cache.nonClean = 0
  options : t.link.options = v.link.options
  notices : t.link.notices.length ≤ v.link.notices.length + k
  armed : v.cache.armed = true → v.link.options.noticeMask.getLsbD 6 = true → v.link.notices.length ≤ 4 →
    t.cache.armed = true ∨ t.link.hasNotice (.flushDone false)

/-- The mount of `v` is LOST in `t` (R56, R81, R125). -/
structure State.IsLost (v t : State) : Prop where
  mount : t.mount = { v.mount with state := .lost }
  drive : t.drive = { v.drive with latch := true }
  cap : t.cap.st = v.abandoned
  defects : t.cache.defects = v.cache.defects
  flushQ : t.cache.flushQ = []
  armed : t.cache.armed = false
  flushDone : v.cache.armed = true → v.link.options.noticeMask.getLsbD 6 = true → v.link.notices.length ≤ 4 →
    t.link.hasNotice (.flushDone false)
  mountState : v.link.options.noticeMask.getLsbD 1 = true → v.link.notices.length ≤ 4 → ∃ n, t.link.hasNotice (.mountState .lost n)

/-- The mount of `v` has ended in UNMOUNTED in `t` (R53, R54, R125). -/
structure State.IsGone (v t : State) : Prop where
  mount : t.mount = Mount.cleared v.mount.serial
  drive : t.drive = { v.drive with latch := true }
  cap : t.cap.st = v.abandoned
  lines : t.cache.lines = v.cache.lines.map (fun _ => Line.free)
  defects : t.cache.defects = []
  flushQ : t.cache.flushQ = []
  armed : t.cache.armed = false
  mountState : v.link.options.noticeMask.getLsbD 1 = true → v.link.notices.length ≤ 4 → t.link.hasNotice (.mountState .unmounted 0)

theorem State.StandsYet.refl (r : Run) (v : State) : v.StandsYet r 0 v where
  mount := rfl
  drive := rfl
  cap := rfl
  defects := rfl
  retains := .refl _
  clean h _ _ := h
  options := rfl
  notices := le_refl _
  armed h _ _ := .inl h

theorem counted_retains (s : State) (r : Run) : s.cache.Retains (s.counted r) where
  length := by
    unfold State.counted
    split
    · rfl
    · split
      · exact List.length_modify _ _ _
      · rfl
  line k := by
    obtain ⟨htag, hsectors, -, -⟩ := counted_line s r k
    exact fun ⟨h, hd⟩ => ⟨by rwa [htag], by rwa [Line.dirty, hsectors]⟩

theorem recounted_retains (s : State) (r : Run) : s.cache.Retains (s.recounted r).cache :=
  (spoiled_dirtied s r).retains.trans (counted_retains (s.spoilt r) r)

/-- A failure takes a standing mount to LOST, or leaves it standing (R55, R84). -/
theorem handFailure_standing {r : Run} (hk : r.kind ≠ .panelRead ∧ r.kind ≠ .panelWrite) (v : State) (e : RunError) :
    (v.IsLost (v.handFailure r e) ∧ (r.kind = .flush ∨ r.kind = .mergeRead)) ∨ v.StandsYet r 9 (v.handFailure r e) := by
  rcases handFailure_cases hk v e with ⟨buf, h⟩ | ⟨hfill, i, tr, bs, hbs, h⟩ | ⟨hwrite, hr, h3, h⟩ | ⟨hwrite, -, flushQ, h, -⟩
  · rw [h]
    exact .inr ⟨rfl, rfl, rfl, rfl, .refl _, fun h _ _ => h, rfl, Nat.le_add_right _ _, fun ha _ _ => .inl ha⟩
  · have hrecalls := v.cache.recalls_failFill v.geom i tr r
    have hlen := v.link.postAll_notices_length bs
    rw [h]
    exact .inr ⟨rfl, rfl, rfl, rfl, hrecalls.retains, fun hc _ _ => hrecalls.nonClean hc, Link.postAll_options _ _,
      hlen.trans (Nat.add_le_add_left (hbs.trans (by decide)) _), fun ha _ _ => .inl ha⟩
  · obtain ⟨hmount, hflushQ, hdrive, hcap, hflush, -, hstate⟩ := handFailure_lost_spec hwrite hr h3 e
    obtain ⟨-, -, -, -, -, -, harmed, -⟩ := handFailure_both hwrite hr e
    refine .inl ⟨⟨hmount, hdrive, hcap, ?_, hflushQ, harmed, fun ha hm hl => hflush ha hm (by omega), fun hm hl => ?_⟩, hwrite⟩
    · obtain ⟨free, rot, queued, lines, bs, hlost, -, -, -⟩ := enterLost_frame (v.recounted r)
      have hdefects : (v.recounted r).cache.defects = v.cache.defects := by rw [recounted_cache]
      rw [h, postWritten_eq, hlost]
      exact hdefects
    · obtain ⟨n, hn, -⟩ := hstate hm (by omega)
      exact ⟨n, hn⟩
  · have hlen := (v.link.postAll_notices_length (v.failNotices r)).trans (Nat.add_le_add_left (failNotices_length v r) _)
    have hdefects : (v.recounted r).cache.defects = v.cache.defects := by rw [recounted_cache]
    have hretains := recounted_retains v r
    rw [h]
    refine .inr ⟨rfl, rfl, rfl, hdefects, ⟨hretains.length, hretains.line⟩, fun _ hf hm => ?_, Link.postAll_options _ _, hlen,
      fun ha hm hl => .inr ?_⟩
    · exact absurd hwrite (not_or.2 ⟨hf, hm⟩)
    · refine Link.postAll_brings (bs := v.failNotices r) (by simp) ?_ hm (by have := failNotices_length v r; omega)
      rw [State.failNotices, if_pos ha]
      exact List.mem_append_left _ (List.mem_singleton_self _)

/-- The cache's own reactions leave a standing mount standing. -/
theorem State.StandsYet.react {r : Run} {k : Nat} {v t : State} (h : v.StandsYet r k t) (old : Cache) :
    v.StandsYet r k (t.react old) := by
  obtain ⟨hdefects, -, harmed⟩ := react_marks t old
  have hrecalls := recalls_react t old
  rw [react_eq]
  exact ⟨h.mount, h.drive, h.cap, hdefects.trans h.defects, h.retains.trans hrecalls.retains,
    fun hc hf hm => hrecalls.nonClean (h.clean hc hf hm), h.options, h.notices,
    fun ha hm hl => (h.armed ha hm hl).imp (fun h => harmed.trans h) id⟩

theorem State.IsLost.not_stands {v t : State} (h : v.IsLost t) : ¬ t.Stands := by
  rw [State.Stands, h.mount]
  rintro (h | h) <;> cases h

theorem State.IsGone.not_stands {v t : State} (h : v.IsGone t) : ¬ t.Stands := by
  rw [State.Stands, h.mount]
  rintro (h | h) <;> cases h

theorem isMounted_of_not_stands {s : State} (h : ¬ s.Stands) : s.isMounted = false :=
  s.isMounted_eq_false_iff.2 fun hm => h (.inl hm)

theorem react_of_not_stands {s : State} (h : ¬ s.Stands) (old : Cache) : s.react old = s :=
  react_quiet s old (.inl (isMounted_of_not_stands h))

/-! ## The card engine (R142, R158, R161) -/

/-- The link once waiting panel work has been answered CARD_NOT_READY. -/
def State.panelRefused (s : State) : Link :=
  if s.card.panel.isSome then s.link.answer .cardNotReady CardState.failed.code [] else s.link

theorem engineFails_frame (s : State) : ∃ lines flushQ,
    s.engineFails = { s with
      card := { s.card with queued := none, panel := none }
      cache := { s.cache with lines := lines, flushQ := flushQ }
      link := s.panelRefused.post (.cardState s.card.state s.card.capacity) } ∧
    s.cache.Dirtied { s.cache with lines := lines } ∧
    ({ s.cache with lines := lines } : Cache).nonClean = s.cache.nonClean ∧ (s.isMounted = false → flushQ = s.cache.flushQ) := by
  obtain ⟨lines, flushQ, hw, hdirtied, hq⟩ := withdraw_frame s
  have hclean := (tended_withdraw s).nonClean
  rw [hw] at hclean
  refine ⟨lines, flushQ, ?_, hdirtied, hclean, hq⟩
  rw [State.engineFails, hw, State.answerWaitingPanel, State.panelRefused]
  cases hp : s.card.panel with
  | none =>
    simp only [hp, Option.isSome_none, Bool.false_eq_true, if_false]
    rfl
  | some w =>
    simp only [hp, Option.isSome_some, if_true]
    rfl

end Sys2Proof.Machine
end

section
/-! PROOFS. The fourth failure in a row (08 R142, R158, R161, 03 R54, log 17): its outcome for the card, the link and the mount. -/

namespace Sys2Proof.Machine

/-! ## The card engine and the departure (R54, R142, R158) -/

theorem panelRefused_options (s : State) : s.panelRefused.options = s.link.options := by
  unfold State.panelRefused
  split
  · exact Link.answer_options _ _ _ _
  · rfl

theorem panelRefused_notices_length (s : State) : s.panelRefused.notices.length ≤ s.link.notices.length := by
  unfold State.panelRefused
  split
  · exact Link.answer_notices_length _ _ _ _
  · exact le_refl _

theorem panelRefused_hasNotice {s : State} {b : NoticeBody} (h : s.link.hasNotice b) : s.panelRefused.hasNotice b := by
  unfold State.panelRefused
  split
  · exact Link.answer_hasNotice h _ _ _
  · exact h

theorem engineFails_hasNotice {s : State} {b : NoticeBody} (hb : ∀ m set, b ≠ .extentReached m set) (h : s.link.hasNotice b) :
    s.engineFails.link.hasNotice b := by
  obtain ⟨lines, flushQ, he, -⟩ := engineFails_frame s
  rw [he]
  exact Link.post_hasNotice hb (panelRefused_hasNotice h) _

theorem State.StandsYet.engineFails {r : Run} {k : Nat} {v t : State} (h : v.StandsYet r k t) :
    v.StandsYet r (k + 1) t.engineFails := by
  have hnotice := fun hn : t.link.hasNotice (.flushDone false) => engineFails_hasNotice (s := t) (by simp) hn
  obtain ⟨lines, flushQ, he, hdirtied, hclean, -⟩ := engineFails_frame t
  have hretains := h.retains.trans hdirtied.retains
  have hlen := t.panelRefused.post_notices_length (.cardState t.card.state t.card.capacity)
  have hlen' := panelRefused_notices_length t
  have hnotices := h.notices
  refine ⟨?_, ?_, ?_, ?_, ?_, fun hc hf hm => ?_, ?_, ?_, fun ha hm hl => (h.armed ha hm hl).imp (fun h' => ?_) hnotice⟩ <;> rw [he]
  · exact h.mount
  · exact h.drive
  · exact h.cap
  · exact h.defects
  · exact ⟨hretains.length, hretains.line⟩
  · exact hclean.trans (h.clean hc hf hm)
  · exact (Link.post_options _ _).trans ((panelRefused_options t).trans h.options)
  · change (t.panelRefused.post _).notices.length ≤ _
    omega
  · exact h'

theorem State.IsLost.engineFails {v t : State} (h : v.IsLost t) : v.IsLost t.engineFails := by
  have hnotice := fun (b : NoticeBody) (hb : ∀ m set, b ≠ .extentReached m set) hn => engineFails_hasNotice (s := t) (b := b) hb hn
  have hnot := isMounted_of_not_stands h.not_stands
  obtain ⟨lines, flushQ, he, -, -, hq⟩ := engineFails_frame t
  refine ⟨?_, ?_, ?_, ?_, ?_, ?_, fun ha hm hl => hnotice _ (by simp) (h.flushDone ha hm hl),
    fun hm hl => (h.mountState hm hl).imp fun n hn => hnotice _ (by simp) hn⟩ <;> rw [he]
  · exact h.mount
  · exact h.drive
  · exact h.cap
  · exact h.defects
  · exact (hq hnot).trans h.flushQ
  · exact h.armed

/-- The failure of a run of a LOST mount leaves it as it is. -/
theorem State.IsLost.handFailure {v t : State} (h : v.IsLost t) {r : Run} (hk : r.kind ≠ .panelRead ∧ r.kind ≠ .panelWrite)
    (e : RunError) : v.IsLost (t.handFailure r e) := by
  have haside := handFailure_fallen hk h.not_stands e
  have hreports := reports_handFailure hk t e
  exact ⟨haside.mount.trans h.mount, haside.drive.trans h.drive, (congrArg Capture.st haside.cap).trans h.cap,
    haside.defects.trans h.defects, haside.flushQ.trans h.flushQ, haside.armed h.armed,
    fun ha hm hl => hreports.hasNotice (by simp) (h.flushDone ha hm hl),
    fun hm hl => (h.mountState hm hl).imp fun n hn => hreports.hasNotice (by simp) hn⟩

theorem State.IsGone.handFailure {v t : State} (h : v.IsGone t) {r : Run} (hk : r.kind ≠ .panelRead ∧ r.kind ≠ .panelWrite)
    (e : RunError) : v.IsGone (t.handFailure r e) := by
  have hended : t.runEnded r = true := by
    have hpanel : r.kind.isPanel = false := by
      obtain ⟨h1, h2⟩ := hk
      revert h1 h2
      cases r.kind <;> simp [RunKind.isPanel]
    simp [State.runEnded, hpanel, h.mount, Mount.cleared]
  obtain ⟨buf, heq⟩ := handFailure_ended hk hended e
  rw [heq]
  exact ⟨h.mount, h.drive, h.cap, h.lines, h.defects, h.flushQ, h.armed, h.mountState⟩

theorem cardDeparts_fallen {s : State} (h : ¬ s.Stands) : s.cardDeparts = s :=
  if_pos (by rw [(mountStands_eq_false_iff s).2 h]; rfl)

theorem cardDeparts_stands {s : State} (h : s.Stands) :
    s.cardDeparts = if s.cache.nonClean = 0 then (s.leaveMounted .unmounted).endMount 0 else s.enterLost :=
  if_neg (by rw [(mountStands_iff s).2 h]; decide)

/-- The departure of the card reports the end or the loss of a mount, and nothing else (R54, R58, R81). -/
theorem reports_cardDeparts (s : State) : s.Reports 2 s.cardDeparts := by
  by_cases h : s.Stands
  · rw [cardDeparts_stands h]
    split
    · obtain ⟨rot, queued, hor, hleave⟩ := leaveMounted_frame s (st := .unmounted) (by decide)
      rw [hleave]
      exact ⟨rfl, hor, [.mountState .unmounted 0], by simp, rfl⟩
    · obtain ⟨free, rot, queued, lines, bs, hlost, hor, -, hbs⟩ := enterLost_frame s
      rw [hlost]
      exact ⟨rfl, hor, bs, hbs.length_eq ▸ Cache.lostNotices_length _, rfl⟩
  · rw [cardDeparts_fallen h]
    exact ⟨rfl, .inl rfl, [], by simp, rfl⟩

/-- A mount that still stands is UNMOUNTED by the departure when no sector is non-clean, and LOST when one is (R54). -/
theorem State.StandsYet.departs {r : Run} {k : Nat} {v t : State} (h : v.StandsYet r k t) (hk : k ≤ 10) (hst : v.Stands) :
    (t.cache.nonClean = 0 → v.IsGone t.cardDeparts) ∧ (t.cache.nonClean ≠ 0 → v.IsLost t.cardDeparts) := by
  have hstands : t.Stands := by rw [State.Stands, h.mount]; exact hst
  have habandoned : t.abandoned = v.abandoned := by rw [State.abandoned, h.cap, h.drive]; rfl
  have hcap : t.captureAbandon.cap.st = v.abandoned := (captureAbandon_st t).trans habandoned
  have hnotices := h.notices
  rw [cardDeparts_stands hstands]
  refine ⟨fun hn => ?_, fun hn => ?_⟩
  · obtain ⟨rot, queued, -, hleave⟩ := leaveMounted_frame t (st := .unmounted) (by decide)
    have hlines : (t.captureAbandon.cache.leaveMounted).lines.length = v.cache.lines.length :=
      (List.length_map _).trans ((captureAbandon_lines_length t).trans h.retains.length)
    have hcleared : Mount.cleared t.mount.serial = Mount.cleared v.mount.serial := by rw [h.mount]
    rw [if_pos hn, hleave]
    refine ⟨hcleared, congrArg (fun d : Drive => { d with latch := true }) h.drive,
      hcap, ?_, rfl, rfl, rfl, fun hm hl => ?_⟩
    · change (t.captureAbandon.cache.leaveMounted).lines.map (fun _ => Line.free) = _
      rw [List.map_const', List.map_const', hlines]
    · exact Link.hasNotice_post (l := t.link) _ (by simp) (h.options ▸ hm) (by omega)
  · obtain ⟨free, rot, queued, lines, bs, hlost, -, -, hbs⟩ := enterLost_frame t
    have hposted := lost_notices (l := t.link) hbs
    rw [if_neg hn, hlost]
    refine ⟨congrArg (fun m : Mount => { m with state := .lost }) h.mount, congrArg (fun d : Drive => { d with latch := true }) h.drive,
      hcap, h.defects, rfl, rfl, fun ha hm hl => ?_, fun hm hl => ⟨_, (hposted (by omega)).2 (h.options ▸ hm)⟩⟩
    rcases h.armed ha hm hl with harmed | hnotice
    · exact (hposted (by omega)).1 harmed (h.options ▸ hm)
    · exact Link.postAll_hasNotice (by simp) hnotice bs

/-- The outcome of the fourth failure for a standing mount: LOST or UNMOUNTED, LOST when something is unsaved, and UNMOUNTED when no
sector is non-clean but for a run that writes (R54). -/
structure State.Departs (r : Run) (v t : State) : Prop where
  outcome : v.IsLost t ∨ v.IsGone t
  unsaved : v.cache.HoldsUnsaved → v.IsLost t
  clean : v.cache.nonClean = 0 → r.kind ≠ .flush → r.kind ≠ .mergeRead → v.IsGone t

theorem State.IsLost.departs {r : Run} {v t : State} (h : v.IsLost t) (hk : r.kind = .flush ∨ r.kind = .mergeRead) : v.Departs r t :=
  ⟨.inl h, fun _ => h, fun _ hf hm => absurd hk (not_or.2 ⟨hf, hm⟩)⟩

theorem State.Departs.not_stands {r : Run} {v t : State} (h : v.Departs r t) : ¬ t.Stands :=
  h.outcome.elim (·.not_stands) (·.not_stands)

theorem State.StandsYet.departed {r : Run} {k : Nat} {v t : State} (h : v.StandsYet r k t) (hk : k ≤ 10) (hst : v.Stands) :
    v.Departs r t.cardDeparts := by
  obtain ⟨hgone, hlost⟩ := h.departs hk hst
  refine ⟨?_, fun hu => hlost (h.retains.holds hu).nonClean, fun hc hf hm => hgone (h.clean hc hf hm)⟩
  by_cases hn : t.cache.nonClean = 0
  · exact .inr (hgone hn)
  · exact .inl (hlost hn)

theorem State.Departs.handFailure {v t : State} {r : Run} (h : v.Departs r t) (hk : r.kind ≠ .panelRead ∧ r.kind ≠ .panelWrite)
    (e : RunError) : v.Departs r (t.handFailure r e) :=
  ⟨h.outcome.imp (fun h => h.handFailure hk e) (fun h => h.handFailure hk e), fun hu => (h.unsaved hu).handFailure hk e,
    fun hc hf hm => (h.clean hc hf hm).handFailure hk e⟩

/-- The failure first, then the card engine and the departure. -/
theorem departs_failure_first {r : Run} (hk : r.kind ≠ .panelRead ∧ r.kind ≠ .panelWrite) {v : State} (hst : v.Stands) (e : RunError)
    (old : Cache) :
    v.Departs r (v.handFailure r e).engineFails.cardDeparts ∧
    v.Departs r ((v.handFailure r e).react old).engineFails.cardDeparts := by
  rcases handFailure_standing hk v e with ⟨hlost, hwrite⟩ | hstands
  · have h := hlost.engineFails
    rw [react_of_not_stands hlost.not_stands, cardDeparts_fallen h.not_stands]
    exact ⟨h.departs hwrite, h.departs hwrite⟩
  · exact ⟨hstands.engineFails.departed (le_refl _) hst, (hstands.react old).engineFails.departed (le_refl _) hst⟩

/-- The card engine and the departure first, then the failure. -/
theorem departs_failure_last {r : Run} (hk : r.kind ≠ .panelRead ∧ r.kind ≠ .panelWrite) {v : State} (hst : v.Stands) (e : RunError)
    (old : Cache) : v.Departs r ((v.engineFails.cardDeparts.handFailure r e).react old) := by
  have h := ((State.StandsYet.refl r v).engineFails.departed (by decide) hst).handFailure hk e
  rwa [react_of_not_stands h.not_stands]

/-! ## The card record, the reply and CARD_STATE -/

theorem reports_react (s : State) (old : Cache) : s.Reports 0 (s.react old) := by
  rw [react_eq]
  exact ⟨rfl, .inl rfl, [], le_refl _, rfl⟩

/-- What the card engine leaves for good, whatever is reported after it: both slots and the panel work empty, the waiting panel work's reply
and CARD_STATE (R142, R158, R161). -/
structure State.EngineFailed (x u : State) : Prop where
  card : u.card = { x.card with queued := none, panel := none, mergeBuf := u.card.mergeBuf }
  refused : ∀ q, x.card.panel ≠ none → x.link.executing = some q → q.made = false → q.drop = false →
    u.link.hasReply (0x80#8 + q.kind) q.tag [0x04#8, 0x03#8]
  answered : x.card.panel = none → ∀ kind tag p, x.link.hasReply kind tag p → u.link.hasReply kind tag p
  cardState : x.link.options.noticeMask.getLsbD 0 = true → x.link.notices.length < 16 →
    u.link.hasNotice (.cardState x.card.state x.card.capacity)

theorem engineFailed_of_reports {x u : State} {k : Nat} (h : x.engineFails.Reports k u) : x.EngineFailed u := by
  obtain ⟨lines, flushQ, he, -⟩ := engineFails_frame x
  have hlink : x.engineFails.link = x.panelRefused.post (.cardState x.card.state x.card.capacity) := by rw [he]
  have hcard : x.engineFails.card = { x.card with queued := none, panel := none } := by rw [he]
  refine ⟨?_, fun q hp hq hm hd => h.hasReply ?_, fun hp kind tag p hr => h.hasReply ?_, fun hm hl => h.hasNotice (by simp) ?_⟩
  · have hqueued : u.card.queued = none := h.queued.elim (fun hq => hq.trans (by rw [hcard])) id
    have hu := h.card
    rwa [hcard, hqueued] at hu
  · rw [hlink, State.panelRefused, if_pos (Option.isSome_iff_ne_none.2 hp)]
    exact Link.post_hasReply (Link.answer_hasReply hq hm hd _ _ _) _
  · rw [hlink, State.panelRefused, if_neg (by simp [hp])]
    exact Link.post_hasReply hr _
  · rw [hlink]
    refine Link.hasNotice_post _ (by simp) ?_ ((panelRefused_notices_length x).trans_lt hl)
    rwa [panelRefused_options]

/-- The same from the state `v` before the failure, when the failed run was no panel run. -/
theorem State.EngineFailed.before {v x u : State} {k : Nat} (h : x.EngineFailed u) (hx : v.Reports k x) (hk : k ≤ 10) :
    u.card = { v.card with queued := none, panel := none, mergeBuf := u.card.mergeBuf } ∧
    (∀ q, v.card.panel ≠ none → v.link.executing = some q → q.made = false → q.drop = false →
      u.link.hasReply (0x80#8 + q.kind) q.tag [0x04#8, 0x03#8]) ∧
    (v.link.options.noticeMask.getLsbD 0 = true → v.link.notices.length ≤ 4 →
      u.link.hasNotice (.cardState v.card.state v.card.capacity)) := by
  have hpanel : x.card.panel = v.card.panel := by rw [hx.card]
  have hstate : x.card.state = v.card.state := by rw [hx.card]
  have hcapacity : x.card.capacity = v.card.capacity := by rw [hx.card]
  have hnotices := hx.notices
  refine ⟨?_, fun q hp hq => h.refused q (hpanel ▸ hp) (hx.executing.trans hq), fun hm hl => ?_⟩
  · have hu := h.card
    rwa [hx.card] at hu
  · rw [← hstate, ← hcapacity]
    exact h.cardState (hx.options ▸ hm) (by omega)

/-! ## The fourth failure in a row (R142, R158) -/

/-- The card is FAILED and the run has left the active slot, before anything else happens: `n` is the free value. -/
def State.fourth (s : State) (r : Run) (e : RunError) (n : Nat) : State :=
  { s with
    free := n
    card := { s.card with
      state := .failed, active := none, blockLimit := none, failCount := 4
      lastRun := some { r with cls := s.runClass r, status := .failed e } } }

/-- The run was a panel run. -/
def Run.OfPanel (r : Run) : Prop := r.kind = .panelRead ∨ r.kind = .panelWrite

theorem Run.isPanel_iff (r : Run) : r.kind.isPanel = true ↔ r.OfPanel := by
  unfold Run.OfPanel
  cases r.kind <;> simp [RunKind.isPanel]

theorem attemptFails_fourth {s : State} {r : Run} (ha : s.card.active = some r) (hn : 3 ≤ s.card.failCount) (e : RunError) :
    s.attemptFails e = s.cardFails r e := by
  simp only [State.attemptFails, ha, if_pos hn]

theorem cardFails_in_order {s : State} {r : Run} (h : r.OfPanel ∨ s.runEnded r = true ∨ ¬ s.Stands) (e : RunError) :
    s.cardFails r e = ((s.fourth r e s.free).handFailure r e).engineFails.cardDeparts := by
  refine if_pos ?_
  rw [Bool.or_eq_true, Bool.or_eq_true, Run.isPanel_iff, Bool.not_eq_true', mountStands_eq_false_iff, or_assoc]
  exact h

theorem cardFails_in_either_order {s : State} {r : Run} (h : ¬ (r.OfPanel ∨ s.runEnded r = true ∨ ¬ s.Stands)) (e : RunError) :
    let v := s.fourth r e (s.free + 1)
    s.cardFails r e = ((v.handFailure r e).react s.cache).engineFails.cardDeparts ∨
      s.cardFails r e = (v.engineFails.cardDeparts.handFailure r e).react v.engineFails.cardDeparts.cache := by
  have hcard : s.cardFails r e =
      inFreeOrder [reacting (fun t => t.handFailure r e), fun t => t.engineFails.cardDeparts] (s.fourth r e s.free) := by
    refine if_neg fun hc => h ?_
    rwa [Bool.or_eq_true, Bool.or_eq_true, Run.isPanel_iff, Bool.not_eq_true', mountStands_eq_false_iff, or_assoc] at hc
  rw [hcard]
  exact inFreeOrder_two _ _ _

/-- What the fourth failure of the run `r` with the error `e` comes to, `v` being the state before the failure goes to its owner. -/
structure State.CardFailed (v : State) (r : Run) (e : RunError) (u : State) : Prop where
  card : u.card = { v.card with queued := none, panel := none, mergeBuf := u.card.mergeBuf }
  faulted : ∀ q, r.OfPanel → v.link.executing = some q → q.made = false → q.drop = false →
    u.link.hasReply (0x80#8 + q.kind) q.tag [0x05#8, e.code]
  refused : ∀ q, ¬ r.OfPanel → v.card.panel ≠ none → v.link.executing = some q → q.made = false → q.drop = false →
    u.link.hasReply (0x80#8 + q.kind) q.tag [0x04#8, 0x03#8]
  cardState : v.link.options.noticeMask.getLsbD 0 = true → v.link.notices.length ≤ 4 →
    u.link.hasNotice (.cardState v.card.state v.card.capacity)
  fallen : ¬ v.Stands → u.mount = v.mount
  departs : v.Stands → v.Departs r u

theorem engineFails_mount (s : State) : s.engineFails.mount = s.mount := by
  obtain ⟨lines, flushQ, he, -⟩ := engineFails_frame s
  rw [he]

theorem cardFailed_panel (v : State) {r : Run} (hk : r.OfPanel) (e : RunError) :
    v.CardFailed r e (v.handFailure r e).engineFails.cardDeparts := by
  rw [handFailure_panel hk]
  let x : State := v.answerPanel .cardFault e.code []
  have hlen := Link.answer_notices_length v.link .cardFault e.code []
  have hstands : v.StandsYet r 0 x := ⟨rfl, rfl, rfl, rfl, .refl _, fun h _ _ => h, Link.answer_options _ _ _ _, hlen, fun h _ _ => .inl h⟩
  have hu : x.EngineFailed x.engineFails.cardDeparts := engineFailed_of_reports (reports_cardDeparts _)
  refine ⟨hu.card, fun q _ hq hm hd => hu.answered rfl _ _ _ (Link.answer_hasReply hq hm hd _ _ _), fun q hno => absurd hk hno,
    fun hm hl => hu.cardState ?_ ?_, fun hst => ?_, fun hst => hstands.engineFails.departed (by decide) hst⟩
  · exact (Link.answer_options v.link .cardFault e.code []).symm ▸ hm
  · exact hlen.trans_lt (by omega)
  · have hx : ¬ x.engineFails.Stands := by rw [State.Stands, engineFails_mount]; exact hst
    exact (congrArg State.mount (cardDeparts_fallen hx)).trans (engineFails_mount x)

theorem Run.not_panel {r : Run} (h : ¬ r.OfPanel) : r.kind ≠ .panelRead ∧ r.kind ≠ .panelWrite := not_or.1 h

theorem cardFailed_failure_first (v : State) {r : Run} (hk : ¬ r.OfPanel) (e : RunError) (old : Cache) :
    v.CardFailed r e (v.handFailure r e).engineFails.cardDeparts ∧
    (v.Stands → v.CardFailed r e ((v.handFailure r e).react old).engineFails.cardDeparts) := by
  have hno := Run.not_panel hk
  have hreports := reports_handFailure hno v e
  have hfirst := fun hst : v.Stands => departs_failure_first hno hst e old
  constructor
  · obtain ⟨hcard, hrefused, hstate⟩ := (engineFailed_of_reports (reports_cardDeparts _)).before hreports (le_refl _)
    refine ⟨hcard, fun q h => absurd h hk, fun q _ => hrefused q, hstate, fun hst => ?_, fun hst => (hfirst hst).1⟩
    have hmount := (handFailure_fallen hno hst e).mount
    have hx : ¬ (v.handFailure r e).engineFails.Stands := by rw [State.Stands, engineFails_mount, hmount]; exact hst
    rw [cardDeparts_fallen hx, engineFails_mount, hmount]
  · intro hst
    obtain ⟨hcard, hrefused, hstate⟩ :=
      (engineFailed_of_reports (reports_cardDeparts _)).before (hreports.trans (reports_react _ old)) (le_refl _)
    exact ⟨hcard, fun q h => absurd h hk, fun q _ => hrefused q, hstate, fun h => absurd hst h, fun _ => (hfirst hst).2⟩

theorem cardFailed_failure_last {v : State} (hst : v.Stands) {r : Run} (hk : ¬ r.OfPanel) (e : RunError) (old : Cache) :
    v.CardFailed r e ((v.engineFails.cardDeparts.handFailure r e).react old) := by
  have hno := Run.not_panel hk
  have hreports := ((reports_cardDeparts v.engineFails).trans (reports_handFailure hno _ e)).trans (reports_react _ old)
  have hself : v.Reports 0 v := ⟨rfl, .inl rfl, [], le_refl _, rfl⟩
  obtain ⟨hcard, hrefused, hstate⟩ := (engineFailed_of_reports hreports).before hself (by decide)
  exact ⟨hcard, fun q h => absurd h hk, fun q _ => hrefused q, hstate, fun h => absurd hst h, fun _ => departs_failure_last hno hst e old⟩

/-- The fourth failure in a row, the free value of an order included (log 17). -/
theorem fourth_failure (s : State) (r : Run) (e : RunError) : ∃ n, (s.fourth r e n).CardFailed r e (s.cardFails r e) ∧
    (r.OfPanel ∨ s.runEnded r = true ∨ ¬ s.Stands →
      s.cardFails r e = ((s.fourth r e s.free).handFailure r e).engineFails.cardDeparts) ∧
    (¬ r.OfPanel → s.runEnded r = false → s.Stands → ∃ n,
      s.cardFails r e = (((s.fourth r e n).handFailure r e).react s.cache).engineFails.cardDeparts ∨
      ∃ w, w = (s.fourth r e n).engineFails.cardDeparts ∧ s.cardFails r e = (w.handFailure r e).react w.cache) := by
  by_cases h : r.OfPanel ∨ s.runEnded r = true ∨ ¬ s.Stands
  · refine ⟨s.free, ?_, cardFails_in_order (e := e), fun hk hr hst => absurd h ?_⟩
    · rw [cardFails_in_order h]
      by_cases hk : r.OfPanel
      · exact cardFailed_panel _ hk e
      · exact (cardFailed_failure_first _ hk e s.cache).1
    · simp [hk, hr, hst]
  · have hk : ¬ r.OfPanel := fun hp => h (.inl hp)
    have hst : s.Stands := by_contra fun hst => h (.inr (.inr hst))
    refine ⟨s.free + 1, ?_, fun h' => absurd h' h, fun _ _ _ => ⟨s.free + 1, ?_⟩⟩
    · rcases cardFails_in_either_order h e with heq | heq
      · rw [heq]
        exact (cardFailed_failure_first _ hk e s.cache).2 hst
      · rw [heq]
        exact cardFailed_failure_last (v := s.fourth r e (s.free + 1)) hst hk e _
    · exact (cardFails_in_either_order h e).imp id fun heq => ⟨_, rfl, heq⟩

/-- The card record after the fourth failure: FAILED with both slots empty (R142, R158). -/
theorem State.CardFailed.fields {s u : State} {r : Run} {e : RunError} {n : Nat} (h : (s.fourth r e n).CardFailed r e u) :
    u.card.state = .failed ∧ u.card.failCount = 4 ∧ u.card.active = none ∧ u.card.queued = none ∧ u.card.panel = none ∧
    u.card.capacity = s.card.capacity ∧ u.card.wp = s.card.wp ∧
    u.card.lastRun = some { r with cls := s.runClass r, status := .failed e } := by
  rw [h.card]
  exact ⟨rfl, rfl, rfl, rfl, rfl, rfl, rfl, rfl⟩

/-- What the departure of the card comes to for a standing mount, part by part. -/
theorem State.Departs.spec {v u : State} {r : Run} (h : v.Departs r u) :
    (u.mount = Mount.cleared v.mount.serial ∧ u.cache.lines = v.cache.lines.map (fun _ => Line.free) ∧ u.cache.defects = [] ∧
        (v.link.options.noticeMask.getLsbD 1 = true → v.link.notices.length ≤ 4 → u.link.hasNotice (.mountState .unmounted 0)) ∨
      u.mount = { v.mount with state := .lost } ∧ u.cache.defects = v.cache.defects ∧
        (v.cache.armed = true → v.link.options.noticeMask.getLsbD 6 = true → v.link.notices.length ≤ 4 →
          u.link.hasNotice (.flushDone false)) ∧
        (v.link.options.noticeMask.getLsbD 1 = true → v.link.notices.length ≤ 4 → ∃ n, u.link.hasNotice (.mountState .lost n))) ∧
    ((∃ k tr l x, (v.cache.line k).tag = some tr ∧ v.cache.sector k l = some x ∧
      (x.state = .dirty ∨ x.state = .capture ∨ x.state = .flush)) → u.mount.state = .lost) ∧
    ((∀ k l x, v.cache.sector k l = some x → ¬ (x.state = .dirty ∨ x.state = .capture ∨ x.state = .flush)) →
      r.kind ≠ .flush → r.kind ≠ .mergeRead → u.mount.state = .unmounted) ∧
    u.cache.flushQ = [] ∧ u.cache.armed = false ∧ u.drive = { v.drive with latch := true } ∧ u.cap.st = v.abandoned := by
  refine ⟨h.outcome.symm.imp (fun h => ⟨h.mount, h.lines, h.defects, h.mountState⟩)
      (fun h => ⟨h.mount, h.defects, h.flushDone, h.mountState⟩), fun ⟨k, tr, l, x, ht, hx, hu⟩ => ?_, fun hc hf hm => ?_,
    h.outcome.elim (·.flushQ) (·.flushQ), h.outcome.elim (·.armed) (·.armed), h.outcome.elim (·.drive) (·.drive),
    h.outcome.elim (·.cap) (·.cap)⟩
  · rw [(h.unsaved ((Cache.holdsUnsaved_iff _).2 ⟨k, tr, l, x, ht, hx, (SectorState.nonClean_iff _).2 hu⟩)).mount]
  · have hclean : v.cache.nonClean = 0 := (Cache.nonClean_eq_zero _).2 fun k l x hx =>
      Bool.eq_false_iff.2 fun h => hc k l x hx ((SectorState.nonClean_iff _).1 h)
    rw [(h.clean hclean hf hm).mount]
    rfl

end Sys2Proof.Machine
end

section
/-! PROOFS. The obligation on block transfers (08 R142 to R160): its clauses put together. -/

namespace Sys2Proof.Machine

/-- Settles O59: each clause is the step at a block boundary or of a failed attempt, by the kind of the run and the state of its mount. -/
theorem blockTransfers : Obligations.BlockTransfers := by
  intro s data hp ends finished writeClass ended held carried stands whole fails
  have hclass : ∀ r : Run, r.kind = .flush ∨ r.kind = .mergeRead → ∀ st n, s.cardEnded r st n = ended r st n := fun r hk st n => by
    rw [State.cardEnded, runClass_write hk]
    rfl
  refine ⟨stale_iff s, fun ha => exec_transfer_of_no_run hp ha data, fun r ha hk hr hl => flush_goes_on hp ha hk hr hl data,
    fun r ha hk hr hl => ?flushDone, fun r i blk ha hk hr hl hline hfirst => ?mergeDone, fun r q ha hk hl hq hm hd => ?readDone,
    fun r q ha hk hl hq hm hd => ?writeDone, fun r q ha hk hq hm hd => ?dropped, fun r ha hk hr => ?mountEnded, fun r c e ha hf => ?failed⟩
  case flushDone =>
    have h := flush_ends_done hp ha hk hr hl data
    rw [hclass { r with received := r.received + 1 } (.inl hk)] at h
    exact ⟨_, s.writtenBack r, h, writtenBack_lines s r, writtenBack_not_carried, fun i tr hc => writtenBack_spec hc,
      fun h => writeDelivered_stays h, fun hd hn => writeDelivered_ends hd hn⟩
  case mergeDone =>
    have h := mergeRead_ends_done hp ha hk hr hl hline hfirst data
    have hcard : s.mergeEnded r = { ended { r with received := r.received + 1 } .done 0 with mergeBuf := [] } := by
      rw [State.mergeEnded, hclass { r with received := r.received + 1 } (.inr hk)]
    rw [← hcard]
    exact ⟨fun hst hc hw => h.congr (mergeRewritten_written hst hc hw data), fun hno => h.congr (mergeRewritten_dropped hline hno data)⟩
  case readDone =>
    have h := panel_done_replies hp ha (.inl hk) hl hq hm hd data
    simp only [Run.gaining, flagByte_one, if_pos hk] at h
    exact h
  case writeDone =>
    have h := panel_done_replies hp ha (.inr hk) hl hq hm hd data
    rw [Run.gaining_of_no_read (by simp [hk]), if_neg (by simp [hk]), if_neg (by simp [hk])] at h
    exact h
  case dropped =>
    exact ⟨fun hl => Link.answer_dropped hq hm hd _ _ _ ▸ panel_ends_done hp ha hk hl data,
      fun c e hf hn => Link.answer_dropped hq hm hd _ _ _ ▸ panel_ends_failed hp ha hk hf hn⟩
  case mountEnded =>
    exact ⟨hclass { r with received := r.received + 1 } hk _ _ ▸ ended_cancelled hp ha hk hr data,
      fun c e hf hn => hclass r hk _ _ ▸ ended_failed hp ha hk hr hf hn⟩
  case failed =>
    have hends := endsIn_attemptFails hp ha hf
    refine ⟨fun hn hk => hends.congr (attemptFails_few ha hn hk e),
      fun q hn hk hq hm hd => ⟨_, panel_ends_failed hp ha hk hf hn, rfl, rfl, Link.answer_hasReply hq hm hd _ _ _⟩,
      fun hn hk h1 hw => hends.congr (attemptFails_retry ha hn hk h1 hw e), fun hn hk hr => ?few, fun hn => ?fourth⟩
    case few =>
      have hwrite : r.kind ≠ .fill ∨ r.attempt ≠ 1 := .inl (by rcases hk with hk | hk <;> simp [hk])
      let t : State := { s with card := s.cardEnded r (.failed e) (s.card.failCount + 1) }
      have hcard : t.card = ended r (.failed e) (s.card.failCount + 1) := hclass r hk _ _
      obtain ⟨htag, hram, hlru, hlast, hactive, hcount, harmed, hfailures⟩ := handFailure_both (s := t) hk hr e
      refine ⟨_, hends.congr (attemptFails_few ha hn hwrite e), htag, hram, hlru, hlast.trans (congrArg Card.lastRun hcard), hactive,
        hcount, harmed, hfailures, fun h3 => handFailure_lost_spec (s := t) hk hr h3 e, fun h3 => ?_⟩
      obtain ⟨flushQ, hu, hq⟩ := handFailure_stays (s := t) hk hr h3 e
      rw [hu, ← hcard]
      exact ⟨failed_frame t r flushQ, fun k l x hx => recounted_sector (s := t) hr hx,
        ⟨t.writtenLines r, writtenLines_sorted t r, mem_writtenLines (s := t) hr, rfl⟩,
        failed_queue_fallen (s := t) hq, failed_queue (s := t) hr hq⟩
    case fourth =>
      obtain ⟨n, hfailed, horder, heither⟩ := fourth_failure s r e
      obtain ⟨hstate, hcount, hactive, hqueued, hpanel, hcapacity, hwp, hlast⟩ := hfailed.fields
      refine ⟨_, hends.congr (attemptFails_fourth ha hn e), horder, heither, hstate, hcount, hactive, hqueued, hpanel,
        hcapacity, hwp, hlast, fun q hq hx hm hd => ?_, hfailed.cardState, hfailed.fallen, fun hst => (hfailed.departs hst).spec⟩
      by_cases hk : r.kind = .panelRead ∨ r.kind = .panelWrite
      · rw [if_pos hk]
        exact hfailed.faulted q hk hx hm hd
      · rw [if_neg hk]
        exact hfailed.refused q hk (hq.resolve_left hk) hx hm hd

end Sys2Proof.Machine
end

section
/-! PROOFS. The flush queue (04 R78, R80, R81): lines that join it, write-back work, the FLUSH request and the idle-flush timer. -/

namespace Sys2Proof.Machine

/-! ## Joining the flush queue (R78) -/

section
variable (c : Cache) (p : Nat → Bool)

/-- The queue after a join holds, in some order, the lines it held and those that join. -/
theorem Cache.join_flushQ_perm : (c.join p).flushQ.Perm (c.flushQ ++ c.joining p) := by
  let forced := (c.joining p).filter (fun i => c.forced == some i)
  let others := (c.joining p).filter (fun i => !(c.forced == some i))
  have hparts : (forced ++ others).Perm (c.joining p) := List.filter_append_perm _ _
  have hback : (others ++ forced).Perm (c.joining p) := List.perm_append_comm.trans hparts
  have hmoved : (forced ++ (c.flushQ ++ others)).Perm ((c.flushQ ++ others) ++ forced) := List.perm_append_comm
  rw [← List.append_assoc, List.append_assoc c.flushQ] at hmoved
  exact hmoved.trans (hback.append_left _)

theorem Cache.flushQ_sublist_join : c.flushQ.Sublist (c.join p).flushQ :=
  (List.sublist_append_right _ _).trans (List.sublist_append_left _ _)

theorem Cache.join_flushQ_nodup (hq : c.flushQ.Nodup) (hl : c.lru.Nodup) : (c.join p).flushQ.Nodup := by
  have hjoining : (c.joining p).Nodup := (List.nodup_reverse.2 hl).filter _
  refine (c.join_flushQ_perm p).nodup_iff.2 (List.nodup_append.2 ⟨hq, hjoining, ?_⟩)
  rintro i hi _ hk rfl
  exact (Cache.mem_joining hk).2.2 hi

/-- Without a forced line those that join stand behind the others. -/
theorem Cache.flushQ_leads_join (hf : c.forced = none) : c.flushQ <+: (c.join p).flushQ := by
  have hnone : (c.joining p).filter (fun i => c.forced == some i) = [] := by simp [hf]
  rw [Cache.join, hnone, List.nil_append]
  exact ⟨_, rfl⟩

theorem Cache.join_flushQ_eq :
    let joining := c.lru.reverse.filter (fun i => p i && decide (i ∉ c.flushQ))
    (c.join p).flushQ = joining.filter (fun i => decide (c.forced = some i)) ++ c.flushQ ++
      joining.filter (fun i => decide (c.forced ≠ some i)) := by
  intro joining
  have hjoining : c.joining p = joining :=
    List.filter_congr fun i _ => by rw [List.contains_eq_mem, decide_not]
  have hforced : ∀ i, (c.forced == some i) = decide (c.forced = some i) := fun i => Bool.beq_eq_decide_eq ..
  have hothers : ∀ i, (c.forced != some i) = decide (c.forced ≠ some i) := fun i => by rw [bne, hforced, decide_not]
  simp only [Cache.join, hjoining, hforced, hothers]

end

/-- The lines of the queue once every line with write-back work has joined. -/
theorem Cache.mem_joinAll_flushQ {c : Cache} (h : c.lru.Perm (List.range 8)) (g : Geometry) (runs : List Run) (i : Nat) :
    i ∈ (c.joinAll g runs).flushQ ↔ i ∈ c.flushQ ∨ (i < 8 ∧ c.hasWriteWork g runs i = true) := by
  rw [Cache.joinAll, Cache.mem_join_flushQ, h.mem_iff, List.mem_range]

/-! ## Write-back work (R78) -/

/-- A write run of the standing mount in a slot holds the block (log 13). -/
def State.BeingWritten (s : State) (blk : Nat) : Prop := ∃ r f, (s.card.active = some r ∨ s.card.queued = some r) ∧ r.kind = .flush ∧
  s.mount.state ≠ .unmounted ∧ r.mount = some s.mount.serial ∧ r.firstImage = some f ∧ f ≤ blk ∧ blk < f + r.count

theorem State.mem_writeRuns (s : State) (r : Run) : r ∈ s.writeRuns ↔ (s.card.active = some r ∨ s.card.queued = some r) ∧
    r.kind = .flush ∧ s.mount.state ≠ .unmounted ∧ r.mount = some s.mount.serial := by
  have hruns : r ∈ s.card.runs ↔ s.card.active = some r ∨ s.card.queued = some r := by simp [Card.runs]
  have hended : r.kind = .flush → (s.runEnded r = false ↔ s.mount.state ≠ .unmounted ∧ r.mount = some s.mount.serial) := fun hk => by
    simp [State.runEnded, RunKind.isPanel, hk]
  simp only [State.writeRuns, State.mountRuns, List.mem_filter, hruns, Bool.and_eq_true, Bool.not_eq_true', beq_iff_eq]
  constructor
  · rintro ⟨⟨hslot, -, hr⟩, hk⟩
    exact ⟨hslot, hk, (hended hk).1 hr⟩
  · rintro ⟨hslot, hk, hr⟩
    exact ⟨⟨hslot, by rw [hk]; rfl, (hended hk).2 hr⟩, hk⟩

theorem State.any_writeRuns_holds (s : State) (blk : Nat) : s.writeRuns.any (fun r => r.holds blk) = true ↔ s.BeingWritten blk := by
  simp only [List.any_eq_true, State.mem_writeRuns, Run.holds_iff, Run.Held, State.BeingWritten]
  constructor
  · rintro ⟨r, ⟨hslot, hk, hm, hserial⟩, f, hf⟩
    exact ⟨r, f, hslot, hk, hm, hserial, hf⟩
  · rintro ⟨r, f, hslot, hk, hm, hserial, hf⟩
    exact ⟨r, ⟨hslot, hk, hm, hserial⟩, f, hf⟩

/-- A test of some sector of a line that carries a track is a test of some sector by number. -/
theorem Cache.any_sector_iff (c : Cache) (i : Nat) (p : Track → Sector → Nat → Bool) :
    (match (c.line i).tag with
      | none => false
      | some tr => (c.line i).sectors.zipIdx.any (fun (x, l) => p tr x l)) = true ↔
      ∃ tr l x, (c.line i).tag = some tr ∧ c.sector i l = some x ∧ p tr x l = true := by
  cases htag : (c.line i).tag with
  | none => simp
  | some tr =>
    simp only [List.any_eq_true, Prod.exists, List.mem_zipIdx_iff_getElem?]
    constructor
    · rintro ⟨x, l, hx, hp⟩
      exact ⟨tr, l, x, rfl, hx, hp⟩
    · rintro ⟨tr', l, x, htr, hx, hp⟩
      obtain rfl := Option.some.inj htr
      exact ⟨x, l, hx, hp⟩

theorem State.writeWork_iff (s : State) (i blk : Nat) : s.writeWork i blk = true ↔
    ∃ tr l x, (s.cache.line i).tag = some tr ∧ s.cache.sector i l = some x ∧ s.geom.covers tr l blk = true ∧
      (x.state = .dirty ∨ (x.state = .flush ∧ blk ∉ x.progress ∧ ¬ s.BeingWritten blk)) := by
  refine (s.cache.any_sector_iff i fun tr x l => (x.state == .dirty || (x.state == .flush && !x.progress.contains blk &&
    !s.writeRuns.any (fun r => r.holds blk))) && s.geom.covers tr l blk).trans ?_
  refine exists_congr fun tr => exists_congr fun l => exists_congr fun x => and_congr_right fun _ => and_congr_right fun _ => ?_
  simp only [Bool.and_eq_true, Bool.or_eq_true, Bool.not_eq_true', beq_iff_eq, List.contains_eq_mem, decide_eq_false_iff_not,
    ← s.any_writeRuns_holds, Bool.not_eq_true, and_assoc]
  exact and_comm

theorem Cache.mem_lineBlocks {c : Cache} {g : Geometry} {i : Nat} {tr : Track} (h : (c.line i).tag = some tr) (blk : Nat) :
    blk ∈ c.lineBlocks g i ↔ g.firstBlock tr ≤ blk ∧ blk ≤ g.lastBlock tr := by
  simp only [Cache.lineBlocks, h, List.mem_map, List.mem_range]
  constructor
  · rintro ⟨k, hk, rfl⟩
    omega
  · rintro ⟨hlow, hhigh⟩
    exact ⟨blk - g.firstBlock tr, by omega, by omega⟩

/-- A line with a block of write-back work holds a sector that is DIRTY or FLUSH. -/
theorem State.dirty_of_writeWork {s : State} {i blk : Nat} (h : s.writeWork i blk = true) : (s.cache.line i).dirty = true := by
  obtain ⟨tr, l, x, -, hx, -, hstate⟩ := (s.writeWork_iff i blk).1 h
  refine List.any_eq_true.2 ⟨x, List.mem_of_getElem? hx, (SectorState.nonClean_iff _).2 ?_⟩
  exact hstate.imp id fun hflush => .inr hflush.1

theorem State.hasWriteWork_iff (s : State) (i : Nat) : s.cache.hasWriteWork s.geom s.writeRuns i = true ↔
    ∃ tr blk, (s.cache.line i).tag = some tr ∧ s.geom.firstBlock tr ≤ blk ∧ blk ≤ s.geom.lastBlock tr ∧ s.writeWork i blk = true := by
  rw [Cache.hasWriteWork, Bool.and_eq_true, List.any_eq_true]
  constructor
  · rintro ⟨-, blk, hblk, hwork⟩
    obtain ⟨tr, -, -, htag, -⟩ := (s.writeWork_iff i blk).1 hwork
    obtain ⟨hlow, hhigh⟩ := (Cache.mem_lineBlocks htag blk).1 hblk
    exact ⟨tr, blk, htag, hlow, hhigh, hwork⟩
  · rintro ⟨tr, blk, htag, hlow, hhigh, hwork⟩
    exact ⟨s.dirty_of_writeWork hwork, blk, (Cache.mem_lineBlocks htag blk).2 ⟨hlow, hhigh⟩, hwork⟩

/-! ## The idle-flush timer (R80) -/

theorem exec_idleFlush_stopped {s : State} (hp : s.powered = true) (ht : s.cache.idleTimer = none) :
    exec .idleFlushTimerExpiry s = .next s := by
  have hnot : ¬ (fun t : State => t.cache.idleTimer.isSome) s = true := by simp [ht]
  change execIdleFlushTimerExpiry s = _
  rw [execIdleFlushTimerExpiry, whenPowered_present _ hp, settlingWhen, if_neg hnot, State.idleExpires, if_pos (by simp [ht])]

theorem exec_idleFlush_running {s : State} (hp : s.powered = true) (ht : s.cache.idleTimer ≠ none) :
    exec .idleFlushTimerExpiry s = .next (State.settle s s.idleExpires) := by
  change execIdleFlushTimerExpiry s = _
  rw [execIdleFlushTimerExpiry, whenPowered_present _ hp, settlingWhen_taken _ (Option.isSome_iff_ne_none.2 ht)]

theorem idleExpires_running {s : State} (ht : s.cache.idleTimer ≠ none) : s.idleExpires = { s with cache := { s.cache with
    idleTimer := none
    flushQ := if s.mount.state = .mounted then (s.cache.joinAll s.geom s.writeRuns).flushQ else s.cache.flushQ } } := by
  rw [State.idleExpires, if_neg (by simpa using ht)]
  by_cases hm : s.mount.state = .mounted
  · rw [if_pos hm]
    exact if_pos (s.isMounted_iff.2 hm)
  · rw [if_neg hm]
    exact if_neg (by simp [State.isMounted, hm])

/-- Settles O48: the expiry joins every line with write-back work in MOUNTED, and what write-back work is. -/
theorem idleFlushTimerExpiry : Obligations.IdleFlushTimerExpiry := by
  intro s hp
  refine ⟨exec_idleFlush_stopped hp, fun ht => ⟨_, _, exec_idleFlush_running hp ht, reacted_settle s _, ?_⟩, s.writeWork_iff,
    s.hasWriteWork_iff⟩
  rw [idleExpires_running ht]
  refine ⟨rfl, fun hm => if_neg hm, fun hm => ?_⟩
  simp only [if_pos hm]
  exact ⟨s.cache.join_flushQ_eq _, s.cache.flushQ_sublist_join _, s.cache.join_flushQ_nodup _,
    fun hl => Cache.mem_joinAll_flushQ hl s.geom s.writeRuns, s.cache.flushQ_leads_join _⟩

/-! ## The FLUSH request (R81, R185) -/

theorem exec_flush_taken {s : State} (h : s.takesRequests) (tag : Byte) :
    exec (.flush tag []) s = .next (State.settle s (s.entered 0x06#8 tag).doFlush) := by
  change execFlush tag [] s = _
  rw [execFlush, whenPowered_present _ h.1, State.takeFlush, settlingWhen_taken _ (State.takesRequest_of h),
    State.request_taken h tag _ rfl rfl]
  rfl

theorem doFlush_refused {s : State} (h : ¬ s.Stands) : s.doFlush = s.wrongState := by
  rw [State.doFlush, if_pos (by simpa using (mountStands_eq_false_iff s).2 h)]

/-- An armed FLUSH_DONE is posted exactly when no sector is non-clean. -/
theorem flushDoneCheck_armed {s : State} (ha : s.cache.armed = true) : s.flushDoneCheck = { s with
    cache := { s.cache with armed := decide (s.cache.nonClean ≠ 0) }
    link := s.link.postAll (if s.cache.nonClean = 0 then [.flushDone true] else []) } := by
  rw [flushDoneCheck_eq]
  by_cases hn : s.cache.nonClean = 0 <;> simp [ha, hn]

/-- FLUSH where the mount stands: the reply, then the join, then FLUSH_DONE armed or posted. -/
theorem doFlush_stands {s : State} (h : s.Stands) : s.doFlush = { s with
    cache := { s.cache with
      flushQ := (s.cache.joinAll s.geom s.writeRuns).flushQ
      armed := decide (s.cache.nonClean ≠ 0) }
    link := (s.link.answer .ok 0#8 []).postAll (if s.cache.nonClean = 0 then [.flushDone true] else []) } := by
  rw [State.doFlush, if_neg (by simp [(mountStands_iff s).2 h])]
  exact flushDoneCheck_armed rfl

/-- Settles O29: the refusal, and where the mount stands the join, the reply and FLUSH_DONE. -/
theorem flushRequest : Obligations.FlushRequest := by
  intro s tag h
  refine ⟨fun hm hd => ⟨_, _, exec_flush_taken h tag, reacted_settle s _, ?_⟩,
    fun hst => ⟨_, _, exec_flush_taken h tag, reacted_settle s _, ?_⟩⟩
  · rw [doFlush_refused (s := s.entered 0x06#8 tag) (fun hst => hst.elim hm hd)]
    exact s.answers_of_entered 0x06#8 tag .wrongState s.mount.state.code []
  · rw [doFlush_stands (s := s.entered 0x06#8 tag) hst]
    let answered := s.link.answered ⟨0x06#8, tag, true, false, false⟩ [0x00#8, 0x00#8]
    have hreply : answered.hasReply 0x86#8 tag [0x00#8, 0x00#8] := Link.answered_hasReply _ _ _
    refine ⟨rfl, rfl, fun hl => Cache.mem_joinAll_flushQ hl s.geom s.writeRuns, s.cache.flushQ_sublist_join _,
      s.cache.join_flushQ_nodup _, ?_, Link.postAll_hasReply hreply _, fun hn hmask hlen => ?_⟩
    · by_cases hn : s.cache.nonClean = 0
      · exact (congrArg answered.postAll (if_pos hn)).trans (if_pos hn).symm
      · exact (congrArg answered.postAll (if_neg hn)).trans (if_neg hn).symm
    · change (answered.postAll (if s.cache.nonClean = 0 then [.flushDone true] else [])).hasNotice _
      rw [if_pos hn]
      refine Link.hasNotice_post _ (by simp) ?_ ((entered_answer_link s 0x06#8 tag .ok 0#8 []).2.trans_lt hlen)
      exact (congrArg (fun o : Options => o.noticeMask.getLsbD 6) (Link.startTx_sameBase _).options).trans hmask

end Sys2Proof.Machine
end

section
/-! PROOFS. A line taken for a track (04 R69), the holes of the image (03 R48, R49), line states (04 R64) and read-ahead (04 R71, R72). -/

namespace Sys2Proof.Machine

/-! ## The blocks of a sector (R22) and the holes of the image (R49) -/

theorem Geometry.covers_iff (g : Geometry) (tr : Track) (l blk : Nat) : g.covers tr l blk = true ↔
    g.sectorOffset tr l / 512 ≤ blk ∧ blk ≤ (g.sectorOffset tr l + (g.layoutAt tr).sectorSize - 1) / 512 := by
  simp [Geometry.covers]

theorem Geometry.mem_sectorBlocks (g : Geometry) (tr : Track) (l blk : Nat) :
    blk ∈ g.sectorBlocks tr l ↔ g.covers tr l blk = true := by
  rw [g.covers_iff]
  simp only [Geometry.sectorBlocks, List.mem_map, List.mem_range]
  constructor
  · rintro ⟨k, hk, rfl⟩
    omega
  · rintro ⟨hlow, hhigh⟩
    exact ⟨blk - g.sectorOffset tr l / 512, by omega, by omega⟩

theorem sectorHole_iff (g : Geometry) (m : Mount) (tr : Track) (l : Nat) :
    sectorHole g m tr l = true ↔ ∃ blk, g.covers tr l blk = true ∧ m.mapBlock blk = none := by
  simp [sectorHole, g.mem_sectorBlocks]

/-! ## Image blocks on the card (R48) -/

theorem findExtent_at (before : List Extent) (e : Extent) (after : List Extent) {n b i : Nat}
    (hlow : b + (before.map (fun x => x.count)).sum ≤ i) (hhigh : i < b + (before.map (fun x => x.count)).sum + e.count) :
    findExtent (before ++ e :: after) n b i = some (n + before.length, b + (before.map (fun x => x.count)).sum, e) := by
  induction before generalizing n b with
  | nil => exact if_pos (by simpa using hhigh)
  | cons a before ih =>
    simp only [List.map_cons, List.sum_cons] at hlow hhigh
    rw [List.cons_append, findExtent, if_neg (by omega), ih (by omega) (by omega)]
    simp only [List.map_cons, List.sum_cons, List.length_cons, Option.some.injEq, Prod.mk.injEq, and_true]
    exact ⟨by omega, by omega⟩

theorem findExtent_past (chain : List Extent) {n b i : Nat} (h : b + (chain.map (fun x => x.count)).sum ≤ i) :
    findExtent chain n b i = none := by
  induction chain generalizing n b with
  | nil => rfl
  | cons e chain ih =>
    simp only [List.map_cons, List.sum_cons] at h
    rw [findExtent, if_neg (by omega), ih (by omega)]

theorem Mount.mapBlock_at (m : Mount) {before : List Extent} {e : Extent} {after : List Extent} (hc : m.chain = before ++ e :: after)
    {blk : Nat} (hlow : (before.map (fun x => x.count)).sum ≤ blk) (hhigh : blk < (before.map (fun x => x.count)).sum + e.count) :
    m.mapBlock blk = if e.skip then none else some (e.start + (blk - (before.map (fun x => x.count)).sum), before.length) := by
  rw [Mount.mapBlock, hc, findExtent_at before e after (by omega) (by omega)]
  simp

theorem Mount.mapBlock_past (m : Mount) {blk : Nat} (h : (m.chain.map (fun x => x.count)).sum ≤ blk) : m.mapBlock blk = none := by
  rw [Mount.mapBlock, findExtent_past _ (by omega)]

/-! ## Line states (R64) -/

theorem Line.lineState_spec (ln : Line) :
    let has := fun st => ∃ x ∈ ln.sectors, x.state = st
    (ln.lineState = .free ↔ ln.tag = none) ∧ (ln.lineState = .filling ↔ ln.tag ≠ none ∧ has .pending) ∧
    (ln.lineState = .failed ↔ ln.tag ≠ none ∧ ¬ has .pending ∧ has .missing) ∧
    (ln.lineState = .resident ↔ ln.tag ≠ none ∧ ¬ has .pending ∧ ¬ has .missing) := by
  intro has
  have hany : ∀ st, has st ↔ ln.sectors.any (fun x => x.state == st) = true := fun st => by simp [has]
  unfold Line.lineState
  rw [hany .pending, hany .missing]
  cases ln.tag with
  | none => simp
  | some tr =>
    cases ln.sectors.any (fun x => x.state == .pending) with
    | true => simp
    | false => cases ln.sectors.any (fun x => x.state == .missing) <;> simp

theorem Line.dirty_iff (ln : Line) : ln.dirty = true ↔
    (∃ x ∈ ln.sectors, x.state = .dirty) ∨ (∃ x ∈ ln.sectors, x.state = .capture) ∨ ∃ x ∈ ln.sectors, x.state = .flush := by
  simp only [Line.dirty, List.any_eq_true, SectorState.nonClean_iff, and_or_left, exists_or]

/-! ## Reading after stores in a row -/

/-- A stored byte, by its address. -/
theorem memRead_memStore_at (m : Memory) {a x : Nat} {bs : List Byte} (hlow : a ≤ x) (hhigh : x < a + bs.length) :
    memRead (memStore m a bs) x = byteAt bs (x - a) := by
  have hk : x - a < bs.length := by omega
  have h := memRead_memStore_inside m a bs (x - a) hk
  rw [Nat.add_sub_cancel' hlow] at h
  rw [h, byteAt, List.getD_eq_getElem _ _ hk]

/-- A stretch of equal bytes is stored. -/
theorem memRead_memStore_replicate (m : Memory) (a n x : Nat) (b : Byte) :
    memRead (memStore m a (List.replicate n b)) x = if a ≤ x ∧ x < a + n then b else memRead m x := by
  have hlength : (List.replicate n b).length = n := List.length_replicate
  by_cases hin : a ≤ x ∧ x < a + n
  · have hk : x - a < n := by omega
    rw [if_pos hin, memRead_memStore_at m hin.1 (hlength.symm ▸ hin.2), byteAt, List.getD_replicate _ hk]
  · rw [if_neg hin, memRead_memStore_outside _ _ _ _ (by rw [hlength]; omega)]

/-- What is read after updates in a row, each of which writes `v` where it writes at all. -/
theorem read_foldl {α β σ : Type} {f : σ → α → σ} (read : σ → β) (writes : α → Prop) {v : β} {xs : List α}
    (hwrites : ∀ r, ∀ x ∈ xs, writes x → read (f r x) = v) (hrests : ∀ r, ∀ x ∈ xs, ¬ writes x → read (f r x) = read r) (r : σ) :
    ((∃ x ∈ xs, writes x) → read (xs.foldl f r) = v) ∧ ((∀ x ∈ xs, ¬ writes x) → read (xs.foldl f r) = read r) := by
  induction xs generalizing r with
  | nil => simp
  | cons x xs ih =>
    obtain ⟨hsome, hnone⟩ := ih (fun r y hy => hwrites r y (.tail x hy)) (fun r y hy => hrests r y (.tail x hy)) (f r x)
    have hx := List.mem_cons_self (a := x) (l := xs)
    refine ⟨fun h => ?_, fun h => (hnone fun y hy => h y (.tail x hy)).trans (hrests r x hx (h x hx))⟩
    by_cases hlater : ∃ y ∈ xs, writes y
    · exact hsome hlater
    · obtain ⟨y, hy, hw⟩ := h
      rcases List.mem_cons.1 hy with rfl | hy
      · exact (hnone fun z hz hw' => hlater ⟨z, hz, hw'⟩).trans (hwrites r y hx hw)
      · exact absurd ⟨y, hy, hw⟩ hlater

/-! ## A line taken for a track (R69) -/

theorem freshSectors_getElem? (g : Geometry) (m : Mount) (ds : List Defect) (tr : Track) (l : Nat) :
    (freshSectors g m ds tr)[l]? = if l < (g.zoneAt tr).n then some
      { state := if sectorHole g m tr l then .clean else .pending, hole := sectorHole g m tr l
        defective := names ds tr ((g.zoneAt tr).idSector l), progress := [], stamp := 0 } else none := by
  rw [freshSectors, List.getElem?_map]
  by_cases hl : l < (g.zoneAt tr).n
  · rw [if_pos hl, List.getElem?_range hl]
    rfl
  · rw [if_neg hl, List.getElem?_eq_none (by simpa using hl)]
    rfl

/-- The address holds a byte of sector `l` of line `i`, a hole. -/
def Geometry.InHole (g : Geometry) (i : Nat) (tr : Track) (x : Sector) (l a : Nat) : Prop :=
  x.hole = true ∧ i * 12288 + l * (g.layoutAt tr).sectorSize ≤ a ∧
    a < i * 12288 + l * (g.layoutAt tr).sectorSize + (g.layoutAt tr).sectorSize

/-- The bytes of the hole sectors hold the fill byte, every other byte is as it was (R49). -/
theorem memRead_fillHoles (g : Geometry) (i : Nat) (tr : Track) (secs : List Sector) (ram : Memory) (a : Nat) :
    let filled := fun l x => secs[l]? = some x ∧ g.InHole i tr x l a
    ((∃ l x, filled l x) → memRead (fillHoles g i tr secs ram) a = (g.zoneAt tr).fill) ∧
    ((∀ l x, ¬ filled l x) → memRead (fillHoles g i tr secs ram) a = memRead ram a) := by
  intro filled
  have haddr : ∀ l, dataAddr i (g.layoutAt tr).sectorSize l 0 = i * 12288 + l * (g.layoutAt tr).sectorSize := fun _ => by
    rw [dataAddr, lineBase, lineBytes, Nat.add_zero]
  obtain ⟨hsome, hnone⟩ := read_foldl (fun r => memRead r a) (fun p : Sector × Nat => g.InHole i tr p.1 p.2 a)
    (v := (g.zoneAt tr).fill) (xs := secs.zipIdx)
    (f := fun r (x, l) => if x.hole then
      memStore r (dataAddr i (g.layoutAt tr).sectorSize l 0) (List.replicate (g.layoutAt tr).sectorSize (g.zoneAt tr).fill) else r)
    (fun r p _ ⟨hhole, hin⟩ => by simp only [if_pos hhole, haddr, memRead_memStore_replicate, if_pos hin])
    (fun r p _ hout => by
      by_cases hhole : p.1.hole = true
      · simp only [if_pos hhole, haddr, memRead_memStore_replicate, if_neg fun hin => hout ⟨hhole, hin⟩]
      · simp only [if_neg hhole]) ram
  refine ⟨fun ⟨l, x, hx, hw⟩ => hsome ⟨(x, l), List.mem_zipIdx_iff_getElem?.2 hx, hw⟩, fun h => hnone fun p hp hw => ?_⟩
  exact h p.2 p.1 ⟨List.mem_zipIdx_iff_getElem?.1 hp, hw⟩

/-! ## The moments of read-ahead (R71, log 20) -/

/-- Line `i` is the active line, RESIDENT, and holds the track. -/
def Cache.ActiveAt (c : Cache) (i : Nat) (tr : Track) : Prop :=
  c.active = some i ∧ (c.line i).lineState = .resident ∧ (c.line i).tag = some tr

theorem Cache.activeResident_eq_some_iff (c : Cache) (i : Nat) (tr : Track) :
    c.activeResident = some (i, some tr) ↔ c.ActiveAt i tr := by
  unfold Cache.activeResident Cache.ActiveAt
  cases c.active with
  | none => simp
  | some k =>
    by_cases hres : (c.line k).lineState = .resident
    · simp only [if_pos hres, Option.some.injEq, Prod.mk.injEq]
      constructor
      · rintro ⟨rfl, htag⟩
        exact ⟨rfl, hres, htag⟩
      · rintro ⟨rfl, -, htag⟩
        exact ⟨rfl, htag⟩
    · simp only [if_neg hres, Option.some.injEq]
      constructor
      · intro h
        exact absurd h (by simp)
      · rintro ⟨rfl, h, -⟩
        exact absurd h hres

/-- A RESIDENT line holds a track. -/
theorem Cache.activeResident_cases (c : Cache) : c.activeResident = none ∨ ∃ i tr, c.activeResident = some (i, some tr) := by
  unfold Cache.activeResident
  cases c.active with
  | none => exact .inl rfl
  | some i =>
    by_cases hres : (c.line i).lineState = .resident
    · obtain ⟨-, -, -, hresident⟩ := (c.line i).lineState_spec
      obtain ⟨tr, htag⟩ := Option.ne_none_iff_exists'.1 (hresident.1 hres).1
      exact .inr ⟨i, tr, by simp only [if_pos hres, htag]⟩
    · exact .inl (if_neg hres)

theorem Cache.activeResident_isSome_iff (c : Cache) : c.activeResident.isSome = true ↔ ∃ i tr, c.ActiveAt i tr := by
  rcases c.activeResident_cases with h | ⟨i, tr, h⟩
  · simp [h, ← c.activeResident_eq_some_iff]
  · simp only [h, Option.isSome_some, true_iff]
    exact ⟨i, tr, (c.activeResident_eq_some_iff i tr).1 h⟩

/-- The active line has become RESIDENT, or active while RESIDENT, or another line has left FILLING. -/
def Cache.AheadMoment (old new : Cache) : Prop := (∃ i tr, new.ActiveAt i tr ∧ ¬ old.ActiveAt i tr) ∨
  ∃ k < 8, new.active ≠ some k ∧ (old.line k).lineState = .filling ∧ (new.line k).lineState ≠ .filling

theorem aheadMoment_iff (old new : Cache) :
    aheadMoment old new = true ↔ (∃ i tr, new.ActiveAt i tr) ∧ old.AheadMoment new := by
  have hlines : (List.range 8).any (fun k => decide (new.active ≠ some k) && decide ((old.line k).lineState = .filling) &&
      decide ((new.line k).lineState ≠ .filling)) = true ↔
      ∃ k < 8, new.active ≠ some k ∧ (old.line k).lineState = .filling ∧ (new.line k).lineState ≠ .filling := by
    simp only [List.any_eq_true, List.mem_range, Bool.and_eq_true, decide_eq_true_eq, and_assoc]
  rw [aheadMoment, Bool.and_eq_true, Bool.or_eq_true, new.activeResident_isSome_iff, hlines, decide_eq_true_eq]
  refine and_congr_right fun ⟨i, tr, hat⟩ => or_congr_left ?_
  have hnew := (new.activeResident_eq_some_iff i tr).2 hat
  constructor
  · intro hne
    exact ⟨i, tr, hat, fun hold => hne (((old.activeResident_eq_some_iff i tr).2 hold).trans hnew.symm)⟩
  · rintro ⟨k, t, hat', hold⟩ heq
    exact hold ((old.activeResident_eq_some_iff k t).1 (heq.trans ((new.activeResident_eq_some_iff k t).2 hat')))

theorem Cache.considerAhead_at {c : Cache} {i : Nat} {tr : Track} (h : c.ActiveAt i tr) (g : Geometry) (m : Mount) (dirIn : Bool) :
    c.considerAhead g m dirIn = (aheadCandidates g.profile tr dirIn).foldl (fun c x => Cache.tryAhead g m c x) c := by
  simp only [Cache.considerAhead, (c.activeResident_eq_some_iff i tr).2 h]

theorem Cache.considerAhead_rests {c : Cache} (h : ∀ i tr, ¬ c.ActiveAt i tr) (g : Geometry) (m : Mount) (dirIn : Bool) :
    c.considerAhead g m dirIn = c := by
  rcases c.activeResident_cases with hr | ⟨i, tr, hr⟩
  · simp only [Cache.considerAhead, hr]
  · exact absurd ((c.activeResident_eq_some_iff i tr).1 hr) (h i tr)

/-- Read-ahead may be considered: MOUNTED, the option on, the active line RESIDENT (R71). -/
def State.MayReadAhead (s : State) : Prop :=
  s.mount.state = .mounted ∧ s.link.options.readAhead = true ∧ ∃ i tr, s.cache.ActiveAt i tr

theorem lookAhead_may {s : State} (h : s.MayReadAhead) :
    s.lookAhead = { s with cache := s.cache.considerAhead s.geom s.mount s.drive.lastIn } := by
  obtain ⟨hm, hoption, -⟩ := h
  exact if_pos (by simp [s.isMounted_iff.2 hm, hoption])

theorem lookAhead_rests {s : State} (h : ¬ s.MayReadAhead) : s.lookAhead = s := by
  unfold State.lookAhead
  split
  · rename_i hon
    obtain ⟨hm, hoption⟩ := Bool.and_eq_true_iff.1 hon
    rw [Cache.considerAhead_rests fun i tr hat => h ⟨s.isMounted_iff.1 hm, hoption, i, tr, hat⟩]
  · rfl

theorem reactAhead_moment {s : State} {old : Cache} (h : s.MayReadAhead) (hm : old.AheadMoment s.cache) :
    s.reactAhead old = s.lookAhead := if_pos ((aheadMoment_iff old s.cache).2 ⟨h.2.2, hm⟩)

theorem reactAhead_rests {s : State} {old : Cache} (h : ¬ (s.MayReadAhead ∧ old.AheadMoment s.cache)) : s.reactAhead old = s := by
  unfold State.reactAhead
  split
  · rename_i hm
    exact lookAhead_rests fun hmay => h ⟨hmay, ((aheadMoment_iff old s.cache).1 hm).2⟩
  · rfl

/-! ## The candidates of read-ahead (R71) -/

/-- The tracks of a list that lie on the image. -/
def Profile.onImage (p : Profile) (tracks : List Track) : List Track :=
  tracks.filter (fun x => decide (x.cyl < p.cylinders ∧ x.head < p.heads))

theorem aheadCandidates_eq (p : Profile) (tr : Track) (dirIn : Bool) : aheadCandidates p tr dirIn = p.onImage (⟨tr.cyl, 1 - tr.head⟩ ::
    if dirIn then [⟨tr.cyl + 1, 0⟩, ⟨tr.cyl + 1, 1⟩] else if tr.cyl = 0 then [] else [⟨tr.cyl - 1, 0⟩, ⟨tr.cyl - 1, 1⟩]) :=
  List.filter_congr fun _ _ => (Bool.decide_and ..).symm

/-! ## The line that read-ahead takes (R72) -/

/-- A line that may give way: it holds a track, is not pinned, and no sector of it is PENDING or non-clean (R69). -/
def Cache.Evictable (c : Cache) (k : Nat) : Prop :=
  (c.line k).tag ≠ none ∧ (c.line k).pinned = false ∧ ∀ x ∈ (c.line k).sectors, x.state = .clean ∨ x.state = .missing

theorem Cache.evictable_iff (c : Cache) (k : Nat) : (c.line k).evictable = true ↔ c.Evictable k := by
  unfold Cache.Evictable
  cases hp : (c.line k).pinned with
  | true => simp [Line.evictable, hp]
  | false => simpa using Line.evictable_iff hp

theorem Cache.pickLine_free {c : Cache} {order : List Nat} {i : Nat} (h : Furthest order c.FreeLine i) : c.pickLine order = some i := by
  simp only [Cache.pickLine, (furthestBack_eq_some_iff c.freeLine_iff).2 h]

theorem Cache.pickLine_evictable {c : Cache} {order : List Nat} {i : Nat} (hn : ∀ k ∈ order, ¬ c.FreeLine k)
    (h : Furthest order c.Evictable i) : c.pickLine order = some i := by
  simp only [Cache.pickLine, (furthestBack_eq_none_iff c.freeLine_iff).2 hn, (furthestBack_eq_some_iff c.evictable_iff).2 h]

theorem Cache.pickLine_none {c : Cache} {order : List Nat} (h : ∀ k ∈ order, ¬ c.FreeLine k ∧ ¬ c.Evictable k) :
    c.pickLine order = none := by
  simp only [Cache.pickLine, (furthestBack_eq_none_iff c.freeLine_iff).2 fun k hk => (h k hk).1,
    (furthestBack_eq_none_iff c.evictable_iff).2 fun k hk => (h k hk).2]

theorem Cache.Sound.carrier_isSome_iff {c : Cache} (h : c.Sound) (tr : Track) :
    (c.carrier tr).isSome = true ↔ ∃ k < 8, (c.line k).tag = some tr := by
  constructor
  · intro hs
    obtain ⟨k, hk⟩ := Option.isSome_iff_exists.1 hs
    obtain ⟨hlt, htag⟩ := Cache.carrier_some hk
    exact ⟨k, h.lines ▸ hlt, htag⟩
  · rintro ⟨k, hk, htag⟩
    rw [Option.isSome_iff_ne_none]
    intro hnone
    have hlt : k < c.lines.length := h.lines ▸ hk
    have hline : c.line k = c.lines[k] := by simp [Cache.line, hlt]
    exact Cache.carrier_none hnone (List.getElem_mem hlt) (hline ▸ htag)

/-- The entry furthest back from the third place on. -/
def FurthestThird (order : List Nat) (p : Nat → Prop) (i : Nat) : Prop :=
  ∃ before after, order = before ++ i :: after ∧ 2 ≤ before.length ∧ p i ∧ ∀ k ∈ after, ¬ p k

theorem FurthestThird.drop {order : List Nat} {p : Nat → Prop} {i : Nat} (h : FurthestThird order p i) : Furthest (order.drop 2) p i := by
  obtain ⟨before, after, rfl, hlen, hi, hafter⟩ := h
  exact ⟨before.drop 2, after, List.drop_append_of_le_length hlen, hi, hafter⟩

theorem FurthestThird.toSecond_eq {order : List Nat} {p : Nat → Prop} {i first : Nat} {rest : List Nat} (h : FurthestThird order p i)
    (hn : order.Nodup) (ho : order = first :: rest) : toSecond order i = first :: i :: rest.filter (· != i) := by
  obtain ⟨before, after, hsplit, hlen, -, -⟩ := h
  have hmem : i ∈ rest := by
    cases before with
    | nil => simp at hlen
    | cons b before =>
      obtain ⟨-, rfl⟩ := List.cons.inj (ho.symm.trans hsplit)
      simp
  have hne : (first != i) = true := by
    rw [ho, List.nodup_cons] at hn
    exact bne_iff_ne.2 fun heq => hn.1 (heq ▸ hmem)
  rw [toSecond, ho, List.filter_cons, if_pos hne]

theorem Cache.tryAhead_none {c : Cache} (g : Geometry) (m : Mount) (tr : Track)
    (hn : ∀ k ∈ c.lru.drop 2, ¬ c.FreeLine k ∧ ¬ c.Evictable k) : Cache.tryAhead g m c tr = c := by
  simp only [Cache.tryAhead, Cache.pickLine_none hn, ite_self]

section
variable {c : Cache} (h : c.Sound) (g : Geometry) (m : Mount) (tr : Track)
include h

theorem Cache.Sound.tryAhead_carried (hc : ∃ k < 8, (c.line k).tag = some tr) : Cache.tryAhead g m c tr = c :=
  if_pos ((h.carrier_isSome_iff tr).2 hc)

theorem Cache.Sound.tryAhead_takes (hc : ∀ k < 8, (c.line k).tag ≠ some tr) {i first : Nat} {rest : List Nat}
    (hi : FurthestThird c.lru c.FreeLine i ∨ ((∀ k ∈ c.lru.drop 2, ¬ c.FreeLine k) ∧ FurthestThird c.lru c.Evictable i))
    (hl : c.lru = first :: rest) :
    Cache.tryAhead g m c tr = { c.occupy g m i tr .ahead with lru := first :: i :: rest.filter (· != i) } := by
  have hnone : ¬ (c.carrier tr).isSome = true := fun hs => by
    obtain ⟨k, hk, htag⟩ := (h.carrier_isSome_iff tr).1 hs
    exact hc k hk htag
  have hpick : c.pickLine (c.lru.drop 2) = some i :=
    hi.elim (fun hf => Cache.pickLine_free hf.drop) (fun he => Cache.pickLine_evictable he.1 he.2.drop)
  have hsecond : toSecond c.lru i = first :: i :: rest.filter (· != i) :=
    hi.elim (fun hf => hf.toSecond_eq h.lru_nodup hl) (fun he => he.2.toSecond_eq h.lru_nodup hl)
  simp only [Cache.tryAhead, if_neg hnone, hpick, hsecond]

end

/-! ## The obligation -/

/-- The line that an allocation sets up, and the bytes of its data area (R49, R69). -/
theorem Cache.occupy_spec (c : Cache) (g : Geometry) (m : Mount) (i : Nat) (tr : Track) (origin : Origin) (hi : i < c.lines.length) :
    let d := c.occupy g m i tr origin
    (d.line i).sectors.length = (g.zoneAt tr).n ∧
    (∀ l x, d.sector i l = some x →
      x.hole = sectorHole g m tr l ∧ x.state = (if sectorHole g m tr l then .clean else .pending) ∧ x.progress = [] ∧
      x.defective = names c.defects tr ((g.zoneAt tr).firstSector + l)) ∧
    (∀ a, a < i * 12288 ∨ i * 12288 + (g.zoneAt tr).n * (g.layoutAt tr).sectorSize ≤ a → memRead d.ram a = memRead c.ram a) ∧
    (∀ l b, l < (g.zoneAt tr).n → b < (g.layoutAt tr).sectorSize → sectorHole g m tr l = true →
      memRead d.ram (i * 12288 + l * (g.layoutAt tr).sectorSize + b) = (g.zoneAt tr).fill) := by
  intro d
  have hsectors : (d.line i).sectors = freshSectors g m c.defects tr := by rw [c.occupy_line_same g m hi tr origin]
  have hram := memRead_fillHoles g i tr (freshSectors g m c.defects tr) c.ram
  have hfresh := freshSectors_getElem? g m c.defects tr
  refine ⟨by simp [hsectors, freshSectors], fun l x hx => ?_, fun a ha => (hram a).2 fun l x hx => ?_, fun l b hl hb hhole => ?_⟩
  · rw [Cache.sector, hsectors, hfresh] at hx
    split at hx
    · obtain rfl := Option.some.inj hx
      exact ⟨rfl, rfl, rfl, rfl⟩
    · exact absurd hx (by simp)
  · obtain ⟨hx, -, hlow, hhigh⟩ := hx
    rw [hfresh] at hx
    split at hx
    · rename_i hl
      have hle : (l + 1) * (g.layoutAt tr).sectorSize ≤ (g.zoneAt tr).n * (g.layoutAt tr).sectorSize := Nat.mul_le_mul_right _ hl
      rw [Nat.succ_mul] at hle
      omega
    · exact absurd hx (by simp)
  · exact (hram _).1 ⟨l, _, (hfresh l).trans (if_pos hl), hhole, by omega, by omega⟩

/-- Settles O47: the line taken, the holes, the image's place on the card, the line states, and read-ahead part by part. -/
theorem allocationSetsUpOneLine : Obligations.AllocationSetsUpOneLine := by
  refine ⟨fun c g m i tr origin hi => ?_, fun g m tr l => ?_, fun m blk => ?_, fun ln => ?_, fun s old => ?_, fun p c h => ?_,
    fun c g m tr h => ?_⟩
  · have hline := c.occupy_line_same g m hi tr origin
    obtain ⟨hlength, hsectors, houtside, hholes⟩ := c.occupy_spec g m i tr origin hi
    exact ⟨rfl, fun k hk => c.occupy_line_other g m hk tr origin, by rw [hline], by rw [hline], by rw [hline], by rw [hline],
      by rw [hline], hlength, hsectors, fun _ => houtside, fun _ => hholes⟩
  · have hcovers := g.covers_iff tr l
    refine ⟨(sectorHole_iff g m tr l).trans (exists_congr fun blk => and_congr_left fun _ => hcovers blk), fun blk => ?_⟩
    exact ⟨hcovers blk, (g.mem_sectorBlocks tr l blk).trans (hcovers blk)⟩
  · exact ⟨fun before e after hc hlow hhigh => m.mapBlock_at hc hlow hhigh, m.mapBlock_past⟩
  · obtain ⟨hfree, hfilling, hfailed, hresident⟩ := ln.lineState_spec
    exact ⟨hfree, hfilling, hfailed, hresident, ln.dirty_iff⟩
  · have hconsider : ∀ i tr, s.cache.ActiveAt i tr → ({ s with cache := s.cache.considerAhead s.geom s.mount s.drive.lastIn } : State) =
        { s with cache := (aheadCandidates s.geom.profile tr s.drive.lastIn).foldl (fun c x => Cache.tryAhead s.geom s.mount c x) s.cache } :=
      fun i tr hat => by rw [Cache.considerAhead_at hat]
    exact ⟨fun hmay i tr hat => (lookAhead_may hmay).trans (hconsider i tr hat), lookAhead_rests,
      fun hmay hm i tr hat => ((reactAhead_moment hmay hm).trans (lookAhead_may hmay)).trans (hconsider i tr hat), reactAhead_rests,
      fun i tr hat _ _ hat' => hconsider _ _ hat', fun hno => Cache.considerAhead_rests hno _ _ _⟩
  · exact ⟨aheadCandidates_eq p ⟨c, h⟩ true, aheadCandidates_eq p ⟨0, h⟩ false, aheadCandidates_eq p ⟨c + 1, h⟩ false⟩
  · exact ⟨h.tryAhead_carried g m tr, Cache.tryAhead_none g m tr, fun hc i first rest hi hl => h.tryAhead_takes g m tr hc hi hl⟩

end Sys2Proof.Machine
end

section
/-! PROOFS. A block of a fill and the ends of fill runs (04 R71, R73, R76, R77, 08 R145, R149, R154, R155). -/

namespace Sys2Proof.Machine

/-! ## Fill work (R73) -/

theorem State.fillWork_iff (s : State) (i blk : Nat) : s.fillWork i blk = true ↔
    s.mount.state = .mounted ∧ ∃ tr l x, (s.cache.line i).tag = some tr ∧ s.cache.sector i l = some x ∧ x.state = .pending ∧
      s.geom.covers tr l blk = true ∧ blk ∉ x.progress := by
  have hwork : s.cache.isFillWork s.geom i blk = true ↔ _ :=
    s.cache.any_sector_iff i fun tr x l => x.state == .pending && !x.progress.contains blk && s.geom.covers tr l blk
  rw [State.fillWork, Bool.and_eq_true, s.isMounted_iff, hwork]
  refine and_congr_right fun _ => exists_congr fun tr => exists_congr fun l => exists_congr fun x => ?_
  simp only [Bool.and_eq_true, Bool.not_eq_true', beq_iff_eq, List.contains_eq_mem, decide_eq_false_iff_not, and_assoc]
  rw [and_comm (a := blk ∉ x.progress)]

/-! ## A fill block reaches a sector (R76) -/

/-- The sector is PENDING, covers the block and has not received it. -/
def Sector.Lacks (x : Sector) (g : Geometry) (tr : Track) (l blk : Nat) : Prop :=
  x.state = .pending ∧ g.covers tr l blk = true ∧ blk ∉ x.progress

theorem receiveBlock_spec (g : Geometry) (tr : Track) (blk l : Nat) (x : Sector) :
    let whole := ∀ p ∈ g.sectorBlocks tr l, p = blk ∨ p ∈ x.progress
    (¬ x.Lacks g tr l blk → receiveBlock g tr blk l x = x) ∧
    (x.Lacks g tr l blk → whole → receiveBlock g tr blk l x = { x with state := .clean, progress := [] }) ∧
    (x.Lacks g tr l blk → ¬ whole → ∃ y, receiveBlock g tr blk l x = { x with progress := y } ∧
      ∀ p, p ∈ y ↔ p ∈ g.sectorBlocks tr l ∧ (p = blk ∨ p ∈ x.progress)) := by
  intro whole
  let grown := (g.sectorBlocks tr l).filter (fun b => b == blk || x.progress.contains b)
  have hlacks : (x.state = .pending ∧ g.covers tr l blk = true ∧ ¬ x.progress.contains blk = true) ↔ x.Lacks g tr l blk := by
    simp [Sector.Lacks]
  have hgrown : ∀ p, p ∈ grown ↔ p ∈ g.sectorBlocks tr l ∧ (p = blk ∨ p ∈ x.progress) := fun p => by simp [grown]
  have hwhole : grown = g.sectorBlocks tr l ↔ whole := by simp [grown, whole, List.filter_eq_self]
  refine ⟨fun h => if_neg (mt hlacks.1 h), fun h hw => ?_, fun h hw => ⟨grown, ?_, hgrown⟩⟩
  · have hclean : receiveBlock g tr blk l x = x.enter .clean := (if_pos (hlacks.2 h)).trans (if_pos (hwhole.2 hw))
    rw [hclean, Sector.enter_of_ne (by rw [h.1]; decide)]
  · exact (if_pos (hlacks.2 h)).trans (if_neg (mt hwhole.1 hw))

/-! ## The bytes of a fill block (R76, log 7) -/

theorem byteAt_map_range (f : Nat → Byte) {n k : Nat} (h : k < n) : byteAt ((List.range n).map f) k = f k := by
  rw [byteAt, List.getD_eq_getElem _ _ (by simpa using h)]
  simp

/-- The address holds a byte of the block that lies in sector `l` of line `i`. -/
def Geometry.InBlock (g : Geometry) (i : Nat) (tr : Track) (blk l a : Nat) : Prop :=
  ∃ b < (g.layoutAt tr).sectorSize, 512 * blk ≤ g.sectorOffset tr l + b ∧ g.sectorOffset tr l + b < 512 * blk + 512 ∧
    a = i * 12288 + l * (g.layoutAt tr).sectorSize + b

/-- A sector takes the bytes of the block that lie in it and no other; which byte an address takes does not depend on the sector. -/
theorem memRead_storeFillPart (g : Geometry) (i : Nat) (tr : Track) (blk : Nat) (data : List Byte) (ram : Memory) (l a : Nat) :
    (g.InBlock i tr blk l a →
      memRead (storeFillPart g i tr blk data ram l) a = byteAt data (g.trackOffset tr + (a - i * 12288) - 512 * blk)) ∧
    (¬ g.InBlock i tr blk l a → memRead (storeFillPart g i tr blk data ram l) a = memRead ram a) := by
  have hoffset : g.sectorOffset tr l = g.trackOffset tr + l * (g.layoutAt tr).sectorSize := rfl
  unfold Geometry.InBlock storeFillPart
  rw [hoffset, lineBase, lineBytes]
  generalize g.trackOffset tr = track
  generalize hstart : l * (g.layoutAt tr).sectorSize = start
  generalize (g.layoutAt tr).sectorSize = size
  simp only
  generalize hlo : max (track + start) (blk * 512) = lo
  generalize hhi : min (track + start + size) (blk * 512 + 512) = hi
  constructor
  · rintro ⟨b, hb, hlow, hhigh, rfl⟩
    rw [memRead_memStore_at ram (by omega) (by simp only [List.length_map, List.length_range]; omega), byteAt_map_range _ (by omega)]
    congr 1
    omega
  · intro hout
    refine memRead_memStore_outside _ _ _ _ ?_
    by_contra hin
    simp only [List.length_map, List.length_range] at hin
    exact hout ⟨a - (i * 12288 + start), by omega, by omega, by omega, by omega⟩

theorem memRead_deliver (c : Cache) (g : Geometry) (i : Nat) (tr : Track) (blk : Nat) (data : List Byte) (a : Nat) :
    let takes := fun l x => c.sector i l = some x ∧ x.Lacks g tr l blk ∧ g.InBlock i tr blk l a
    ((∃ l x, takes l x) →
      memRead (c.deliver g i tr blk data).ram a = byteAt data (g.trackOffset tr + (a - i * 12288) - 512 * blk)) ∧
    ((∀ l x, ¬ takes l x) → memRead (c.deliver g i tr blk data).ram a = memRead c.ram a) := by
  intro takes
  let takers := (c.line i).sectors.zipIdx.filter (fun (x, l) =>
    x.state == .pending && g.covers tr l blk && !x.progress.contains blk)
  have hmem : ∀ x l, (x, l) ∈ takers ↔ c.sector i l = some x ∧ x.Lacks g tr l blk := fun x l => by
    simp [takers, List.mem_zipIdx_iff_getElem?, Cache.sector, Sector.Lacks, and_assoc]
  obtain ⟨hsome, hnone⟩ := read_foldl (fun r => memRead r a) (fun p : Sector × Nat => g.InBlock i tr blk p.2 a) (xs := takers)
    (fun r p _ h => (memRead_storeFillPart g i tr blk data r p.2 a).1 h)
    (fun r p _ h => (memRead_storeFillPart g i tr blk data r p.2 a).2 h) c.ram
  refine ⟨fun ⟨l, x, hx, hlacks, hin⟩ => hsome ⟨(x, l), (hmem x l).2 ⟨hx, hlacks⟩, hin⟩, fun h => hnone fun ⟨x, l⟩ hp hin => ?_⟩
  obtain ⟨hx, hlacks⟩ := (hmem x l).1 hp
  exact h l x ⟨hx, hlacks, hin⟩

theorem Cache.sector_deliver (c : Cache) (g : Geometry) (i : Nat) (tr : Track) (blk : Nat) (data : List Byte) (l : Nat) :
    (c.deliver g i tr blk data).sector i l = (c.sector i l).map (receiveBlock g tr blk l) := by
  rw [Cache.deliver, Cache.sector_mapSectors]
  simp only [if_true]
  rfl

theorem Cache.line_deliver_other (c : Cache) (g : Geometry) {i k : Nat} (hk : k ≠ i) (tr : Track) (blk : Nat) (data : List Byte) :
    (c.deliver g i tr blk data).line k = c.line k := by
  rw [Cache.deliver, Cache.mapSectors, Cache.line_modLine _ _ _ _ (.inl rfl), if_neg hk]
  rfl

/-! ## What is left of a fill run, and what cancels it (R149, log 24) -/

section
variable {r : Run} {i f : Nat} {tr : Track}

theorem runClass_fill (s : State) (hk : r.kind = .fill) (hline : r.line = some i) :
    s.runClass r = if s.cache.active = some i then .demand else .ahead := by
  simp [State.runClass, hk, hline]

/-- A block of the run from the `k`-th on is fill work of its line. -/
def State.Left (s : State) (r : Run) (i f : Nat) (tr : Track) (k : Nat) : Prop :=
  s.runEnded r = false ∧ (s.cache.line i).tag = some tr ∧ ∃ b, k ≤ b ∧ b < r.count ∧ s.fillWork i (f + b) = true

theorem workRemains_iff (s : State) (hline : r.line = some i) (htrack : r.track = some tr) (hfirst : r.firstImage = some f) (k : Nat) :
    s.workRemains r k = true ↔ s.Left r i f tr k := by
  have hcarries : s.cache.carries i (some tr) = true ↔ (s.cache.line i).tag = some tr := by simp [carries_iff]
  simp only [State.workRemains, hline, htrack, hfirst, Bool.and_eq_true, Bool.not_eq_true', hcarries, List.any_eq_true, List.mem_range,
    State.Left, and_assoc]
  refine and_congr_right fun _ => and_congr_right fun _ => ⟨fun ⟨b, hb, hw⟩ => ?_, fun ⟨b, hlow, hhigh, hw⟩ => ?_⟩
  · exact ⟨k + b, by omega, by omega, by rwa [← Nat.add_assoc]⟩
  · exact ⟨b - k, by omega, by rwa [Nat.add_assoc, Nat.add_sub_cancel' hlow]⟩

/-- DEMAND work waits, in the queued slot or as an offer (R149). -/
def State.DemandWaits (s : State) : Prop := (∃ q, s.card.queued = some q ∧ s.runClass q = .demand) ∨ s.offerDemand.isSome = true

theorem demandWaits_iff (s : State) : s.demandWaits = true ↔ s.DemandWaits := by
  unfold State.demandWaits State.DemandWaits
  cases s.card.queued <;> simp

theorem cancels_fill_iff (s : State) (hk : r.kind = .fill) (hline : r.line = some i) (htrack : r.track = some tr)
    (hfirst : r.firstImage = some f) : s.cancels r = true ↔ s.mount.state ≠ .mounted ∨ s.runEnded r = true ∨
      (r.base + r.received < r.count ∧ ¬ s.Left r i f tr (r.base + r.received)) ∨ (s.cache.active ≠ some i ∧ s.DemandWaits) := by
  have hahead : s.runClass r = .ahead ↔ s.cache.active ≠ some i := by
    rw [runClass_fill s hk hline]
    by_cases ha : s.cache.active = some i <;> simp [ha]
  have hdelivered : r.base + r.received = r.delivered := rfl
  rw [hdelivered, ← workRemains_iff s hline htrack hfirst]
  simp only [State.cancels, hk, Bool.or_eq_true, Bool.and_eq_true, beq_iff_eq, hahead, demandWaits_iff, Bool.not_eq_true',
    s.isMounted_eq_false_iff, decide_eq_true_eq, Bool.not_eq_true]
  tauto

/-! ## The boundary of a fill run (R145, R149, R154) -/

theorem cardEnded_fill (s : State) (hk : r.kind = .fill) (hline : r.line = some i) (st : RunStatus) (n : Nat) :
    s.cardEnded r st n = { s.card with
      active := none, blockLimit := none, failCount := n
      lastRun := some { r with status := st, cls := if s.cache.active = some i then .demand else .ahead } } := by
  rw [State.cardEnded, runClass_fill s hk hline]

/-- The state once a block of a fill has reached the cache and the cache has reacted (R76, log 20). -/
def State.filled (s : State) (r : Run) (i f : Nat) (tr : Track) (data : List Byte) : State :=
  if s.runEnded r = true ∨ (s.cache.line i).tag ≠ some tr then s
  else ({ s with cache := s.cache.deliver s.geom i tr (f + (r.base + r.received)) data } : State).react s.cache

theorem filled_eq (s : State) (r : Run) (i f : Nat) (tr : Track) (data : List Byte) :
    s.filled r i f tr data = { s with cache := (s.filled r i f tr data).cache } := by
  unfold State.filled
  split
  · rfl
  · rw [react_eq]

theorem deliverFill_eq (s : State) (hline : r.line = some i) (htrack : r.track = some tr) (hfirst : r.firstImage = some f)
    (data : List Byte) : s.deliverFill r data = s.filled r i f tr data := by
  have hcarries : s.cache.carries i (some tr) = true ↔ (s.cache.line i).tag = some tr := by simp [carries_iff]
  have hstale : (s.runEnded r || !s.cache.carries i (some tr)) = true ↔ s.runEnded r = true ∨ (s.cache.line i).tag ≠ some tr := by
    rw [Bool.or_eq_true, Bool.not_eq_true', Bool.eq_false_iff, ne_eq, hcarries]
  simp only [State.deliverFill, hline, htrack, hfirst, State.filled, hstale]
  rfl

/-- The state at the boundary of a fill run `q`, the cache being `c`. -/
def State.atFillBoundary (s : State) (c : Cache) (q : Run) : State := { s with cache := c, card := { s.card with active := some q } }

theorem blockReceived_fill {s : State} (ha : s.card.active = some r) (hk : r.kind = .fill) (hline : r.line = some i)
    (htrack : r.track = some tr) (hfirst : r.firstImage = some f) (data : List Byte) :
    s.blockReceived data = s.atFillBoundary (s.filled r i f tr data).cache { r with received := r.received + 1 } := by
  have hgiven : s.handBlock r data = (s.filled r i f tr data, r) := by
    simp only [State.handBlock, hk, deliverFill_eq s hline htrack hfirst]
  simp only [State.blockReceived, ha, hgiven]
  rw [filled_eq]
  rfl

/-- The step at the boundary of a fill: the reactions are those to the boundary alone (log 20). -/
theorem ends_fillBoundary {s : State} (hp : s.powered = true) (ha : s.card.active = some r) (hk : r.kind = .fill)
    (hline : r.line = some i) (htrack : r.track = some tr) (hfirst : r.firstImage = some f) (data : List Byte) :
    let gone := { r with received := r.received + 1 }
    let v := s.atFillBoundary (s.filled r i f tr data).cache gone
    ∃ t, exec (.blockTransferDone data) s = .next t ∧ Reacted v (v.boundary gone) t := by
  intro gone v
  refine ⟨_, ?_, reacted_settle v _⟩
  change execBlockTransferDone data s = _
  rw [execBlockTransferDone, whenPowered_present _ hp, State.transferEnds, if_pos (by rw [ha]; rfl), State.blockDone,
    blockReceived_fill ha hk hline htrack hfirst]
  rfl

theorem runDone_fill (s : State) (hk : r.kind = .fill) : s.runDone r = { s with card := s.cardEnded r .done 0 } := by
  simp only [State.runDone, State.handDone, hk]
  rfl

/-! ## Failed attempts of a fill (R77, R155) -/

theorem attemptFails_gives_up {s : State} (ha : s.card.active = some r) (hn : s.card.failCount < 3) (hk : r.kind = .fill)
    (h1 : r.attempt = 1) (hw : s.workRemains r (r.base + r.received) = false) (e : RunError) :
    s.attemptFails e = { s with card := s.cardEnded r .cancelled (s.card.failCount + 1) } := by
  simp only [State.attemptFails, ha, if_neg (Nat.not_le.2 hn), if_pos (And.intro hk h1)]
  refine if_neg ?_
  change ¬ s.workRemains r (r.base + r.received) = true
  simp [hw]

theorem fillFailed_stale {s : State} (hline : r.line = some i) (htrack : r.track = some tr)
    (h : s.runEnded r = true ∨ (s.cache.line i).tag ≠ some tr) (e : RunError) : s.fillFailed r e = s := by
  simp only [State.fillFailed, hline, htrack]
  refine if_pos ?_
  rcases h with h | h
  · simp [h]
  · simp [Cache.carries, h]

theorem fillFailed_takes {s : State} (hline : r.line = some i) (htrack : r.track = some tr) (hr : s.runEnded r = false)
    (htag : (s.cache.line i).tag = some tr) (e : RunError) : s.fillFailed r e = { s with
      cache := s.cache.failFill s.geom i tr r
      link := if (s.cache.line i).origin = .demand then s.link.post (.fillError tr e) else s.link } := by
  simp only [State.fillFailed, hline, htrack]
  rw [if_neg (by simp [hr, Cache.carries, htag])]
  cases ho : (s.cache.line i).origin <;> rfl

/-- The second failure of a run whose mount has ended, or whose line carries its track no longer, changes no line (R146). -/
theorem attemptFails_stale {s : State} (ha : s.card.active = some r) (hn : s.card.failCount < 3) (hk : r.kind = .fill)
    (h1 : r.attempt ≠ 1) (hline : r.line = some i) (htrack : r.track = some tr)
    (h : s.runEnded r = true ∨ (s.cache.line i).tag ≠ some tr) (e : RunError) :
    s.attemptFails e = { s with card := s.cardEnded r (.failed e) (s.card.failCount + 1) } := by
  rw [attemptFails_few ha hn (.inr h1), handFailure_fill hk]
  exact fillFailed_stale (s := { s with card := s.cardEnded r (.failed e) (s.card.failCount + 1) }) hline htrack h e

/-- The second failure is final: PENDING sectors become MISSING, and FILL_ERROR reports it for a DEMAND line (R77). -/
theorem attemptFails_takes {s : State} (ha : s.card.active = some r) (hn : s.card.failCount < 3) (hk : r.kind = .fill)
    (h1 : r.attempt ≠ 1) (hline : r.line = some i) (htrack : r.track = some tr) (hr : s.runEnded r = false)
    (htag : (s.cache.line i).tag = some tr) (e : RunError) : s.attemptFails e = { s with
      card := s.cardEnded r (.failed e) (s.card.failCount + 1)
      cache := s.cache.failFill s.geom i tr r
      link := if (s.cache.line i).origin = .demand then s.link.post (.fillError tr e) else s.link } := by
  rw [attemptFails_few ha hn (.inr h1), handFailure_fill hk]
  exact fillFailed_takes (s := { s with card := s.cardEnded r (.failed e) (s.card.failCount + 1) }) hline htrack hr htag e

/-- A failed fill takes its PENDING sectors to MISSING and leaves every other sector and line (R77). -/
theorem Cache.failFill_spec {c : Cache} (g : Geometry) (htag : (c.line i).tag = some tr) (hfirst : r.firstImage = some f) :
    let d := c.failFill g i tr r
    d = { c with lines := d.lines } ∧ (∀ k, k ≠ i → d.line k = c.line k) ∧ (d.line i).tag = some tr ∧
    ∀ l x, c.sector i l = some x →
      let fails := x.state = .pending ∧ ∃ p ∈ g.sectorBlocks tr l, f ≤ p ∧ p < f + r.count
      (fails → d.sector i l = some { x with state := .missing, progress := [] }) ∧ (¬ fails → d.sector i l = some x) := by
  intro d
  refine ⟨rfl, fun k hk => ?_, (c.tag_mapSectors i i _).trans htag, fun l x hx => ?_⟩
  · exact (c.line_modLine i k _ (.inl rfl)).trans (if_neg hk)
  · intro fails
    have hfails : x.state = .pending ∧ touches g tr r l = true ↔ fails := by
      simp [fails, touches_iff, hfirst]
    have hsector : d.sector i l = some (if x.state = .pending ∧ touches g tr r l = true then x.enter .missing else x) := by
      rw [show d.sector i l = _ from c.sector_mapSectors i i l _, hx]
      simp
    rw [hsector]
    refine ⟨fun h => ?_, fun h => by rw [if_neg (mt hfails.1 h)]⟩
    rw [if_pos (hfails.2 h), Sector.enter_of_ne (by rw [h.1]; decide)]

end

/-! ## The obligation -/

theorem Cache.deliver_spec (c : Cache) (g : Geometry) (i : Nat) (tr : Track) (blk : Nat) (data : List Byte) {l : Nat} {x : Sector}
    (hx : c.sector i l = some x) (hlacks : x.Lacks g tr l blk) {b : Nat} (hb : b < (g.layoutAt tr).sectorSize)
    (hlow : 512 * blk ≤ g.sectorOffset tr l + b) (hhigh : g.sectorOffset tr l + b < 512 * blk + 512) :
    memRead (c.deliver g i tr blk data).ram (i * 12288 + l * (g.layoutAt tr).sectorSize + b) =
      byteAt data (g.sectorOffset tr l + b - 512 * blk) := by
  rw [(memRead_deliver c g i tr blk data _).1 ⟨l, x, hx, hlacks, b, hb, hlow, hhigh, rfl⟩, Geometry.sectorOffset]
  congr 1
  omega

/-- Settles O60: a block of a fill sector by sector, fill work, and the ends of a fill run at the boundary and after a failed attempt. -/
theorem fillBlocksAndFillRuns : Obligations.FillBlocksAndFillRuns := by
  refine ⟨fun c g i tr blk data htag _ => ?block, State.fillWork_iff, fun s data r i f tr hp ha hk hline htrack hfirst => ?run⟩
  case block =>
    refine ⟨rfl, fun k hk => c.line_deliver_other g hk tr blk data, fun l x hx => ?_, fun a ha => ?_⟩
    · obtain ⟨hkeeps, hclean, hgrows⟩ := receiveBlock_spec g tr blk l x
      have hsector : (c.deliver g i tr blk data).sector i l = some (receiveBlock g tr blk l x) := by rw [c.sector_deliver, hx]; rfl
      rw [hsector]
      refine ⟨fun h => congrArg some (hkeeps h), fun h => ⟨fun b ⟨hb, hlow, hhigh⟩ => c.deliver_spec g i tr blk data hx h hb hlow hhigh,
        fun hw => congrArg some (hclean h hw), fun hw => ?_⟩⟩
      obtain ⟨y, hy, hmem⟩ := hgrows h hw
      exact ⟨y, congrArg some hy, hmem⟩
    · refine (memRead_deliver c g i tr blk data a).2 fun l x ⟨hx, hlacks, b, hb, hlow, hhigh, heq⟩ => ?_
      exact ha l x b hx hlacks ⟨hb, hlow, hhigh⟩ heq
  case run =>
    intro ends stale gone given v active ended left demandWaits cancels
    have hfilled : given = { s with cache := given.cache } := filled_eq s r i f tr data
    have hends : ends v (.blockTransferDone data) (v.boundary gone) := by
      have hv : v = s.atFillBoundary given.cache gone := by
        change ({ given with card := _ } : State) = _
        rw [hfilled]
        rfl
      rw [hv]
      exact ends_fillBoundary hp ha hk hline htrack hfirst data
    have hcache : ∃ c, given = { s with cache := c } := ⟨_, hfilled⟩
    clear_value given
    obtain ⟨c, rfl⟩ := hcache
    have hcancels : v.cancels gone = true ↔ cancels := cancels_fill_iff v (r := gone) hk hline htrack hfirst
    have hgoes : ¬ cancels → v.cancels gone = false := fun h => Bool.eq_false_iff.2 (mt hcancels.1 h)
    have hended : ∀ (t : State) st n, t.cardEnded gone st n = ended t gone st n := fun t => cardEnded_fill (r := gone) t hk hline
    refine ⟨rfl, fun h => ?_, fun h hl => ?_, fun h hl => ?_, fun e err he hn => ?failed⟩
    · rw [boundary_cancelled (hcancels.2 h)] at hends
      rw [← hended]
      exact hends
    · have hlimit : gone.kind.limit = 2400000 := by rw [show gone.kind = .fill from hk]; rfl
      rw [boundary_goes_on (hgoes h) hl, hlimit] at hends
      exact hends
    · rw [boundary_done (hgoes h) hl, runDone_fill v (r := gone) hk] at hends
      rw [← hended]
      exact hends
    case failed =>
      have hfails := endsIn_attemptFails hp ha he
      have hended' : ∀ st n, s.cardEnded r st n = ended s r st n := cardEnded_fill s hk hline
      have hleft := workRemains_iff s hline htrack hfirst (r.base + r.received)
      refine ⟨fun h1 hw => hfails.congr (attemptFails_retry ha hn hk h1 (hleft.2 hw) err), fun h1 hw => ?_, fun h1 hst => ?_,
        fun h1 hst => ?_⟩
      · rw [attemptFails_gives_up ha hn hk h1 (Bool.eq_false_iff.2 (mt hleft.1 hw)), hended'] at hfails
        exact hfails
      · rw [attemptFails_stale ha hn hk h1 hline htrack hst, hended'] at hfails
        exact hfails
      · obtain ⟨hr, htag⟩ := not_or.1 hst
        have htag := not_not.1 htag
        rw [attemptFails_takes ha hn hk h1 hline htrack (Bool.eq_false_iff.2 hr) htag, hended'] at hfails
        exact ⟨_, hfails, rfl, (Cache.failFill_spec s.geom htag hfirst).2⟩

end Sys2Proof.Machine
end

section
/-! PROOFS. The presentation unit (05), encoding: the sixteen cells of a byte, and the byte that the capture unit reads from them (06, R110). -/

namespace Sys2Proof.Machine

/-! ## Cells in a word (R91) -/

theorem testBit_foldl_cells (cells : List Bool) (i : Nat) :
    (cells.foldl (fun (acc : Nat) b => 2 * acc + b.toNat) 0).testBit i = cells.reverse.getD i false := by
  induction cells using List.reverseRecOn generalizing i with
  | nil => simp
  | append_singleton bs b ih =>
    rw [List.foldl_append, List.reverse_append]
    cases i with
    | zero => cases b <;> simp [Nat.testBit_zero]
    | succ i =>
      have hhalf : ∀ n, (2 * n + b.toNat) / 2 = n := by cases b <;> simp [Nat.mul_add_div]
      rw [Nat.testBit_succ]
      simpa [hhalf] using ih i

/-- Of sixteen cells the one sent first stands at the top. -/
theorem packCells_getLsbD {cells : List Bool} (hlen : cells.length = 16) {i : Nat} (hi : i < 16) :
    (packCells cells).getLsbD (15 - i) = cells.getD i false := by
  have hbit : (packCells cells).getLsbD (15 - i) = cells.reverse.getD (15 - i) false := by
    rw [packCells, BitVec.getLsbD_ofNat, testBit_foldl_cells, decide_eq_true (by omega : 15 - i < 16), Bool.true_and]
  rw [hbit, List.getD_eq_getElem?_getD, List.getElem?_reverse (by omega), List.getD_eq_getElem?_getD, hlen]
  congr 2
  omega

theorem byteBits_getD (b : Byte) {k : Nat} (hk : k < 8) : (byteBits b).getD k false = b.getLsbD (7 - k) := by
  interval_cases k <;> rfl

/-! ## The cells of a byte (R92, R94) -/

theorem mfmCells_length (prev : Bool) (bits : List Bool) : (mfmCells prev bits).length = 2 * bits.length := by
  induction bits generalizing prev with
  | nil => rfl
  | cons b bs ih => simp only [mfmCells, List.length_cons, ih]; omega

theorem mfmCells_data (prev : Bool) (bits : List Bool) (k : Nat) : (mfmCells prev bits).getD (2 * k + 1) false = bits.getD k false := by
  induction bits generalizing prev k with
  | nil => rfl
  | cons b bs ih =>
    cases k with
    | zero => rfl
    | succ k => exact ih b k

/-- The clock before a data bit is 1 exactly between two zero bits. -/
theorem mfmCells_clock (prev : Bool) (bits : List Bool) {k : Nat} (hk : k < bits.length) :
    (mfmCells prev bits).getD (2 * k) false = (!(prev :: bits).getD k false && !bits.getD k false) := by
  induction bits generalizing prev k with
  | nil => exact absurd hk (Nat.not_lt_zero k)
  | cons b bs ih =>
    cases k with
    | zero => rfl
    | succ k => exact ih b (Nat.lt_of_succ_lt_succ hk)

/-- Two rows of bits sent in turn, as the clock pattern and the data of FM are. -/
theorem flatMap_zip_getD (cs ds : List Bool) (hlen : cs.length = ds.length) (k : Nat) :
    ((cs.zip ds).flatMap (fun p => [p.1, p.2])).getD (2 * k) false = cs.getD k false ∧
    ((cs.zip ds).flatMap (fun p => [p.1, p.2])).getD (2 * k + 1) false = ds.getD k false := by
  induction cs generalizing ds k with
  | nil => cases ds with
    | nil => exact ⟨rfl, rfl⟩
    | cons => cases hlen
  | cons c cs ih => cases ds with
    | nil => cases hlen
    | cons d ds => cases k with
      | zero => exact ⟨rfl, rfl⟩
      | succ k => exact ih ds (Nat.succ.inj hlen) k

/-- The clock pattern of an FM byte (R94). -/
def MarkByte.fmClock : MarkByte → Byte
  | .plain => 0xFF#8
  | .address => 0xC7#8
  | .index => 0xD7#8

theorem encodeByte_fm (prev : Bool) (m : MarkByte) (b : Byte) : encodeByte .fm prev m b = packCells (fmCells m.fmClock b) := by
  cases m <;> rfl

theorem encodeByte_fm_cells (prev : Bool) (m : MarkByte) (b : Byte) {k : Nat} (hk : k < 8) :
    (encodeByte .fm prev m b).getLsbD (14 - 2 * k) = b.getLsbD (7 - k) ∧
    (encodeByte .fm prev m b).getLsbD (15 - 2 * k) = m.fmClock.getLsbD (7 - k) := by
  have hlen : (fmCells m.fmClock b).length = 16 := rfl
  obtain ⟨hclock, hdata⟩ := flatMap_zip_getD (byteBits m.fmClock) (byteBits b) rfl k
  rw [encodeByte_fm, packCells_getLsbD hlen (by omega : 2 * k < 16), show 14 - 2 * k = 15 - (2 * k + 1) by omega,
    packCells_getLsbD hlen (by omega : 2 * k + 1 < 16), ← byteBits_getD b hk, ← byteBits_getD m.fmClock hk]
  exact ⟨hdata, hclock⟩

theorem encodeByte_mfm_data (prev : Bool) (b : Byte) {k : Nat} (hk : k < 8) :
    (encodeByte .mfm prev .plain b).getLsbD (14 - 2 * k) = b.getLsbD (7 - k) := by
  rw [show 14 - 2 * k = 15 - (2 * k + 1) by omega, ← byteBits_getD b hk, ← mfmCells_data prev]
  exact packCells_getLsbD (mfmCells_length prev (byteBits b)) (by omega)

theorem encodeByte_mfm_clock (prev : Bool) (b : Byte) {k : Nat} (hk : k < 8) :
    (encodeByte .mfm prev .plain b).getLsbD (15 - 2 * k) =
      (!(if k = 0 then prev else b.getLsbD (8 - k)) && !b.getLsbD (7 - k)) := by
  have hbefore : (prev :: byteBits b).getD k false = if k = 0 then prev else b.getLsbD (8 - k) := by
    cases k with
    | zero => rfl
    | succ k => exact (byteBits_getD b (by omega : k < 8)).trans (by rw [if_neg k.succ_ne_zero]; congr 1; omega)
  rw [← hbefore, ← byteBits_getD b hk, ← mfmCells_clock prev (byteBits b) hk]
  exact packCells_getLsbD (mfmCells_length prev (byteBits b)) (by omega)

/-- Every data cell carries its bit, the bytes of the MFM marks included, which are sent by pattern (R93). -/
theorem encodeByte_data (e : Encoding) (prev : Bool) (m : MarkByte) (b : Byte) (haddress : e = .mfm → m = .address → b = 0xA1#8)
    (hindex : e = .mfm → m = .index → b = 0xC2#8) {k : Nat} (hk : k < 8) :
    (encodeByte e prev m b).getLsbD (14 - 2 * k) = b.getLsbD (7 - k) := by
  cases e with
  | fm => exact (encodeByte_fm_cells prev m b hk).1
  | mfm =>
    cases m with
    | plain => exact encodeByte_mfm_data prev b hk
    | address =>
      rw [haddress rfl rfl]
      have : ∀ k < 8, (0x4489#16).getLsbD (14 - 2 * k) = (0xA1#8).getLsbD (7 - k) := by decide
      exact this k hk
    | index =>
      rw [hindex rfl rfl]
      have : ∀ k < 8, (0x5224#16).getLsbD (14 - 2 * k) = (0xC2#8).getLsbD (7 - k) := by decide
      exact this k hk

/-! ## The byte read from the cells (R110) -/

theorem foldl_testBit_eq_mod (x n acc : Nat) :
    (List.range n).foldl (fun a k => a + (x.testBit (n - 1 - k)).toNat * 2 ^ (n - 1 - k)) acc = acc + x % 2 ^ n := by
  induction n generalizing acc with
  | zero => simp [Nat.mod_one]
  | succ n ih =>
    have hshift : ∀ k, n + 1 - 1 - (k + 1) = n - 1 - k := by omega
    simp only [List.range_succ_eq_map, List.foldl_cons, List.foldl_map, hshift, ih, Nat.mod_pow_succ, ← Nat.toNat_testBit]
    simp only [Nat.add_sub_cancel, Nat.sub_zero, Nat.mul_comm (2 ^ n)]
    omega

/-- Cells whose data cells carry the bits of a byte are read as that byte. -/
theorem dataByte_eq {shift : BitVec 64} {b : Byte} (h : ∀ k < 8, shift.getLsbD (14 - 2 * k) = b.getLsbD (7 - k)) :
    dataByte shift = b := by
  have hfold : (List.range 8).foldl (fun acc k => acc + (shift.getLsbD (14 - 2 * k)).toNat * 2 ^ (7 - k)) 0 = b.toNat := by
    calc _ = (List.range 8).foldl (fun acc k => acc + (b.toNat.testBit (8 - 1 - k)).toNat * 2 ^ (8 - 1 - k)) 0 :=
          List.foldl_ext _ _ _ fun acc k hk => by rw [h k (List.mem_range.1 hk)]; rfl
      _ = 0 + b.toNat % 2 ^ 8 := foldl_testBit_eq_mod b.toNat 8 0
      _ = b.toNat := by rw [Nat.zero_add, Nat.mod_eq_of_lt b.isLt]
  rw [dataByte, hfold]
  exact BitVec.eq_of_toNat_eq (Nat.mod_eq_of_lt b.isLt)

/-- Settles O41: every data cell carries its bit, so the cells give the byte back, and the clock cells are those of the rules. -/
theorem cellsCarryTheByte : Obligations.CellsCarryTheByte := by
  refine ⟨fun e prev m b before haddress hindex => dataByte_eq fun k hk => ?_, fun prev b k hk => ?_, by decide, by decide, by decide, by decide⟩
  · rw [BitVec.getLsbD_append, if_pos (by omega : 14 - 2 * k < 16)]
    exact encodeByte_data e prev m b haddress hindex hk
  · refine ⟨encodeByte_mfm_data prev b hk, ?_, fun mark clock hmem => ?_⟩
    · rw [encodeByte_mfm_clock prev b hk, Bool.and_eq_true, Bool.not_eq_true', Bool.not_eq_true']
    · have hclock : clock = mark.fmClock := by
        simp only [List.mem_cons, List.not_mem_nil, or_false, Prod.mk.injEq] at hmem
        rcases hmem with ⟨rfl, rfl⟩ | ⟨rfl, rfl⟩ | ⟨rfl, rfl⟩ <;> rfl
      rw [hclock]
      exact encodeByte_fm_cells prev mark b hk

end Sys2Proof.Machine
end

section
/-! PROOFS. The presentation unit (05): the decisions at the units' first cells, the byte of a byte cell, and the instants of the stream. -/

namespace Sys2Proof.Machine

/-! ## The decisions (R95, R96, R98, R100) -/

theorem State.undecided_iff (s : State) (u : PresUnit) : s.undecided u = true ↔
    s.rot.fine = 0 ∧ s.rot.t = s.cell * s.layoutHere.byteTime ∧ s.pres.decision.unit ≠ u := by
  have hcell : s.layoutHere.cellAt s.rot.t = s.cell := rfl
  simp [State.undecided, State.atCellStart_iff, State.firstInstant, hcell, and_assoc]

theorem State.decideSlot_takes {s : State} {tr : Track} {i j : Nat} (hflow : s.flowing = true) (htrack : s.currentTrack = some tr)
    (hline : s.cache.active = some i) (hr : s.regionHere = .slot j 0) (hu : s.undecided (.slot j) = true) :
    s.decideSlot = s.record (s.slotRecord tr i j) := by
  simp only [State.decideSlot, hflow, htrack, hline, hr, hu, if_true]

theorem State.decideIndex_takes {s : State} {tr : Track} {i : Nat} (hflow : s.flowing = true) (htrack : s.currentTrack = some tr)
    (hline : s.cache.active = some i) (hr : s.regionHere = .indexField 0) (hu : s.undecided .indexField = true) :
    s.decideIndex =
      s.record { unit := .indexField, track := some tr, line := some i, full := true, logical := 0, defective := false } := by
  simp only [State.decideIndex, hflow, htrack, hline, hr, hu, if_true]

theorem State.decideSlot_stays {s : State} (h : s.currentTrack = none ∨ s.cache.active = none ∨
    ∀ j, s.regionHere = .slot j 0 → ¬ (s.flowing = true ∧ s.undecided (.slot j) = true)) : s.decideSlot = s := by
  unfold State.decideSlot
  split
  next tr i j hflow htrack hline hr =>
    refine if_neg fun hu => ?_
    rcases h with h | h | h
    · exact absurd (htrack.symm.trans h) (by simp)
    · exact absurd (hline.symm.trans h) (by simp)
    · exact h j hr ⟨hflow, hu⟩
  next => rfl

theorem State.decideIndex_stays {s : State} (h : s.currentTrack = none ∨ s.cache.active = none ∨
    (s.regionHere = .indexField 0 → ¬ (s.flowing = true ∧ s.undecided .indexField = true))) : s.decideIndex = s := by
  unfold State.decideIndex
  split
  next tr i hflow htrack hline hr =>
    refine if_neg fun hu => ?_
    rcases h with h | h | h
    · exact absurd (htrack.symm.trans h) (by simp)
    · exact absurd (hline.symm.trans h) (by simp)
    · exact h hr ⟨hflow, hu⟩
  next => rfl

theorem SectorState.full_eq (x : SectorState) : x.full = decide (x = .clean ∨ x = .dirty ∨ x = .flush ∨ x = .capture) := by
  cases x <;> rfl

theorem State.slotRecord_eq {s : State} {i j : Nat} {x : Sector} (tr : Track) (hx : s.cache.sector i (s.zoneHere.logicalOf j) = some x) :
    s.slotRecord tr i j =
      { unit := .slot j, track := some tr, line := some i, full := x.state.full, logical := s.zoneHere.logicalOf j,
        defective := x.state.full && x.defective } := by
  simp only [State.slotRecord, hx]

/-! ## The region under the head (R15, R16, R21) -/

theorem State.headZone_offImage {s : State} (h : s.currentTrack = none) : s.headZone = 0 := by
  simp only [State.headZone, h]

theorem State.headZone_onTrack {s : State} {tr : Track} (h : s.currentTrack = some tr) : s.headZone = s.geom.zoneOf tr := by
  simp only [State.headZone, h]

theorem regionAt_slot_iff (z : Zone) (y : Layout) (p j off : Nat) : regionAt z y p = .slot j off ↔
    y.pre ≤ p ∧ p < y.slotsEnd ∧ j = (p - y.pre) / y.slotLen ∧ off = (p - y.pre) % y.slotLen := by
  unfold regionAt
  split_ifs with hpre _ _ hslots
  · simp [hpre.not_ge]
  · simp [hpre.not_ge]
  · simp [hpre.not_ge]
  · simp [not_lt.1 hpre, hslots, eq_comm]
  · simp [hslots]

theorem regionAt_indexField_iff (z : Zone) (y : Layout) (p k : Nat) : regionAt z y p = .indexField k ↔
    p < y.pre ∧ z.indexMark = true ∧ z.gap4a ≤ p ∧ k = p - z.gap4a ∧ k < indexFieldCells z.encoding := by
  unfold regionAt
  split_ifs with hpre hgap hfield
  · simp [hgap.not_ge]
  · obtain ⟨hmark, hlt⟩ := Bool.and_eq_true_iff.1 hfield
    have hlt := of_decide_eq_true hlt
    simp only [Region.indexField.injEq, hpre, hmark, true_and]
    omega
  · simp only [Bool.and_eq_true, decide_eq_true_eq, not_and] at hfield
    refine iff_of_false (by simp) fun ⟨_, hmark, hle, hk, hlt⟩ => ?_
    have := hfield hmark
    omega
  · simp [hpre]
  · simp [hpre]

/-! ## The instants of the stream (R91) -/

/-- Encoded cell `m` of the byte cell under the head begins at this instant. -/
def State.begins (s : State) (m : Nat) : Prop :=
  m < 16 ∧ s.rot.fine = 0 ∧ s.rot.t = s.cell * s.layoutHere.byteTime + m * (s.layoutHere.byteTime / 16)

theorem State.encodedCell_iff {s : State} (hb : 16 ≤ s.layoutHere.byteTime) (m : Nat) : s.encodedCell = some m ↔ s.begins m := by
  have hle : s.cell * s.layoutHere.byteTime ≤ s.rot.t := Layout.cellAt_mul_le _ _
  have hw : 0 < s.layoutHere.byteTime / 16 := Nat.div_pos hb (by decide)
  have hage : s.rot.t = s.cell * s.layoutHere.byteTime + m * (s.layoutHere.byteTime / 16) ↔
      s.cellAge = m * (s.layoutHere.byteTime / 16) := by
    unfold State.cellAge
    omega
  unfold State.encodedCell State.begins
  rw [hage]
  simp only [Option.ite_none_right_eq_some, Option.some.injEq]
  constructor
  · rintro ⟨⟨hfine, hmod, hlt⟩, rfl⟩
    exact ⟨hlt, hfine, (Nat.div_mul_cancel (Nat.dvd_of_mod_eq_zero hmod)).symm⟩
  · rintro ⟨hlt, hfine, heq⟩
    rw [heq, Nat.mul_mod_left, Nat.mul_div_cancel m hw]
    exact ⟨⟨hfine, rfl, hlt⟩, rfl⟩

theorem State.encodedCell_none {s : State} (hb : 16 ≤ s.layoutHere.byteTime) (h : ∀ m, ¬ s.begins m) : s.encodedCell = none :=
  Option.eq_none_iff_forall_ne_some.2 fun m hm => h m ((s.encodedCell_iff hb m).1 hm)

theorem State.beginByte_inCell (s : State) : s.beginByte.pres.inCell = true := rfl

/-- What stands in the presentation unit as encoded cell `m` begins: with the first of a byte cell the byte is fetched. -/
def State.fetched (s : State) (m : Nat) : State := if m = 0 then s.beginByte else s

theorem State.present_stopped {s : State} (h : s.flowing = false) : s.present = s ∧ s.readDataOut = false := by
  constructor
  · simp [State.present, h]
  · unfold State.readDataOut
    split <;> simp [h]

theorem State.present_between {s : State} (h : s.encodedCell = none) : s.present = s ∧ s.readDataOut = false := by
  constructor
  · simp [State.present, h]
  · simp [State.readDataOut, h]

theorem State.present_cell {s : State} {m : Nat} (hflow : s.flowing = true) (hm : s.encodedCell = some m) :
    s.present = if m % 2 = 1 ∧ (s.fetched m).pres.inCell = true
      then { s.fetched m with pres := { (s.fetched m).pres with prevBit := (s.fetched m).pres.cells.getLsbD (15 - m) } }
      else s.fetched m := by
  simp only [State.present, hflow, hm, State.fetched]
  rfl

/-- Within a byte cell READ DATA carries the encoded cell that begins, and a data cell gives the previous data bit its value (R92). -/
theorem State.present_inCell {s : State} {m : Nat} (hflow : s.flowing = true) (hm : s.encodedCell = some m)
    (hin : (s.fetched m).pres.inCell = true) :
    s.readDataOut = (s.fetched m).pres.cells.getLsbD (15 - m) ∧
    s.present = if m % 2 = 1
      then { s.fetched m with pres := { (s.fetched m).pres with prevBit := (s.fetched m).pres.cells.getLsbD (15 - m) } }
      else s.fetched m := by
  have hpresent := (s.present_cell hflow hm).trans (if_congr (and_iff_left hin) rfl rfl)
  refine ⟨?_, hpresent⟩
  simp only [State.readDataOut, hm, hflow, hpresent]
  split <;> simp [hin]

/-- Before the stream's first byte cell nothing is sent: only the first encoded cell of a byte cell begins one (R90, R104). -/
theorem State.present_notInCell {s : State} {m : Nat} (hflow : s.flowing = true) (hm : s.encodedCell = some m)
    (hin : (s.fetched m).pres.inCell = false) : s.present = s ∧ s.readDataOut = false := by
  have hne : m ≠ 0 := by
    rintro rfl
    exact absurd (s.beginByte_inCell.symm.trans hin) (by decide)
  have hfetched : s.fetched m = s := if_neg hne
  have hpresent := s.present_cell hflow hm
  rw [hfetched] at hin hpresent
  simp only [hin, Bool.false_eq_true, and_false, if_false] at hpresent
  exact ⟨hpresent, by simp [State.readDataOut, hm, hpresent, hin]⟩

/-! ## The byte of a byte cell (R97 to R103) -/

/-- The byte cell that begins carries `byte`, marked as `mark`, and leaves the check register and the count as given. -/
def State.Sends (s : State) (byte : Byte) (mark : MarkByte) (crc : Option Check) (count : Nat) : Prop :=
  s.beginByte = { s with pres := { s.pres with
    decision := if s.pres.decision.unit = s.unitHere then s.pres.decision else Decision.none
    crc := crc, fieldCount := count, inCell := true, cells := encodeByte s.zoneHere.encoding s.pres.prevBit mark byte } }

/-- A unit whose decision is not recorded as FULL is sent as gap bytes (R99, R102, R103). -/
theorem State.sentByte_gap {s : State} (h : ¬ (s.pres.decision.unit = s.unitHere ∧ s.pres.decision.full = true) ∨ s.unitHere = .none) :
    s.sentByte = Sent.gap s.zoneHere := by
  unfold State.unitHere at h
  unfold State.sentByte
  cases hr : s.regionHere <;> simp only [hr] at h ⊢
  case indexField k => exact if_neg (h.resolve_right (by simp))
  case slot j off => exact if_neg (h.resolve_right (by simp))

/-- Clearing the decision of a unit that has passed changes no byte: that record decides none of the cell under the head. -/
theorem State.sentByte_record_none {s : State} (h : s.pres.decision.unit ≠ s.unitHere) :
    (s.record Decision.none).sentByte = s.sentByte := by
  rw [s.sentByte_gap (.inl fun hfull => h hfull.1), State.sentByte_gap (.inl fun hfull => Bool.false_ne_true hfull.2)]
  rfl

/-- A byte changes the register and the count alone, and the decision record has no part in it. -/
theorem Present.afterByte_eq (p : Present) (x : Sent) (d : Decision) : { p with decision := d }.afterByte x =
    { p with decision := d, crc := (p.afterByte x).crc, fieldCount := (p.afterByte x).fieldCount } := by
  unfold Present.afterByte
  cases x.use <;> rfl

/-- The byte cell that begins carries the byte to send, and the register and the count are as after that byte. -/
theorem State.sends_of {s : State} {x : Sent} (hx : s.sentByte = x) :
    s.Sends (x.value (s.pres.crc.getD 0#16)) x.mark (s.pres.afterByte x).crc (s.pres.afterByte x).fieldCount := by
  unfold State.Sends State.beginByte
  split
  next =>
    simp only [hx]
    rw [show s.pres.afterByte x = _ from s.pres.afterByte_eq x s.pres.decision]
  next hpassed =>
    simp only [s.sentByte_record_none hpassed, hx]
    rw [show (s.record Decision.none).pres.afterByte x = _ from s.pres.afterByte_eq x Decision.none]
    rfl

theorem State.sentByte_indexField {s : State} {k : Nat} (hr : s.regionHere = .indexField k) (hu : s.pres.decision.unit = .indexField)
    (hfull : s.pres.decision.full = true) : s.sentByte = Sent.indexByte s.zoneHere k := by
  simp [State.sentByte, hr, hu, hfull]

theorem State.sentByte_slot {s : State} {j off : Nat} (hr : s.regionHere = .slot j off) (hu : s.pres.decision.unit = .slot j)
    (hfull : s.pres.decision.full = true) : s.sentByte = s.slotByte s.zoneHere j off := by
  simp [State.sentByte, hr, hu, hfull]

/-! ## The fields of a slot by their offsets (R17, R18) -/

section
variable {size off k : Nat}

theorem mfmField_sync (h : off < 12 ∨ 44 ≤ off ∧ off < 56) : mfmField size off = .sync := by grind [mfmField]
theorem mfmField_idMark (h : off = 12 + k) (hk : k < 4) : mfmField size off = .idMark k := by grind [mfmField]
theorem mfmField_id (h : 16 ≤ off) (h' : off < 20) : mfmField size off = .id (off - 16) := by grind [mfmField]
theorem mfmField_idCheck (h : off = 20 + k) (hk : k < 2) : mfmField size off = .idCheck k := by grind [mfmField]
theorem mfmField_gap2 (h : 22 ≤ off) (h' : off < 44) : mfmField size off = .gap2 := by grind [mfmField]
theorem mfmField_dataMark (h : off = 56 + k) (hk : k < 4) : mfmField size off = .dataMark k := by grind [mfmField]
theorem mfmField_data (h : 60 ≤ off) (h' : off < 60 + size) : mfmField size off = .data (off - 60) := by grind [mfmField]
theorem mfmField_dataCheck (h : off = 60 + k + size) (hk : k < 2) : mfmField size off = .dataCheck k := by grind [mfmField]
theorem mfmField_gap3 (h : 62 + size ≤ off) : mfmField size off = .gap3 := by grind [mfmField]

theorem fmField_sync (h : off < 6 ∨ 24 ≤ off ∧ off < 30) : fmField size off = .sync := by grind [fmField]
theorem fmField_idMark (h : off = 6) : fmField size off = .idMark 3 := by grind [fmField]
theorem fmField_id (h : 7 ≤ off) (h' : off < 11) : fmField size off = .id (off - 7) := by grind [fmField]
theorem fmField_idCheck (h : off = 11 + k) (hk : k < 2) : fmField size off = .idCheck k := by grind [fmField]
theorem fmField_gap2 (h : 13 ≤ off) (h' : off < 24) : fmField size off = .gap2 := by grind [fmField]
theorem fmField_dataMark (h : off = 30) : fmField size off = .dataMark 3 := by grind [fmField]
theorem fmField_data (h : 31 ≤ off) (h' : off < 31 + size) : fmField size off = .data (off - 31) := by grind [fmField]
theorem fmField_dataCheck (h : off = 31 + k + size) (hk : k < 2) : fmField size off = .dataCheck k := by grind [fmField]
theorem fmField_gap3 (h : 33 + size ≤ off) : fmField size off = .gap3 := by grind [fmField]

end


/-! ## The bytes of a FULL slot (R97, R98) -/

section
variable {s : State} {z : Zone} {j off k : Nat}

theorem State.slotByte_sync (h : slotField z.encoding z.sectorSize off = .sync) :
    s.slotByte z j off = { byte := 0#8, mark := .plain, use := .outside } := by
  simp only [State.slotByte, h]

theorem State.slotByte_idMark (h : slotField z.encoding z.sectorSize off = .idMark k) :
    s.slotByte z j off = Sent.mark4 z k 0xFE#8 := by
  simp only [State.slotByte, h]

theorem State.slotByte_id {tr : Track} (htrack : s.pres.decision.track = some tr)
    (h : slotField z.encoding z.sectorSize off = .id k) :
    s.slotByte z j off = { byte := byteAt (z.idBytes tr j) k, mark := .plain, use := .enter } := by
  simp only [State.slotByte, h, htrack, Option.getD_some]

theorem State.slotByte_idCheck (h : slotField z.encoding z.sectorSize off = .idCheck k) :
    s.slotByte z j off = Sent.check k false := by
  simp only [State.slotByte, h]

theorem State.slotByte_gap (h : slotField z.encoding z.sectorSize off = .gap2 ∨ slotField z.encoding z.sectorSize off = .gap3) :
    s.slotByte z j off = Sent.gap z := by
  rcases h with h | h <;> simp only [State.slotByte, h]

theorem State.slotByte_dataMark (h : slotField z.encoding z.sectorSize off = .dataMark k) :
    s.slotByte z j off = Sent.mark4 z k 0xFB#8 := by
  simp only [State.slotByte, h]

theorem State.slotByte_data {i : Nat} (hline : s.pres.decision.line = some i)
    (h : slotField z.encoding z.sectorSize off = .data k) : s.slotByte z j off =
      { byte := memRead s.cache.ram (dataAddr i z.sectorSize s.pres.decision.logical k), mark := .plain, use := .enter } := by
  simp only [State.slotByte, h, hline, Option.getD_some]

theorem State.slotByte_dataCheck (h : slotField z.encoding z.sectorSize off = .dataCheck k) :
    s.slotByte z j off = Sent.check k s.pres.decision.defective := by
  simp only [State.slotByte, h]

end

/-- The first three bytes of an MFM mark are A1 hex as marks, the first of which presets the register (R93, R97). -/
theorem Sent.mark4_mfm {z : Zone} (he : z.encoding = .mfm) {k : Nat} (hk : k < 3) (last : Byte) :
    Sent.mark4 z k last = { byte := 0xA1#8, mark := .address, use := if k = 0 then .preset else .enter } := by
  simp only [Sent.mark4, he, if_pos hk]

theorem Sent.mark4_mfm_last {z : Zone} (he : z.encoding = .mfm) (last : Byte) :
    Sent.mark4 z 3 last = { byte := last, mark := .plain, use := .enter } := by
  simp only [Sent.mark4, he]
  rfl

theorem Sent.mark4_fm {z : Zone} (he : z.encoding = .fm) (k : Nat) (last : Byte) :
    Sent.mark4 z k last = { byte := last, mark := .address, use := .preset } := by
  simp only [Sent.mark4, he]

/-- The A1 hex bytes of an MFM slot's two marks. -/
theorem State.slotByte_mfm_a1 {s : State} {z : Zone} {j off k : Nat} (he : z.encoding = .mfm) (hk : k < 3)
    (h : off = 12 + k ∨ off = 56 + k) :
    s.slotByte z j off = { byte := 0xA1#8, mark := .address, use := if k = 0 then .preset else .enter } := by
  have hfield : slotField z.encoding z.sectorSize off = mfmField z.sectorSize off := by rw [he]; rfl
  rcases h with h | h
  · exact (State.slotByte_idMark (hfield.trans (mfmField_idMark h (by omega)))).trans (Sent.mark4_mfm he hk _)
  · exact (State.slotByte_dataMark (hfield.trans (mfmField_dataMark h (by omega)))).trans (Sent.mark4_mfm he hk _)

/-! ## The obligation -/

theorem exec_slotDecision {s : State} (hp : s.powered = true) : exec .slotDecision s = .next s.decideSlot :=
  congrArg Host.Outcome.next (whenPowered_present _ hp)

theorem exec_indexFieldDecision {s : State} (hp : s.powered = true) : exec .indexFieldDecision s = .next s.decideIndex :=
  congrArg Host.Outcome.next (whenPowered_present _ hp)

/-- Settles O49: the decisions by what takes them and what leaves them, the instants by the encoded cells, and each byte of a cell by its
field's byte and what that byte does to the register. -/
theorem decisionsAtTheFirstCell : Obligations.DecisionsAtTheFirstCell := by
  refine ⟨fun s hp => ?decisions, fun s => ?stream⟩
  case decisions =>
    intro opens
    have opens_iff : ∀ u, opens u ↔ s.flowing = true ∧ s.undecided u = true := fun u => by rw [s.undecided_iff]
    refine ⟨fun tr i j x hopens htrack hline hr hx => ?_, fun tr i hopens htrack hline hr => ?_, fun h => ?_, fun h => ?_⟩
    · obtain ⟨hflow, hu⟩ := (opens_iff _).1 hopens
      rw [exec_slotDecision hp, State.decideSlot_takes hflow htrack hline hr hu, State.slotRecord_eq tr hx, ← x.state.full_eq]
      rfl
    · obtain ⟨hflow, hu⟩ := (opens_iff _).1 hopens
      rw [exec_indexFieldDecision hp, State.decideIndex_takes hflow htrack hline hr hu]
      rfl
    · simp only [opens_iff] at h
      rw [exec_slotDecision hp, State.decideSlot_stays h]
    · rw [opens_iff] at h
      rw [exec_indexFieldDecision hp, State.decideIndex_stays h]
  case stream =>
    intro z y d p
    refine ⟨fun h => ?_, fun tr h => ?_, regionAt_slot_iff z y p, fun k => ?_, ?_, ?instants, ?bytes⟩
    · simp only [z, y, State.zoneHere, State.layoutHere, State.headZone_offImage h, and_self]
    · simp only [z, y, State.zoneHere, State.layoutHere, State.headZone_onTrack h]
      exact ⟨rfl, rfl⟩
    · refine (regionAt_indexField_iff z y p k).trans ?_
      cases z.encoding <;> rfl
    · unfold State.unitHere
      cases s.regionHere <;> rfl
    case instants =>
      intro begins u
      refine ⟨State.present_stopped, fun hb hflow => ⟨fun m hm hin => ?_, fun m hm hin => ?_, fun hnone => ?_⟩⟩
      · exact State.present_inCell hflow ((State.encodedCell_iff hb m).2 hm) hin
      · exact State.present_notInCell hflow ((State.encodedCell_iff hb m).2 hm) hin
      · exact State.present_between (State.encodedCell_none hb hnone)
    case bytes =>
      intro sends outside presets enters gap
      refine ⟨fun h => s.sends_of (s.sentByte_gap h), fun k hr hu hfull => ?index,
        fun j off tr i r hr hu hfull htrack hline hcrc => ?slot⟩
      case index =>
        have hbyte : s.sentByte = Sent.indexByte z k := s.sentByte_indexField hr hu hfull
        cases he : z.encoding with
        | mfm =>
          simp only [Sent.indexByte, he] at hbyte
          split_ifs at hbyte ⊢ <;> exact s.sends_of hbyte
        | fm =>
          simp only [Sent.indexByte, he] at hbyte
          split_ifs at hbyte ⊢ <;> exact s.sends_of hbyte
      case slot =>
        intro size id datum high low
        subst hcrc
        have hslot := s.sentByte_slot hr hu hfull
        have cell {x : Sent} (h : s.slotByte z j off = x) := s.sends_of (hslot.trans h)
        cases he : z.encoding with
        | mfm =>
          have at_field {f : Field} (h : mfmField size off = f) : slotField z.encoding z.sectorSize off = f := by rw [he]; exact h
          refine ⟨fun h => cell (State.slotByte_sync (at_field (mfmField_sync h))),
            fun h => cell (State.slotByte_mfm_a1 (k := 0) he (by decide) h), fun h => ?a1,
            fun h => cell ((State.slotByte_idMark (at_field (mfmField_idMark (k := 3) h (by decide)))).trans (Sent.mark4_mfm_last he _)),
            fun h => cell ((State.slotByte_dataMark (at_field (mfmField_dataMark (k := 3) h (by decide)))).trans (Sent.mark4_mfm_last he _)),
            fun h h' => cell (State.slotByte_id htrack (at_field (mfmField_id h h'))),
            fun h => cell (State.slotByte_idCheck (at_field (mfmField_idCheck (k := 0) h (by decide)))),
            fun h => cell (State.slotByte_idCheck (at_field (mfmField_idCheck (k := 1) h (by decide)))),
            fun h => cell (State.slotByte_gap (h.imp (fun h => at_field (mfmField_gap2 h.1 h.2)) fun h => at_field (mfmField_gap3 h))),
            fun h h' => cell (State.slotByte_data hline (at_field (mfmField_data h h'))),
            fun h => cell (State.slotByte_dataCheck (at_field (mfmField_dataCheck (k := 0) h (by decide)))),
            fun h => cell (State.slotByte_dataCheck (at_field (mfmField_dataCheck (k := 1) h (by decide))))⟩
          case a1 =>
            rcases h with h | h | h | h
            · exact cell (State.slotByte_mfm_a1 (k := 1) he (by decide) (.inl h))
            · exact cell (State.slotByte_mfm_a1 (k := 2) he (by decide) (.inl h))
            · exact cell (State.slotByte_mfm_a1 (k := 1) he (by decide) (.inr h))
            · exact cell (State.slotByte_mfm_a1 (k := 2) he (by decide) (.inr h))
        | fm =>
          have at_field {f : Field} (h : fmField size off = f) : slotField z.encoding z.sectorSize off = f := by rw [he]; exact h
          exact ⟨fun h => cell (State.slotByte_sync (at_field (fmField_sync h))),
            fun h => cell ((State.slotByte_idMark (at_field (fmField_idMark h))).trans (Sent.mark4_fm he 3 _)),
            fun h => cell ((State.slotByte_dataMark (at_field (fmField_dataMark h))).trans (Sent.mark4_fm he 3 _)),
            fun h h' => cell (State.slotByte_id htrack (at_field (fmField_id h h'))),
            fun h => cell (State.slotByte_idCheck (at_field (fmField_idCheck (k := 0) h (by decide)))),
            fun h => cell (State.slotByte_idCheck (at_field (fmField_idCheck (k := 1) h (by decide)))),
            fun h => cell (State.slotByte_gap (h.imp (fun h => at_field (fmField_gap2 h.1 h.2)) fun h => at_field (fmField_gap3 h))),
            fun h h' => cell (State.slotByte_data hline (at_field (fmField_data h h'))),
            fun h => cell (State.slotByte_dataCheck (at_field (fmField_dataCheck (k := 0) h (by decide)))),
            fun h => cell (State.slotByte_dataCheck (at_field (fmField_dataCheck (k := 1) h (by decide))))⟩

end Sys2Proof.Machine
end

section
/-! PROOFS. Flux changes and empty cells (06 R109, R110): the class of an interval, the violations that count, and the cells given. -/

namespace Sys2Proof.Machine

/-! ## Commands that settle -/

theorem settlingWhen_refused {p : State → Bool} (f : State → State) {s : State} (h : p s = false) : settlingWhen p f s = f s :=
  if_neg (by simp [h])

section
variable {s : State} {c : Instr} {p : State → Bool} {f : State → State}

/-- A command that is taken ends in its effect and the reactions to it. -/
theorem endsIn_settling (hc : exec c s = .next (whenPowered (settlingWhen p f) s)) (hp : s.powered = true) (h : p s = true) :
    s.EndsIn c (f s) :=
  ⟨_, hc.trans (by rw [whenPowered_present _ hp, settlingWhen_taken _ h]), reacted_settle s _⟩

/-- A command that is not taken ends in its effect alone. -/
theorem exec_settling_refused (hc : exec c s = .next (whenPowered (settlingWhen p f) s)) (hp : s.powered = true) (h : p s = false) :
    exec c s = .next (f s) := by
  rw [hc, whenPowered_present _ hp, settlingWhen_refused _ h]

end

/-! ## The class of an interval (R109) -/

theorem Rate.cellTicks_pos (r : Rate) : 0 < r.cellTicks := by cases r <;> decide

theorem intervalClass_eq_zero {w x : Nat} (h : 2 * x < w) : intervalClass w x = 0 := Nat.div_eq_of_lt (by omega)

/-- Class `m` reaches from half a cell before `m` cells to half a cell past them. -/
theorem intervalClass_eq {w x m : Nat} (hm : 1 ≤ m) (hlow : (2 * m - 1) * w ≤ 2 * x) (hhigh : 2 * x < (2 * m + 1) * w) :
    intervalClass w x = m := by
  obtain ⟨n, rfl⟩ : ∃ n, m = n + 1 := ⟨m - 1, by omega⟩
  have hodd : 2 * (n + 1) - 1 = 2 * n + 1 := by omega
  rw [hodd] at hlow
  refine Nat.div_eq_of_lt_le ?_ ?_ <;> nlinarith

theorem legalClass_eq_false_iff (e : Encoding) (m : Nat) :
    legalClass e m = false ↔ (match e with | .mfm => m < 2 ∨ 4 < m | .fm => m < 1 ∨ 2 < m) := by
  cases e <;> simp [legalClass] <;> omega

/-! ## Violations (R110) -/

theorem Capture.violate_eq (c : Capture) (b : Bool) :
    c.violate b = { c with violation := c.violation || (b && c.st == .sectorData) } := by
  unfold Capture.violate
  cases h : b && c.st == .sectorData <;> simp

/-- The violation that a record holds once one has been seen, or not. -/
theorem violation_or_iff (c : Capture) (b : Bool) {bad : Prop} (hb : b = true ↔ bad) :
    (c.violation || (b && c.st == .sectorData)) = true ↔ c.violation = true ∨ c.st = .sectorData ∧ bad := by
  simp [← hb, and_comm]

/-! ## A flux change and an empty cell (R110) -/

/-- The record once a change has ended its interval: the next interval is open. -/
def State.reopened (s : State) (bad : Bool) : State :=
  { s with cap := { s.cap with fluxOpen := some 0, empties := 0, violation := bad } }

section
variable {s : State} {x : Nat}

theorem State.fluxChange_first (hm : s.cap.st.measures = true) (hx : s.cap.fluxOpen = none) :
    s.fluxChange = (s.reopened s.cap.violation).captureCell true := by
  simp [State.fluxChange, State.reopened, hm, hx]

theorem State.fluxChange_short (hm : s.cap.st.measures = true) (hx : s.cap.fluxOpen = some x)
    (hc : intervalClass s.capZone.rate.cellTicks x = 0) :
    s.fluxChange = s.reopened (s.cap.violation || (true && s.cap.st == .sectorData)) := by
  simp [State.fluxChange, State.reopened, hm, hx, hc, Capture.violate_eq]

theorem State.fluxChange_class {m : Nat} (hm : s.cap.st.measures = true) (hx : s.cap.fluxOpen = some x) (hpos : 1 ≤ m)
    (hc : intervalClass s.capZone.rate.cellTicks x = m) :
    s.fluxChange = (State.zeroCells (m - 1 - s.cap.empties)
      (s.reopened (s.cap.violation || (!legalClass s.capZone.encoding m && s.cap.st == .sectorData)))).captureCell true := by
  simp [State.fluxChange, State.reopened, hm, hx, hc, Capture.violate_eq, Nat.one_le_iff_ne_zero.1 hpos]

theorem State.emptyCell_closed (hx : s.cap.fluxOpen = none) : s.emptyCell = s := by simp only [State.emptyCell, hx]

theorem State.emptyCell_open (hm : s.cap.st.measures = true) (hx : s.cap.fluxOpen = some x) :
    s.emptyCell = ({ s with cap := { s.cap with
      fluxOpen := some (max x ((2 * s.cap.empties + 3) * s.capZone.rate.cellTicks / 2)), empties := s.cap.empties + 1
      violation := s.cap.violation ||
        (decide (s.cap.empties + 1 = largestClass s.capZone.encoding) && s.cap.st == .sectorData) } } : State).captureCell false := by
  simp [State.emptyCell, hm, hx, nextEmpty, Capture.violate_eq]

end

/-- Settles O51, by the class of the interval that the change ends. -/
theorem fluxChangesGiveCells : Obligations.FluxChangesGiveCells := by
  intro s hp w counts ends fresh
  have flux_ends {u : State} (hm : s.cap.st.measures = true) (h : s.fluxChange = u) : ends .writeDataFluxChange u :=
    (endsIn_settling rfl hp hm).congr h
  have empty_ends {u : State} (hm : s.cap.st.measures = true) (h : s.emptyCell = u) : ends .emptyCell u :=
    (endsIn_settling rfl hp hm).congr h
  refine ⟨fun hm => ⟨?_, ?_⟩, fun hm hx => ⟨?_, ?_⟩, fun x hm hx hshort => ?_, fun x m hm hx hpos hlow hhigh => ?_, fun x hm hx => ?_⟩
  · exact (exec_settling_refused (c := .writeDataFluxChange) rfl hp hm).trans (by rw [fluxChange_idle hm])
  · exact (exec_settling_refused (c := .emptyCell) rfl hp hm).trans (by rw [emptyCell_idle hm])
  · exact flux_ends hm (State.fluxChange_first hm hx)
  · exact empty_ends hm (State.emptyCell_closed hx)
  · exact ⟨_, violation_or_iff s.cap true (by simp), flux_ends hm (State.fluxChange_short hm hx (intervalClass_eq_zero hshort))⟩
  · have illegal : (!legalClass s.capZone.encoding m) = true ↔ _ :=
      (Bool.not_eq_true' _).to_iff.trans (legalClass_eq_false_iff s.capZone.encoding m)
    exact ⟨_, violation_or_iff s.cap _ illegal, flux_ends hm (State.fluxChange_class hm hx hpos (intervalClass_eq hpos hlow hhigh))⟩
  · refine ⟨_, violation_or_iff s.cap _ ?_, empty_ends hm (State.emptyCell_open hm hx)⟩
    cases s.capZone.encoding <;> simp [largestClass]

end Sys2Proof.Machine
end

section
/-! PROOFS. Marks and the cells of a sector write (06 R111, R116, R118 to R120, R123). -/

namespace Sys2Proof.Machine

/-! ## What the search sees (R111, R128) -/

/-- The last 64 cells are three A1 groups and sixteen cells more (R111). -/
def Capture.PastLead (c : Capture) : Prop := c.valid = 64 ∧ c.shift >>> 16 = 0x448944894489#64

/-- The sixteen cells of an FM mark (R94, R111). -/
def Mark.group : Mark → BitVec 16
  | .id => 0xF57E#16
  | .data false => 0xF56F#16
  | .data true => 0xF56A#16

section
variable {c : Capture}

theorem seen_mfm_nothing (h : ¬ c.PastLead) : seen .mfm c = .nothing := if_neg h

theorem seen_mfm_pastLead (h : c.PastLead) : seen .mfm c =
    if dataByte c.shift = 0xFE#8 then .mark .id
    else if dataByte c.shift = 0xFB#8 then .mark (.data false)
    else if dataByte c.shift = 0xF8#8 then .mark (.data true)
    else .falseLead := if_pos h

theorem seen_mfm_mark (h : c.PastLead) (m : Mark) (hb : dataByte c.shift = m.byte) : seen .mfm c = .mark m := by
  rw [seen_mfm_pastLead h, hb]
  match m with
  | .id | .data false | .data true => rfl

theorem seen_mfm_falseLead (h : c.PastLead) (hb : ∀ m : Mark, dataByte c.shift ≠ m.byte) : seen .mfm c = .falseLead := by
  rw [seen_mfm_pastLead h]
  exact (if_neg (hb .id)).trans ((if_neg (hb (.data false))).trans (if_neg (hb (.data true))))

theorem seen_fm_short (hv : c.valid < 16) : seen .fm c = .nothing := if_pos hv

theorem seen_fm_mark (hv : 16 ≤ c.valid) (m : Mark) (hg : c.shift.setWidth 16 = m.group) : seen .fm c = .mark m := by
  simp only [seen, seenFm, hg, if_neg (Nat.not_lt.2 hv)]
  match m with
  | .id | .data false | .data true => rfl

theorem seen_fm_nothing (hv : 16 ≤ c.valid) (hg : ∀ m : Mark, c.shift.setWidth 16 ≠ m.group) : seen .fm c = .nothing := by
  simp only [seen, seenFm, if_neg (Nat.not_lt.2 hv)]
  split
  · rename_i h
    exact absurd (BitVec.eq_of_toNat_eq h) (hg .id)
  · rename_i h
    exact absurd (BitVec.eq_of_toNat_eq h) (hg (.data false))
  · rename_i h
    exact absurd (BitVec.eq_of_toNat_eq h) (hg (.data true))
  · rfl

end

theorem Mark.forall_iff {p : Mark → Prop} : (∀ m, p m) ↔ p .id ∧ p (.data false) ∧ p (.data true) :=
  ⟨fun h => ⟨h _, h _, h _⟩, fun ⟨hid, hdata, hdeleted⟩ m => match m with
    | .id => hid
    | .data false => hdata
    | .data true => hdeleted⟩

theorem markCheck_mfm (m : Mark) : markCheck .mfm m = crcByte 0xCDB4#16 m.byte := by
  obtain ⟨-, hlead, -⟩ := checkOfAFieldWithItsCheck
  exact hlead [m.byte]

theorem markCheck_fm (m : Mark) : markCheck .fm m = crcByte 0xFFFF#16 m.byte := rfl

/-! ## A cell in HUNT (R111, R116, R118) -/

section
variable {s : State} {bit : Bool}

theorem State.captureCell_hunt (h : s.cap.st = .hunt) : s.captureCell bit = s.huntCell bit := by simp only [State.captureCell, h]

theorem State.captureCell_hunt_nothing (h : s.cap.st = .hunt) (hs : seen s.capZone.encoding (s.cap.shiftIn bit) = .nothing) :
    s.captureCell bit = { s with cap := s.cap.shiftIn bit } := by
  simp only [State.captureCell_hunt h, State.huntCell, hs]

/-- Three A1 groups that are no data mark: the search goes on with the byte's sixteen cells (log 25). -/
theorem State.captureCell_hunt_restart (h : s.cap.st = .hunt)
    (hs : seen s.capZone.encoding (s.cap.shiftIn bit) = .falseLead ∨ seen s.capZone.encoding (s.cap.shiftIn bit) = .mark .id) :
    s.captureCell bit = { s with cap := { s.cap.shiftIn bit with valid := 16 } } := by
  rcases hs with hs | hs <;> simp only [State.captureCell_hunt h, State.huntCell, hs, Capture.afterFalseLead]

theorem State.dataMarkFound_eq {tr : Track} (htrack : s.cap.track = some tr) (d : Bool) :
    s.dataMarkFound d = { s with
      cap := { s.cap with
        st := .sectorData, shift := 0#64, valid := 0, received := 0, violation := false, crc := markCheck s.capZone.encoding (.data d) }
      link := if d then s.link.post (.captureFault tr.cyl tr.head (s.capZone.firstSector + s.cap.logical) .deletedMark false)
              else s.link } := by
  cases d with
  | false => rfl
  | true =>
    unfold State.dataMarkFound
    dsimp only
    split
    · rename_i tr' _ htrack'
      obtain rfl : tr' = tr := Option.some.inj (htrack'.symm.trans htrack)
      rfl
    · rename_i hnone
      exact absurd htrack (hnone tr rfl)

theorem State.captureCell_hunt_mark (h : s.cap.st = .hunt) {tr : Track} (htrack : s.cap.track = some tr) {d : Bool}
    (hs : seen s.capZone.encoding (s.cap.shiftIn bit) = .mark (.data d)) :
    s.captureCell bit = { s with
      cap := { s.cap.shiftIn bit with
        st := .sectorData, shift := 0#64, valid := 0, received := 0, violation := false, crc := markCheck s.capZone.encoding (.data d) }
      link := if d then s.link.post (.captureFault tr.cyl tr.head (s.capZone.firstSector + s.cap.logical) .deletedMark false)
              else s.link } := by
  simp only [State.captureCell_hunt h, State.huntCell, hs]
  exact State.dataMarkFound_eq (s := { s with cap := s.cap.shiftIn bit }) htrack d

/-! ## A cell in SECTOR_DATA (R119, R120) -/

theorem State.captureCell_sectorData_bit (h : s.cap.st = .sectorData) (hv : (s.cap.shiftIn bit).valid < 16) :
    s.captureCell bit = { s with cap := s.cap.shiftIn bit } := by
  simp only [State.captureCell, h, State.sectorDataCell, if_pos hv]

theorem State.captureCell_sectorData_byte (h : s.cap.st = .sectorData) (hv : 16 ≤ (s.cap.shiftIn bit).valid) :
    s.captureCell bit = ({ s with cap := s.cap.shiftIn bit } : State).dataByteTaken (dataByte (s.cap.shiftIn bit).shift) := by
  simp only [State.captureCell, h, State.sectorDataCell, if_neg (Nat.not_lt.2 hv)]

end

/-- The record once a byte of SECTOR_DATA has been taken: the scratch takes the sector's data bytes alone (R119). -/
def Capture.withByte (c : Capture) (size : Nat) (b : Byte) : Capture :=
  { c with
    shift := 0#64, valid := 0
    scratch := if c.received < size then memStore c.scratch c.received [b] else c.scratch
    crc := crcByte c.crc b
    received := c.received + 1 }

theorem State.dataByteTaken_inside {s : State} {b : Byte} (h : s.cap.received + 1 < s.capLayout.sectorSize + 2) :
    s.dataByteTaken b = { s with cap := s.cap.withByte s.capLayout.sectorSize b } :=
  if_neg (Nat.not_le.2 h)

theorem State.dataByteTaken_last {s : State} {b : Byte} (h : s.cap.received + 1 = s.capLayout.sectorSize + 2) :
    s.dataByteTaken b = ({ s with cap := s.cap.withByte s.capLayout.sectorSize b } : State).exhaust :=
  if_pos h.ge

/-- The sector is stored with the outcome that the violation and the register give, and the record is kept (R120, R123, log 26). -/
theorem State.exhaust_eq (s : State) : s.exhaust =
    { s.endSectorWrite (memSlice s.cap.scratch 0 s.capLayout.sectorSize)
        (if s.cap.violation then .faulty .decode else if s.cap.crc = 0#16 then .good else .faulty .crc) with
      cap := { s.cap with st := if s.cap.pastSlot then .discard else .sectorTail, fluxOpen := none, empties := 0 } } := by
  simp only [State.exhaust, endSectorWrite_cap, Capture.rest]

/-- Settles O52, by what the search has seen in HUNT and by the count of bytes in SECTOR_DATA. -/
theorem marksAndDataBytes : Obligations.MarksAndDataBytes := by
  intro s bit tr htrack c found told three
  refine ⟨fun hst he => ?mfm, fun hst he => ?fm, fun hst hv => State.captureCell_sectorData_bit hst hv, fun hst hv => ?bytes⟩
  case mfm =>
    have sees {x : Seen} (h : seen .mfm c = x) : seen s.capZone.encoding c = x := he ▸ h
    have marks (h3 : three) (d : Bool) (hb : dataByte c.shift = (Mark.data d).byte) :=
      State.captureCell_hunt_mark hst htrack (sees (seen_mfm_mark h3 (.data d) hb))
    simp only [he, markCheck_mfm] at marks
    refine ⟨fun h3 => marks h3 false, fun h3 => marks h3 true, fun h3 hb hd => State.captureCell_hunt_restart hst ?_,
      fun h3 => State.captureCell_hunt_nothing hst (sees (seen_mfm_nothing h3))⟩
    by_cases hid : dataByte c.shift = 0xFE#8
    · exact .inr (sees (seen_mfm_mark h3 .id hid))
    · exact .inl (sees (seen_mfm_falseLead h3 (Mark.forall_iff.2 ⟨hid, hb, hd⟩)))
  case fm =>
    have sees {x : Seen} (h : seen .fm c = x) : seen s.capZone.encoding c = x := he ▸ h
    have marks (hv : 16 ≤ c.valid) (d : Bool) (hg : c.shift.setWidth 16 = (Mark.data d).group) :=
      State.captureCell_hunt_mark hst htrack (sees (seen_fm_mark hv (.data d) hg))
    simp only [he, markCheck_fm] at marks
    refine ⟨fun hv => marks hv false, fun hv => marks hv true,
      fun hv hg => State.captureCell_hunt_restart hst (.inr (sees (seen_fm_mark hv .id hg))),
      fun hv hg => State.captureCell_hunt_nothing hst (sees (seen_fm_nothing hv (Mark.forall_iff.2 ?_))),
      fun hv => State.captureCell_hunt_nothing hst (sees (seen_fm_short hv))⟩
    simp only [List.mem_cons, List.not_mem_nil, or_false, not_or] at hg
    obtain ⟨hdata, hdeleted, hid⟩ := hg
    exact ⟨hid, hdata, hdeleted⟩
  case bytes =>
    intro size b r scratch cap
    have taken := State.captureCell_sectorData_byte hst hv
    exact ⟨fun h => taken.trans (State.dataByteTaken_inside h),
      fun h => taken.trans ((State.dataByteTaken_last h).trans (State.exhaust_eq _))⟩

end Sys2Proof.Machine
end

section
/-! PROOFS. The cells of a track write (06 R111, 07 R128 to R130): ID marks, data marks, ID fields and data fields. -/

namespace Sys2Proof.Machine

theorem State.captureCell_track {s : State} (h : s.cap.st = .track) (bit : Bool) : s.captureCell bit =
    { s with cap := s.cap.trackCell s.capZone.encoding s.capZone.n s.capLayout.sectorSize bit } := by
  simp only [State.captureCell, h]

/-- The newest entry waits for its data (R128, R129). -/
theorem Capture.idWaits_iff (c : Capture) :
    c.idWaits = true ↔ c.overflow = false ∧ ∃ f, c.found.getLast? = some f ∧ f.data = .absent := by
  unfold Capture.idWaits
  cases c.found.getLast? <;> simp

section
variable {c : Capture} {e : Encoding} {n size : Nat} {bit : Bool}

/-! ## A cell in SEEK (R128) -/

theorem Capture.trackCell_seek_nothing (hp : c.phase = .seek) (hs : seen e (c.shiftIn bit) = .nothing) :
    c.trackCell e n size bit = c.shiftIn bit := by
  simp only [Capture.trackCell, hp, Capture.seekCell, hs]

/-- Three A1 groups that are no mark: the search goes on with the byte's sixteen cells (log 25). -/
theorem Capture.trackCell_seek_falseLead (hp : c.phase = .seek) (hs : seen e (c.shiftIn bit) = .falseLead) :
    c.trackCell e n size bit = { c.shiftIn bit with valid := 16 } := by
  simp only [Capture.trackCell, hp, Capture.seekCell, hs, Capture.afterFalseLead]

theorem Capture.trackCell_seek_mark {m : Mark} (hp : c.phase = .seek) (hs : seen e (c.shiftIn bit) = .mark m) :
    c.trackCell e n size bit = (c.shiftIn bit).seekMark e m := by
  simp only [Capture.trackCell, hp, Capture.seekCell, hs]

theorem Capture.seekMark_waits (hw : c.idWaits = true) (d : Bool) : c.seekMark e (.data d) =
    { c with shift := 0#64, valid := 0, phase := .dataField, received := 0, crc := markCheck e (.data d) } := if_pos hw

/-- A data mark that no entry waits for is passed over (log 27). -/
theorem Capture.seekMark_passed (hw : c.idWaits = false) (d : Bool) : c.seekMark e (.data d) = { c with shift := 0#64, valid := 0 } :=
  if_neg (by simp [hw])

/-! ## A byte of a field (R129, R130) -/

theorem Capture.trackCell_bit (hp : c.phase ≠ .seek) (hv : (c.shiftIn bit).valid < 16) :
    c.trackCell e n size bit = c.shiftIn bit := by
  cases h : c.phase with
  | seek => exact absurd h hp
  | idField | dataField => simp only [Capture.trackCell, h, if_pos hv]

theorem Capture.trackCell_idField (hp : c.phase = .idField) (hv : 16 ≤ (c.shiftIn bit).valid) :
    c.trackCell e n size bit = (c.shiftIn bit).idByte (dataByte (c.shiftIn bit).shift) := by
  simp only [Capture.trackCell, hp, if_neg (Nat.not_lt.2 hv)]

theorem Capture.trackCell_dataField (hp : c.phase = .dataField) (hv : 16 ≤ (c.shiftIn bit).valid) :
    c.trackCell e n size bit = (c.shiftIn bit).fieldByte n size (dataByte (c.shiftIn bit).shift) := by
  simp only [Capture.trackCell, hp, if_neg (Nat.not_lt.2 hv)]

variable {b : Byte}

theorem Capture.idByte_inside (h : c.idBytes.length < 5) :
    c.idByte b = { c with shift := 0#64, valid := 0, idBytes := c.idBytes ++ [b], crc := crcByte c.crc b } :=
  if_pos (by rw [List.length_append]; exact Nat.succ_lt_succ h)

/-- The sixth byte of an ID field ends it (R129). -/
theorem Capture.idByte_last (h : c.idBytes.length = 5) : c.idByte b =
    if c.found.length < 32 then
      { c with shift := 0#64, valid := 0, idBytes := [], crc := crcByte c.crc b, phase := .seek,
               found := c.found ++ [foundEntry (c.idBytes ++ [b]) (crcByte c.crc b)] }
    else { c with shift := 0#64, valid := 0, idBytes := [], crc := crcByte c.crc b, phase := .seek, overflow := true } :=
  if_neg (by simp [h])

/-- The record once a byte of a data field has been taken: the scratch takes the data bytes of the first `n` entries (R130). -/
def Capture.withFieldByte (c : Capture) (n size : Nat) (b : Byte) : Capture :=
  { c with
    shift := 0#64, valid := 0
    scratch := if c.found.length - 1 < n ∧ c.received < size then memStore c.scratch ((c.found.length - 1) * size + c.received) [b]
               else c.scratch
    crc := crcByte c.crc b
    received := c.received + 1 }

theorem Capture.fieldByte_inside (h : c.received + 1 < size + 2) : c.fieldByte n size b = c.withFieldByte n size b := if_pos h

/-- The last check byte gives the newest entry its status (R129, R130). -/
theorem Capture.fieldByte_last (h : c.received + 1 = size + 2) : c.fieldByte n size b =
    { c.withFieldByte n size b with
      phase := .seek
      found := c.found.modify (c.found.length - 1) (fun f => { f with data := if crcByte c.crc b = 0#16 then .good else .badCheck }) } :=
  if_neg h.not_lt

end

/-- Settles O55, by the phase: in SEEK by what the search has seen, in a field by the count of its bytes. -/
theorem trackWriteCollects : Obligations.TrackWriteCollects := by
  intro s bit hst c b r size k three becomes waits
  have becomes_of {d : Capture} (h : s.cap.trackCell s.capZone.encoding s.capZone.n s.capLayout.sectorSize bit = d) : becomes d := by
    rw [← h]
    exact State.captureCell_track hst bit
  have waits_iff : c.idWaits = true ↔ waits := c.idWaits_iff
  refine ⟨fun hp he => ?mfm, fun hp he => ?fm, fun hp hv => becomes_of (Capture.trackCell_bit hp hv),
    fun hp hv hlen => becomes_of ((Capture.trackCell_idField hp hv).trans (Capture.idByte_inside hlen)),
    fun a0 a1 a2 a3 a4 hp hv hid => ?idEnds, fun hp hv => ?dataField⟩
  case mfm =>
    have sees {x : Seen} (h : seen .mfm c = x) : seen s.capZone.encoding c = x := he ▸ h
    have mark (h3 : three) (m : Mark) (hb : b = m.byte) : becomes (c.seekMark .mfm m) :=
      he ▸ becomes_of (Capture.trackCell_seek_mark hp (sees (seen_mfm_mark h3 m hb)))
    have isData (hb : b = 0xFB#8 ∨ b = 0xF8#8) : ∃ d, b = (Mark.data d).byte := hb.elim (⟨false, ·⟩) (⟨true, ·⟩)
    refine ⟨fun h3 => becomes_of (Capture.trackCell_seek_nothing hp (sees (seen_mfm_nothing h3))), fun h3 hb => ?_, fun h3 hb hw => ?_,
      fun h3 hb hw => ?_, fun h3 hb => becomes_of (Capture.trackCell_seek_falseLead hp (sees (seen_mfm_falseLead h3 ?_)))⟩
    · have := mark h3 .id hb
      rwa [Capture.seekMark, markCheck_mfm] at this
    · obtain ⟨d, hd⟩ := isData hb
      have := mark h3 (.data d) hd
      rwa [Capture.seekMark_waits (waits_iff.2 hw), markCheck_mfm, ← hd] at this
    · obtain ⟨d, hd⟩ := isData hb
      exact Capture.seekMark_passed (Bool.eq_false_iff.2 (mt waits_iff.1 hw)) d ▸ mark h3 (.data d) hd
    · simpa [Mark.forall_iff, Mark.byte] using hb
  case fm =>
    intro group
    have sees {x : Seen} (h : seen .fm c = x) : seen s.capZone.encoding c = x := he ▸ h
    have mark (hv : 16 ≤ c.valid) (m : Mark) (hg : group = m.group) : becomes (c.seekMark .fm m) :=
      he ▸ becomes_of (Capture.trackCell_seek_mark hp (sees (seen_fm_mark hv m hg)))
    have waiting (hv : 16 ≤ c.valid) (hw : waits) (d : Bool) (hg : group = (Mark.data d).group) :=
      Capture.seekMark_waits (e := .fm) (waits_iff.2 hw) d ▸ mark hv (.data d) hg
    refine ⟨fun hv => becomes_of (Capture.trackCell_seek_nothing hp (sees (seen_fm_short hv))), fun hv hg => mark hv .id hg,
      fun hv hg hw => waiting hv hw false hg, fun hv hg hw => waiting hv hw true hg, fun hv hg hw => ?_,
      fun hv hg => becomes_of (Capture.trackCell_seek_nothing hp (sees (seen_fm_nothing hv ?_)))⟩
    · obtain ⟨d, hd⟩ : ∃ d, group = (Mark.data d).group := hg.elim (⟨false, ·⟩) (⟨true, ·⟩)
      exact Capture.seekMark_passed (Bool.eq_false_iff.2 (mt waits_iff.1 hw)) d ▸ mark hv (.data d) hd
    · simpa [Mark.forall_iff, Mark.group] using hg
  case idEnds =>
    have five : c.idBytes = [a0, a1, a2, a3, a4] := hid
    have last := (Capture.trackCell_idField (e := s.capZone.encoding) (n := s.capZone.n) (size := size) hp hv).trans
      (Capture.idByte_last (by rw [five]; rfl))
    refine ⟨fun hlen => becomes_of (last.trans ?_), fun hlen => becomes_of (last.trans (if_neg (Nat.not_lt.2 hlen)))⟩
    rw [five]
    exact if_pos hlen
  case dataField =>
    intro scratch
    have taken := Capture.trackCell_dataField (e := s.capZone.encoding) (n := s.capZone.n) (size := size) hp hv
    exact ⟨fun h => becomes_of (taken.trans (Capture.fieldByte_inside h)),
      fun h => becomes_of (taken.trans (Capture.fieldByte_last h))⟩

end Sys2Proof.Machine
end

section
/-! PROOFS. The end of a sector write (06 R117, R120 to R122): the bytes, the sector's state, the defect list and what follows it. -/

namespace Sys2Proof.Machine

/-! ## A new defect list leaves everything but the defective parts (R63, R85 to R87) -/

/-- `d` differs from `c` in the defect list and in the defective parts of sectors at most. -/
structure Cache.Relisted (c d : Cache) : Prop where
  rest : d = { c with lines := d.lines, defects := d.defects }
  sector : ∀ k l, ∃ f : Sector → Bool, d.sector k l = (c.sector k l).map fun x => { x with defective := f x }

theorem Cache.Relisted.refl (c : Cache) : c.Relisted c := ⟨rfl, fun _ _ => ⟨Sector.defective, by simp⟩⟩

theorem Cache.Relisted.ram {c d : Cache} (h : c.Relisted d) : d.ram = c.ram := by rw [h.rest]
theorem Cache.Relisted.lru {c d : Cache} (h : c.Relisted d) : d.lru = c.lru := by rw [h.rest]
theorem Cache.Relisted.flushQ {c d : Cache} (h : c.Relisted d) : d.flushQ = c.flushQ := by rw [h.rest]

theorem Cache.Relisted.state {c d : Cache} (h : c.Relisted d) (k l : Nat) :
    (d.sector k l).map Sector.state = (c.sector k l).map Sector.state := by
  obtain ⟨f, hf⟩ := h.sector k l
  rw [hf, Option.map_map]
  rfl

theorem Cache.Relisted.sector_some {c d : Cache} (h : c.Relisted d) {k l : Nat} {x : Sector} (hx : c.sector k l = some x) :
    ∃ b, d.sector k l = some { x with defective := b } := by
  obtain ⟨f, hf⟩ := h.sector k l
  exact ⟨f x, by rw [hf, hx]; rfl⟩

theorem Cache.relisted_setDefects (c : Cache) (g : Geometry) (ds : List Defect) : c.Relisted (c.setDefects g ds) := by
  refine ⟨rfl, fun k l => ?_⟩
  have hl : (c.setDefects g ds).line k = Line.syncDefects g ds (c.line k) := c.line_map _ rfl k
  simp only [Cache.sector, hl]
  cases ht : (c.line k).tag with
  | none => exact ⟨Sector.defective, by simp [Line.syncDefects, ht]⟩
  | some tr =>
    exact ⟨fun _ => names ds tr ((g.zone (c.line k).zone).idSector l), by simp [Line.syncDefects, ht, List.getElem?_mapIdx]⟩

theorem relisted_outcomeDefects (s : State) (tr : Track) (o : WriteOutcome) : s.cache.Relisted (s.outcomeDefects tr o).1 := by
  cases o with
  | quiet => exact .refl _
  | good | faulty => exact s.cache.relisted_setDefects _ _

theorem Cache.removeDefect_defects (c : Cache) (g : Geometry) (tr : Track) (n : Nat) :
    (c.removeDefect g tr n).defects = c.defects.filter fun e => decide (¬ (e.track = tr ∧ e.sector = n)) :=
  List.filter_congr fun e _ => by rw [Bool.eq_iff_iff]; simp

/-! ## The sector's bytes and state (R122) -/

/-- The cache once the bytes of a sector write stand in their place and the sector is DIRTY, its defect list not yet touched. -/
def State.withSectorStored (s : State) (i : Nat) (bs : List Byte) : State :=
  { s with cache := (s.cache.storeLine i (s.cap.logical * s.capLayout.sectorSize) bs).modSector i s.cap.logical fun x => x.enter .dirty }

section
variable {s : State} {i : Nat} {bs : List Byte}

theorem State.withSectorStored_sector (k l : Nat) : (s.withSectorStored i bs).cache.sector k l =
    if k = i ∧ l = s.cap.logical then (s.cache.sector k l).map fun x => x.enter .dirty else s.cache.sector k l :=
  Cache.sector_modSector _ _ _ _ _ _

theorem Sector.enter_hole (x : Sector) (st : SectorState) : (x.enter st).hole = x.hole := by unfold Sector.enter; split <;> rfl

theorem Sector.enter_defective (x : Sector) (st : SectorState) : (x.enter st).defective = x.defective := by
  unfold Sector.enter; split <;> rfl

theorem State.withSectorStored_written {x : Sector} (hx : s.cache.sector i s.cap.logical = some x) :
    (s.withSectorStored i bs).cache.sector i s.cap.logical = some (x.enter .dirty) := by
  rw [State.withSectorStored_sector, if_pos ⟨rfl, rfl⟩, hx]
  rfl

theorem State.withSectorStored_other {k l : Nat} (h : k ≠ i ∨ l ≠ s.cap.logical) :
    (s.withSectorStored i bs).cache.sector k l = s.cache.sector k l := by
  rw [State.withSectorStored_sector, if_neg (by tauto)]

theorem State.withSectorStored_defective {k l : Nat} {y : Sector} (hy : s.cache.sector k l = some y) :
    ∃ z, (s.withSectorStored i bs).cache.sector k l = some z ∧ z.defective = y.defective := by
  rw [State.withSectorStored_sector, hy]
  split
  · exact ⟨_, rfl, y.enter_defective _⟩
  · exact ⟨y, rfl, rfl⟩

theorem State.withSectorStored_ram : (s.withSectorStored i bs).cache.ram =
    memStore s.cache.ram (i * 12288 + s.cap.logical * s.capLayout.sectorSize) bs := rfl

variable {tr : Track}

/-! ## The whole end (R122) -/

theorem State.endSectorWrite_eq (ht : s.cap.track = some tr) (hi : s.cap.line = some i) (o : WriteOutcome) : s.endSectorWrite bs o =
    let d := (s.withSectorStored i bs).outcomeDefects tr o
    ({ s with cache := { d.1.touch i with idleTimer := some (ms s.link.options.idleFlush) } } : State).outcomeNotice tr o d.2 := by
  simp only [State.endSectorWrite, ht, hi]
  rfl

theorem State.outcomeNotice_eq (o : WriteOutcome) (dropped : Bool) : s.outcomeNotice tr o dropped = { s with
    link := match o with
      | .quiet | .good => s.link
      | .faulty r => s.link.post (.captureFault tr.cyl tr.head (s.capZone.firstSector + s.cap.logical) r.fault dropped) } := by
  cases o <;> rfl

end

/-- Settles O53: the bytes and the state go to the one sector, and the new defect list changes defective parts alone. -/
theorem sectorWriteStores : Obligations.SectorWriteStores := by
  intro s tr i bs o x ht hi hsound hx u sector base
  let stored := s.withSectorStored i bs
  let d := stored.outcomeDefects tr o
  have hu : u = ({ s with cache := { d.1.touch i with idleTimer := some (ms s.link.options.idleFlush) } } : State).outcomeNotice tr o d.2 :=
    State.endSectorWrite_eq ht hi o
  have hcache : u.cache = { d.1.touch i with idleTimer := some (ms s.link.options.idleFlush) } := by rw [hu, outcomeNotice_cache]
  have relisted : stored.cache.Relisted d.1 := relisted_outcomeDefects stored tr o
  have sectors (k l : Nat) : u.cache.sector k l = d.1.sector k l := by rw [hcache]; rfl
  have defects : u.cache.defects = d.1.defects := by rw [hcache]; rfl
  have ram : u.cache.ram = memStore s.cache.ram base bs := by
    rw [hcache]
    exact relisted.ram
  have follows (h : d.1.FollowsDefects s.geom) : u.cache.FollowsDefects s.geom := by rw [hcache]; exact h
  refine ⟨by rw [hu, State.outcomeNotice_eq], ?written, fun k l y hkl hy => ?other,
    fun a ha => by rw [ram, memRead_memStore_outside _ _ _ _ ha], fun b hb => ?bytes, ?lru,
    by rw [hcache, Nat.mul_comm]; rfl, ?flushQ, fun ho => ?quiet, fun ho => ?good, fun r ho => ?faulty⟩
  case written =>
    obtain ⟨b, hb⟩ := relisted.sector_some (State.withSectorStored_written hx)
    exact ⟨_, (sectors _ _).trans hb, x.enter_state _, x.enter_hole _⟩
  case other =>
    obtain ⟨b, hb⟩ := relisted.sector_some ((State.withSectorStored_other hkl).trans hy)
    exact ⟨_, (sectors _ _).trans hb, rfl, rfl, rfl⟩
  case bytes =>
    rw [ram, memRead_memStore_at _ (Nat.le_add_right _ _) (Nat.add_lt_add_left hb _), Nat.add_sub_cancel_left]
  case lru =>
    rw [hcache]
    exact congrArg (fun order => toFront order i) relisted.lru
  case flushQ =>
    rw [hcache]
    exact relisted.flushQ
  case quiet =>
    subst ho
    refine ⟨defects, by rw [hu]; rfl, fun k l y hy => ?_⟩
    obtain ⟨z, hz, hd⟩ := State.withSectorStored_defective (bs := bs) hy
    exact ⟨z, (sectors _ _).trans hz, hd⟩
  case good =>
    subst ho
    exact ⟨defects.trans (stored.cache.removeDefect_defects _ _ _), follows (Cache.setDefects_follows _ _ _), by rw [hu]; rfl⟩
  case faulty =>
    subst ho
    exact ⟨d.2, defects ▸ addToDefects_added _ _, defects ▸ addToDefects_length hsound.defects _,
      follows (Cache.setDefects_follows _ _ _), by rw [hu]; rfl⟩

end Sys2Proof.Machine
end

section
/-! PROOFS. The fall of the gate, the hunt deadline and the end of the slot (02 R39, 06 R116, R117, R121, R123, 07 R131). -/

namespace Sys2Proof.Machine

/-! ## The fall of the gate (R39, R117, R121, R131) -/

section
variable {s : State}

theorem State.gateLevel_stays_inactive (hg : s.drive.gateActive = false) :
    s.gateLevel false = { s with inputs := { s.inputs with writeGate := false } } := if_pos (by simp [hg])

theorem State.gateLevel_fall (hg : s.drive.gateActive = true) : s.gateLevel false = reacting State.captureFall
    { s with inputs := { s.inputs with writeGate := false }, drive := { s.drive with gateActive := false } } := by
  simp [State.gateLevel, State.reworkGate, hg]

theorem State.captureFall_eq (s : State) : s.captureFall = { s.endCapture with cap := Capture.idle } := rfl

theorem State.endCapture_still (h : s.cap.st = .idle ∨ s.cap.st = .sectorTail ∨ s.cap.st = .discard) : s.endCapture = s := by
  rcases h with h | h
  · simp only [State.endCapture, h]
  · exact State.endCapture_resting h

theorem dataMarkOffset_eq (e : Encoding) : dataMarkOffset e = match e with | .mfm => 56 | .fm => 30 := by cases e <;> rfl

/-! ## The hunt deadline (R116) -/

theorem State.captureDeadline_hunt (h : s.cap.st = .hunt) :
    s.captureDeadline = { s.endSectorWrite [] (.faulty .noMark) with
      cap := if s.drive.gateActive then { s.cap with st := .discard, fluxOpen := none, empties := 0 } else Capture.idle } := by
  simp only [State.captureDeadline, if_pos h, State.capAside, Capture.rest, endSectorWrite_cap, (captureOnly_endSectorWrite s _ _).drive]

theorem State.captureDeadline_elsewhere (h : s.cap.st ≠ .hunt) : s.captureDeadline = s := if_neg h

/-! ## The end of the slot (R123) -/

theorem State.takesSlotEnd_iff (s : State) :
    s.takesSlotEnd = true ↔ (s.cap.st = .sectorTail ∨ s.cap.st = .sectorData) ∧ s.cap.pastSlot = false := by
  simp [State.takesSlotEnd]

theorem State.captureSlotEnd_taken (h : s.cap.st = .sectorTail ∨ s.cap.st = .sectorData) (hp : s.cap.pastSlot = false) :
    s.captureSlotEnd = { s.markOverrun with
      cap := { s.cap with
        st := if s.cap.st = .sectorTail then .discard else .sectorData
        pastSlot := true
        fluxOpen := if s.cap.st = .sectorTail then none else s.cap.fluxOpen
        empties := if s.cap.st = .sectorTail then 0 else s.cap.empties } } := by
  rcases h with h | h <;> simp [State.captureSlotEnd, hp, h, markOverrun_cap, Capture.rest]

/-- Logical sector `l` of line `i` holds data that a write past its slot spoils (R123). -/
def Cache.HoldsData (c : Cache) (i l : Nat) : Prop :=
  ∃ y, c.sector i l = some y ∧ y.hole = false ∧ (y.state = .clean ∨ y.state = .dirty ∨ y.state = .flush)

variable {tr : Track} {i : Nat}

theorem State.markOverrun_unmarked (ht : s.cap.track = some tr) (hi : s.cap.line = some i)
    (h : ¬ (s.cap.slot + 1 < s.capZone.n ∧ s.cache.HoldsData i (s.capZone.logicalOf (s.cap.slot + 1)))) : s.markOverrun = s := by
  simp only [State.markOverrun, ht, hi]
  by_cases hn : s.capZone.n ≤ s.cap.slot + 1
  · exact if_pos hn
  · rw [if_neg hn]
    cases hy : s.cache.sector i (s.capZone.logicalOf (s.cap.slot + 1)) with
    | none => rfl
    | some y =>
      refine if_neg fun hdata => h ⟨Nat.lt_of_not_le hn, y, hy, ?_⟩
      simpa [or_assoc] using hdata

theorem State.markOverrun_marked (ht : s.cap.track = some tr) (hi : s.cap.line = some i) (hn : s.cap.slot + 1 < s.capZone.n)
    (h : s.cache.HoldsData i (s.capZone.logicalOf (s.cap.slot + 1))) :
    let sector := s.capZone.firstSector + s.capZone.logicalOf (s.cap.slot + 1)
    let d := s.cache.addDefect s.geom ⟨tr, sector, .overrun⟩
    s.markOverrun = { s with cache := d.1, link := s.link.post (.captureFault tr.cyl tr.head sector .overrun d.2) } := by
  obtain ⟨y, hy, hdata⟩ := h
  simp only [State.markOverrun, ht, hi, if_neg (Nat.not_le.2 hn), hy]
  exact if_pos (by simpa [or_assoc] using hdata)

end

/-- Settles O54: a fall by the state that the capture unit is in, the end of the slot by what the next slot's sector holds. -/
theorem sectorWritesEnd : Obligations.SectorWritesEnd := by
  intro s hp x v ends falls aside
  have falls_of {u : State} (h : s.gateLevel false = u.react s.cache) : falls u :=
    ⟨_, congrArg Host.Outcome.next ((whenPowered_present _ hp).trans (congrArg State.tend h)), reacted_tend _⟩
  refine ⟨fun hg => falls_of ((State.gateLevel_stays_inactive hg).trans (react_self { s with inputs := x }).symm), fun hg => ?falls,
    fun h => (endsIn_settling (c := .huntDeadline) rfl hp (by simp [h])).congr (State.captureDeadline_hunt h), fun h => ?early,
    fun h => ?untaken, fun tr i hst hpast htrack hline => ?taken⟩
  case falls =>
    have fall {u : State} (h : v.endCapture = u) : falls { u with cap := Capture.idle } :=
      falls_of ((State.gateLevel_fall hg).trans (h ▸ rfl))
    refine ⟨fall rfl, fun h => fall (State.endCapture_still h), fun h => ?_,
      fun h hv => ⟨v.tornBytes, fall (State.endCapture_sectorData h), v.tornBytes_spec hv⟩, fun h => fall (State.endCapture_track h)⟩
    have hunt := State.endCapture_hunt (s := v) h
    rw [dataMarkOffset_eq] at hunt
    exact fall hunt
  case early =>
    exact (exec_settling_refused (c := .huntDeadline) rfl hp (by simp [h])).trans (by rw [State.captureDeadline_elsewhere h])
  case untaken =>
    have hnot : s.takesSlotEnd = false := by
      rw [Bool.eq_false_iff, ne_eq, State.takesSlotEnd_iff]
      rintro ⟨hst, hpast⟩
      rcases h with ⟨htail, hdata⟩ | h
      · exact hst.elim htail hdata
      · exact absurd (h.symm.trans hpast) (by simp)
    exact (exec_settling_refused (c := .slotEndDuringCapture) rfl hp hnot).trans (by rw [captureSlotEnd_idle hnot])
  case taken =>
    intro l marked
    have hend := State.captureSlotEnd_taken hst hpast
    have taken : ends .slotEndDuringCapture s.captureSlotEnd :=
      endsIn_settling (c := .slotEndDuringCapture) rfl hp ((State.takesSlotEnd_iff s).2 ⟨hst, hpast⟩)
    have only := captureOnly_markOverrun s
    have cache : s.captureSlotEnd.cache = s.markOverrun.cache := by rw [hend]
    have link : s.captureSlotEnd.link = s.markOverrun.link := by rw [hend]
    have unmarked (h : ¬ marked) : s.markOverrun = s := State.markOverrun_unmarked htrack hline h
    have overrun (h : marked) := State.markOverrun_marked htrack hline h.1 h.2
    have relisted : s.cache.Relisted s.markOverrun.cache := by
      by_cases h : marked
      · rw [overrun h]
        exact s.cache.relisted_setDefects _ _
      · rw [unmarked h]
        exact .refl _
    refine ⟨s.captureSlotEnd, taken, by rw [hend, only.outside], by rw [hend], by rw [hend], by rw [hend], by rw [hend],
      by rw [cache, relisted.ram], fun k l => by rw [cache, relisted.state],
      fun h => by rw [cache, link, unmarked h]; exact ⟨rfl, rfl⟩, fun h => ?_⟩
    rw [cache, link, overrun h]
    exact ⟨_, addToDefects_added _ _, Cache.setDefects_follows _ _ _, rfl⟩

end Sys2Proof.Machine
end

section
/-! PROOFS. The end of a track write (07 R131 to R136): the comparison, what a match stores, and a wrap that ends one. -/

namespace Sys2Proof.Machine

/-! ## What was found, slot by slot (R131, R132) -/

/-- An entry is the expected ID of slot `j` with good checks, part by part (R5, R132). -/
def FoundId.AsExpected (f : FoundId) (z : Zone) (tr : Track) (j : Nat) : Prop :=
  f.cyl = byteOf tr.cyl ∧ f.head = byteOf (if z.idZero then 0 else tr.head) ∧ f.sector = byteOf (z.firstSector + z.logicalOf j) ∧
    f.size = byteOf z.sizeCode ∧ f.idGood = true ∧ f.data = .good

/-- Slot `j` was found as expected (R132). -/
def FoundAsExpected (z : Zone) (tr : Track) (found : List FoundId) (j : Nat) : Prop :=
  ∃ f, found[j]? = some f ∧ f.AsExpected z tr j

theorem FoundId.matchesSlot_iff (f : FoundId) (z : Zone) (tr : Track) (j : Nat) : f.matchesSlot z tr j = true ↔ f.AsExpected z tr j := by
  simp [FoundId.matchesSlot, FoundId.AsExpected, Zone.idBytes, Zone.idSector, and_assoc]

theorem slotMatches_iff (z : Zone) (tr : Track) (found : List FoundId) (j : Nat) :
    slotMatches z tr found j = true ↔ FoundAsExpected z tr found j := by
  unfold slotMatches FoundAsExpected
  cases found[j]? with
  | none => simp
  | some f => simp [f.matchesSlot_iff]

section
variable (c : Capture) (z : Zone) (tr : Track)

theorem Capture.trackMatches_iff : c.trackMatches z tr = true ↔
    c.found.length = z.n ∧ c.overflow = false ∧ ∀ j < z.n, FoundAsExpected z tr c.found j := by
  simp [Capture.trackMatches, slotMatches_iff, and_assoc]

/-- The first differing slot is the first that is not as expected, and the number of slots when all are (R132). -/
theorem Capture.firstDiffering_spec :
    let first := c.firstDiffering z tr
    first ≤ z.n ∧ (∀ j < first, FoundAsExpected z tr c.found j) ∧ (first < z.n → ¬ FoundAsExpected z tr c.found first) := by
  intro first
  cases hfind : (List.range z.n).find? fun j => !slotMatches z tr c.found j with
  | none =>
    have hfirst : first = z.n := congrArg (Option.getD · z.n) hfind
    have hall := List.find?_range_eq_none.1 hfind
    exact ⟨hfirst.le, fun j hj => (slotMatches_iff ..).1 (by simpa using hall j (hfirst ▸ hj)), fun h => absurd hfirst h.ne⟩
  | some k =>
    have hfirst : first = k := congrArg (Option.getD · z.n) hfind
    obtain ⟨hdiffers, hk, hbefore⟩ := List.find?_range_eq_some.1 hfind
    rw [hfirst, ← slotMatches_iff]
    exact ⟨(List.mem_range.1 hk).le, fun j hj => (slotMatches_iff ..).1 (by simpa using hbefore j hj), fun _ => by simpa using hdiffers⟩

end

theorem Capture.stopCollecting_zone (c : Capture) : c.stopCollecting.zone = c.zone := by
  unfold Capture.stopCollecting
  split <;> rfl

theorem Capture.stopCollecting_scratch (c : Capture) : c.stopCollecting.scratch = c.scratch := by
  unfold Capture.stopCollecting
  split <;> rfl

/-! ## The bytes of the slots (R133 step 1) -/

/-- The address holds a byte of the sector that slot `j` carries, in line `i`. -/
def Zone.InSlot (z : Zone) (i size j a : Nat) : Prop :=
  i * 12288 + z.logicalOf j * size ≤ a ∧ a < i * 12288 + z.logicalOf j * size + size

theorem Zone.inSlot_byte (z : Zone) (i j : Nat) {size b : Nat} (hb : b < size) :
    z.InSlot i size j (i * 12288 + z.logicalOf j * size + b) :=
  ⟨Nat.le_add_right _ _, Nat.add_lt_add_left hb _⟩

theorem Zone.InSlot.logicalOf_eq {z : Zone} {i size j k a : Nat} (hj : z.InSlot i size j a) (hk : z.InSlot i size k a) :
    z.logicalOf j = z.logicalOf k := by
  obtain ⟨hjlow, hjhigh⟩ := hj
  obtain ⟨hklow, hkhigh⟩ := hk
  have no_gap {x y : Nat} (h : x < y) : x * size + size ≤ y * size := Nat.succ_mul x size ▸ Nat.mul_le_mul_right size h
  rcases Nat.lt_trichotomy (z.logicalOf j) (z.logicalOf k) with h | h | h
  · have := no_gap h
    omega
  · exact h
  · have := no_gap h
    omega

section
variable (z : Zone) (i size : Nat) (scratch ram : Memory)

/-- One slot's bytes go to its sector's place, and nothing else changes. -/
theorem memRead_storeSlot (j a : Nat) :
    let stored := memStore ram (dataAddr i size (z.logicalOf j) 0) (memSlice scratch (j * size) size)
    (z.InSlot i size j a → memRead stored a = memRead scratch (j * size + (a - (i * 12288 + z.logicalOf j * size)))) ∧
    (¬ z.InSlot i size j a → memRead stored a = memRead ram a) := by
  intro stored
  have hstored : stored = memStore ram (i * 12288 + z.logicalOf j * size) (memSlice scratch (j * size) size) := by
    simp only [stored, dataAddr, lineBase, lineBytes, Nat.add_zero]
  refine ⟨fun ⟨hlow, hhigh⟩ => ?_, fun hout => ?_⟩
  · rw [hstored, memRead_memStore_at _ hlow (by rwa [memSlice_length]), byteAt_memSlice _ _ (by omega)]
  · rw [hstored, memRead_memStore_outside]
    rw [memSlice_length]
    unfold Zone.InSlot at hout
    omega

/-- A byte in the place of one slot alone comes from the scratch. -/
theorem memRead_storeSlots_slot {j a : Nat} (hinj : ∀ k < z.n, z.logicalOf k = z.logicalOf j → k = j) (hj : j < z.n)
    (own : z.InSlot i size j a) :
    memRead (storeSlots z i size scratch ram) a = memRead scratch (j * size + (a - (i * 12288 + z.logicalOf j * size))) := by
  refine (read_foldl (memRead · a) (fun k => z.InSlot i size k a) (fun r k hk hin => ?_)
    (fun r k _ => (memRead_storeSlot z i size scratch r k a).2) ram).1 ⟨j, List.mem_range.2 hj, own⟩
  obtain rfl := hinj k (List.mem_range.1 hk) (hin.logicalOf_eq own)
  exact (memRead_storeSlot z i size scratch r k a).1 hin

/-- Outside the track's part of the line no byte changes. -/
theorem memRead_storeSlots_outside (hlt : ∀ j < z.n, z.logicalOf j < z.n) {a : Nat} (ha : a < i * 12288 ∨ i * 12288 + z.n * size ≤ a) :
    memRead (storeSlots z i size scratch ram) a = memRead ram a := by
  refine (read_foldl (v := memRead ram a) (memRead · a) (fun k => z.InSlot i size k a) (fun r k hk hin => ?_)
    (fun r k _ => (memRead_storeSlot z i size scratch r k _).2) ram).2 fun k hk hin => ?_
  all_goals
    obtain ⟨hlow, hhigh⟩ := hin
    have hle : (z.logicalOf k + 1) * size ≤ z.n * size := Nat.mul_le_mul_right _ (hlt k (List.mem_range.1 hk))
    rw [Nat.succ_mul] at hle
    omega

end

/-! ## The sectors and the defect list (R133 steps 2 and 3, R87) -/

theorem Cache.hasDirty_iff (c : Cache) (i : Nat) : (c.line i).hasDirty = true ↔ ∃ l, (c.sector i l).map Sector.state = some .dirty := by
  simp only [Line.hasDirty, Cache.sector, List.any_eq_true, beq_iff_eq, List.mem_iff_getElem?, Option.map_eq_some_iff]
  exact ⟨fun ⟨x, ⟨l, hl⟩, hx⟩ => ⟨l, x, hl, hx⟩, fun ⟨l, x, hl, hx⟩ => ⟨x, ⟨l, hl⟩, hx⟩⟩

theorem Sector.afterMatch_dirty_iff (x : Sector) : x.afterMatch.state = .dirty ↔ x.hole = false := by
  cases h : x.hole <;> simp [Sector.afterMatch, h]

/-- The cache once the bytes of a matched track write stand in their places and the sectors are DIRTY, its defect list not yet touched. -/
def State.withSlotsStored (s : State) (i : Nat) : Cache :=
  ({ s.cache with ram := storeSlots s.capZone i s.capLayout.sectorSize s.cap.scratch s.cache.ram } : Cache).mapSectors i
    fun _ x => x.afterMatch

/-- The cache once a matched track write stands stored, the LRU order and the idle-flush timer not yet touched. -/
def State.withTrackStored (s : State) (tr : Track) (i : Nat) : Cache := (s.withSlotsStored i).removeTrackDefects s.geom tr

section
variable (s : State) (tr : Track) (i : Nat)

theorem State.relisted_withTrackStored : (s.withSlotsStored i).Relisted (s.withTrackStored tr i) := Cache.relisted_setDefects _ _ _

theorem State.withSlotsStored_sector (k l : Nat) : (s.withSlotsStored i).sector k l =
    (s.cache.sector k l).map fun x => if k = i then x.afterMatch else x :=
  Cache.sector_mapSectors _ _ _ _ _

theorem State.withTrackStored_line (k : Nat) :
    ∃ secs, (s.withTrackStored tr i).line k = { s.cache.line k with sectors := secs } := by
  have hstored : ∃ secs, (s.withSlotsStored i).line k = { s.cache.line k with sectors := secs } := by
    rw [State.withSlotsStored, Cache.mapSectors, Cache.line_modLine _ _ _ _ (.inl rfl)]
    split
    · exact ⟨_, rfl⟩
    · exact ⟨_, rfl⟩
  obtain ⟨secs, hsecs⟩ := hstored
  have hline : (s.withTrackStored tr i).line k = Line.syncDefects s.geom _ ((s.withSlotsStored i).line k) := Cache.line_map _ _ rfl k
  rw [hline, hsecs, Line.syncDefects]
  split
  · exact ⟨secs, rfl⟩
  · exact ⟨_, rfl⟩

theorem State.withTrackStored_defects :
    (s.withTrackStored tr i).defects = s.cache.defects.filter fun d => decide (d.track ≠ tr) :=
  List.filter_congr fun d _ => by rw [Bool.eq_iff_iff]; simp

theorem State.withTrackStored_follows : (s.withTrackStored tr i).FollowsDefects s.geom := Cache.setDefects_follows _ _ _

theorem State.withTrackStored_hasDirty :
    ((s.withTrackStored tr i).line i).hasDirty = true ↔ ∃ x ∈ (s.cache.line i).sectors, x.hole = false := by
  have hstates (l : Nat) : ((s.withTrackStored tr i).sector i l).map Sector.state =
      ((s.cache.line i).sectors[l]?).map fun x => x.afterMatch.state := by
    rw [(s.relisted_withTrackStored tr i).state, s.withSlotsStored_sector, Option.map_map]
    simp only [if_true]
    rfl
  simp only [Cache.hasDirty_iff, hstates, Option.map_eq_some_iff, Sector.afterMatch_dirty_iff, List.mem_iff_getElem?]
  exact ⟨fun ⟨l, x, hl, hx⟩ => ⟨x, ⟨l, hl⟩, hx⟩, fun ⟨x, ⟨l, hl⟩, hx⟩ => ⟨l, x, hl, hx⟩⟩

variable {s tr i}

/-- A sector of the line written is DIRTY, a hole CLEAN, and no longer defective (R65, R87, R133). -/
theorem State.withTrackStored_written {l : Nat} {x : Sector} (htag : (s.cache.line i).tag = some tr)
    (hx : s.cache.sector i l = some x) : (s.withTrackStored tr i).sector i l = some { x.afterMatch with defective := false } := by
  have hslot : (s.withSlotsStored i).sector i l = some x.afterMatch := by rw [s.withSlotsStored_sector, hx, Option.map_some, if_pos rfl]
  obtain ⟨b, hb⟩ := (s.relisted_withTrackStored tr i).sector_some hslot
  obtain ⟨secs, hsecs⟩ := s.withTrackStored_line tr i i
  have hfollows := s.withTrackStored_follows tr i i l tr _ (by rw [hsecs]; exact htag) hb
  rw [s.withTrackStored_defects] at hfollows
  cases b with
  | false => exact hb
  | true =>
    obtain ⟨d, hd, hdtr, -⟩ := hfollows.1 rfl
    exact absurd hdtr (of_decide_eq_true (List.mem_filter.1 hd).2)

theorem State.withTrackStored_other {k l : Nat} {x : Sector} (hk : k ≠ i) (hx : s.cache.sector k l = some x) :
    ∃ b, (s.withTrackStored tr i).sector k l = some { x with defective := b } :=
  (s.relisted_withTrackStored tr i).sector_some (by rw [s.withSlotsStored_sector, hx, Option.map_some, if_neg hk])

theorem State.withTrackStored_ram : (s.withTrackStored tr i).ram =
    storeSlots s.capZone i s.capLayout.sectorSize s.cap.scratch s.cache.ram := rfl

/-! ## The whole end (R131 to R136) -/

/-- The LRU order and the idle-flush timer take part only when the track holds a sector that is no hole (R65, R133). -/
theorem State.storeTrack_eq : s.storeTrack tr i =
    let written := ((s.withTrackStored tr i).line i).hasDirty
    { s with
      cache := { s.withTrackStored tr i with
        lru := if written then toFront s.cache.lru i else s.cache.lru
        idleTimer := if written then some (ms s.link.options.idleFlush) else s.cache.idleTimer }
      link := s.link.post (.trackWritten tr) } := by
  have heq : s.storeTrack tr i = (if ((s.withTrackStored tr i).line i).hasDirty then
      ({ s with cache := s.withTrackStored tr i } : State).writeEnded i
      else { s with cache := s.withTrackStored tr i }).post (.trackWritten tr) := rfl
  rw [heq]
  cases ((s.withTrackStored tr i).line i).hasDirty <;> rfl

theorem State.withTrackStored_stopped :
    ({ s with cap := s.cap.stopCollecting } : State).withTrackStored tr i = s.withTrackStored tr i := by
  simp only [State.withTrackStored, State.withSlotsStored, State.capZone, State.capLayout, Capture.stopCollecting_zone,
    Capture.stopCollecting_scratch]
  rfl

section
variable (htrack : s.cap.track = some tr) (hline : s.cap.line = some i)
include htrack hline

theorem State.endTrackWrite_eq : s.endTrackWrite =
    let v := { s with cap := s.cap.stopCollecting }
    if v.cap.trackMatches s.capZone tr then
      (if s.cache.carries i (some tr) then v.storeTrack tr i else v.postFault tr.cyl tr.head 0xFF .noLine false)
    else v.post (.formatMismatch tr v.cap.foundCount (v.cap.firstDiffering s.capZone tr)) := by
  have hzone : ({ s with cap := s.cap.stopCollecting } : State).capZone = s.capZone := congrArg s.geom.zone s.cap.stopCollecting_zone
  simp only [State.endTrackWrite, htrack, hline, hzone]

theorem State.endTrackWrite_mismatch (h : ¬ s.cap.stopCollecting.trackMatches s.capZone tr = true) :
    s.endTrackWrite = { s with
      cap := s.cap.stopCollecting
      link := s.link.post (.formatMismatch tr s.cap.stopCollecting.foundCount (s.cap.stopCollecting.firstDiffering s.capZone tr)) } :=
  (State.endTrackWrite_eq htrack hline).trans (if_neg h)

theorem State.endTrackWrite_noLine (h : s.cap.stopCollecting.trackMatches s.capZone tr = true) (htag : (s.cache.line i).tag ≠ some tr) :
    s.endTrackWrite = { s with
      cap := s.cap.stopCollecting, link := s.link.post (.captureFault tr.cyl tr.head 0xFF .noLine false) } :=
  (State.endTrackWrite_eq htrack hline).trans ((if_pos h).trans (if_neg (by simpa [Cache.carries] using htag)))

theorem State.endTrackWrite_match (h : s.cap.stopCollecting.trackMatches s.capZone tr = true) (htag : (s.cache.line i).tag = some tr) :
    s.endTrackWrite =
      let written := ((s.withTrackStored tr i).line i).hasDirty
      { s with
        cap := s.cap.stopCollecting
        cache := { s.withTrackStored tr i with
          lru := if written then toFront s.cache.lru i else s.cache.lru
          idleTimer := if written then some (ms s.link.options.idleFlush) else s.cache.idleTimer }
        link := s.link.post (.trackWritten tr) } := by
  have carries : s.cache.carries i (some tr) = true := by simp [Cache.carries, htag]
  rw [State.endTrackWrite_eq htrack hline, if_pos h, if_pos carries, State.storeTrack_eq, State.withTrackStored_stopped]

end

/-! ## A wrap in TRACK (R131) -/

theorem State.wrap_in_track (h : s.cap.st = .track) :
    let e := ({ s with rot := { s.rot with t := 0, fine := 0 } } : State).endTrackWrite
    s.wrap = { e with cap := if s.drive.gateActive then { e.cap with st := .discard, fluxOpen := none, empties := 0 } else Capture.idle } := by
  intro e
  have hwrap : s.wrap = e.capAside := if_pos h
  have hdrive : e.drive = s.drive := (captureOnly_endTrackWrite _).drive
  rw [hwrap, ← hdrive]
  rfl

end

/-- Settles O56, by what the comparison says and by whether the line still carries the track. -/
theorem trackWriteEnds : Obligations.TrackWriteEnds := by
  refine ⟨fun s tr i htrack hline _ => ?_, fun s hp hst => ?wrap⟩
  case wrap =>
    exact (endsIn_settling (c := .rotationWrap) rfl hp (by simp [hst])).congr (State.wrap_in_track hst)
  intro c z size e asExpected matching
  have matches_iff : c.trackMatches z tr = true ↔ matching := c.trackMatches_iff z tr
  have mismatch (h : ¬ matching) := State.endTrackWrite_mismatch htrack hline (mt matches_iff.1 h)
  have noLine (h : matching) := State.endTrackWrite_noLine htrack hline (matches_iff.2 h)
  have stores (h : matching) := State.endTrackWrite_match htrack hline (matches_iff.2 h)
  refine ⟨?frame, fun h => ?mismatch, fun h htag => ?stores, fun h htag => ?noLine⟩
  case frame =>
    by_cases h : matching
    · by_cases htag : (s.cache.line i).tag = some tr
      · simp only [e, stores h htag]; rfl
      · simp only [e, noLine h htag]; rfl
    · simp only [e, mismatch h]; rfl
  case mismatch =>
    obtain ⟨hle, hbefore, hfirst⟩ := c.firstDiffering_spec z tr
    exact ⟨by rw [show e = _ from mismatch h], c.firstDiffering z tr, by rw [show e = _ from mismatch h]; rfl, hle, hbefore, hfirst⟩
  case noLine =>
    have he : e = _ := noLine h htag
    exact ⟨by rw [he], by rw [he]⟩
  case stores =>
    let d := s.withTrackStored tr i
    have he : e = _ := stores h htag
    have sector (k l : Nat) : e.cache.sector k l = d.sector k l := by rw [he]; rfl
    have line (k : Nat) : ∃ secs, e.cache.line k = { s.cache.line k with sectors := secs } := by
      rw [he]
      exact s.withTrackStored_line tr i k
    have ram : e.cache.ram = storeSlots z i size s.cap.scratch s.cache.ram := by rw [he]; rfl
    have dirty_iff := s.withTrackStored_hasDirty tr i
    refine ⟨by rw [he], fun l x hx => ?written, ?defects, ?follows, fun hdata => ?front, fun hholes => ?stay, fun k => ?kept,
      fun hinj j hj b hb => ?bytes, fun k => ?tag, by rw [he]; rfl, fun k l x hk hx => ?other, fun hlt a ha => ?outside⟩
    case written => exact ⟨_, (sector i l).trans (State.withTrackStored_written htag hx), rfl, rfl, rfl, rfl⟩
    case defects =>
      rw [he]
      exact s.withTrackStored_defects tr i
    case follows =>
      rw [he]
      exact s.withTrackStored_follows tr i
    case front =>
      have hdirty := dirty_iff.2 hdata
      rw [he]
      exact ⟨if_pos hdirty, (if_pos hdirty).trans (congrArg some (Nat.mul_comm _ _))⟩
    case stay =>
      have hclean : ¬ (d.line i).hasDirty = true := fun hd => by
        obtain ⟨x, hx, hhole⟩ := dirty_iff.1 hd
        exact absurd (hholes x hx) (by simp [hhole])
      rw [he]
      exact ⟨if_neg hclean, if_neg hclean⟩
    case kept =>
      obtain ⟨secs, hsecs⟩ := line k
      rw [hsecs]
      exact ⟨rfl, rfl, rfl⟩
    case bytes =>
      rw [ram]
      have stored := memRead_storeSlots_slot z i size s.cap.scratch s.cache.ram (fun k hk => hinj k hk j hj) hj (z.inSlot_byte i j hb)
      rwa [Nat.add_sub_cancel_left] at stored
    case tag =>
      obtain ⟨secs, hsecs⟩ := line k
      rw [hsecs]
    case other =>
      obtain ⟨b, hb⟩ := State.withTrackStored_other hk hx
      exact ⟨_, (sector k l).trans hb, rfl, rfl, rfl⟩
    case outside =>
      rw [ram]
      exact memRead_storeSlots_outside z i size _ _ hlt ha

end Sys2Proof.Machine
end

section
/-! PROOFS. CARD_READ and CARD_WRITE (08 R159, R160, 10 R186): the block number, the checks in their order, and the panel work. -/

namespace Sys2Proof.Machine

/-! ## The block number and the mount's chain (R50, R186) -/

theorem blockNumber_eq {p : List Byte} (h : 4 ≤ p.length) : blockNumber p =
    (byteAt p 0).toNat + 256 * (byteAt p 1).toNat + 65536 * (byteAt p 2).toNat + 16777216 * (byteAt p 3).toNat := by
  obtain ⟨a, b, c, d, rest, rfl⟩ : ∃ a b c d rest, p = a :: b :: c :: d :: rest := by
    match p, h with
    | a :: b :: c :: d :: rest, _ => exact ⟨a, b, c, d, rest, rfl⟩
  simp only [blockNumber, bytesAt, List.drop_zero, List.take_succ_cons, List.take_zero, ofLe, byteAt, List.getD_cons_zero,
    List.getD_cons_succ]
  omega

/-- A card block is one of the mount's image exactly when an extent with storage holds it (R50). -/
theorem Mount.imageBlockOf_isSome (m : Mount) (b : Nat) :
    (m.imageBlockOf b).isSome = true ↔ m.state ≠ .unmounted ∧ ∃ e ∈ m.chain, e.Holds b := by
  have hchain : ∀ es n, (imageBlockIn es n b).isSome = true ↔ ∃ e ∈ es, e.Holds b := fun es => by
    induction es with
    | nil => simp [imageBlockIn]
    | cons x xs ih =>
      intro n
      have htest : (!x.skip && decide (x.start ≤ b) && decide (b < x.start + x.count)) = true ↔ x.Holds b := by
        simp [Extent.Holds, and_assoc]
      rw [imageBlockIn]
      by_cases hx : x.Holds b
      · rw [if_pos (htest.2 hx)]
        simp [hx]
      · rw [if_neg (mt htest.1 hx), ih]
        simp [hx]
  unfold Mount.imageBlockOf
  by_cases hm : m.state = .unmounted
  · simp [hm]
  · rw [if_neg hm, hchain]
    simp [hm]

/-! ## The two requests, check by check -/

section
variable {s : State} (p : List Byte)

theorem doCardRead_notReady (h : s.card.state ≠ .ready) : s.doCardRead p = s.cardNotReady := if_pos h

theorem doCardRead_beyond (h : s.card.state = .ready) (hb : s.card.capacity ≤ blockNumber p) :
    s.doCardRead p = s.badField 0x22#8 0xFF#8 := by
  rw [State.doCardRead, if_neg (not_not.2 h), if_pos hb]

theorem doCardRead_taken (h : s.card.state = .ready) (hb : blockNumber p < s.card.capacity) :
    s.doCardRead p = s.setPanel false (blockNumber p) [] := by
  rw [State.doCardRead, if_neg (not_not.2 h), if_neg (Nat.not_le.2 hb)]

theorem doCardWrite_notReady (h : s.card.state ≠ .ready) : s.doCardWrite p = s.cardNotReady := if_pos h

theorem doCardWrite_beyond (h : s.card.state = .ready) (hb : s.card.capacity ≤ blockNumber p) :
    s.doCardWrite p = s.badField 0x22#8 0xFF#8 := by
  rw [State.doCardWrite, if_neg (not_not.2 h), if_pos hb]

theorem doCardWrite_protected (h : s.card.state = .ready) (hb : blockNumber p < s.card.capacity) (hw : s.card.wp = true) :
    s.doCardWrite p = s.answer .writeProtected 0#8 [] := by
  rw [State.doCardWrite, if_neg (not_not.2 h), if_neg (Nat.not_le.2 hb), if_pos hw]

theorem doCardWrite_inImage (h : s.card.state = .ready) (hb : blockNumber p < s.card.capacity) (hw : s.card.wp = false)
    (hi : (s.mount.imageBlockOf (blockNumber p)).isSome = true) : s.doCardWrite p = s.answer .inImage 0#8 [] := by
  rw [State.doCardWrite, if_neg (not_not.2 h), if_neg (Nat.not_le.2 hb), if_neg (ne_true_of_eq_false hw), if_pos hi]

theorem doCardWrite_taken (h : s.card.state = .ready) (hb : blockNumber p < s.card.capacity) (hw : s.card.wp = false)
    (hi : ¬ (s.mount.imageBlockOf (blockNumber p)).isSome = true) :
    s.doCardWrite p = s.setPanel true (blockNumber p) (p.drop 4) := by
  rw [State.doCardWrite, if_neg (not_not.2 h), if_neg (Nat.not_le.2 hb), if_neg (ne_true_of_eq_false hw), if_neg hi]

end

theorem exec_cardRead_taken {s : State} (h : s.takesRequests) (tag : Byte) {p : List Byte} (hl : p.length = 4) :
    exec (.cardRead tag p) s = .next (State.settle s ((s.entered 0x07#8 tag).doCardRead p)) := by
  change execCardRead tag p s = _
  rw [execCardRead, whenPowered_present _ h.1, State.takeCardRead, settlingWhen_taken _ (State.takesRequest_of h),
    State.request_taken h tag _ (by simp [lengthOk, hl]) rfl]
  rfl

theorem exec_cardWrite_taken {s : State} (h : s.takesRequests) (tag : Byte) {p : List Byte} (hl : p.length = 516) :
    exec (.cardWrite tag p) s = .next (State.settle s ((s.entered 0x08#8 tag).doCardWrite p)) := by
  change execCardWrite tag p s = _
  rw [execCardWrite, whenPowered_present _ h.1, State.takeCardWrite, settlingWhen_taken _ (State.takesRequest_of h),
    State.request_taken h tag _ (by simp [lengthOk, hl]) rfl]
  rfl

/-- Settles O30: the two refusals in their order, and the block as panel work. -/
theorem cardReadRequest : Obligations.CardReadRequest := by
  intro s tag p h hl block answers
  have hblock : blockNumber p = block := blockNumber_eq hl.ge
  have hexec := exec_cardRead_taken h tag hl
  refine ⟨fun hc => ⟨_, _, hexec, reacted_settle s _, ?_⟩, fun hc hb => ⟨_, _, hexec, reacted_settle s _, ?_⟩,
    fun hc hb => ⟨_, _, hexec, reacted_settle s _, ?_⟩⟩
  · rw [doCardRead_notReady (s := s.entered 0x07#8 tag) p hc]
    exact s.answers_of_entered 0x07#8 tag .cardNotReady s.card.state.code []
  · rw [doCardRead_beyond (s := s.entered 0x07#8 tag) p hc (hblock ▸ hb)]
    exact s.answers_of_entered 0x07#8 tag .badField 0x22#8 [0xFF#8]
  · rw [doCardRead_taken (s := s.entered 0x07#8 tag) p hc (hblock ▸ hb), hblock]
    rfl

/-- Settles O31: the four refusals in their order, and the block with its bytes as panel work. -/
theorem cardWriteRequest : Obligations.CardWriteRequest := by
  intro s tag p h hl block inImage answers
  have hblock : blockNumber p = block := blockNumber_eq (by omega)
  have hexec := exec_cardWrite_taken h tag hl
  have hin : (s.mount.imageBlockOf (blockNumber p)).isSome = true ↔ inImage := by
    rw [hblock]
    exact s.mount.imageBlockOf_isSome block
  refine ⟨fun hc => ⟨_, _, hexec, reacted_settle s _, ?_⟩, fun hc hb => ⟨_, _, hexec, reacted_settle s _, ?_⟩,
    fun hc hb hw => ⟨_, _, hexec, reacted_settle s _, ?_⟩, fun hc hb hw hi => ⟨_, _, hexec, reacted_settle s _, ?_⟩,
    fun hc hb hw hi => ⟨_, _, hexec, reacted_settle s _, ?_⟩⟩
  · rw [doCardWrite_notReady (s := s.entered 0x08#8 tag) p hc]
    exact s.answers_of_entered 0x08#8 tag .cardNotReady s.card.state.code []
  · rw [doCardWrite_beyond (s := s.entered 0x08#8 tag) p hc (hblock ▸ hb)]
    exact s.answers_of_entered 0x08#8 tag .badField 0x22#8 [0xFF#8]
  · rw [doCardWrite_protected (s := s.entered 0x08#8 tag) p hc (hblock ▸ hb) hw]
    exact s.answers_of_entered 0x08#8 tag .writeProtected 0x00#8 []
  · rw [doCardWrite_inImage (s := s.entered 0x08#8 tag) p hc (hblock ▸ hb) hw (hin.2 hi)]
    exact s.answers_of_entered 0x08#8 tag .inImage 0x00#8 []
  · rw [doCardWrite_taken (s := s.entered 0x08#8 tag) p hc (hblock ▸ hb) hw (mt hin.1 hi), hblock]
    rfl

end Sys2Proof.Machine
end

section
/-! PROOFS. Insertion and bring-up of a card (08 R139, R140). -/

namespace Sys2Proof.Machine

theorem settlingWhen_not_taken {p : State → Bool} (f : State → State) {s : State} (h : p s = false) : settlingWhen p f s = f s :=
  if_neg (by simp [h])

/-- A card in INITIALISING takes the end of its bring-up as an effect of its own. -/
theorem initialising_takes {s : State} (h : s.card.state = .initialising) : (s.card.state == .initialising) = true := by simp [h]

theorem initialising_disregards {s : State} (h : s.card.state ≠ .initialising) : (s.card.state == .initialising) = false := by simp [h]

theorem exec_cardInserted {s : State} (hp : s.powered = true) : exec .cardInserted s =
    .next (if s.card.state = .absent then State.settle s s.cardInsert else s.cardInsert) := by
  change execCardInserted s = _
  rw [execCardInserted, whenPowered_present _ hp]
  by_cases h : s.card.state = .absent
  · rw [if_pos h, settlingWhen_taken _ (by simp [h])]
  · rw [if_neg h, settlingWhen_not_taken _ (by simp [h])]

theorem exec_bringUpDone {s : State} (hp : s.powered = true) (ok : Bool) (capacity : Nat) (wp : Bool) :
    exec (.bringUpDone ok capacity wp) s =
      .next (if s.card.state = .initialising then State.settle s (s.bringUpEnds ok capacity wp) else s.bringUpEnds ok capacity wp) := by
  change execBringUpDone ok capacity wp s = _
  rw [execBringUpDone, whenPowered_present _ hp]
  by_cases h : s.card.state = .initialising
  · rw [if_pos h, settlingWhen_taken _ (initialising_takes h)]
  · rw [if_neg h, settlingWhen_not_taken _ (initialising_disregards h)]

theorem exec_bringUpLimitExpiry {s : State} (hp : s.powered = true) : exec .bringUpLimitExpiry s =
    .next (if s.card.state = .initialising then State.settle s s.bringUpExpires else s.bringUpExpires) := by
  change execBringUpLimitExpiry s = _
  rw [execBringUpLimitExpiry, whenPowered_present _ hp]
  by_cases h : s.card.state = .initialising
  · rw [if_pos h, settlingWhen_taken _ (initialising_takes h)]
  · rw [if_neg h, settlingWhen_not_taken _ (initialising_disregards h)]

/-- Settles O57: each of the three commands by the card's state, and the answer by its capacity. -/
theorem cardBringUp : Obligations.CardBringUp := by
  intro s hp ends x failed
  have settles : ∀ {c : Instr} {u v : State}, exec c s = .next (State.settle s u) → u = v → ends c v :=
    fun h huv => ⟨_, h, huv ▸ reacted_settle s _⟩
  refine ⟨fun hc => ?_, fun hc => ?_, fun ok capacity wp hc => ⟨fun hok h1 hmax => ?_, fun hbad => ?_⟩, fun hc => ?_,
    fun ok capacity wp hc => ?_, fun hc => ?_⟩
  · exact settles ((exec_cardInserted hp).trans (congrArg Host.Outcome.next (if_pos hc))) (if_pos hc)
  · rw [exec_cardInserted hp, if_neg hc]
    exact congrArg Host.Outcome.next (if_neg hc)
  · refine settles ((exec_bringUpDone hp ok capacity wp).trans (congrArg Host.Outcome.next (if_pos hc))) ?_
    rw [State.bringUpEnds, if_neg (not_not.2 hc), if_pos ⟨hok, h1, hmax⟩]
    rfl
  · refine settles ((exec_bringUpDone hp ok capacity wp).trans (congrArg Host.Outcome.next (if_pos hc))) ?_
    have hno : ¬ (ok = true ∧ 1 ≤ capacity ∧ capacity ≤ maxCapacity) := by
      rintro ⟨hok, h1, hmax⟩
      rcases hbad with h | h | h
      · simp [h] at hok
      · omega
      · exact absurd hmax (Nat.not_le.2 h)
    rw [State.bringUpEnds, if_neg (not_not.2 hc), if_neg hno]
    rfl
  · exact settles ((exec_bringUpLimitExpiry hp).trans (congrArg Host.Outcome.next (if_pos hc))) (if_pos hc)
  · rw [exec_bringUpDone hp, if_neg hc, State.bringUpEnds, if_pos hc]
  · rw [exec_bringUpLimitExpiry hp, if_neg hc, State.bringUpExpires, if_neg hc]

end Sys2Proof.Machine
end

section
/-! PROOFS. Caches that keep what is unsaved (04 R63, R69, R77, R84): how many sectors are non-clean, sector by sector, and what the
reactions of the cache and the failure of a run leave. -/

namespace Sys2Proof.Machine

/-! ## The count of non-clean sectors, compared sector by sector -/

theorem countP_le_of_getElem? {α : Type} {p : α → Bool} {as bs : List α}
    (h : ∀ (l : Nat) x, as[l]? = some x → p x = true → ∃ y, bs[l]? = some y ∧ p y = true) : as.countP p ≤ bs.countP p := by
  induction as generalizing bs with
  | nil => simp
  | cons a as ih =>
    cases bs with
    | nil =>
      have hnone : ∀ x ∈ a :: as, ¬ p x = true := fun x hx hp => by
        obtain ⟨l, hl⟩ := List.mem_iff_getElem?.1 hx
        obtain ⟨y, hy, -⟩ := h l x hl hp
        simp at hy
      simp [List.countP_eq_zero.2 hnone]
    | cons b bs =>
      have htail := ih (bs := bs) fun l x hx hp => by simpa using h (l + 1) x (by simpa using hx) hp
      have hhead : p a = true → p b = true := fun hp => by simpa using h 0 a (by simp) hp
      rw [List.countP_cons, List.countP_cons]
      cases hp : p a with
      | false => simp only [Bool.false_eq_true, if_false]; omega
      | true => simp only [hhead hp, if_true]; omega

theorem sum_map_le_of_getD {α : Type} {f : α → Nat} {d : α} (hd : f d = 0) {as bs : List α}
    (h : ∀ k, f (as.getD k d) ≤ f (bs.getD k d)) : (as.map f).sum ≤ (bs.map f).sum := by
  induction as generalizing bs with
  | nil => simp
  | cons a as ih =>
    have hhead := h 0
    cases bs with
    | nil =>
      have htail := ih (bs := []) fun k => by simpa using h (k + 1)
      simp only [List.getD_cons_zero, List.getD_nil, hd] at hhead
      simp only [List.map_nil, List.sum_nil] at htail
      simp only [List.map_cons, List.sum_cons, List.map_nil, List.sum_nil]
      omega
    | cons b bs =>
      have htail := ih (bs := bs) fun k => by simpa using h (k + 1)
      simp only [List.getD_cons_zero] at hhead
      simp only [List.map_cons, List.sum_cons]
      omega

/-- A cache with a non-clean sector wherever another has one counts no fewer of them. -/
theorem Cache.nonClean_le {c d : Cache}
    (h : ∀ k l x, c.sector k l = some x → x.state.nonClean = true → ∃ y, d.sector k l = some y ∧ y.state.nonClean = true) :
    c.nonClean ≤ d.nonClean :=
  sum_map_le_of_getD (d := Line.free) rfl fun k => countP_le_of_getElem? fun l x => h k l x

/-- A sector of each line changed without a change to what is non-clean leaves the count. -/
theorem Cache.nonClean_mapSectors (c : Cache) (i : Nat) {f : Nat → Sector → Sector}
    (hf : ∀ l x, (f l x).state.nonClean = x.state.nonClean) : (c.mapSectors i f).nonClean = c.nonClean := by
  have hflag : ∀ k l x, (if k = i then f l x else x).state.nonClean = x.state.nonClean := fun k l x => by
    split
    · exact hf l x
    · rfl
  refine le_antisymm (Cache.nonClean_le fun k l y hy hn => ?_) (Cache.nonClean_le fun k l x hx hn => ?_)
  · rw [Cache.sector_mapSectors, Option.map_eq_some_iff] at hy
    obtain ⟨x, hx, rfl⟩ := hy
    exact ⟨x, hx, (hflag k l x).symm.trans hn⟩
  · exact ⟨_, by rw [Cache.sector_mapSectors, hx]; rfl, (hflag k l x).trans hn⟩

theorem Cache.nonClean_of_sectors {c d : Cache} (h : ∀ k l, d.sector k l = c.sector k l) : d.nonClean = c.nonClean :=
  le_antisymm (Cache.nonClean_le fun k l x hx hn => ⟨x, (h k l).symm.trans hx, hn⟩)
    (Cache.nonClean_le fun k l x hx hn => ⟨x, (h k l).trans hx, hn⟩)

/-! ## What is unsaved is kept, and what is undisturbed stays where it is -/

/-- A line of a track keeps its track and its non-clean sectors non-clean. -/
def Cache.KeepsUnsaved (c d : Cache) : Prop :=
  ∀ k tr l x, (c.line k).tag = some tr → c.sector k l = some x → x.state.nonClean = true →
    (d.line k).tag = some tr ∧ ∃ y, d.sector k l = some y ∧ y.state.nonClean = true

theorem Cache.KeepsUnsaved.refl (c : Cache) : c.KeepsUnsaved c := fun _ _ _ x ht hx hn => ⟨ht, x, hx, hn⟩

theorem Cache.KeepsUnsaved.trans {c d e : Cache} (h : c.KeepsUnsaved d) (h' : d.KeepsUnsaved e) : c.KeepsUnsaved e := by
  intro k tr l x ht hx hn
  obtain ⟨ht', y, hy, hn'⟩ := h k tr l x ht hx hn
  exact h' k tr l y ht' hy hn'

theorem Cache.KeepsUnsaved.of_lines {c d : Cache} (h : d.lines = c.lines) : c.KeepsUnsaved d := by
  have hline : ∀ k, d.line k = c.line k := fun k => by rw [Cache.line, h, Cache.line]
  intro k tr l x ht hx hn
  exact ⟨by rwa [hline], x, by rwa [Cache.sector, hline], hn⟩

theorem Cache.KeepsUnsaved.holds {c d : Cache} (h : c.KeepsUnsaved d) (hc : c.HoldsUnsaved) : d.HoldsUnsaved := by
  obtain ⟨k, tr, l, x, ht, hx, hn⟩ := c.holdsUnsaved_iff.1 hc
  obtain ⟨ht', y, hy, hn'⟩ := h k tr l x ht hx hn
  exact d.holdsUnsaved_iff.2 ⟨k, tr, l, y, ht', hy, hn'⟩

/-- Every line keeps its track and its sectors, of which the non-clean ones stay non-clean and the DIRTY ones DIRTY; LRU order and bytes
are as they were. -/
structure Cache.Steady (c d : Cache) : Prop where
  tag : ∀ k, (d.line k).tag = (c.line k).tag
  sector : ∀ k l x, c.sector k l = some x → ∃ y, d.sector k l = some y ∧
    (x.state.nonClean = true → y.state.nonClean = true) ∧ (x.state = .dirty → y.state = .dirty)
  lru : d.lru = c.lru
  ram : d.ram = c.ram

theorem Cache.Steady.refl (c : Cache) : c.Steady c := ⟨fun _ => rfl, fun _ _ x hx => ⟨x, hx, id, id⟩, rfl, rfl⟩

theorem Cache.Steady.trans {c d e : Cache} (h : c.Steady d) (h' : d.Steady e) : c.Steady e where
  tag k := (h'.tag k).trans (h.tag k)
  sector k l x hx := by
    obtain ⟨y, hy, hn, hd⟩ := h.sector k l x hx
    obtain ⟨z, hz, hn', hd'⟩ := h'.sector k l y hy
    exact ⟨z, hz, hn' ∘ hn, hd' ∘ hd⟩
  lru := h'.lru.trans h.lru
  ram := h'.ram.trans h.ram

theorem Cache.Steady.keeps {c d : Cache} (h : c.Steady d) : c.KeepsUnsaved d := by
  intro k tr l x ht hx hn
  obtain ⟨y, hy, hn', -⟩ := h.sector k l x hx
  exact ⟨(h.tag k).trans ht, y, hy, hn' hn⟩

theorem Cache.Steady.nonClean_le {c d : Cache} (h : c.Steady d) : c.nonClean ≤ d.nonClean :=
  Cache.nonClean_le fun k l x hx hn => by
    obtain ⟨y, hy, hn', -⟩ := h.sector k l x hx
    exact ⟨y, hy, hn' hn⟩

theorem Cache.Dirtied.steady {c d : Cache} (h : c.Dirtied d) (hlru : d.lru = c.lru) (hram : d.ram = c.ram) : c.Steady d where
  tag k := (h.line k).tag
  sector k l x hx := by
    rcases h.sector hx with hy | hy
    · exact ⟨x, hy, id, id⟩
    · exact ⟨_, hy, fun _ => x.enter_dirty_nonClean, fun _ => Sector.enter_state _ _⟩
  lru := hlru
  ram := hram

/-! ## The cache's own reactions (R69 to R72) -/

section
variable {R : Cache → Cache → Prop} (refl : ∀ c, R c c) (trans : ∀ {c d e}, R c d → R d e → R c e)
  (lines : ∀ {c d : Cache}, d.lines = c.lines → R c d)
  (occupy : ∀ {c : Cache} {i}, ¬ (c.line i).Unsaved → ∀ g m tr o, R c (c.occupy g m i tr o))
  (activate : ∀ (c : Cache) g lead t i tr, R c (c.activate g lead t i tr))
include refl trans lines occupy activate

/-- A relation that the parts of an allocation meet holds between the cache before its reactions and the cache after them: they take lines
that hold nothing unsaved, activate a line, and otherwise leave the lines alone. -/
theorem react_relates (s : State) (old : Cache) : R s.cache (s.react old).cache := by
  have hforced : ∀ c : Cache, R c c.chooseForced := fun c => lines (by unfold Cache.chooseForced; split <;> rfl)
  have hretry : ∀ (c : Cache) g m lead t tr, R c (c.retryWaiting g m lead t tr) := fun c g m lead t tr => by
    unfold Cache.retryWaiting
    split
    · rename_i i hi
      exact trans (occupy (pickLine_saved hi) g m tr .demand) (activate _ g lead t i tr)
    · split
      · exact hforced c
      · split
        · exact refl c
        · exact trans (d := { c with forced := none }) (lines rfl) (hforced _)
  have hahead : ∀ (c : Cache) g m tr, R c (Cache.tryAhead g m c tr) := fun c g m tr => by
    unfold Cache.tryAhead
    split
    · exact refl c
    · split
      · exact refl c
      · rename_i i hi
        exact trans (occupy (pickLine_saved hi) g m tr .ahead) (lines rfl)
  have hwaiting : R s.cache (s.reactWaiting old).cache := by
    unfold State.reactWaiting
    split
    · exact refl _
    · split
      · exact hretry _ _ _ _ _ _
      · exact refl _
  have hlook : ∀ t : State, R t.cache t.lookAhead.cache := fun t => by
    unfold State.lookAhead
    split
    · change R t.cache (t.cache.considerAhead t.geom t.mount t.drive.lastIn)
      unfold Cache.considerAhead
      split
      · exact foldl_preserves (fun x => R t.cache x) _ _ _ (refl _) (fun x tr _ hx => trans hx (hahead x _ _ tr))
      · exact refl _
    · exact refl _
  unfold State.react State.reactAhead
  split
  · exact trans hwaiting (hlook _)
  · exact hwaiting

end

theorem Cache.keepsUnsaved_occupy {c : Cache} {i : Nat} (h : ¬ (c.line i).Unsaved) (g : Geometry) (m : Mount) (tr : Track) (o : Origin) :
    c.KeepsUnsaved (c.occupy g m i tr o) := by
  intro k tr' l x ht hx hn
  have hki : k ≠ i := by
    rintro rfl
    exact h ⟨by simp [ht], List.any_eq_true.2 ⟨x, List.mem_of_getElem? hx, hn⟩⟩
  have hline : (c.occupy g m i tr o).line k = c.line k := c.occupy_line_other g m hki tr o
  exact ⟨by rwa [hline], x, by rwa [Cache.sector, hline], hn⟩

/-- A line of which MISSING sectors become PENDING keeps what is unsaved (R28). -/
theorem Cache.keepsUnsaved_activate (c : Cache) (g : Geometry) (lead t i : Nat) (tr : Track) :
    c.KeepsUnsaved (c.activate g lead t i tr) := by
  intro k tr' l x ht hx hn
  have hk := Cache.line_lt ht
  let turn : Line → Line := fun a => { a with
    pinned := true, origin := .demand, sectors := a.sectors.map (fun x => if x.state = .missing then x.enter .pending else x) }
  have hline : (c.activate g lead t i tr).line k = if k = i then turn (c.line k) else c.line k :=
    c.line_modLine i k turn (.inr (by omega))
  rw [Cache.sector, hline]
  split
  · have hstay : ¬ x.state = .missing := fun hm => by simp [hm, SectorState.nonClean] at hn
    refine ⟨ht, x, ?_, hn⟩
    rw [Cache.sector] at hx
    simp [turn, hx, hstay]
  · exact ⟨ht, x, hx, hn⟩

/-- The cache's own reactions take no line that holds something unsaved. -/
theorem keepsUnsaved_react (s : State) (old : Cache) : s.cache.KeepsUnsaved (s.react old).cache :=
  react_relates .refl .trans .of_lines Cache.keepsUnsaved_occupy Cache.keepsUnsaved_activate s old

/-! ## The failure of a run (R77, R84, R157) -/

theorem Cache.steady_failFill (c : Cache) (g : Geometry) (i : Nat) (tr : Track) (r : Run) : c.Steady (c.failFill g i tr r) where
  tag k := c.tag_mapSectors i k _
  sector k l x hx := by
    refine ⟨_, by rw [Cache.failFill, Cache.sector_mapSectors, hx]; rfl, fun hn => ?_, fun hd => ?_⟩
    · have hp : ¬ x.state = .pending := fun hp => by simp [hp, SectorState.nonClean] at hn
      simpa [hp] using hn
    · simp [hd]
  lru := rfl
  ram := rfl

theorem Cache.nonClean_failFill (c : Cache) (g : Geometry) (i : Nat) (tr : Track) (r : Run) : (c.failFill g i tr r).nonClean = c.nonClean :=
  c.nonClean_mapSectors i fun l x => by
    by_cases h : x.state = .pending ∧ touches g tr r l = true
    · simp [h, Sector.enter_state, SectorState.nonClean]
    · simp [h]

theorem steady_recounted (s : State) (r : Run) : s.cache.Steady (s.recounted r).cache := by
  have hspoilt : s.cache.Steady (s.spoilt r).cache := (spoiled_dirtied s r).steady rfl rfl
  refine hspoilt.trans ⟨fun k => (counted_line (s.spoilt r) r k).1, fun k l x hx => ⟨x, ?_, id, id⟩, ?_, ?_⟩
  · exact (congrArg (fun xs : List Sector => xs[l]?) (counted_line (s.spoilt r) r k).2.1).trans hx
  · rw [State.recounted, counted_frame]
  · rw [State.recounted, counted_frame]

/-- A merge read that fails makes no sector DIRTY (R157). -/
theorem nonClean_recounted (s : State) {r : Run} (hk : r.kind ≠ .flush) : (s.recounted r).cache.nonClean = s.cache.nonClean := by
  refine Cache.nonClean_of_sectors fun k l => ?_
  have hlines : s.spoiled r = s.cache.lines := if_neg hk
  have hspoilt : (s.spoilt r).cache.line k = s.cache.line k := by rw [State.spoilt, hlines]
  refine (congrArg (fun xs : List Sector => xs[l]?) (counted_line (s.spoilt r) r k).2.1).trans ?_
  rw [hspoilt, Cache.sector]

end Sys2Proof.Machine
end

section
/-! PROOFS. The removal of the card (08 R141, R161, log 17): both slots emptied, the panel answered, and the mount between the failure of
the run and the departure of the card. -/

namespace Sys2Proof.Machine

/-! ## The card record, the reply and CARD_STATE (R141 steps 1 to 4) -/

/-- The state in which the run's failure and the card's departure are handed on: both slots empty, the panel answered, the card ABSENT and
CARD_STATE posted. -/
def State.ejected (s : State) : State :=
  let x := ({ s with inputs := { s.inputs with cardDetect := false } } : State).dropRuns.answerWaitingPanel .cardFault 0x03#8
  ({ x with card := x.card.removed } : State).postCard

theorem cardRemove_eq {s : State} (h : s.card.state ≠ .absent) : s.cardRemove = s.ejected.cardLost s.card.active := if_neg h

theorem exec_cardRemoved_present {s : State} (hp : s.powered = true) (h : s.card.state ≠ .absent) :
    exec .cardRemoved s = .next (State.settle s (s.ejected.cardLost s.card.active)) := by
  change execCardRemoved s = _
  rw [execCardRemoved, whenPowered_present _ hp, settlingWhen_taken _ (by simp [h]), cardRemove_eq h]

theorem exec_cardRemoved_absent {s : State} (hp : s.powered = true) (h : s.card.state = .absent) :
    exec .cardRemoved s = .next { s with inputs := { s.inputs with cardDetect := false } } := by
  change execCardRemoved s = _
  rw [execCardRemoved, whenPowered_present _ hp, settlingWhen_not_taken _ (by simp [h])]
  exact congrArg Host.Outcome.next (if_pos h)

/-- The last finished run once the one in the active slot has failed with CARD_GONE. -/
def State.lastGone (s : State) : Option Run :=
  match s.card.active with
  | some r => some { r with status := .failed .cardGone, cls := s.runClass r }
  | none => s.card.lastRun

/-- The link once waiting panel work has been answered CARD_FAULT. -/
def State.panelFaulted (s : State) : Link :=
  if s.card.panel.isSome then s.link.answer .cardFault 0x03#8 [] else s.link

/-- Of the cache a withdrawn write run's sectors and the flush queue have changed; the rest is the card's and the link's. -/
theorem ejected_frame (s : State) : ∃ lines flushQ limit,
    s.ejected = { s with
      inputs := { s.inputs with cardDetect := false }
      cache := { s.cache with lines := lines, flushQ := flushQ }
      card := { s.card with
        state := .absent, capacity := 0, wp := false, failCount := 0, bringUp := none, active := none, queued := none, panel := none
        lastRun := s.lastGone, blockLimit := limit }
      link := s.panelFaulted.post (.cardState .absent 0) } ∧
    s.cache.Dirtied { s.cache with lines := lines } ∧ ({ s.cache with lines := lines } : Cache).nonClean = s.cache.nonClean := by
  obtain ⟨limit, hended⟩ : ∃ limit, (match s.card.active with
      | some r => ({ s with inputs := { s.inputs with cardDetect := false } } : State).finishRun r (.failed .cardGone)
      | none => { s with inputs := { s.inputs with cardDetect := false } }) =
      { s with
        inputs := { s.inputs with cardDetect := false }
        card := { s.card with active := none, lastRun := s.lastGone, blockLimit := limit } } := by
    unfold State.lastGone
    cases ha : s.card.active with
    | some r => exact ⟨none, rfl⟩
    | none => exact ⟨s.card.blockLimit, by simp only; rw [← ha]⟩
  let x : State := { s with
    inputs := { s.inputs with cardDetect := false }
    card := { s.card with active := none, lastRun := s.lastGone, blockLimit := limit } }
  have hdrop : ({ s with inputs := { s.inputs with cardDetect := false } } : State).dropRuns = x.withdraw := congrArg State.withdraw hended
  obtain ⟨lines, flushQ, hwithdraw, hdirtied, -⟩ := withdraw_frame x
  have hclean := (tended_withdraw x).nonClean
  rw [hwithdraw] at hclean
  refine ⟨lines, flushQ, limit, ?_, hdirtied, hclean⟩
  rw [State.ejected, hdrop, hwithdraw, State.answerWaitingPanel, State.panelFaulted]
  cases hp : s.card.panel with
  | none =>
    simp only [x, hp, Option.isSome_none, Bool.false_eq_true, if_false]
    rfl
  | some w =>
    simp only [x, hp, Option.isSome_some, if_true]
    rfl

theorem panelFaulted_options (s : State) : s.panelFaulted.options = s.link.options := by
  unfold State.panelFaulted
  split
  · exact Link.answer_options _ _ _ _
  · rfl

theorem panelFaulted_notices_length (s : State) : s.panelFaulted.notices.length ≤ s.link.notices.length := by
  unfold State.panelFaulted
  split
  · exact Link.answer_notices_length _ _ _ _
  · exact le_refl _

/-- Waiting panel work has its reply (R161). -/
theorem panelFaulted_hasReply {s : State} {q : Request} (hp : s.card.panel ≠ none) (hq : s.link.executing = some q)
    (hm : q.made = false) (hd : q.drop = false) : s.panelFaulted.hasReply (0x80#8 + q.kind) q.tag [0x05#8, 0x03#8] := by
  rw [State.panelFaulted, if_pos (Option.isSome_iff_ne_none.2 hp)]
  exact Link.answer_hasReply hq hm hd _ _ _

/-! ## The mount between the removal and its end -/

/-- No run of the standing mount was in the active slot, or the cache cannot react: no line changes its track. -/
def State.Calm (s : State) : Prop :=
  s.Quiet ∨ ∀ r, s.card.active = some r → r.kind = .panelRead ∨ r.kind = .panelWrite ∨ s.runEnded r = true

/-- A write run was in the active slot. -/
def State.Writing (s : State) : Prop := ∃ r, s.card.active = some r ∧ r.kind = .flush

/-- The mount of `s` still stands in `t`: at most `k` notices have been posted, what was unsaved is held, and an armed FLUSH_DONE is armed
yet or has been posted. -/
structure State.Awaits (k : Nat) (s t : State) : Prop where
  mount : t.mount = s.mount
  drive : t.drive = s.drive
  cap : t.cap = s.cap
  defects : t.cache.defects = s.cache.defects
  length : t.cache.lines.length = s.cache.lines.length
  options : t.link.options = s.link.options
  notices : t.link.notices.length ≤ s.link.notices.length + k
  quiet : s.Quiet → t.Quiet
  armed : s.cache.armed = true → s.link.options.noticeMask.getLsbD 6 = true → s.link.notices.length ≤ 4 →
    t.cache.armed = true ∨ t.link.hasNotice (.flushDone false)
  keeps : s.cache.KeepsUnsaved t.cache
  clean : s.cache.nonClean = 0 → (∀ r, s.card.active = some r → r.kind ≠ .flush ∧ r.kind ≠ .mergeRead) → t.cache.nonClean = 0
  steady : s.Calm → s.cache.Steady t.cache
  count : s.Calm → ¬ s.Writing → t.cache.nonClean = s.cache.nonClean

/-- The mount of `s` is LOST in `t`: its lines are kept, the sector being written is DIRTY, and MOUNT_STATE has reported the non-clean
sectors held (R56, R58). -/
structure State.Forsaken (s t : State) : Prop extends s.IsLost t where
  keeps : s.cache.KeepsUnsaved t.cache
  steady : s.Calm → s.cache.Steady t.cache
  written : ∀ i tr x, s.WritesAt i s.cap.logical → (s.cache.line i).tag = some tr → s.cache.sector i s.cap.logical = some x →
    s.Calm ∨ x.state.nonClean = true → ∃ y, t.cache.sector i s.cap.logical = some y ∧ y.state = .dirty
  reported : s.link.options.noticeMask.getLsbD 1 = true → s.link.notices.length ≤ 4 → ∃ n, t.link.hasNotice (.mountState .lost n) ∧
    n ≤ t.cache.nonClean ∧ (¬ s.Writing → n = t.cache.nonClean) ∧ (s.Calm → s.cache.nonClean ≤ n) ∧
    (s.Calm → ¬ s.Writing → s.cap.st ≠ .hunt → s.cap.st ≠ .sectorData → n = s.cache.nonClean)

/-- The mount of `s` has ended in UNMOUNTED in `t`; LRU order and bytes are as they were. -/
structure State.Dismounted (s t : State) : Prop extends s.IsGone t where
  kept : s.Calm → t.cache.lru = s.cache.lru ∧ t.cache.ram = s.cache.ram

/-- A cache that cannot react cannot when mount, waiting track and options are the same (R70, R71). -/
theorem State.Quiet.same {s t : State} (h : s.Quiet) (hm : t.mount = s.mount) (hw : t.cache.waiting = s.cache.waiting)
    (ho : t.link.options = s.link.options) : t.Quiet :=
  h.imp (fun h => by rwa [State.isMounted, hm]) (fun ⟨h1, h2⟩ => ⟨hw.trans h1, by rwa [ho]⟩)

theorem awaits_ejected (s : State) : s.Awaits 1 s.ejected := by
  obtain ⟨lines, flushQ, limit, heq, hdirtied, hclean⟩ := ejected_frame s
  have hlen := s.panelFaulted.post_notices_length (.cardState .absent 0)
  have hlen' := panelFaulted_notices_length s
  have hsame := hdirtied.steady rfl rfl
  have hsteady : s.cache.Steady { s.cache with lines := lines, flushQ := flushQ } := ⟨hsame.tag, hsame.sector, rfl, rfl⟩
  have hoptions := (Link.post_options s.panelFaulted (.cardState .absent 0)).trans (panelFaulted_options s)
  rw [heq]
  exact {
    mount := rfl, drive := rfl, cap := rfl, defects := rfl
    length := hdirtied.length
    options := hoptions
    notices := by change (s.panelFaulted.post _).notices.length ≤ _; omega
    quiet := fun h => h.same rfl rfl hoptions
    armed := fun ha _ _ => .inl ha
    keeps := hsteady.keeps
    clean := fun hc _ => hclean.trans hc
    steady := fun _ => hsteady
    count := fun _ _ => hclean }

theorem State.Awaits.withFree {k : Nat} {s t : State} (h : s.Awaits k t) (n : Nat) : s.Awaits k { t with free := n } := { h with }

/-- The cache's own reactions leave a standing mount standing; a cache that cannot react stays as it is. -/
theorem State.Awaits.react {k : Nat} {s t : State} (h : s.Awaits k t) (hq : s.Calm → s.Quiet) (old : Cache) :
    s.Awaits k (t.react old) := by
  obtain ⟨hdefects, -, harmed⟩ := react_marks t old
  have hrecalls := recalls_react t old
  have hkeeps := h.keeps.trans (keepsUnsaved_react t old)
  have hstill : s.Calm → (t.react old).cache = t.cache := fun hc => congrArg State.cache (react_quiet t old (h.quiet (hq hc)))
  have hquiet : s.Quiet → (t.react old).Quiet := fun hs => by
    rw [react_quiet t old (h.quiet hs)]
    exact h.quiet hs
  rw [react_eq] at hquiet ⊢
  exact { h with
    defects := hdefects.trans h.defects
    length := hrecalls.length.trans h.length
    quiet := hquiet
    armed := fun ha hm hl => (h.armed ha hm hl).imp (fun h => harmed.trans h) id
    keeps := hkeeps
    clean := fun hc hr => hrecalls.nonClean (h.clean hc hr)
    steady := fun hc => (hstill hc).symm ▸ h.steady hc
    count := fun hc hw => (congrArg Cache.nonClean (hstill hc)).trans (h.count hc hw) }

/-! ## The failure of the run that stood in the active slot (R77, R84, R157) -/

/-- `u` is `t` once its owner has taken the failure of `r`, the mount left as it is: an armed FLUSH_DONE stays armed or is posted. -/
structure State.Suffers (r : Run) (t u : State) : Prop where
  mount : u.mount = t.mount
  drive : u.drive = t.drive
  cap : u.cap = t.cap
  defects : u.cache.defects = t.cache.defects
  length : u.cache.lines.length = t.cache.lines.length
  waiting : u.cache.waiting = t.cache.waiting
  steady : t.cache.Steady u.cache
  count : r.kind ≠ .flush → u.cache.nonClean = t.cache.nonClean
  link : ∃ bs, bs.length ≤ 9 ∧ u.link = t.link.postAll bs ∧ (t.cache.armed = true → u.cache.armed = true ∨ .flushDone false ∈ bs)

theorem suffers_recounted (r : Run) (t : State) : t.Suffers r (t.recounted r) := by
  have hrest := recounted_cache t r
  have harmed : (t.recounted r).cache.armed = t.cache.armed := by rw [hrest]
  exact {
    mount := rfl, drive := rfl, cap := rfl
    defects := by rw [hrest]
    length := (recounted_retains t r).length
    waiting := by rw [hrest]
    steady := steady_recounted t r
    count := nonClean_recounted t
    link := ⟨[], by simp, rfl, fun ha => .inl (harmed.trans ha)⟩ }

theorem suffers_failed (r : Run) (t : State) (flushQ : List Nat) : t.Suffers r (t.failed r flushQ) := by
  have h := suffers_recounted r t
  refine { h with steady := ⟨h.steady.tag, h.steady.sector, h.steady.lru, h.steady.ram⟩, link := ⟨t.failNotices r, failNotices_length t r, rfl, ?_⟩ }
  intro ha
  rw [State.failNotices, if_pos ha]
  exact .inr (List.mem_append_left _ (List.mem_singleton_self _))

/-- The failure of a run leaves the mount as it is, but for the third one of a line in a mount that stands (R55). -/
theorem handFailure_suffers {r : Run} (hk : r.kind ≠ .panelRead ∧ r.kind ≠ .panelWrite) (t : State) (e : RunError) :
    t.Suffers r (t.handFailure r e) ∨
    (r.kind = .flush ∨ r.kind = .mergeRead) ∧ t.Stands ∧ t.handFailure r e = (t.recounted r).enterLost.postWritten (t.writtenTracks r) := by
  rcases handFailure_cases hk t e with ⟨buf, h⟩ | ⟨-, i, tr, bs, hbs, h⟩ | ⟨hw, -, h3, h⟩ | ⟨-, -, flushQ, h, -⟩
  · rw [h]
    exact .inl ⟨rfl, rfl, rfl, rfl, rfl, rfl, .refl _, fun _ => rfl, [], by simp, rfl, .inl⟩
  · rw [h]
    exact .inl ⟨rfl, rfl, rfl, rfl, List.length_modify _ _ _, rfl, Cache.steady_failFill _ _ _ _ _,
      fun _ => Cache.nonClean_failFill _ _ _ _ _, bs, by omega, rfl, .inl⟩
  · exact .inr ⟨hw, h3.1, h⟩
  · rw [h]
    exact .inl (suffers_failed r t flushQ)

theorem State.Awaits.suffers {s t u : State} {r : Run} (h : s.Awaits 1 t) (hu : t.Suffers r u) (ha : s.card.active = some r) :
    s.Awaits 10 u := by
  obtain ⟨bs, hbs, hlink, harmed⟩ := hu.link
  have hnotices := h.notices
  have hlen := t.link.postAll_notices_length bs
  have hoptions : u.link.options = t.link.options := by rw [hlink, Link.postAll_options]
  exact {
    mount := hu.mount.trans h.mount
    drive := hu.drive.trans h.drive
    cap := hu.cap.trans h.cap
    defects := hu.defects.trans h.defects
    length := hu.length.trans h.length
    options := hoptions.trans h.options
    notices := by rw [hlink]; omega
    quiet := fun hq => (h.quiet hq).same hu.mount hu.waiting hoptions
    armed := fun hs hm hl => by
      rw [hlink]
      rcases h.armed hs hm hl with ht | ht
      · refine (harmed ht).imp id fun hmem => Link.postAll_brings (by simp) hmem (h.options ▸ hm) (by omega)
      · exact .inr (Link.postAll_hasNotice (by simp) ht bs)
    keeps := h.keeps.trans hu.steady.keeps
    clean := fun hc hr => (hu.count (hr r ha).1).trans (h.clean hc hr)
    steady := fun hc => (h.steady hc).trans hu.steady
    count := fun hc hw => (hu.count fun hk => hw ⟨r, ha, hk⟩).trans (h.count hc hw) }

/-! ## The entry to LOST and the end in UNMOUNTED (R53 to R56) -/

theorem withdrawMountRun_tended (s : State) : s.cache.Tended s.withdrawMountRun.cache := by
  unfold State.withdrawMountRun
  split
  · split
    · exact .refl _
    · exact tended_withdraw s
  · exact .refl _

/-- After the abandoned capture an entry to LOST makes FLUSH sectors DIRTY, and changes no other sector. -/
theorem enterLost_abandoned (s : State) :
    s.captureAbandon.cache.Dirtied s.enterLost.cache ∧ s.enterLost.cache.nonClean = s.captureAbandon.cache.nonClean := by
  obtain ⟨rot, queued, -, hleave⟩ := leaveMounted_frame s (st := .lost) (by decide)
  let left : State := { s.leaveMounted .lost with cache := { (s.leaveMounted .lost).cache with flushQ := [] } }
  obtain ⟨free, bs, hposted, -⟩ := lostNotices_posted left.withdrawMountRun
  have hlost : s.enterLost.cache = { left.withdrawMountRun.cache with armed := false } := congrArg State.cache hposted
  have hmounted : left.isMounted = false := by
    rw [State.isMounted_eq_false_iff]
    exact ne_of_eq_of_ne (leaveMounted_mount s .lost) (by decide)
  obtain ⟨queued', lines, -, hwithdraw, hdirtied⟩ := withdrawMountRun_outside_mounted hmounted
  have hleft : left.cache = { s.captureAbandon.cache.leaveMounted with flushQ := [] } := by
    change ({ (s.leaveMounted .lost).cache with flushQ := [] } : Cache) = _
    rw [hleave]
    rfl
  have hsectors : ∀ k l, left.cache.sector k l = s.captureAbandon.cache.sector k l := fun k l => by
    rw [hleft]
    exact Cache.sector_leaveMounted _ k l
  have habandoned : s.captureAbandon.cache.Dirtied left.cache := by
    rw [hleft]
    have h := Cache.dirtied_unpinAll s.captureAbandon.cache
    exact ⟨h.length, h.line⟩
  constructor
  · rw [hlost, hwithdraw]
    have h := habandoned.trans hdirtied
    exact ⟨h.length, h.line⟩
  · rw [hlost, ← Cache.nonClean_of_sectors hsectors, ← (withdrawMountRun_tended left).nonClean]
    rfl

/-- A mount that still stands is LOST with what it holds (R56, R58, R81, R125). -/
theorem State.Awaits.enterLost {k : Nat} {s t : State} (h : s.Awaits k t) (hk : k ≤ 10) : s.Forsaken t.enterLost := by
  obtain ⟨hdirtied, hcount⟩ := enterLost_abandoned t
  obtain ⟨free, rot, queued, lines, bs, hlost, -, hdirty, hbs⟩ := enterLost_frame t
  have habandoned : t.abandoned = s.abandoned := by rw [State.abandoned, h.cap, h.drive]; rfl
  have hsame := hdirty.steady rfl rfl
  have hsteady : t.cache.Steady t.enterLost.cache := by
    rw [hlost]
    exact ⟨hsame.tag, hsame.sector, rfl, rfl⟩
  have hnotices := h.notices
  have hposted := lost_notices (l := t.link) hbs
  have hn : ({ t.cache with lines := lines } : Cache).nonClean = t.enterLost.cache.nonClean := by rw [hlost]; rfl
  refine { toIsLost := ?_, keeps := h.keeps.trans hsteady.keeps, steady := fun hc => (h.steady hc).trans hsteady,
           written := fun i tr x hw ht hx hor => ?_, reported := fun hm hl => ?_ }
  · rw [hlost]
    refine ⟨congrArg (fun m : Mount => { m with state := .lost }) h.mount, congrArg (fun d : Drive => { d with latch := true }) h.drive,
      (captureAbandon_st t).trans habandoned, h.defects, rfl, rfl, fun ha hm hl => ?_,
      fun hm hl => ⟨_, (hposted (by omega)).2 (h.options ▸ hm)⟩⟩
    rcases h.armed ha hm hl with harmed | hnotice
    · exact (hposted (by omega)).1 harmed (h.options ▸ hm)
    · exact Link.postAll_hasNotice (by simp) hnotice bs
  · obtain ⟨y, hy⟩ : ∃ y, t.cache.sector i s.cap.logical = some y := by
      rcases hor with hc | hn
      · obtain ⟨y, hy, -⟩ := (h.steady hc).sector i _ x hx
        exact ⟨y, hy⟩
      · obtain ⟨-, y, hy, -⟩ := h.keeps i tr _ x ht hx hn
        exact ⟨y, hy⟩
    have hwrites : t.WritesAt i s.cap.logical := by rw [State.WritesAt, h.cap]; exact hw
    have hab : t.captureAbandon.cache.sector i s.cap.logical = some (y.enter .dirty) := by
      rw [captureAbandon_sector_written hwrites, hy, Option.map_some]
    exact ⟨_, hdirtied.of_dirty hab (Sector.enter_state _ _), Sector.enter_state _ _⟩
  · refine ⟨t.enterLost.cache.nonClean, ?_, le_refl _, fun _ => rfl, fun hc => ((h.steady hc).trans hsteady).nonClean_le,
      fun hc hw hh hd => ?_⟩
    · rw [← hn, hlost]
      exact (hposted (by omega)).2 (h.options ▸ hm)
    · rw [hcount, captureAbandon_cache_same (h.cap ▸ hh) (h.cap ▸ hd), h.count hc hw]

/-- A mount that still stands without a non-clean sector ends in UNMOUNTED (R53, R54, R58). -/
theorem State.Awaits.endMount {k : Nat} {s t : State} (h : s.Awaits k t) (hk : k ≤ 10) :
    s.Dismounted ((t.leaveMounted .unmounted).endMount 0) := by
  obtain ⟨rot, queued, -, hleave⟩ := leaveMounted_frame t (st := .unmounted) (by decide)
  have habandoned : t.abandoned = s.abandoned := by rw [State.abandoned, h.cap, h.drive]; rfl
  have hlines : (t.captureAbandon.cache.leaveMounted).lines.length = s.cache.lines.length :=
    (List.length_map _).trans ((captureAbandon_lines_length t).trans h.length)
  have hcleared : Mount.cleared t.mount.serial = Mount.cleared s.mount.serial := by rw [h.mount]
  have hnotices := h.notices
  rw [hleave]
  refine { toIsGone := ⟨hcleared, congrArg (fun d : Drive => { d with latch := true }) h.drive, (captureAbandon_st t).trans habandoned,
             ?_, rfl, rfl, rfl, fun hm hl => ?_⟩, kept := fun hc => ⟨?_, ?_⟩ }
  · change (t.captureAbandon.cache.leaveMounted).lines.map (fun _ => Line.free) = _
    rw [List.map_const', List.map_const', hlines]
  · exact Link.hasNotice_post (l := t.link) _ (by simp) (h.options ▸ hm) (by omega)
  · exact (captureAbandon_lru t).trans (h.steady hc).lru
  · exact (captureAbandon_ram t).trans (h.steady hc).ram

/-- What is posted after a loss leaves it as it is. -/
theorem State.Forsaken.postWritten {s t : State} (h : s.Forsaken t) (tracks : List Track) : s.Forsaken (t.postWritten tracks) := by
  rw [postWritten_eq]
  exact { h with
    flushDone := fun ha hm hl => Link.postAll_hasNotice (by simp) (h.flushDone ha hm hl) _
    mountState := fun hm hl => (h.mountState hm hl).imp fun n hn => Link.postAll_hasNotice (by simp) hn _
    reported := fun hm hl => (h.reported hm hl).imp fun n ⟨hn, hrest⟩ => ⟨Link.postAll_hasNotice (by simp) hn _, hrest⟩ }

/-- The run that stood in the active slot was a write run or a merge read. -/
def State.WritesBack (s : State) : Prop := ∃ r, s.card.active = some r ∧ (r.kind = .flush ∨ r.kind = .mergeRead)

theorem not_writesBack_iff (s : State) : ¬ s.WritesBack ↔ ∀ r, s.card.active = some r → r.kind ≠ .flush ∧ r.kind ≠ .mergeRead := by
  simp [State.WritesBack]

/-- The failure of the run leaves the mount standing, or takes it to LOST as the third one of a line (R55). -/
theorem State.Awaits.handFailure {s t : State} {r : Run} (h : s.Awaits 1 t) (hk : r.kind ≠ .panelRead ∧ r.kind ≠ .panelWrite)
    (ha : s.card.active = some r) (e : RunError) :
    s.Awaits 10 (t.handFailure r e) ∨ s.Forsaken (t.handFailure r e) ∧ s.WritesBack := by
  rcases handFailure_suffers hk t e with hu | ⟨hw, -, heq⟩
  · exact .inl (h.suffers hu ha)
  · rw [heq]
    exact .inr ⟨((h.suffers (suffers_recounted r t) ha).enterLost (le_refl _)).postWritten _, r, ha, hw⟩

theorem State.Forsaken.handFailure {s t : State} {r : Run} (h : s.Forsaken t) (hk : r.kind ≠ .panelRead ∧ r.kind ≠ .panelWrite)
    (ha : s.card.active = some r) (e : RunError) : s.Forsaken (t.handFailure r e) := by
  rcases handFailure_suffers hk t e with hu | ⟨-, hst, -⟩
  · have hle := hu.steady.nonClean_le
    refine { toIsLost := h.toIsLost.handFailure hk e, keeps := h.keeps.trans hu.steady.keeps
             steady := fun hc => (h.steady hc).trans hu.steady, written := fun i tr x hw ht hx hor => ?_, reported := fun hm hl => ?_ }
    · obtain ⟨y, hy, hd⟩ := h.written i tr x hw ht hx hor
      obtain ⟨z, hz, -, hd'⟩ := hu.steady.sector i _ y hy
      exact ⟨z, hz, hd' hd⟩
    · obtain ⟨n, hn, hmax, heq, hmin, hexact⟩ := h.reported hm hl
      exact ⟨n, (reports_handFailure hk t e).hasNotice (by simp) hn, hmax.trans hle,
        fun hw => (heq hw).trans (hu.count fun hf => hw ⟨r, ha, hf⟩).symm, hmin, hexact⟩
  · exact absurd hst h.not_stands

theorem State.Dismounted.handFailure {s t : State} {r : Run} (h : s.Dismounted t) (hk : r.kind ≠ .panelRead ∧ r.kind ≠ .panelWrite)
    (e : RunError) : s.Dismounted (t.handFailure r e) := by
  rcases handFailure_suffers hk t e with hu | ⟨-, hst, -⟩
  · refine { toIsGone := h.toIsGone.handFailure hk e, kept := fun hc => ?_ }
    obtain ⟨hlru, hram⟩ := h.kept hc
    exact ⟨hu.steady.lru.trans hlru, hu.steady.ram.trans hram⟩
  · exact absurd hst h.not_stands

/-! ## The departure of the card (R54, R141) -/

/-- What becomes of a standing mount whose card is removed: LOST or UNMOUNTED, LOST when something is unsaved, and UNMOUNTED when no sector
is non-clean but for a run that writes back. -/
structure State.Parts (s u : State) : Prop where
  outcome : s.Forsaken u ∨ s.Dismounted u
  unsaved : s.cache.HoldsUnsaved → s.Forsaken u
  clean : s.cache.nonClean = 0 → ¬ s.WritesBack → s.Dismounted u

theorem State.Parts.not_stands {s u : State} (h : s.Parts u) : ¬ u.Stands :=
  h.outcome.elim (·.not_stands) (·.not_stands)

theorem State.Parts.handFailure {s t : State} {r : Run} (h : s.Parts t) (hk : r.kind ≠ .panelRead ∧ r.kind ≠ .panelWrite)
    (ha : s.card.active = some r) (e : RunError) : s.Parts (t.handFailure r e) :=
  ⟨h.outcome.imp (·.handFailure hk ha e) (·.handFailure hk e), fun hu => (h.unsaved hu).handFailure hk ha e,
    fun hc hw => (h.clean hc hw).handFailure hk e⟩

theorem State.Awaits.departs {k : Nat} {s t : State} (h : s.Awaits k t) (hk : k ≤ 10) (hst : s.Stands) : s.Parts t.cardDeparts := by
  have hstands : t.Stands := by rw [State.Stands, h.mount]; exact hst
  rw [cardDeparts_stands hstands]
  by_cases hn : t.cache.nonClean = 0
  · rw [if_pos hn]
    exact ⟨.inr (h.endMount hk), fun hu => absurd hn (h.keeps.holds hu).nonClean, fun _ _ => h.endMount hk⟩
  · rw [if_neg hn]
    exact ⟨.inl (h.enterLost hk), fun _ => h.enterLost hk, fun hc hw => absurd (h.clean hc ((not_writesBack_iff s).1 hw)) hn⟩

theorem State.Forsaken.departs {s t : State} (h : s.Forsaken t) (hw : s.WritesBack) : s.Parts t.cardDeparts := by
  rw [cardDeparts_fallen h.not_stands]
  exact ⟨.inl h, fun _ => h, fun _ hno => absurd hw hno⟩

/-- The failure first, then the departure; the cache may have reacted between them. -/
theorem State.Awaits.fails_departs {s t : State} {r : Run} (h : s.Awaits 1 t) (hst : s.Stands)
    (hk : r.kind ≠ .panelRead ∧ r.kind ≠ .panelWrite) (ha : s.card.active = some r) (e : RunError) :
    s.Parts (t.handFailure r e).cardDeparts ∧
    ∀ old, (s.Calm → s.Quiet) → s.Parts ((t.handFailure r e).react old).cardDeparts := by
  rcases h.handFailure hk ha e with hu | ⟨hu, hw⟩
  · exact ⟨hu.departs (le_refl _) hst, fun old hq => (hu.react hq old).departs (le_refl _) hst⟩
  · refine ⟨hu.departs hw, fun old _ => ?_⟩
    rw [react_of_not_stands hu.not_stands]
    exact hu.departs hw

theorem State.Awaits.departs_fails {s t : State} {r : Run} (h : s.Awaits 1 t) (hst : s.Stands)
    (hk : r.kind ≠ .panelRead ∧ r.kind ≠ .panelWrite) (ha : s.card.active = some r) (e : RunError) (old : Cache) :
    s.Parts ((t.cardDeparts.handFailure r e).react old) := by
  have hu := (h.departs (by decide) hst).handFailure hk ha e
  rwa [react_of_not_stands hu.not_stands]

/-! ## The orders in which failure and departure are taken (log 17) -/

theorem cardLost_none (s : State) : s.cardLost none = s.cardDeparts := rfl

theorem cardLost_panel (s : State) {r : Run} (h : r.OfPanel) : s.cardLost (some r) = s.cardDeparts := if_pos (r.isPanel_iff.2 h)

theorem cardLost_in_order {s : State} {r : Run} (hk : ¬ r.OfPanel) (h : s.runEnded r = true ∨ ¬ s.Stands) :
    s.cardLost (some r) = (s.handFailure r .cardGone).cardDeparts := by
  refine (if_neg (mt r.isPanel_iff.1 hk)).trans (if_pos ?_)
  rwa [Bool.or_eq_true, Bool.not_eq_true', mountStands_eq_false_iff]

theorem cardLost_in_either_order {s : State} {r : Run} (hk : ¬ r.OfPanel) (hr : s.runEnded r = false) (hst : s.Stands) :
    let v := { s with free := s.free + 1 }
    s.cardLost (some r) = ((v.handFailure r .cardGone).react v.cache).cardDeparts ∨
      s.cardLost (some r) = (v.cardDeparts.handFailure r .cardGone).react v.cardDeparts.cache := by
  have hfree : s.cardLost (some r) = inFreeOrder [reacting (fun t => t.handFailure r .cardGone), State.cardDeparts] s := by
    refine (if_neg (mt r.isPanel_iff.1 hk)).trans (if_neg ?_)
    rw [Bool.or_eq_true, Bool.not_eq_true', mountStands_eq_false_iff]
    simp [hr, hst]
  rw [hfree]
  exact inFreeOrder_two _ _ _

theorem ejected_mount (s : State) : s.ejected.mount = s.mount := by
  obtain ⟨lines, flushQ, limit, heq, -⟩ := ejected_frame s
  rw [heq]

theorem ejected_stands (s : State) : s.ejected.Stands ↔ s.Stands := by rw [State.Stands, ejected_mount]; rfl

theorem ejected_runEnded (s : State) (r : Run) : s.ejected.runEnded r = s.runEnded r := by rw [State.runEnded, ejected_mount]; rfl

/-- A standing mount whose card is removed, whatever run stood in the active slot and whatever the order. -/
theorem parts_cardLost {s : State} (hst : s.Stands) : s.Parts (s.ejected.cardLost s.card.active) := by
  have h := awaits_ejected s
  have hv : s.ejected.Stands := (ejected_stands s).2 hst
  cases ha : s.card.active with
  | none => exact cardLost_none _ ▸ h.departs (by decide) hst
  | some r =>
    by_cases hk : r.OfPanel
    · exact cardLost_panel _ hk ▸ h.departs (by decide) hst
    · by_cases hr : s.ejected.runEnded r = true
      · exact cardLost_in_order hk (.inl hr) ▸ (h.fails_departs hst (Run.not_panel hk) ha _).1
      · have hcalm : s.Calm → s.Quiet := fun hc => hc.resolve_right fun hall => by
          rcases hall r ha with hp | hp | hp
          · exact hk (.inl hp)
          · exact hk (.inr hp)
          · exact hr ((ejected_runEnded s r).trans hp)
        rcases cardLost_in_either_order hk (Bool.eq_false_iff.2 hr) hv with heq | heq
        · rw [heq]
          exact ((h.withFree _).fails_departs hst (Run.not_panel hk) ha _).2 _ hcalm
        · rw [heq]
          exact (h.withFree _).departs_fails hst (Run.not_panel hk) ha _ _

/-- A mount that does not stand is left alone. -/
theorem cardLost_mount_fallen {s : State} (hst : ¬ s.Stands) (active : Option Run) : (s.cardLost active).mount = s.mount := by
  cases active with
  | none => rw [cardLost_none, cardDeparts_fallen hst]
  | some r =>
    by_cases hk : r.OfPanel
    · rw [cardLost_panel _ hk, cardDeparts_fallen hst]
    · have hmount := (handFailure_fallen (Run.not_panel hk) hst .cardGone).mount
      have hst' : ¬ (s.handFailure r .cardGone).Stands := by rwa [State.Stands, hmount]
      rw [cardLost_in_order hk (.inr hst), cardDeparts_fallen hst', hmount]

/-- Failure and departure post notices, and of the card record they change no more than the merge buffer once both slots are empty. -/
theorem reports_cardLost (s : State) (active : Option Run) : s.Reports 12 (s.cardLost active) := by
  have more : ∀ {j t}, s.Reports j t → j ≤ 12 → s.Reports 12 t := fun ⟨hc, hq, bs, hbs, hl⟩ hj => ⟨hc, hq, bs, hbs.trans hj, hl⟩
  cases active with
  | none => exact more (reports_cardDeparts s) (by decide)
  | some r =>
    by_cases hk : r.OfPanel
    · exact cardLost_panel s hk ▸ more (reports_cardDeparts s) (by decide)
    · have hfail := fun t : State => reports_handFailure (Run.not_panel hk) t .cardGone
      by_cases h : s.runEnded r = true ∨ ¬ s.Stands
      · exact cardLost_in_order hk h ▸ (hfail s).trans (reports_cardDeparts _)
      · obtain ⟨hr, hst⟩ := not_or.1 h
        have hfree : s.Reports 0 { s with free := s.free + 1 } := ⟨rfl, .inl rfl, [], le_refl _, rfl⟩
        rcases cardLost_in_either_order hk (Bool.eq_false_iff.2 hr) (not_not.1 hst) with heq | heq
        · rw [heq]
          exact hfree.trans ((hfail _).trans ((reports_react _ _).trans (reports_cardDeparts _)))
        · rw [heq]
          exact hfree.trans ((reports_cardDeparts _).trans ((hfail _).trans (reports_react _ _)))

/-- The outcome for a standing mount, part by part. -/
theorem State.Parts.spec {s u : State} (h : s.Parts u) :
    let unsaved := fun x : Sector => x.state = .dirty ∨ x.state = .capture ∨ x.state = .flush
    let reports := s.link.options.noticeMask.getLsbD 1 = true ∧ s.link.notices.length ≤ 4
    (u.mount = Mount.cleared s.mount.serial ∧ u.cache.lines = s.cache.lines.map (fun _ => Line.free) ∧ u.cache.defects = [] ∧
        (reports → u.link.hasNotice (.mountState .unmounted 0)) ∨
      u.mount = { s.mount with state := .lost } ∧ u.cache.defects = s.cache.defects ∧
        (s.cache.armed = true → s.link.options.noticeMask.getLsbD 6 = true → s.link.notices.length ≤ 4 →
          u.link.hasNotice (.flushDone false)) ∧
        (s.Calm → ∀ k, (u.cache.line k).tag = (s.cache.line k).tag) ∧
        (∀ k tr l x, (s.cache.line k).tag = some tr → s.cache.sector k l = some x → unsaved x →
          (u.cache.line k).tag = some tr ∧ ∃ y, u.cache.sector k l = some y ∧ unsaved y) ∧
        (∀ i tr x, (s.cap.st = .hunt ∨ s.cap.st = .sectorData) → s.cap.line = some i → (s.cache.line i).tag = some tr →
          s.cache.sector i s.cap.logical = some x → s.Calm ∨ unsaved x → ∃ y, u.cache.sector i s.cap.logical = some y ∧ y.state = .dirty) ∧
        (reports → ∃ n, u.link.hasNotice (.mountState .lost n) ∧ n ≤ u.cache.nonClean ∧ (¬ s.Writing → n = u.cache.nonClean) ∧
          (s.Calm → s.cache.nonClean ≤ n) ∧
          (s.Calm → ¬ s.Writing → s.cap.st ≠ .hunt → s.cap.st ≠ .sectorData → n = s.cache.nonClean))) ∧
    ((∃ k tr l x, (s.cache.line k).tag = some tr ∧ s.cache.sector k l = some x ∧ unsaved x) → u.mount.state = .lost) ∧
    ((∀ k l x, s.cache.sector k l = some x → ¬ unsaved x) →
      (∀ r, s.card.active = some r → r.kind ≠ .flush ∧ r.kind ≠ .mergeRead) → u.mount.state = .unmounted) ∧
    u.cache.flushQ = [] ∧ (s.Calm → u.cache.lru = s.cache.lru ∧ u.cache.ram = s.cache.ram) ∧
    u.cache.armed = false ∧ u.drive = { s.drive with latch := true } ∧ u.cap.st = s.abandoned := by
  intro unsaved reports
  have hunsaved : ∀ x : Sector, x.state.nonClean = true ↔ unsaved x := fun x => SectorState.nonClean_iff _
  refine ⟨h.outcome.symm.imp (fun h => ⟨h.mount, h.lines, h.defects, fun hr => h.mountState hr.1 hr.2⟩)
      (fun h => ⟨h.mount, h.defects, h.flushDone, fun hc => (h.steady hc).tag, fun k tr l x ht hx hu => ?_, fun i tr x hs hi ht hx hor => ?_,
        fun hr => h.reported hr.1 hr.2⟩), fun ⟨k, tr, l, x, ht, hx, hu⟩ => ?_, fun hc hw => ?_, h.outcome.elim (·.flushQ) (·.flushQ),
    fun hc => h.outcome.elim (fun h => ⟨(h.steady hc).lru, (h.steady hc).ram⟩) (·.kept hc), h.outcome.elim (·.armed) (·.armed),
    h.outcome.elim (·.drive) (·.drive), h.outcome.elim (·.cap) (·.cap)⟩
  · obtain ⟨ht', y, hy, hn⟩ := h.keeps k tr l x ht hx ((hunsaved x).2 hu)
    exact ⟨ht', y, hy, (hunsaved y).1 hn⟩
  · exact h.written i tr x ⟨hs, hi, rfl⟩ ht hx (hor.imp id (hunsaved x).2)
  · rw [(h.unsaved (s.cache.holdsUnsaved_iff.2 ⟨k, tr, l, x, ht, hx, (hunsaved x).2 hu⟩)).mount]
  · have hclean : s.cache.nonClean = 0 := s.cache.nonClean_eq_zero.2 fun k l x hx => Bool.eq_false_iff.2 (mt (hunsaved x).1 (hc k l x hx))
    rw [(h.clean hclean ((not_writesBack_iff s).2 hw)).mount]
    rfl

/-- The card record after a removal (R141). -/
theorem cardLost_card (s : State) : ∃ limit buf, (s.ejected.cardLost s.card.active).card = { s.card with
    state := .absent, capacity := 0, wp := false, failCount := 0, bringUp := none, active := none, queued := none, panel := none
    lastRun := s.lastGone, blockLimit := limit, mergeBuf := buf } := by
  obtain ⟨lines, flushQ, limit, heq, -⟩ := ejected_frame s
  have h := reports_cardLost s.ejected s.card.active
  have hqueued : (s.ejected.cardLost s.card.active).card.queued = none := h.queued.elim (fun h => h.trans (by rw [heq])) id
  have hcard : s.ejected.card = { s.card with
      state := .absent, capacity := 0, wp := false, failCount := 0, bringUp := none, active := none, queued := none, panel := none
      lastRun := s.lastGone, blockLimit := limit } := by rw [heq]
  refine ⟨limit, (s.ejected.cardLost s.card.active).card.mergeBuf, h.card.trans ?_⟩
  rw [hqueued, hcard]

theorem ejected_link (s : State) : s.ejected.link = s.panelFaulted.post (.cardState .absent 0) := by
  obtain ⟨lines, flushQ, limit, heq, -⟩ := ejected_frame s
  rw [heq]

/-- Settles O58: the card's and the link's own steps, then the run's failure and the card's departure in either order. -/
theorem cardRemoved : Obligations.CardRemoved := by
  intro s hp
  refine ⟨exec_cardRemoved_absent hp, fun hc => ?_⟩
  let u := s.ejected.cardLost s.card.active
  have hreports : s.ejected.Reports 12 u := reports_cardLost s.ejected s.card.active
  have hkept : Kept { s with inputs := { s.inputs with cardDetect := false } } u := by
    have h := kept_cardRemove s
    rwa [cardRemove_eq hc] at h
  obtain ⟨limit, buf, hcard⟩ := cardLost_card s
  have hfields : u.card.state = .absent ∧ u.card.capacity = 0 ∧ u.card.wp = false ∧ u.card.failCount = 0 ∧ u.card.bringUp = none ∧
      u.card.active = none ∧ u.card.queued = none ∧ u.card.panel = none ∧ u.card.lastRun = s.lastGone := by
    rw [hcard]
    exact ⟨rfl, rfl, rfl, rfl, rfl, rfl, rfl, rfl, rfl⟩
  obtain ⟨hstate, hcapacity, hwp, hcount, hbringUp, hactive, hqueued, hpanel, hlast⟩ := hfields
  refine ⟨u, _, exec_cardRemoved_present hp hc, reacted_settle s u, hkept.inputs, hstate, hcapacity, hwp, hcount, hbringUp, hactive,
    hqueued, hpanel, fun ha => hlast.trans (by simp only [State.lastGone, ha]),
    fun r ha => ⟨s.runClass r, hlast.trans (by simp only [State.lastGone, ha])⟩, fun q hq hx hm hd => hreports.hasReply ?_,
    fun hm hl => hreports.hasNotice (by simp) ?_, fun hm => ?_, fun hst => (parts_cardLost hst).spec, ?_, hkept.time, hkept.options,
    hkept.prof, hkept.powered.trans hp, hkept.pending⟩
  · rw [ejected_link]
    exact Link.post_hasReply (panelFaulted_hasReply hq hx hm hd) _
  · rw [ejected_link]
    refine Link.hasNotice_post _ (by simp) ?_ ((panelFaulted_notices_length s).trans_lt hl)
    rwa [panelFaulted_options]
  · have hst : ¬ s.ejected.Stands := by
      rw [ejected_stands, State.Stands]
      rcases hm with hm | hm <;> simp [hm]
    exact (cardLost_mount_fallen hst _).trans (ejected_mount s)
  · rw [hkept.drive]

end Sys2Proof.Machine
end

section
/-! PROOFS. Blocks that runs in the slots hold, and the bytes of a block (08 R147, R152). -/

namespace Sys2Proof.Machine

/-! ## Runs in the slots (R144, R147) -/

/-- The run stands in a slot. -/
def State.InSlot (s : State) (r : Run) : Prop := s.card.active = some r ∨ s.card.queued = some r

/-- A run of the standing mount and of line `i`, with the track that the line carries, holds the block in a slot (R147, log 13). -/
def State.Holds (s : State) (r : Run) (i blk : Nat) : Prop :=
  s.InSlot r ∧ (s.mount.state ≠ .unmounted ∧ r.mount = some s.mount.serial ∧ r.line = some i) ∧ r.track = (s.cache.line i).tag ∧ r.Held blk

theorem State.mem_runs (s : State) (r : Run) : r ∈ s.card.runs ↔ s.InSlot r := by simp [Card.runs, State.InSlot]

theorem runEnded_eq_false_iff {s : State} {r : Run} (hk : r.kind.isPanel = false) :
    s.runEnded r = false ↔ s.mount.state ≠ .unmounted ∧ r.mount = some s.mount.serial := by
  simp [State.runEnded, hk]

theorem State.mem_mountRuns (s : State) (r : Run) : r ∈ s.mountRuns ↔
    s.InSlot r ∧ r.kind.isPanel = false ∧ s.mount.state ≠ .unmounted ∧ r.mount = some s.mount.serial := by
  simp only [State.mountRuns, List.mem_filter, State.mem_runs, Bool.and_eq_true, Bool.not_eq_true']
  exact and_congr_right fun _ => and_congr_right fun hk => runEnded_eq_false_iff hk

theorem State.heldBy_iff (s : State) (kinds : RunKind → Bool) (i blk : Nat) :
    s.heldBy kinds i blk = true ↔ ∃ r, (r.kind.isPanel = false ∧ kinds r.kind = true) ∧ s.Holds r i blk := by
  simp only [State.heldBy, List.any_eq_true, s.mem_mountRuns, Bool.and_eq_true, beq_iff_eq, Run.holds_iff, State.Holds]
  exact exists_congr fun r => by tauto

/-- A block of fill work that stands in no run of its line (R73, R147). -/
def State.FillFree (s : State) (i blk : Nat) : Prop :=
  s.fillWork i blk = true ∧ ¬ ∃ r, (r.kind = .fill ∨ r.kind = .mergeRead ∨ r.kind = .flush) ∧ s.Holds r i blk

theorem State.fillFree_iff (s : State) (i blk : Nat) : s.fillFree i blk = true ↔ s.FillFree i blk := by
  have hkind : ∀ k : RunKind, (k.isPanel = false ∧ true = true) ↔ (k = .fill ∨ k = .mergeRead ∨ k = .flush) := by
    intro k
    cases k <;> decide
  rw [State.fillFree, Bool.and_eq_true, Bool.not_eq_true', ← Bool.not_eq_true, s.heldBy_iff]
  exact and_congr_right fun _ => not_congr (exists_congr fun r => and_congr_left fun _ => hkind r.kind)

/-- A block of write-back work that stands in no fill and no merge read of its line (R147, log 13). -/
def State.WriteFree (s : State) (i blk : Nat) : Prop :=
  s.writeWork i blk = true ∧ ¬ ∃ r, (r.kind = .fill ∨ r.kind = .mergeRead) ∧ s.Holds r i blk

theorem State.writeFree_iff (s : State) (i blk : Nat) : s.writeFree i blk = true ↔ s.WriteFree i blk := by
  have hkind : ∀ k : RunKind, (k.isPanel = false ∧ (k != .flush) = true) ↔ (k = .fill ∨ k = .mergeRead) := by
    intro k
    cases k <;> decide
  rw [State.writeFree, Bool.and_eq_true, Bool.not_eq_true', ← Bool.not_eq_true, s.heldBy_iff]
  exact and_congr_right fun _ => not_congr (exists_congr fun r => and_congr_left fun _ => hkind r.kind)

/-- The merge buffer is taken (R147, R153). -/
def State.MergeBusy (s : State) : Prop := ∃ r, s.InSlot r ∧ (r.kind = .mergeRead ∨ r.merged = true)

theorem State.mergeBusy_iff (s : State) : s.mergeBusy = true ↔ s.MergeBusy := by
  simp only [State.mergeBusy, State.MergeBusy, List.any_eq_true, State.mem_runs, Bool.or_eq_true, beq_iff_eq]

/-! ## Where the bytes of a block lie (R152) -/

section
variable (c : Cache) (g : Geometry) (i blk : Nat)

/-- Line `i` itself supplies quarter `q`. -/
def Cache.Supplies (q : Nat) : Prop := ∃ tr x, (c.line i).tag = some tr ∧ g.trackOffset tr ≤ 128 * q ∧
  c.sector i ((128 * q - g.trackOffset tr) / (g.layoutAt tr).sectorSize) = some x ∧ x.hole = false ∧
  (x.state = .clean ∨ x.state = .dirty ∨ x.state = .flush ∨ x.state = .capture)

theorem Cache.supplies_iff (q : Nat) : c.supplies g i q = true ↔ c.Supplies g i q := by
  have hstate : ∀ st : SectorState, (st == .clean || st.nonClean) = true ↔ (st = .clean ∨ st = .dirty ∨ st = .flush ∨ st = .capture) := by
    intro st
    cases st <;> decide
  unfold Cache.supplies Cache.Supplies Cache.sector
  cases (c.line i).tag with
  | none => simp
  | some tr =>
    simp only [Bool.and_eq_true, decide_eq_true_eq, Option.some.injEq, exists_and_left, exists_eq_left']
    refine and_congr_right fun _ => ?_
    cases (c.line i).sectors[(128 * q - g.trackOffset tr) / (g.layoutAt tr).sectorSize]? with
    | none => simp
    | some x => simp [hstate]

/-- Another line holds every byte of the block that line `i` does not. -/
def Cache.HasRest (k : Nat) : Prop := k < 8 ∧ k ≠ i ∧ ∀ m < 4, c.Supplies g i (4 * blk + m) ∨ c.Supplies g k (4 * blk + m)

/-- The block has outside bytes that no other line holds. -/
def Cache.NeedsMerge : Prop := (∃ m < 4, ¬ c.Supplies g i (4 * blk + m)) ∧ ∀ k, ¬ c.HasRest g i blk k

theorem mem_quarters (q : Nat) : q ∈ quarters blk ↔ ∃ m < 4, q = 4 * blk + m := by
  simp only [quarters, List.mem_cons, List.not_mem_nil, or_false]
  constructor
  · intro h
    exact ⟨q - 4 * blk, by omega, by omega⟩
  · rintro ⟨m, hm, rfl⟩
    omega

theorem quarters_length : (quarters blk).length = 4 := rfl

theorem quarters_getElem {m : Nat} (hm : m < (quarters blk).length) : (quarters blk)[m] = 4 * blk + m := by
  have h4 : m < 4 := hm
  match m, h4 with
  | 0, _ => rfl
  | 1, _ => rfl
  | 2, _ => rfl
  | 3, _ => rfl

theorem Cache.mem_outside (q : Nat) : q ∈ c.outside g i blk ↔ ∃ m < 4, q = 4 * blk + m ∧ ¬ c.Supplies g i q := by
  simp only [Cache.outside, List.mem_filter, mem_quarters, Bool.not_eq_true', ← Bool.not_eq_true, c.supplies_iff]
  exact ⟨fun ⟨⟨m, hm, hq⟩, h⟩ => ⟨m, hm, hq, h⟩, fun ⟨m, hm, hq, h⟩ => ⟨⟨m, hm, hq⟩, h⟩⟩

theorem Cache.all_outside_iff (k : Nat) : (c.outside g i blk).all (c.supplies g k) = true ↔
    ∀ m < 4, c.Supplies g i (4 * blk + m) ∨ c.Supplies g k (4 * blk + m) := by
  simp only [List.all_eq_true, c.mem_outside, c.supplies_iff]
  constructor
  · intro h m hm
    exact or_iff_not_imp_left.2 fun hno => h _ ⟨m, hm, rfl, hno⟩
  · rintro h _ ⟨m, hm, rfl, hno⟩
    exact (h m hm).resolve_left hno

/-- The test by which the other line is found. -/
theorem Cache.hasRest_iff (k : Nat) :
    (k ∈ List.range 8 ∧ (k != i && (c.outside g i blk).all (c.supplies g k)) = true) ↔ c.HasRest g i blk k := by
  rw [List.mem_range, Bool.and_eq_true, bne_iff_ne, c.all_outside_iff, Cache.HasRest]

variable {c g i blk} in
theorem Cache.hasRest_of_otherSource {k : Nat} (h : c.otherSource g i blk = some k) : c.HasRest g i blk k :=
  (c.hasRest_iff g i blk k).1 ⟨List.mem_of_find?_eq_some h,
    List.find?_some (p := fun k => k != i && (c.outside g i blk).all (c.supplies g k)) h⟩

theorem Cache.otherSource_eq_none_iff : c.otherSource g i blk = none ↔ ∀ k, ¬ c.HasRest g i blk k := by
  rw [Cache.otherSource, List.find?_eq_none]
  exact forall_congr' fun k => by rw [← c.hasRest_iff, not_and]

theorem Cache.needsMerge_iff : c.needsMerge g i blk = true ↔ c.NeedsMerge g i blk := by
  have houtside : (c.outside g i blk).isEmpty = false ↔ ∃ m < 4, ¬ c.Supplies g i (4 * blk + m) := by
    rw [List.isEmpty_eq_false_iff_exists_mem]
    simp only [c.mem_outside]
    exact ⟨fun ⟨_, m, hm, hq, h⟩ => ⟨m, hm, hq ▸ h⟩, fun ⟨m, hm, h⟩ => ⟨_, m, hm, rfl, h⟩⟩
  rw [Cache.needsMerge, Bool.and_eq_true, Bool.not_eq_true', houtside, Option.isNone_iff_eq_none, c.otherSource_eq_none_iff]
  rfl

/-! ## The bytes of a write run's block (R152, R153) -/

/-- The bytes of one quarter of a write run's block. -/
def Cache.fixQuarter (buf : Option (List Byte)) (q : Nat) : List Byte :=
  if c.supplies g i q then c.quarterBytes g i q
  else
    match buf with
    | some bs => (List.range 128).map (fun k => byteAt bs (128 * (q - 4 * blk) + k))
    | none =>
      match c.otherSource g i blk with
      | some k => c.quarterBytes g k q
      | none => List.replicate 128 0#8

theorem Cache.fixBlock_eq (buf : Option (List Byte)) : c.fixBlock g i blk buf = (quarters blk).flatMap (c.fixQuarter g i blk buf) := rfl

theorem Cache.quarterBytes_length (k q : Nat) : (c.quarterBytes g k q).length = 128 := by
  unfold Cache.quarterBytes
  split
  · exact List.length_replicate
  · exact memSlice_length _ _ _

theorem Cache.fixQuarter_length (buf : Option (List Byte)) (q : Nat) : (c.fixQuarter g i blk buf q).length = 128 := by
  unfold Cache.fixQuarter
  split
  · exact c.quarterBytes_length g i q
  · split
    · simp
    · split
      · exact c.quarterBytes_length g _ q
      · exact List.length_replicate

theorem Cache.fixBlock_length (buf : Option (List Byte)) : (c.fixBlock g i blk buf).length = 512 := by
  rw [c.fixBlock_eq, length_pieces (c.fixQuarter_length g i blk buf), quarters_length]

variable {c g i blk}

theorem Cache.byteAt_fixBlock (buf : Option (List Byte)) {m b : Nat} (hm : m < 4) (hb : b < 128) :
    byteAt (c.fixBlock g i blk buf) (128 * m + b) = byteAt (c.fixQuarter g i blk buf (4 * blk + m)) b := by
  have hlen : m < (quarters blk).length := by rwa [quarters_length]
  rw [c.fixBlock_eq, byteAt_pieces (c.fixQuarter_length g i blk buf) (quarters blk) m b hlen hb, quarters_getElem]

/-- The byte of an image quarter as a line that carries its track holds it. -/
def Cache.LineByte (c : Cache) (g : Geometry) (k q b : Nat) (v : Byte) : Prop :=
  ∃ y, (c.line k).tag = some y ∧ v = memRead c.ram (k * 12288 + (128 * q - g.trackOffset y) + b)

theorem Cache.lineByte_quarterBytes {k q b : Nat} (h : c.Supplies g k q) (hb : b < 128) :
    c.LineByte g k q b (byteAt (c.quarterBytes g k q) b) := by
  obtain ⟨tr, -, htag, -⟩ := h
  refine ⟨tr, htag, ?_⟩
  rw [Cache.quarterBytes, htag]
  exact byteAt_map_range _ hb

theorem Cache.fixQuarter_own {buf : Option (List Byte)} {q : Nat} (h : c.Supplies g i q) :
    c.fixQuarter g i blk buf q = c.quarterBytes g i q :=
  if_pos ((c.supplies_iff g i q).2 h)

theorem Cache.fixQuarter_outside {buf : Option (List Byte)} {q : Nat} (h : ¬ c.Supplies g i q) :
    c.fixQuarter g i blk buf q =
      match buf with
      | some bs => (List.range 128).map (fun k => byteAt bs (128 * (q - 4 * blk) + k))
      | none =>
        match c.otherSource g i blk with
        | some k => c.quarterBytes g k q
        | none => List.replicate 128 0#8 :=
  if_neg (mt (c.supplies_iff g i q).1 h)

theorem Cache.byteAt_fixQuarter_merged {bs : List Byte} {m b : Nat} (h : ¬ c.Supplies g i (4 * blk + m)) (hb : b < 128) :
    byteAt (c.fixQuarter g i blk (some bs) (4 * blk + m)) b = byteAt bs (128 * m + b) := by
  rw [Cache.fixQuarter_outside h]
  refine (byteAt_map_range _ hb).trans ?_
  rw [Nat.add_sub_cancel_left]

theorem Cache.lineByte_fixQuarter_other {m b k : Nat} (hm : m < 4) (h : ¬ c.Supplies g i (4 * blk + m)) (hk : c.HasRest g i blk k)
    (hb : b < 128) :
    ∃ k, c.HasRest g i blk k ∧ c.LineByte g k (4 * blk + m) b (byteAt (c.fixQuarter g i blk none (4 * blk + m)) b) := by
  rw [Cache.fixQuarter_outside h]
  cases hother : c.otherSource g i blk with
  | none => exact absurd hk ((c.otherSource_eq_none_iff g i blk).1 hother k)
  | some k' =>
    have hrest := Cache.hasRest_of_otherSource hother
    exact ⟨k', hrest, Cache.lineByte_quarterBytes ((hrest.2.2 m hm).resolve_left h) hb⟩

end

end Sys2Proof.Machine
end

section
/-! PROOFS. What each class offers (08 R147). -/

namespace Sys2Proof.Machine

/-! ## The first of a list, and the last of a line's blocks -/

/-- The first member of a list with a property. -/
def FirstOf (l : List Nat) (p : Nat → Prop) (b : Nat) : Prop := ∃ before after, l = before ++ b :: after ∧ p b ∧ ∀ k ∈ before, ¬ p k

theorem find?_of_firstOf {l : List Nat} {f : Nat → Bool} {p : Nat → Prop} (hf : ∀ k, f k = true ↔ p k) {b : Nat} (h : FirstOf l p b) :
    l.find? f = some b := by
  obtain ⟨before, after, hl, hb, hbefore⟩ := h
  refine List.find?_eq_some_iff_append.2 ⟨(hf b).2 hb, before, after, hl, fun k hk => ?_⟩
  rw [Bool.not_eq_true', ← Bool.not_eq_true, hf]
  exact hbefore k hk

theorem find?_eq_none_of {l : List Nat} {f : Nat → Bool} {p : Nat → Prop} (hf : ∀ k, f k = true ↔ p k) (h : ∀ b ∈ l, ¬ p b) :
    l.find? f = none :=
  List.find?_eq_none.2 fun b hb => mt (hf b).1 (h b hb)

/-- The last member of a rising list is its greatest. -/
theorem getLastD_of_greatest {l : List Nat} (hl : l.Pairwise (· < ·)) {m : Nat} (hm : m ∈ l) (hmax : ∀ x ∈ l, x ≤ m) (d : Nat) :
    l.getLastD d = m := by
  rcases List.eq_nil_or_concat l with rfl | ⟨init, x, rfl⟩
  · exact absurd hm (List.not_mem_nil)
  · rw [List.concat_eq_append] at hl hm hmax
    have hlast : (init.concat x).getLastD d = x := by simp [List.getLastD_eq_getLast?]
    have hxm : x ≤ m := hmax x (by simp)
    rcases List.mem_append.1 hm with hinit | hx
    · exact absurd ((List.pairwise_append.1 hl).2.2 m hinit x (by simp)) (Nat.not_lt.2 hxm)
    · rw [hlast, List.mem_singleton.1 hx]

theorem Cache.lineBlocks_pairwise (c : Cache) (g : Geometry) (i : Nat) : (c.lineBlocks g i).Pairwise (· < ·) := by
  unfold Cache.lineBlocks
  split
  · exact .nil
  · exact List.pairwise_lt_range.map _ fun a b h => Nat.add_lt_add_left h _

/-- The last of those blocks of a line that pass a test. -/
theorem Cache.getLastD_lineBlocks_filter {c : Cache} {g : Geometry} {i m : Nat} {tr : Track} (htag : (c.line i).tag = some tr)
    {p : Nat → Bool} (hlow : g.firstBlock tr ≤ m) (hhigh : m ≤ g.lastBlock tr) (hp : p m = true)
    (hmax : ∀ b, b ≤ g.lastBlock tr → p b = true → b ≤ m) (d : Nat) : ((c.lineBlocks g i).filter p).getLastD d = m := by
  refine getLastD_of_greatest ((c.lineBlocks_pairwise g i).filter p)
    (List.mem_filter.2 ⟨(Cache.mem_lineBlocks htag m).2 ⟨hlow, hhigh⟩, hp⟩) (fun b hb => ?_) d
  obtain ⟨hblock, hpb⟩ := List.mem_filter.1 hb
  exact hmax b ((Cache.mem_lineBlocks htag b).1 hblock).2 hpb

/-! ## DEMAND (R74, R147) -/

/-- The blocks of line `i` in demand order: pass one from the start block on, then pass two. -/
def Cache.demandOrder (c : Cache) (g : Geometry) (i : Nat) : List Nat :=
  (c.lineBlocks g i).filter (fun b => decide (c.demandStart ≤ b)) ++ (c.lineBlocks g i).filter (fun b => decide (b < c.demandStart))

/-- The last block of the pass that holds a block. -/
def Cache.passEnd (c : Cache) (g : Geometry) (tr : Track) (b : Nat) : Nat :=
  if c.demandStart ≤ b then g.lastBlock tr else min (c.demandStart - 1) (g.lastBlock tr)

theorem Cache.mem_demandOrder (c : Cache) (g : Geometry) (i b : Nat) : b ∈ c.demandOrder g i ↔ b ∈ c.lineBlocks g i := by
  simp only [Cache.demandOrder, List.mem_append, List.mem_filter, decide_eq_true_eq]
  exact ⟨fun h => h.elim And.left And.left, fun h => (le_or_gt c.demandStart b).imp (⟨h, ·⟩) (⟨h, ·⟩)⟩

section
variable {s : State} {i : Nat}

theorem offerDemandFill_some {tr : Track} {b : Nat} (hactive : s.cache.active = some i) (htag : (s.cache.line i).tag = some tr)
    (hfind : (s.cache.demandOrder s.geom i).find? (s.fillFree i) = some b) :
    s.offerDemandFill = some (.fill .demand i b (s.cache.passEnd s.geom tr b)) := by
  have hblock := (s.cache.mem_demandOrder s.geom i b).1 (List.mem_of_find?_eq_some hfind)
  obtain ⟨hlow, hhigh⟩ := (Cache.mem_lineBlocks htag b).1 hblock
  simp only [State.offerDemandFill, hactive]
  rw [Cache.demandOrder, List.find?_append] at hfind
  cases hone : ((s.cache.lineBlocks s.geom i).filter (fun b => decide (s.cache.demandStart ≤ b))).find? (s.fillFree i) with
  | some b' =>
    obtain rfl : b' = b := by rw [hone] at hfind; exact Option.some.inj hfind
    have hstart : s.cache.demandStart ≤ b' := of_decide_eq_true (List.mem_filter.1 (List.mem_of_find?_eq_some hone)).2
    have hlast := Cache.getLastD_lineBlocks_filter htag (p := fun b => decide (s.cache.demandStart ≤ b)) (hlow.trans hhigh) le_rfl
      (decide_eq_true (hstart.trans hhigh)) (fun _ h _ => h) b'
    simp only [hlast, Cache.passEnd, if_pos hstart]
  | none =>
    rw [hone, Option.none_or] at hfind
    have hstart : b < s.cache.demandStart := of_decide_eq_true (List.mem_filter.1 (List.mem_of_find?_eq_some hfind)).2
    have hlast := Cache.getLastD_lineBlocks_filter (g := s.geom) htag (m := min (s.cache.demandStart - 1) (s.geom.lastBlock tr))
      (p := fun b => decide (b < s.cache.demandStart)) (by omega) (by omega) (decide_eq_true (by omega))
      (fun x hx hlt => by have := of_decide_eq_true hlt; omega) b
    simp only [hfind, hlast, Cache.passEnd, if_neg (Nat.not_le.2 hstart)]

theorem offerDemandFill_none (h : ∀ i b, s.cache.active = some i → b ∈ s.cache.lineBlocks s.geom i → ¬ s.FillFree i b) :
    s.offerDemandFill = none := by
  unfold State.offerDemandFill
  cases hactive : s.cache.active with
  | none => rfl
  | some i =>
    have hnone : ∀ p : Nat → Bool, ((s.cache.lineBlocks s.geom i).filter p).find? (s.fillFree i) = none := fun p =>
      find?_eq_none_of (s.fillFree_iff i) fun b hb => h i b hactive (List.mem_of_mem_filter hb)
    simp only [hnone]

theorem offerDemand_outside_mounted (hm : s.mount.state ≠ .mounted) : s.offerDemand = none :=
  if_pos (by rw [s.isMounted_eq_false_iff.2 hm]; rfl)

/-- The forced line's write-back, as DEMAND work. -/
def State.offerForced (s : State) : Option Offer :=
  match s.cache.forced with
  | some f => s.offerFlush .demand f
  | none => none

theorem offerDemand_mounted (hm : s.mount.state = .mounted) : s.offerDemand = s.offerDemandFill.or s.offerForced := by
  rw [State.offerDemand, if_neg (by simp [s.isMounted_iff.2 hm])]
  cases s.offerDemandFill <;> rfl

/-! ## A line's write-back (R147, R152) -/

theorem offerFlush_none (cls : RunClass) (h : ∀ b ∈ s.cache.lineBlocks s.geom i, ¬ s.WriteFree i b) : s.offerFlush cls i = none := by
  simp only [State.offerFlush, find?_eq_none_of (s.writeFree_iff i) h]

theorem offerFlush_first (cls : RunClass) {b : Nat} (h : FirstOf (s.cache.lineBlocks s.geom i) (s.WriteFree i) b) :
    (s.cache.NeedsMerge s.geom i b ∧ s.MergeBusy → s.offerFlush cls i = none) ∧
    (¬ (s.cache.NeedsMerge s.geom i b ∧ s.MergeBusy) → s.offerFlush cls i = some (.flush cls i b)) := by
  have hbusy : (s.cache.needsMerge s.geom i b && s.mergeBusy) = true ↔ s.cache.NeedsMerge s.geom i b ∧ s.MergeBusy := by
    rw [Bool.and_eq_true, s.cache.needsMerge_iff, s.mergeBusy_iff]
  simp only [State.offerFlush, find?_of_firstOf (s.writeFree_iff i) h, ← hbusy]
  exact ⟨fun h => if_pos h, fun h => if_neg h⟩

/-! ## PANEL and WRITEBACK (R147) -/

theorem offerPanel_cases (s : State) : s.offerPanel = some .panel ∨ s.offerPanel = none := by
  unfold State.offerPanel
  split
  · exact .inl rfl
  · exact .inr rfl

theorem offerPanel_iff (s : State) : s.offerPanel = some .panel ↔
    s.card.panel ≠ none ∧ ∀ r, s.InSlot r → r.kind ≠ .panelRead ∧ r.kind ≠ .panelWrite := by
  have hkind : ∀ k : RunKind, k.isPanel = false ↔ k ≠ .panelRead ∧ k ≠ .panelWrite := by
    intro k
    cases k <;> decide
  have htest : (s.card.panel.isSome && !s.card.runs.any (fun r => r.kind.isPanel)) = true ↔
      s.card.panel ≠ none ∧ ∀ r, s.InSlot r → r.kind ≠ .panelRead ∧ r.kind ≠ .panelWrite := by
    simp only [Bool.and_eq_true, Option.isSome_iff_ne_none, Bool.not_eq_true', List.any_eq_false, Bool.not_eq_true, s.mem_runs, hkind]
  simp [State.offerPanel, ← htest]

theorem offerWriteback_fallen (h : ¬ s.Stands) : s.offerWriteback = none :=
  if_pos (by rw [Bool.not_eq_true', ← Bool.not_eq_true, writesBack_iff]; exact h)

theorem offerWriteback_standing (h : s.Stands) :
    s.offerWriteback = match s.cache.flushQ with | [] => none | i :: _ => s.offerFlush .writeback i :=
  if_neg (by simp [(writesBack_iff s).2 h])

/-! ## AHEAD (R75, R147) -/

/-- An unpinned line with a block that a fill can begin at. -/
def State.FillsAhead (s : State) (k : Nat) : Prop := (s.cache.line k).pinned = false ∧ ∃ b ∈ s.cache.lineBlocks s.geom k, s.FillFree k b

theorem offerAheadLine_none {k : Nat} (h : ¬ s.FillsAhead k) : s.offerAheadLine k = none := by
  cases hpin : (s.cache.line k).pinned with
  | true => exact if_pos hpin
  | false =>
    have hfree : ∀ b ∈ s.cache.lineBlocks s.geom k, ¬ s.FillFree k b := fun b hb hf => h ⟨hpin, b, hb, hf⟩
    simp only [State.offerAheadLine, hpin, Bool.false_eq_true, if_false, find?_eq_none_of (s.fillFree_iff k) hfree]

theorem offerAheadLine_some {tr : Track} {b : Nat} (hpin : (s.cache.line i).pinned = false) (htag : (s.cache.line i).tag = some tr)
    (h : FirstOf (s.cache.lineBlocks s.geom i) (s.FillFree i) b) :
    s.offerAheadLine i = some (.fill .ahead i b (s.geom.lastBlock tr)) := by
  have hfind := find?_of_firstOf (s.fillFree_iff i) h
  obtain ⟨hlow, hhigh⟩ := (Cache.mem_lineBlocks htag b).1 (List.mem_of_find?_eq_some hfind)
  have hlast : (s.cache.lineBlocks s.geom i).getLastD b = s.geom.lastBlock tr :=
    getLastD_of_greatest (s.cache.lineBlocks_pairwise s.geom i) ((Cache.mem_lineBlocks htag _).2 ⟨hlow.trans hhigh, le_rfl⟩)
      (fun x hx => ((Cache.mem_lineBlocks htag x).1 hx).2) b
  simp only [State.offerAheadLine, hpin, Bool.false_eq_true, if_false, hfind, hlast]

theorem offerAhead_outside_mounted (hm : s.mount.state ≠ .mounted) : s.offerAhead = none :=
  if_pos (by rw [s.isMounted_eq_false_iff.2 hm]; rfl)

theorem offerAhead_mounted (hm : s.mount.state = .mounted) : s.offerAhead = s.cache.lru.findSome? s.offerAheadLine :=
  if_neg (by simp [s.isMounted_iff.2 hm])

theorem offerAhead_first {tr : Track} {b : Nat} (hm : s.mount.state = .mounted) (hi : FirstOf s.cache.lru s.FillsAhead i)
    (htag : (s.cache.line i).tag = some tr) (h : FirstOf (s.cache.lineBlocks s.geom i) (s.FillFree i) b) :
    s.offerAhead = some (.fill .ahead i b (s.geom.lastBlock tr)) := by
  obtain ⟨before, after, hlru, ⟨hpin, -⟩, hbefore⟩ := hi
  rw [offerAhead_mounted hm, List.findSome?_eq_some_iff]
  exact ⟨before, i, after, hlru, offerAheadLine_some hpin htag h, fun k hk => offerAheadLine_none (hbefore k hk)⟩

theorem offerAhead_none (hm : s.mount.state = .mounted) (h : ∀ k ∈ s.cache.lru, ¬ s.FillsAhead k) : s.offerAhead = none := by
  rw [offerAhead_mounted hm, List.findSome?_eq_none_iff]
  exact fun k hk => offerAheadLine_none (h k hk)

/-! ## The offer of the highest class (R147) -/

theorem offer_not_ready (h : s.card.state ≠ .ready) : s.offer = none := if_pos (by simpa using h)

theorem offer_ready (h : s.card.state = .ready) : s.offer = s.offerDemand.or (s.offerPanel.or (s.offerWriteback.or s.offerAhead)) := by
  rw [State.offer, if_neg (by simp [h])]
  cases s.offerDemand with
  | some o => rfl
  | none =>
    cases s.offerPanel with
    | some o => rfl
    | none => cases s.offerWriteback <;> rfl

end

end Sys2Proof.Machine
end

section
/-! PROOFS. The runs that the arbiter builds (08 R150 to R153). -/

namespace Sys2Proof.Machine

/-! ## The record of a run (R150) -/

/-- The record of a run of `n` blocks of line `i` from image block `blk`, with nothing transferred yet. -/
def State.Records (s : State) (cls : RunClass) (kind : RunKind) (i blk n : Nat) (r : Run) : Prop :=
  r.cls = cls ∧ r.kind = kind ∧ r.line = some i ∧ r.track = (s.cache.line i).tag ∧ r.mount = some s.mount.serial ∧ r.firstImage = some blk ∧
  r.count = n ∧ (∀ b e, s.mount.mapBlock blk = some (b, e) → r.start = b ∧ r.extent = some e) ∧ r.attempt = 1 ∧ r.base = 0 ∧ r.received = 0 ∧
  r.status = .queued

theorem runFor_records (s : State) (cls : RunClass) (kind : RunKind) (i blk n : Nat) :
    s.Records cls kind i blk n (s.runFor cls kind i blk n) := by
  refine ⟨rfl, rfl, rfl, rfl, rfl, rfl, rfl, fun b e hmap => ?_, rfl, rfl, rfl, rfl⟩
  simp [State.runFor, Mount.extentOf, hmap]

/-- `n` blocks from `blk` on, as far as the cap and a test let the run grow. -/
def Longest (cap : Nat) (p : Nat → Prop) (blk n : Nat) : Prop :=
  1 ≤ n ∧ n ≤ cap ∧ (∀ k, 1 ≤ k → k < n → p (blk + k)) ∧ (n < cap → ¬ p (blk + n))

theorem longest_extendRun {ok : Nat → Bool} {p : Nat → Prop} (hok : ∀ b, ok b = true ↔ p b) {cap : Nat} (hcap : 1 ≤ cap) (blk : Nat) :
    Longest cap p blk (1 + extendRun ok (blk + 1) (cap - 1)) := by
  obtain ⟨hroom, hin, hout⟩ := extendRun_longest ok (cap - 1) (blk + 1)
  refine ⟨by omega, by omega, fun k hlow hhigh => ?_, fun hlt => ?_⟩
  · have h := hin (k - 1) (by omega)
    rwa [hok, show blk + 1 + (k - 1) = blk + k by omega] at h
  · have h := hout (by omega)
    rwa [← Bool.not_eq_true, hok, Nat.add_assoc] at h

/-! ## The run of an offer (R151 to R153, R159, R160) -/

/-- The extent that holds an image block. -/
def State.extent (s : State) (blk : Nat) : Option Nat := (s.mount.mapBlock blk).map Prod.snd

section
variable {s : State} (cls : RunClass) (i blk : Nat)

theorem build_fill (last : Nat) (hcap : 1 ≤ s.link.options.burstCap) :
    ∃ r n, s.build (.fill cls i blk last) = { s with card := { s.card with queued := some r } } ∧ s.Records cls .fill i blk n r ∧
      Longest s.link.options.burstCap (fun b => b ≤ last ∧ s.FillFree i b ∧ s.extent b = s.extent blk) blk n := by
  refine ⟨s.fillRun cls i blk last, _, rfl, runFor_records s cls .fill i blk _, longest_extendRun (fun b => ?_) hcap blk⟩
  rw [Bool.and_eq_true, Bool.and_eq_true, decide_eq_true_eq, s.fillFree_iff, beq_iff_eq, and_assoc]
  rfl

theorem flushCount_longest (hcap : 1 ≤ s.link.options.burstCap) :
    Longest s.link.options.burstCap (fun b => s.WriteFree i b ∧ ¬ s.cache.NeedsMerge s.geom i b ∧ s.extent b = s.extent blk) blk
      (s.flushCount i blk) := by
  refine longest_extendRun (fun b => ?_) hcap blk
  rw [Bool.and_eq_true, Bool.and_eq_true, s.writeFree_iff, Bool.not_eq_true', ← Bool.not_eq_true, s.cache.needsMerge_iff, beq_iff_eq,
    and_assoc]
  rfl

variable {i blk}

theorem build_merge (h : s.cache.NeedsMerge s.geom i blk) :
    ∃ r, s.build (.flush cls i blk) = { s with card := { s.card with queued := some r } } ∧ s.Records cls .mergeRead i blk 1 r ∧
      r.merged = false :=
  ⟨s.runFor cls .mergeRead i blk 1, if_pos ((s.cache.needsMerge_iff ..).2 h), runFor_records s cls .mergeRead i blk 1, rfl⟩

theorem build_flush (h : ¬ s.cache.NeedsMerge s.geom i blk) :
    s.build (.flush cls i blk) = { (s.makeFlush cls i blk (s.flushCount i blk) none).1 with
      card := { s.card with queued := some (s.makeFlush cls i blk (s.flushCount i blk) none).2 } } := by
  have hbuild : s.build (.flush cls i blk) =
      (s.makeFlush cls i blk (s.flushCount i blk) none).1.enqueueRun (s.makeFlush cls i blk (s.flushCount i blk) none).2 :=
    if_neg (mt (s.cache.needsMerge_iff ..).1 h)
  rw [hbuild, State.enqueueRun, makeFlush_card]

theorem build_panel {w : PanelWork} (h : s.card.panel = some w) :
    s.build .panel = { s with card := { s.card with queued := some w.run } } := by
  simp only [State.build, h, State.enqueueRun]

end

/-! ## A write run is made (R79, R83, R152, R153) -/

section
variable {s : State} {i : Nat} {tr : Track} (htag : (s.cache.line i).tag = some tr) (cls : RunClass) (blk n : Nat) (buf : Option (List Byte))

/-- A sector of the track has a byte in one of `n` blocks. -/
def Geometry.InBlocks (g : Geometry) (tr : Track) (blk n l : Nat) : Prop := ∃ p ∈ g.sectorBlocks tr l, blk ≤ p ∧ p < blk + n

theorem touches_runFor (s : State) (kind : RunKind) (l : Nat) :
    touches s.geom tr (s.runFor cls kind i blk n) l = true ↔ s.geom.InBlocks tr blk n l := by
  have hheld : ∀ p, (s.runFor cls kind i blk n).Held p ↔ blk ≤ p ∧ p < blk + n := by simp [Run.Held, State.runFor]
  simp only [touches_iff_held, hheld, Geometry.InBlocks]

include htag

theorem makeFlush_at : s.makeFlush cls i blk n buf =
    ({ s with cache := s.cache.toFlush s.geom i tr (s.runFor cls .flush i blk n) },
      { s.runFor cls .flush i blk n with
        data := (List.range n).flatMap (fun k => s.cache.fixBlock s.geom i (blk + k) buf)
        members := (s.cache.toFlush s.geom i tr (s.runFor cls .flush i blk n)).flushMembers s.geom i tr (s.runFor cls .flush i blk n)
        merged := buf.isSome }) := by
  simp only [State.makeFlush, htag]

theorem makeFlush_frame : (s.makeFlush cls i blk n buf).1 = { s with cache := { s.cache with
    lines := (s.makeFlush cls i blk n buf).1.cache.lines, flushSerial := s.cache.flushSerial + 1 } } := by
  rw [makeFlush_at htag]
  rfl

theorem makeFlush_line {k : Nat} (hk : k ≠ i) : (s.makeFlush cls i blk n buf).1.cache.line k = s.cache.line k := by
  rw [makeFlush_at htag]
  exact (Cache.line_modLine _ _ _ _ (.inr (.inr hk))).trans (if_neg hk)

theorem makeFlush_tag : ((s.makeFlush cls i blk n buf).1.cache.line i).tag = some tr := by
  rw [makeFlush_at htag]
  exact (Cache.tag_mapSectors _ _ _ _).trans htag

theorem makeFlush_sector {l : Nat} {x : Sector} (hx : s.cache.sector i l = some x) :
    (x.state = .dirty ∧ s.geom.InBlocks tr blk n l → (s.makeFlush cls i blk n buf).1.cache.sector i l =
      some { x with state := .flush, progress := [], stamp := s.cache.flushSerial + 1 }) ∧
    (¬ (x.state = .dirty ∧ s.geom.InBlocks tr blk n l) → (s.makeFlush cls i blk n buf).1.cache.sector i l = some x) := by
  let r := s.runFor cls .flush i blk n
  have hsector : (s.makeFlush cls i blk n buf).1.cache.sector i l = some (if x.state = .dirty ∧ touches s.geom tr r l = true then
      { x.enter .flush with stamp := s.cache.flushSerial + 1 } else x) := by
    rw [makeFlush_at htag]
    refine (Cache.sector_mapSectors _ i i l _).trans ?_
    rw [show ({ s.cache with flushSerial := s.cache.flushSerial + 1 } : Cache).sector i l = some x from hx, Option.map_some, if_pos rfl]
  rw [← touches_runFor cls blk n s .flush l, hsector]
  refine ⟨fun h => ?_, fun h => by rw [if_neg h]⟩
  rw [if_pos h, Sector.enter_of_ne (by rw [h.1]; decide)]

theorem makeFlush_records : s.Records cls .flush i blk n (s.makeFlush cls i blk n buf).2 := by
  rw [makeFlush_at htag]
  exact runFor_records s cls .flush i blk n

theorem makeFlush_merged : (s.makeFlush cls i blk n buf).2.merged = buf.isSome := by rw [makeFlush_at htag]

theorem makeFlush_data : (s.makeFlush cls i blk n buf).2.data =
    (List.range n).flatMap (fun k => s.cache.fixBlock s.geom i (blk + k) buf) := by
  rw [makeFlush_at htag]

theorem makeFlush_data_length : (s.makeFlush cls i blk n buf).2.data.length = 512 * n := by
  rw [makeFlush_data htag, length_pieces (fun k => s.cache.fixBlock_length s.geom i (blk + k) buf), List.length_range, Nat.mul_comm]

theorem mem_makeFlush_members (l stamp : Nat) : (l, stamp) ∈ (s.makeFlush cls i blk n buf).2.members ↔
    s.geom.InBlocks tr blk n l ∧
      ∃ x, (s.makeFlush cls i blk n buf).1.cache.sector i l = some x ∧ x.state = .flush ∧ x.stamp = stamp := by
  rw [makeFlush_at htag, ← touches_runFor cls blk n s .flush l]
  simp only [Cache.flushMembers, List.mem_map, List.mem_filter, Prod.exists, List.mem_zipIdx_iff_getElem?, Bool.and_eq_true, beq_iff_eq,
    Prod.mk.injEq, Cache.sector]
  constructor
  · rintro ⟨x, l', ⟨hx, hst, ht⟩, rfl, hstamp⟩
    exact ⟨ht, x, hx, hst, hstamp⟩
  · rintro ⟨ht, x, hx, hst, hstamp⟩
    exact ⟨x, l, ⟨hx, hst, ht⟩, rfl, hstamp⟩

/-- The bytes of a quarter of the run: its own line's, else the merge buffer's, else another line's. -/
theorem makeFlush_bytes {j m b : Nat} (hj : j < n) (hm : m < 4) (hb : b < 128) :
    let q := 4 * (blk + j) + m
    let byte := byteAt (s.makeFlush cls i blk n buf).2.data (512 * j + 128 * m + b)
    (s.cache.Supplies s.geom i q → s.cache.LineByte s.geom i q b byte) ∧
    (∀ bs, ¬ s.cache.Supplies s.geom i q → buf = some bs → byte = byteAt bs (128 * m + b)) ∧
    (∀ k, ¬ s.cache.Supplies s.geom i q → buf = none → s.cache.HasRest s.geom i (blk + j) k →
      ∃ k, s.cache.HasRest s.geom i (blk + j) k ∧ s.cache.LineByte s.geom k q b byte) := by
  intro q byte
  have hbyte : byte = byteAt (s.cache.fixQuarter s.geom i (blk + j) buf q) b := by
    have hpiece := byteAt_pieces (fun k => s.cache.fixBlock_length s.geom i (blk + k) buf) (List.range n) j (128 * m + b)
      (by rwa [List.length_range]) (by omega)
    rw [List.getElem_range, Cache.byteAt_fixBlock buf hm hb, ← makeFlush_data htag cls, ← Nat.add_assoc] at hpiece
    exact hpiece
  rw [hbyte]
  refine ⟨fun hown => ?_, fun bs hout hbuf => ?_, fun k hout hbuf hk => ?_⟩
  · rw [Cache.fixQuarter_own hown]
    exact Cache.lineByte_quarterBytes hown hb
  · rw [hbuf]
    exact Cache.byteAt_fixQuarter_merged hout hb
  · rw [hbuf]
    exact Cache.lineByte_fixQuarter_other hm hout hk hb

end

end Sys2Proof.Machine
end

section
/-! PROOFS. The slots of the card engine, and the arbiter that fills them (04 R78, R79, 08 R144, R147 to R153). -/

namespace Sys2Proof.Machine

/-! ## The passes (log 32, log 38) -/

/-- One pass: the queue trimmed, a dead fill withdrawn, the queued run displaced or moved up, and the queued slot filled. -/
theorem settle_eq (old s : State) :
    let pass := fun t : State => t.tendQueue.dropDeadFill.displace.promote.fillQueued
    State.settle old s =
      ((s.reactWaiting old.cache).reactAhead old.cache |> pass |> pass |> pass |> pass).tendQueue.refreshClasses.tendStream := rfl

/-! ## The flush queue (R78) -/

theorem tendQueue_eq (s : State) :
    let work := fun k => s.cache.hasWriteWork s.geom s.writeRuns k
    let kept := s.cache.flushQ.filter work
    let joining := s.cache.lru.reverse.filter (fun k => work k && decide (k ∉ kept))
    let all := joining.filter (fun k => decide (s.cache.forced = some k)) ++ kept ++
      joining.filter (fun k => decide (s.cache.forced ≠ some k))
    s.tendQueue = { s with cache := { s.cache with flushQ := if s.mount.state = .draining then all else kept } } := by
  intro work kept joining all
  by_cases hm : s.mount.state = .draining
  · rw [if_pos hm]
    have hjoined : s.tendQueue = { s with cache := (s.cache.trimQueue s.geom s.writeRuns).join work } := if_pos hm
    have hall : ((s.cache.trimQueue s.geom s.writeRuns).join work).flushQ = all := Cache.join_flushQ_eq ..
    rw [hjoined, ← hall]
    rfl
  · rw [if_neg hm]
    exact if_neg hm

/-! ## An empty queued slot (R144, R147) -/

section
variable {s : State} (hq : s.card.queued = none)
include hq

theorem displace_empty : s.displace = s := by simp only [State.displace, hq]

theorem dropDeadFill_empty : s.dropDeadFill = s := by simp only [State.dropDeadFill, hq]

theorem withdraw_empty : s.withdraw = s := by simp only [State.withdraw, hq]

theorem promote_empty : s.promote = s := by
  unfold State.promote
  rw [hq]
  cases s.card.active <;> rfl

theorem fillQueued_empty : s.fillQueued = match s.offer with | some o => s.build o | none => s := by
  unfold State.fillQueued
  rw [hq]
  cases s.offer <;> rfl

end

/-! ## A run in the queued slot (R144, R148, R151) -/

section
variable {s : State} {r : Run} (hq : s.card.queued = some r)

theorem runClass_fill_eq (s : State) (hk : r.kind = .fill) :
    s.runClass r = if r.line ≠ none ∧ s.cache.active = r.line then .demand else .ahead := by
  cases hline : r.line with
  | none => simp [State.runClass, hk, hline]
  | some i => simp [runClass_fill s hk hline]

theorem promote_busy {a : Run} (ha : s.card.active = some a) : s.promote = s := by simp only [State.promote, ha]

theorem withdraw_eq (s : State) : s.withdraw = { s with
    card := { s.card with queued := none }
    cache := { s.cache with lines := s.withdraw.cache.lines, flushQ := s.withdraw.cache.flushQ } } := by
  obtain ⟨lines, flushQ, hframe, -⟩ := withdraw_frame s
  rw [hframe]

theorem withdraw_flushQ_outside_mounted {s : State} (hm : s.mount.state ≠ .mounted) : s.withdraw.cache.flushQ = s.cache.flushQ := by
  obtain ⟨lines, flushQ, hframe, -, hsame⟩ := withdraw_frame s
  rw [hframe]
  exact hsame (s.isMounted_eq_false_iff.2 hm)

include hq

theorem fillQueued_full : s.fillQueued = s := by simp only [State.fillQueued, hq]

theorem displace_higher {o : Offer} (ho : s.offer = some o) (h : o.cls.rank < (s.runClass r).rank) : s.displace = s.withdraw := by
  simp only [State.displace, hq, ho]
  exact if_pos h

theorem displace_not_higher (h : ∀ o, s.offer = some o → (s.runClass r).rank ≤ o.cls.rank) : s.displace = s := by
  unfold State.displace
  rw [hq]
  cases ho : s.offer with
  | none => rfl
  | some o => exact if_neg (Nat.not_lt.2 (h o ho))

theorem dropDeadFill_other (hk : r.kind ≠ .fill) : s.dropDeadFill = s := by
  simp only [State.dropDeadFill, hq]
  split
  · rename_i hfill _ _
    exact absurd hfill hk
  · rfl

theorem dropDeadFill_fill {i f : Nat} {tr : Track} (hk : r.kind = .fill) (hline : r.line = some i) (hfirst : r.firstImage = some f)
    (htrack : r.track = some tr) :
    let alive := s.mount.state ≠ .unmounted ∧ r.mount = some s.mount.serial ∧ (s.cache.line i).tag = some tr ∧
      ∃ k < r.count, s.fillWork i (f + k) = true
    (alive → s.dropDeadFill = s) ∧ (¬ alive → s.dropDeadFill = s.withdraw) := by
  intro alive
  have hcarries : s.cache.carries i (some tr) = true ↔ (s.cache.line i).tag = some tr := by simp [carries_iff]
  have halive : (!s.runEnded r && s.cache.carries i (some tr) && (List.range r.count).any (fun k => s.fillWork i (f + k))) = true ↔
      alive := by
    simp only [Bool.and_eq_true, Bool.not_eq_true', runEnded_eq_false_iff (s := s) (r := r) (by rw [hk]; rfl), hcarries, List.any_eq_true,
      List.mem_range, alive, and_assoc]
  simp only [State.dropDeadFill, hq, hk, hline, hfirst, htrack, ← halive]
  exact ⟨fun h => if_pos h, fun h => if_neg h⟩

theorem promote_free (ha : s.card.active = none) : s.promote = { s with card := { s.card with
    active := some { r with status := .inProgress }, queued := none,
    blockLimit := some (if r.kind = .flush ∨ r.kind = .panelWrite then 6000000 else 2400000) } } := by
  have hlimit : r.kind.limit = if r.kind = .flush ∨ r.kind = .panelWrite then 6000000 else 2400000 := by
    cases r.kind <;> rfl
  simp only [State.promote, ha, hq, State.start, hlimit]

/-! ## A withdrawal (R79, R148) -/

theorem withdraw_other (hk : r.kind ≠ .flush) : s.withdraw = { s with card := { s.card with queued := none } } := by
  simp only [State.withdraw, hq]
  exact if_neg hk

theorem withdraw_flush (hk : r.kind = .flush) :
    s.withdraw = (({ s with card := { s.card with queued := none } } : State).unflush r).rejoin r := by
  simp only [State.withdraw, hq]
  exact if_pos hk

theorem withdraw_rejoins {i : Nat} (hk : r.kind = .flush) (hm : s.mount.state = .mounted) (hline : r.line = some i) (hi : i ∈ s.cache.lru)
    (hw : s.withdraw.cache.hasWriteWork s.geom s.withdraw.writeRuns i = true) : i ∈ s.withdraw.cache.flushQ := by
  rw [withdraw_flush hq hk] at hw ⊢
  let t : State := ({ s with card := { s.card with queued := none } } : State).unflush r
  have ht : t = { s with card := { s.card with queued := none }, cache := { s.cache with lines := t.cache.lines } } := unflush_frame _ r
  have hjoin : t.rejoin r = { t with cache := t.cache.join (fun k => k == i && t.cache.hasWriteWork t.geom t.writeRuns k) } := by
    simp only [State.rejoin, hline]
    exact if_pos (t.isMounted_iff.2 (by rw [ht]; exact hm))
  have hgeom : s.geom = t.geom := by rw [ht]; rfl
  change (t.rejoin r).cache.hasWriteWork s.geom (t.rejoin r).writeRuns i = true at hw
  change i ∈ (t.rejoin r).cache.flushQ
  rw [hjoin, hgeom] at hw
  rw [hjoin, Cache.mem_join_flushQ]
  refine .inr ⟨by rw [ht]; exact hi, ?_⟩
  rw [Bool.and_eq_true, beq_iff_eq]
  exact ⟨rfl, hw⟩

/-- The FLUSH sectors of a withdrawn write run of the standing mount are DIRTY again, and no other sector changes. -/
theorem withdraw_sector (hk : r.kind = .flush) {k l : Nat} {x : Sector} (hx : s.cache.sector k l = some x) :
    let returns := x.state = .flush ∧ s.runEnded r = false ∧ r.line = some k ∧
      ∃ tr, r.track = some tr ∧ (s.cache.line k).tag = some tr ∧ ∃ p ∈ s.geom.sectorBlocks tr l, r.Held p
    (returns → s.withdraw.cache.sector k l = some { x with state := .dirty, progress := [] }) ∧
    (¬ returns → s.withdraw.cache.sector k l = some x) := by
  intro returns
  let t : State := { s with card := { s.card with queued := none } }
  have hsector : s.withdraw.cache.sector k l = (t.unflush r).cache.sector k l := by
    rw [withdraw_flush hq hk, rejoin_frame]
    rfl
  rw [hsector]
  cases hended : s.runEnded r with
  | true =>
    have hsame : t.unflush r = t := by
      unfold State.unflush
      split
      · exact if_pos (by rw [show t.runEnded r = true from hended, Bool.true_or])
      · rfl
    rw [hsame]
    exact ⟨fun h => absurd (hended.symm.trans h.2.1) (by decide), fun _ => hx⟩
  | false =>
    have hreturns : returns ↔ t.Returns r k l x := by
      constructor
      · rintro ⟨hst, -, hline, tr, htrack, htag, hp⟩
        exact ⟨hk, hst, tr, ⟨hline, htrack, htag⟩, hp⟩
      · rintro ⟨-, hst, tr, ⟨hline, htrack, htag⟩, hp⟩
        exact ⟨hst, hended, hline, tr, htrack, htag, hp⟩
    obtain ⟨hdirty, hsame⟩ := unflush_sector (s := t) (r := r) hended hk hx
    rw [hreturns]
    refine ⟨fun h => ?_, hsame⟩
    rw [hdirty h, Sector.enter_of_ne (by rw [h.2.1]; decide)]

end

end Sys2Proof.Machine
end

section
/-! PROOFS. The arbiter of the card engine, clause by clause (08 R144, R147 to R153). -/

namespace Sys2Proof.Machine

section
variable {s : State} (hm : s.mount.state = .mounted)
include hm

/-- A fill of the active line comes before the forced line's write-back. -/
theorem offerDemand_first {i b : Nat} {tr : Track} (hactive : s.cache.active = some i) (htag : (s.cache.line i).tag = some tr)
    (h : FirstOf (s.cache.demandOrder s.geom i) (s.FillFree i) b) :
    s.offerDemand = some (.fill .demand i b (s.cache.passEnd s.geom tr b)) := by
  rw [offerDemand_mounted hm, offerDemandFill_some hactive htag (find?_of_firstOf (s.fillFree_iff i) h), Option.some_or]

theorem offerDemand_forced (h : ∀ i b, s.cache.active = some i → b ∈ s.cache.lineBlocks s.geom i → ¬ s.FillFree i b) :
    s.offerDemand = s.offerForced := by
  rw [offerDemand_mounted hm, offerDemandFill_none h, Option.none_or]

theorem offerAhead_none_of_free
    (h : ∀ k ∈ s.cache.lru, (s.cache.line k).pinned = true ∨ ∀ b ∈ s.cache.lineBlocks s.geom k, ¬ s.FillFree k b) : s.offerAhead = none := by
  refine offerAhead_none hm fun k hk ⟨hpin, b, hb, hfree⟩ => ?_
  rcases h k hk with hpinned | hnone
  · exact absurd (hpin.symm.trans hpinned) (by decide)
  · exact hnone b hb hfree

end

/-- Settles O32: the offers, the runs that are built from them, and the slots that the passes fill. -/
theorem theArbiterFillsTheSlots : Obligations.TheArbiterFillsTheSlots := by
  refine ⟨settle_eq, fun s => ⟨fun i tr htag b => Cache.mem_lineBlocks htag b, offer_not_ready, offer_ready,
    fun hm => ⟨offerDemand_outside_mounted hm, offerAhead_outside_mounted hm⟩,
    fun hm => ⟨fun i tr b hactive htag h => offerDemand_first hm hactive htag h, offerDemand_forced hm⟩,
    fun cls i => ⟨offerFlush_none cls, fun b h => offerFlush_first cls h⟩, offerPanel_iff s, fun o ho => ?_,
    offerWriteback_fallen, offerWriteback_standing,
    fun hm => ⟨fun i tr b hi htag h => offerAhead_first hm hi htag h, offerAhead_none_of_free hm⟩,
    ⟨fun hcap => ⟨fun cls i blk last => build_fill cls i blk last hcap, fun cls i blk h => build_merge cls h,
        fun cls i blk h => ⟨_, flushCount_longest i blk hcap, build_flush cls h⟩⟩,
      fun w hw => ⟨w.run, build_panel hw, rfl, rfl, rfl, rfl, rfl, rfl⟩,
      fun cls i blk n buf tr htag => ⟨makeFlush_frame htag cls blk n buf, fun k hk => makeFlush_line htag cls blk n buf hk,
        makeFlush_tag htag cls blk n buf, fun l x hx => makeFlush_sector htag cls blk n buf hx, makeFlush_records htag cls blk n buf,
        makeFlush_merged htag cls blk n buf, makeFlush_data_length htag cls blk n buf, mem_makeFlush_members htag cls blk n buf,
        fun j m b hj hm hb => makeFlush_bytes htag cls blk n buf hj hm hb⟩⟩,
    rfl, tendQueue_eq s,
    fun hq => ⟨displace_empty hq, dropDeadFill_empty hq, withdraw_empty hq, promote_empty hq, fillQueued_empty hq⟩, fun r hq => ?_⟩⟩
  · rcases offerPanel_cases s with h | h
    · exact (Option.some.inj (h.symm.trans ho)).symm
    · exact absurd (h.symm.trans ho) (by simp)
  · refine ⟨fillQueued_full hq, runClass_fill_eq s, runClass_write, runClass_panel, fun o ho hlt => displace_higher hq ho hlt,
      displace_not_higher hq, dropDeadFill_other hq, fun i f tr hk hline hfirst htrack => dropDeadFill_fill hq hk hline hfirst htrack,
      fun a ha => promote_busy ha, promote_free hq, withdraw_other hq, fun hk => ⟨withdraw_eq s, withdraw_flushQ_outside_mounted,
      fun i hm hline hi hw => withdraw_rejoins hq hk hm hline hi hw, fun k l x hx => withdraw_sector hq hk hx⟩⟩

end Sys2Proof.Machine
end
section
/-! PROOFS. The service link (09 R165 to R170): requests answered BUSY, and the replies that the link unit makes itself. -/

namespace Sys2Proof.Machine

/-! ## Replies of the link unit's own (R170, R191) -/

/-- A reply that waits stays until the transmitter takes it up (R171). -/
theorem Link.startTx_keeps_reply {l : Link} {r : Reply} (h : r ∈ l.replies) :
    r ∈ l.startTx.replies ∨ ∃ f, l.startTx.tx = some f ∧ f.bytes = r.frame ∧ f.ofRequest = r.ofRequest := by
  rcases l.startTx_cases with e | ⟨first, rest, -, hr, e⟩ | ⟨n, rest, -, hr, -, e⟩
  · rw [e]
    exact .inl h
  · rw [e]
    rcases List.mem_cons.1 (hr ▸ h) with rfl | hrest
    · exact .inr ⟨_, rfl, rfl, rfl⟩
    · exact .inl hrest
  · exact absurd (hr ▸ h) List.not_mem_nil

theorem Link.ownReplied_executing (l : Link) (kind tag : Byte) (st : ReplyStatus) : (l.ownReplied kind tag st).executing = l.executing :=
  (Link.startTx_sameBase _).executing

theorem Link.ownReplied_hasOwnReply (l : Link) (kind tag : Byte) (st : ReplyStatus) :
    (l.ownReplied kind tag st).hasOwnReply kind tag st :=
  Link.startTx_keeps_reply (List.mem_append_right _ (List.mem_singleton_self _))

/-- With fewer than three such replies waiting the reply is made. -/
theorem Link.offer_made {l : Link} (kind tag : Byte) (st : ReplyStatus) (h : l.replies.countP (fun r => !r.ofRequest) < 3) :
    l.rxIdle.offer kind tag st = l.ownReplied kind tag st := if_pos h

theorem Link.offer_not_made {l : Link} (kind tag : Byte) (st : ReplyStatus) (h : 3 ≤ l.replies.countP (fun r => !r.ofRequest)) :
    l.rxIdle.offer kind tag st = l.rxIdle := if_neg (Nat.not_lt.2 h)

/-- A command that comes to the offer of a reply makes it while fewer than three wait, and touches nothing outside the link. -/
theorem exec_offers {s : State} {c : Instr} {kind tag : Byte} {st : ReplyStatus}
    (hc : exec c s = .next { s with link := s.link.rxIdle.offer kind tag st }) (h : s.link.replies.countP (fun r => !r.ofRequest) < 3) :
    ∃ t, exec c s = .next t ∧ t = { s with link := s.link.ownReplied kind tag st } ∧ t.link.executing = s.link.executing ∧
      t.link.hasOwnReply kind tag st :=
  ⟨_, hc, by rw [Link.offer_made kind tag st h], by rw [Link.offer_made kind tag st h]; exact Link.ownReplied_executing _ _ _ _,
    by rw [Link.offer_made kind tag st h]; exact Link.ownReplied_hasOwnReply _ _ _ _⟩

theorem exec_offers_nothing {s : State} {c : Instr} {kind tag : Byte} {st : ReplyStatus}
    (hc : exec c s = .next { s with link := s.link.rxIdle.offer kind tag st }) (h : 3 ≤ s.link.replies.countP (fun r => !r.ofRequest)) :
    exec c s = .next { s with link := s.link.rxIdle } := by
  rw [hc, Link.offer_not_made kind tag st h]

/-! ## Requests by their rows, and BUSY (R168) -/

/-- The row of a request does what the dispatch of its kind does. -/
theorem exec_requestRow {kind tag : Byte} {p : List Byte} {c : Instr} (h : requestRow kind.toNat tag p = some c) (s : State) :
    exec c s = .next (whenPowered (fun t => t.dispatch kind tag p) s) := by
  unfold State.dispatch
  generalize kind.toNat = k at h
  match k, h with
  | 1, rfl | 2, rfl | 3, rfl | 4, rfl | 5, rfl | 6, rfl | 7, rfl | 8, rfl | 9, rfl | 10, rfl => rfl

/-- A kind that is none of the ten is dispatched as UNKNOWN_KIND. -/
theorem State.dispatch_unknown (s : State) {kind tag : Byte} {p : List Byte} (h : requestRow kind.toNat tag p = none) :
    s.dispatch kind tag p = s.takeUnknown tag := by
  unfold State.dispatch
  generalize kind.toNat = k at h
  match k, h with
  | 0, _ | _ + 11, _ => rfl

/-- A request that does not enter execution has no reactions: its row is the arrival alone, whatever its kind (log 32). -/
theorem exec_request_refused {s : State} {k : Nat} {tag : Byte} {p : List Byte} {c : Instr} (hp : s.powered = true)
    (hr : s.takesRequest = false) (h : requestRow k tag p = some c) : ∃ body, exec c s = .next (s.request k tag p body) := by
  have arrives : ∀ {f : State → State}, exec c s = .next (whenPowered f s) → exec c s = .next (f s) :=
    fun hc => hc.trans (by rw [whenPowered_present _ hp])
  have tended : ∀ {f : State → State}, exec c s = .next (whenPowered (tendingWhen State.takesRequest f) s) → exec c s = .next (f s) :=
    fun hc => (arrives hc).trans (by rw [tendingWhen_refused _ hr])
  have settled : ∀ {f : State → State}, exec c s = .next (whenPowered (settlingWhen State.takesRequest f) s) → exec c s = .next (f s) :=
    fun hc => exec_settling_refused hc hp hr
  match k, h with
  | 1, rfl | 3, rfl | 9, rfl | 10, rfl => exact ⟨_, arrives rfl⟩
  | 2, rfl | 4, rfl => exact ⟨_, tended rfl⟩
  | 5, rfl | 6, rfl | 7, rfl | 8, rfl => exact ⟨_, settled rfl⟩

theorem State.request_busy {s : State} {q : Request} (hb : s.link.breakLow = false) (hq : s.link.executing = some q) (k : Nat) (tag : Byte)
    (p : List Byte) (body : State → State) :
    s.request k tag p body = { s with link := s.link.rxIdle.offer (0x80#8 + byteOf k) tag .busy } := by
  have hx : s.link.rxIdle.executing = some q := hq
  simp [State.request, hb, hx]

/-- Settles O19: a request that another one keeps out of execution is an offer of a BUSY reply. -/
theorem busyWhileARequestIsInExecution : Obligations.BusyWhileARequestIsInExecution := by
  intro s k tag p c q hp hb hq hrow
  have hrefused : s.takesRequest = false := by simp [State.takesRequest, hq]
  obtain ⟨body, hc⟩ := exec_request_refused hp hrefused hrow
  rw [State.request_busy hb hq] at hc
  refine ⟨fun hfew => ?_, exec_offers_nothing hc⟩
  obtain ⟨t, ht, heq, hx, hreply⟩ := exec_offers hc hfew
  exact ⟨t, ht, heq, hx.trans hq, hreply⟩

/-! ## Bad frames and discards (R164 to R168) -/

/-- UNKNOWN_KIND and FRAME_ERROR are offers of their replies, outside a link break. -/
theorem exec_badFrame {s : State} {c : Instr} {tag : Byte} {st : ReplyStatus} (hp : s.powered = true)
    (h : (∃ k, c = .unknownKind k tag ∧ st = .unknownKind) ∨ (c = .frameError ∧ tag = 0xFF#8 ∧ st = .frameError)) :
    exec c s = .next (if s.link.breakLow then s else { s with link := s.link.rxIdle.offer 0x80#8 tag st }) := by
  rcases h with ⟨k, rfl, rfl⟩ | ⟨rfl, rfl, rfl⟩
  · exact congrArg Host.Outcome.next (whenPowered_present (fun t => t.takeUnknown tag) hp)
  · exact congrArg Host.Outcome.next (whenPowered_present State.takeBadFrame hp)

/-- Settles O34: the two replies are offers, and the three discards bring the receiver to rest. -/
theorem badFramesAndDiscards : Obligations.BadFramesAndDiscards := by
  constructor
  · intro s c tag st hp hrow
    have hc := exec_badFrame hp hrow
    have hoffers : s.link.breakLow = false → exec c s = .next { s with link := s.link.rxIdle.offer 0x80#8 tag st } :=
      fun hb => hc.trans (by rw [if_neg (by simp [hb])])
    exact ⟨fun hb => hc.trans (by rw [if_pos hb]), fun hb => exec_offers (hoffers hb), fun hb => exec_offers_nothing (hoffers hb)⟩
  · intro s hp c hc
    have hdiscard : whenPowered State.discardFrame s = s.discardFrame := whenPowered_present _ hp
    simp only [List.mem_cons, List.not_mem_nil, or_false] at hc
    rcases hc with rfl | rfl | rfl <;> exact congrArg Host.Outcome.next hdiscard

end Sys2Proof.Machine
end
section
/-! PROOFS. The transmitter, the notice queue and the link break (09 R163, R169 to R175). -/

namespace Sys2Proof.Machine

/-! ## What the transmitter takes up (R171) -/

theorem Link.startTx_held {l : Link} (h : l.tx ≠ none ∨ l.breakLow = true ∨ l.resetDue = true) : l.startTx = l :=
  if_pos (by simpa [Option.isSome_iff_ne_none, or_assoc] using h)

section
variable {l : Link} (htx : l.tx = none) (hb : l.breakLow = false) (hd : l.resetDue = false)
include htx hb hd

theorem Link.startTx_reply {r : Reply} {rest : List Reply} (hr : l.replies = r :: rest) :
    l.startTx = Link.send { l with replies := rest } r.frame r.ofRequest := by
  simp [Link.startTx, htx, hb, hd, hr]

theorem Link.startTx_notice {n : Notice} {rest : List Notice} (hr : l.replies = []) (hn : l.notices = n :: rest) :
    l.startTx = Link.send { l with notices := rest } n.frame false := by
  simp [Link.startTx, htx, hb, hd, hr, hn]

theorem Link.startTx_nothing (hr : l.replies = []) (hn : l.notices = []) : l.startTx = l := by
  simp [Link.startTx, htx, hb, hd, hr, hn]

end

/-! ## The end of a frame (R169, R171, R188) -/

theorem Link.frameSent_idle {l : Link} (h : l.tx = none) : l.frameSent = l := by
  simp [Link.frameSent, h]

section
variable {l : Link} {f : TxFrame} (hf : l.tx = some f)
include hf

/-- A frame that answers no request in execution only frees the transmitter. -/
theorem Link.frameSent_other (h : f.ofRequest = false ∨ l.executing = none) : l.frameSent = Link.startTx { l with tx := none } := by
  unfold Link.frameSent
  rw [hf]
  rcases h with h | h <;> simp [h]

theorem Link.frameSent_reply {q : Request} (ho : f.ofRequest = true) (hq : l.executing = some q) (hr : q.resets = false) :
    l.frameSent = Link.startTx { l with tx := none, executing := none } := by
  simp [Link.frameSent, hf, ho, hq, hr]

theorem Link.frameSent_reset {q : Request} (ho : f.ofRequest = true) (hq : l.executing = some q) (hr : q.resets = true) :
    l.frameSent = { l with tx := none, resetDue := true } := by
  simp [Link.frameSent, hf, ho, hq, hr]

end

/-! ## The transmit line (R163) -/

theorem Link.charTime_cases (l : Link) : l.charTime = 6250 ∨ l.charTime = 25000 := by
  unfold Link.charTime
  cases l.fast <;> simp

/-- Of a frame of `len` characters, the time left while bit `k` of character `n` is sent gives `n` and `k` back. -/
theorem Link.place_in_frame (l : Link) {left len n k rest : Nat} (hn : n < len) (hk : k < 10) (hrest : rest < l.charTime / 10)
    (h : left + n * l.charTime + k * (l.charTime / 10) + rest = len * l.charTime) :
    left ≠ 0 ∧ (len * l.charTime - left) / l.charTime = n ∧ (len * l.charTime - left) % l.charTime / (l.charTime / 10) = k := by
  rcases l.charTime_cases with hct | hct <;> rw [hct] at h hrest ⊢ <;> omega

theorem characterBit_eq (b : Byte) {k : Nat} (hk : k < 10) :
    characterBit b k = if k = 0 then false else if k = 9 then true else b.getLsbD (k - 1) := by
  unfold characterBit
  by_cases hstop : k = 9
  · simp [hstop]
  · rw [if_pos (show k ≤ 8 by omega), if_neg hstop]

theorem Link.txLine_bit {l : Link} {f : TxFrame} {n k rest : Nat} (hf : l.tx = some f) (hn : n < f.bytes.length) (hk : k < 10)
    (hrest : rest < l.charTime / 10)
    (h : f.left + n * l.charTime + k * (l.charTime / 10) + rest = f.bytes.length * l.charTime) :
    l.txLine = characterBit (byteAt f.bytes n) k := by
  obtain ⟨hleft, hchar, hbit⟩ := l.place_in_frame hn hk hrest h
  simp only [Link.txLine, hf, if_neg hleft, hchar, hbit]

/-- Settles O37: the transmitter's choice, the four ends of a frame, and the place in the frame that the time left gives. -/
theorem frameSentChoosesTheNext : Obligations.FrameSentChoosesTheNext := by
  refine ⟨fun l => ⟨Link.startTx_held, fun htx hb hd => ⟨fun r rest hr => Link.startTx_reply htx hb hd hr,
    fun n rest hr hn => Link.startTx_notice htx hb hd hr hn, Link.startTx_nothing htx hb hd⟩⟩, fun s hp => ?_,
    fun l => ⟨rfl, fun htx => by simp [Link.txLine, htx], fun f n k rest hf hn hk hrest h => ?_⟩⟩
  · have hsent : exec .frameSent s = .next { s with link := s.link.frameSent } :=
      congrArg Host.Outcome.next (whenPowered_present State.linkSent hp)
    rw [hsent]
    refine ⟨fun h => by rw [Link.frameSent_idle h], fun f hf h => by rw [Link.frameSent_other hf h],
      fun f q hf ho hq hr => by rw [Link.frameSent_reply hf ho hq hr], fun f q hf ho hq hr => by rw [Link.frameSent_reset hf ho hq hr],
      fun f hb hf ho => ?_⟩
    rw [Link.frameSent_other hf (.inl ho), Link.startTx_held (l := { s.link with tx := none }) (.inr (.inl hb))]
  · rw [Link.txLine_bit hf hn hk hrest h, characterBit_eq _ hk]

/-! ## Notices (R60, R172, R173) -/

theorem Link.enqueue_joins {l : Link} (b : NoticeBody) (h : l.notices.length < 16) :
    l.enqueue b = Link.startTx { l with notices := l.notices ++ [{ body := b, dropped := l.dropped }], dropped := false } := if_pos h

theorem Link.enqueue_full {l : Link} (b : NoticeBody) (h : 16 ≤ l.notices.length) : l.enqueue b = { l with dropped := true } :=
  if_neg (Nat.not_lt.2 h)

/-- The transmitter leaves the mark alone. -/
theorem Link.startTx_dropped (l : Link) : l.startTx.dropped = l.dropped := by
  rcases l.startTx_cases with h | ⟨r, rest, -, -, h⟩ | ⟨n, rest, -, -, -, h⟩ <;> rw [h] <;> rfl

theorem Link.post_masked {l : Link} {b : NoticeBody} (h : l.options.noticeMask.getLsbD (b.code - 1) = false) : l.post b = l :=
  if_pos (by simp [Link.unmasked, h])

theorem Link.post_other {l : Link} {b : NoticeBody} (hb : ∀ m set, b ≠ .extentReached m set)
    (h : l.options.noticeMask.getLsbD (b.code - 1) = true) : l.post b = l.enqueue b := by
  unfold Link.post
  rw [if_neg (by simp [Link.unmasked, h])]
  split
  · exact absurd rfl (hb _ _)
  · rfl

/-- An EXTENT_REACHED of mount `m` waits (R60). -/
def Link.ExtentWaits (l : Link) (m : Nat) : Prop := ∃ n ∈ l.notices, ∃ old, n.body = .extentReached m old

theorem Notice.isExtentOf_iff (n : Notice) (m : Nat) : n.isExtentOf m = true ↔ ∃ old, n.body = .extentReached m old := by
  unfold Notice.isExtentOf
  cases n.body <;> simp

theorem Link.any_isExtentOf_iff (l : Link) (m : Nat) : l.notices.any (fun n => n.isExtentOf m) = true ↔ l.ExtentWaits m := by
  simp [Link.ExtentWaits, Notice.isExtentOf_iff]

theorem Link.post_extent_merges {l : Link} {m : Nat} (set : BitVec 64) (h : l.options.noticeMask.getLsbD 5 = true)
    (hw : l.ExtentWaits m) : l.post (.extentReached m set) =
      { l with notices := l.notices.map (fun n => if n.isExtentOf m then n.addExtents set else n) } := by
  have hmask : ¬ (!l.unmasked (.extentReached m set)) = true := by simp [Link.unmasked, NoticeBody.code, h]
  exact (if_neg hmask).trans (if_pos ((l.any_isExtentOf_iff m).2 hw))

theorem Link.post_extent_new {l : Link} {m : Nat} (set : BitVec 64) (h : l.options.noticeMask.getLsbD 5 = true)
    (hw : ¬ l.ExtentWaits m) : l.post (.extentReached m set) = l.enqueue (.extentReached m set) := by
  have hmask : ¬ (!l.unmasked (.extentReached m set)) = true := by simp [Link.unmasked, NoticeBody.code, h]
  exact (if_neg hmask).trans (if_neg (mt (l.any_isExtentOf_iff m).1 hw))

/-- Settles O38: a notice that is not masked off joins the queue or finds it full, but for an EXTENT_REACHED that is merged. -/
theorem noticesAreMaskedQueuedOrDropped : Obligations.NoticesAreMaskedQueuedOrDropped := by
  refine ⟨fun l b hb => ⟨Link.post_masked, fun h hfull => ?_, fun h hlen => ?_⟩,
    fun l m set => ⟨fun h => Link.post_masked (b := .extentReached m set) h, fun h hw => ?_, fun h hw hfull => ?_,
      fun h hw hlen => ?_⟩⟩
  · rw [Link.post_other hb h, Link.enqueue_full b hfull]
  · rw [Link.post_other hb h]
    exact ⟨Link.enqueue_joins b hlen, by rw [Link.enqueue_joins b hlen, Link.startTx_dropped], Link.hasNotice_enqueue b hlen⟩
  · rw [Link.post_extent_merges set h hw]
    congr 1
    refine List.map_congr_left fun n _ => ?_
    rcases n with ⟨body, dropped⟩
    cases body with
    | extentReached k old => by_cases hk : k = m <;> simp [Notice.isExtentOf, Notice.addExtents, hk]
    | _ => rfl
  · rw [Link.post_extent_new set h hw, Link.enqueue_full _ hfull]
  · rw [Link.post_extent_new set h hw]
    exact ⟨Link.enqueue_joins _ hlen, Link.hasNotice_enqueue _ hlen⟩

/-! ## The link break (R174, R175) -/

/-- The link unit during a break, with what has become of the request in execution: the receiver at rest, the frame in sending cut off, both
queues empty, the mark cleared. -/
def Link.broken (l : Link) (executing : Option Request) (resetDue : Bool) : Link :=
  { l.rxIdle with tx := l.cutTx, breakLow := true, replies := [], notices := [], dropped := false, executing := executing
                  resetDue := resetDue }

theorem Link.takeBreak_idle {l : Link} (h : l.executing = none) : l.takeBreak = l.broken none l.resetDue := by
  simp [Link.takeBreak, Link.broken, Link.rxIdle, h]

section
variable {l : Link} {q : Request} (h : l.executing = some q)
include h

theorem Link.takeBreak_unanswered (hm : q.made = false) : l.takeBreak = l.broken (some { q with drop := true }) l.resetDue := by
  simp [Link.takeBreak, Link.broken, Link.rxIdle, h, hm]

theorem Link.takeBreak_answered (hm : q.made = true) (hr : q.resets = false) : l.takeBreak = l.broken none l.resetDue := by
  simp [Link.takeBreak, Link.broken, Link.rxIdle, h, hm, hr]

theorem Link.takeBreak_reset (hm : q.made = true) (hr : q.resets = true) : l.takeBreak = l.broken (some q) true := by
  simp [Link.takeBreak, Link.broken, Link.rxIdle, h, hm, hr]

end

/-- Whatever request is in execution, the rest of the link unit is broken off in the same way. -/
theorem Link.takeBreak_broken (l : Link) : ∃ x d, l.takeBreak = l.broken x d := by
  cases h : l.executing with
  | none => exact ⟨_, _, Link.takeBreak_idle h⟩
  | some q =>
    cases hm : q.made with
    | false => exact ⟨_, _, Link.takeBreak_unanswered h hm⟩
    | true =>
      cases hr : q.resets with
      | false => exact ⟨_, _, Link.takeBreak_answered h hm hr⟩
      | true => exact ⟨_, _, Link.takeBreak_reset h hm hr⟩

theorem Link.takeBreak_tx (l : Link) : l.takeBreak.tx = l.cutTx := by
  obtain ⟨x, d, h⟩ := l.takeBreak_broken
  rw [h]
  rfl

theorem Link.cutTx_idle {l : Link} (h : l.tx = none) : l.cutTx = none := by
  simp [Link.cutTx, h]

section
variable {l : Link} {f : TxFrame} (hf : l.tx = some f) {n rest : Nat}
include hf

/-- Between two characters the frame is cut at once (log 31). -/
theorem Link.cutTx_between (hleft : f.left = n * l.charTime) : l.cutTx = none := by
  have hmod : f.left % l.charTime = 0 := by rw [hleft, Nat.mul_mod_left]
  simp only [Link.cutTx, hf, if_pos hmod]

/-- Within a character, that one is the last; the `n` after it are left out. -/
theorem Link.cutTx_within (hrest : rest < l.charTime) (hleft : f.left = n * l.charTime + rest) (h : rest ≠ 0) :
    l.cutTx = some { bytes := f.bytes.take (f.bytes.length - n), ofRequest := false, left := rest } := by
  have hmod : f.left % l.charTime = rest := by rw [hleft, Nat.mul_add_mod', Nat.mod_eq_of_lt hrest]
  have hdiv : f.left / l.charTime = n := Nat.div_eq_of_lt_le (by omega) (by rw [Nat.succ_mul]; omega)
  simp only [Link.cutTx, hf, hmod, hdiv, if_neg h]

end

/-- Settles O39: the break by what is in sending and by the request in execution, and its end by what is still in sending. -/
theorem linkBreakAndItsEnd : Obligations.LinkBreakAndItsEnd := by
  intro s hp
  have hbreak : exec .linkBreak s = .next (if s.link.breakLow then s else { s with link := s.link.takeBreak }) :=
    congrArg Host.Outcome.next (whenPowered_present State.linkBreaks hp)
  have hend : exec .linkBreakEnd s = .next (if s.link.breakLow then { s with link := s.link.endBreak } else s) :=
    congrArg Host.Outcome.next (whenPowered_present State.linkReturns hp)
  refine ⟨fun hb => by rw [hbreak, if_pos hb], fun hb => ⟨_, by rw [hbreak, if_neg (by simp [hb])], ?_, fun htx => ?_,
      fun f n rest hf hrest hleft => ⟨fun h => ?_, fun h => ?_⟩, fun hx => ?_, fun q hq hm => ?_, fun q hq hm hr => ?_,
      fun q hq hm hr => ?_⟩,
    fun hb => by rw [hend, if_neg (by simp [hb])], fun hb htx => ?_, fun hb _ => by rw [hend, if_pos hb]; rfl⟩
  · obtain ⟨x, d, h⟩ := s.link.takeBreak_broken
    rw [h]
    rfl
  · exact s.link.takeBreak_tx.trans (Link.cutTx_idle htx)
  · exact s.link.takeBreak_tx.trans (Link.cutTx_between (n := n) hf (by rw [hleft, h]; rfl))
  · exact s.link.takeBreak_tx.trans (Link.cutTx_within hf hrest hleft h)
  · rw [Link.takeBreak_idle hx]
    exact ⟨rfl, rfl⟩
  · rw [Link.takeBreak_unanswered hq hm]
    exact ⟨rfl, rfl⟩
  · rw [Link.takeBreak_answered hq hm hr]
    exact ⟨rfl, rfl⟩
  · rw [Link.takeBreak_reset hq hm hr]
    exact ⟨rfl, rfl⟩
  · rw [hend, if_pos hb, Link.endBreak, Link.startTx_held (l := { s.link with breakLow := false }) (.inl htx)]

end Sys2Proof.Machine
end
section
/-! PROOFS. The receiver (09 R164 to R168): the characters of a frame, and a frame received as it was sent. -/

namespace Sys2Proof.Machine

/-! ## The length of a frame (R164, R180) -/

theorem frameLength_eq (low high : Byte) (rest : List Byte) : frameLength (low :: high :: rest) = low.toNat + 256 * high.toNat :=
  ofLe_two _ 0

/-- What follows the two length bytes does not change the length. -/
theorem frameLength_append {bytes : List Byte} (h : 2 ≤ bytes.length) (rest : List Byte) :
    frameLength (bytes ++ rest) = frameLength bytes := by
  match bytes, h with
  | low :: high :: bytes, _ => exact (frameLength_eq low high (bytes ++ rest)).trans (frameLength_eq low high bytes).symm

theorem frameLength_le2 {n : Nat} (h : n < 65536) (rest : List Byte) : frameLength (le2 n ++ rest) = n := by
  refine (frameLength_eq _ _ rest).trans ?_
  simp only [byteOf, BitVec.toNat_ofNat]
  omega

/-! ## A character, receiver state by receiver state (R164, R165, R175) -/

theorem State.character_in_break {s : State} (h : s.link.breakLow = true) (c : Byte) : s.character c = s := if_pos h

section
variable {s : State} (hb : s.link.breakLow = false)
include hb

theorem State.character_hunt_start (h : s.link.rx = .hunt) : s.character 0xC5#8 = s.rxGoOn .length [] := by
  simp [State.character, hb, h]

theorem State.character_hunt_other {c : Byte} (h : s.link.rx = .hunt) (hc : c ≠ 0xC5#8) : s.character c = s := by
  simp [State.character, hb, h, hc]

theorem State.character_first_length (c : Byte) (h : s.link.rx = .length) (hbytes : s.link.rxBytes = []) :
    s.character c = s.rxGoOn .length [c] := by
  simp [State.character, hb, h, hbytes, State.rxLength]

theorem State.character_second_length {low : Byte} (c : Byte) (h : s.link.rx = .length) (hbytes : s.link.rxBytes = [low]) :
    s.character c = if 2 ≤ low.toNat + 256 * c.toNat ∧ low.toNat + 256 * c.toNat ≤ 530 then s.rxGoOn .body [low, c]
      else s.discardFrame := by
  simp [State.character, hb, h, hbytes, State.rxLength, frameLength_eq]

theorem State.character_body (c : Byte) (h : s.link.rx = .body) (hlen : 2 ≤ s.link.rxBytes.length) :
    s.character c = s.rxGoOn (if frameLength s.link.rxBytes + 2 ≤ s.link.rxBytes.length + 1 then .check else .body)
      (s.link.rxBytes ++ [c]) := by
  simp [State.character, hb, h, frameLength_append hlen]

theorem State.character_check (c : Byte) (h : s.link.rx = .check) (hlen : 2 ≤ s.link.rxBytes.length) :
    s.character c = if frameLength s.link.rxBytes + 4 ≤ s.link.rxBytes.length + 1 then s.discardFrame.frameDone (s.link.rxBytes ++ [c])
      else s.rxGoOn .check (s.link.rxBytes ++ [c]) := by
  simp [State.character, hb, h, frameLength_append hlen]

end

/-- Settles O35: each receiver state in turn. -/
theorem charactersMoveTheReceiver : Obligations.CharactersMoveTheReceiver := by
  intro s c hp takes
  have hexec : exec (.characterReceived c) s = .next (s.character c) :=
    congrArg Host.Outcome.next (whenPowered_present (fun t => t.character c) hp)
  have htakes : ∀ {rx bytes}, s.character c = s.rxGoOn rx bytes → takes rx bytes := fun h => hexec.trans (by rw [h]; rfl)
  refine ⟨fun hb _ => ?_, fun hb hrx hc => ?_, fun hb hrx hc => htakes ?_, fun hb hrx hbytes => htakes ?_,
    fun low hb hrx hbytes => ⟨fun hlen => htakes ?_, fun hlen => ?_⟩,
    fun hb hrx hlen => ⟨fun hmore => htakes ?_, fun hlast => htakes ?_⟩,
    fun hb hrx hlen hmore => htakes ?_, fun hb hrx hlen hlast => ?_⟩
  · rw [hexec, State.character_in_break hb]
  · rw [hexec, State.character_hunt_other hb hrx hc]
  · rw [hc, State.character_hunt_start hb hrx]
  · exact State.character_first_length hb c hrx hbytes
  · rw [State.character_second_length hb c hrx hbytes, if_pos hlen]
  · rw [hexec, State.character_second_length hb c hrx hbytes, if_neg hlen]
    rfl
  · rw [State.character_body hb c hrx hlen, if_neg (Nat.not_le.2 hmore)]
  · rw [State.character_body hb c hrx hlen, if_pos hlast]
  · rw [State.character_check hb c hrx hlen, if_neg (Nat.not_le.2 hmore)]
  · rw [hexec, State.character_check hb c hrx hlen, if_pos hlast]

/-! ## A whole frame (R164, R165, R180) -/

/-- What the check of a frame covers: the length, the kind, the tag and the payload (R23, R180). -/
def frameCovered (kind tag : Byte) (payload : List Byte) : List Byte := le2 (payload.length + 2) ++ [kind, tag] ++ payload

/-- The check bytes of a frame, high byte first (R23, R180). -/
def frameCheck (kind tag : Byte) (payload : List Byte) : List Byte := checkBytes (crcBytes crcPreset (frameCovered kind tag payload))

theorem frameBytes_eq (kind tag : Byte) (payload : List Byte) :
    frameBytes kind tag payload = 0xC5#8 :: (frameCovered kind tag payload ++ frameCheck kind tag payload) := rfl

/-- The check of a frame is good (R23). -/
theorem crcBytes_frame (kind tag : Byte) (payload : List Byte) :
    crcBytes crcPreset (frameCovered kind tag payload ++ frameCheck kind tag payload) = 0#16 := by
  rw [crcBytes_append, frameCheck, crcBytes_checkBytes]

section
variable {payload : List Byte} (hp : payload.length ≤ 528) (kind tag : Byte)
include hp

theorem frameLength_frameCovered (rest : List Byte) : frameLength (frameCovered kind tag payload ++ rest) = payload.length + 2 := by
  rw [frameCovered, List.append_assoc, List.append_assoc, frameLength_le2 (by omega)]

/-- A frame with its own check is dispatched as it was built: the check is good, and kind, tag and payload stand in their places. -/
theorem State.frameDone_frame (s : State) :
    s.frameDone (frameCovered kind tag payload ++ frameCheck kind tag payload) = s.dispatch kind tag payload := by
  unfold State.frameDone
  rw [if_pos (crcBytes_frame kind tag payload), frameLength_frameCovered hp]
  simp [frameCovered, le2, byteAt, bytesAt]

end

section
variable {s : State} (hb : s.link.breakLow = false)
include hb

theorem State.foldl_character_lengths {low high : Byte} (hlow : 2 ≤ low.toNat + 256 * high.toNat)
    (hhigh : low.toNat + 256 * high.toNat ≤ 530) :
    [low, high].foldl State.character (s.rxGoOn .length []) = s.rxGoOn .body [low, high] := by
  have hfirst : (s.rxGoOn .length []).character low = s.rxGoOn .length [low] :=
    State.character_first_length (s := s.rxGoOn .length []) hb low rfl rfl
  have hsecond : (s.rxGoOn .length [low]).character high = s.rxGoOn .body [low, high] :=
    (State.character_second_length (s := s.rxGoOn .length [low]) hb high rfl rfl).trans (if_pos ⟨hlow, hhigh⟩)
  rw [List.foldl_cons, hfirst, List.foldl_cons, hsecond, List.foldl_nil]

/-- RX_BODY takes as many characters as the length gives and hands over to RX_CHECK with the last of them (R165). -/
theorem State.foldl_character_body (cs : List Byte) (bytes : List Byte) (hne : cs ≠ []) (hlen : 2 ≤ bytes.length)
    (hcount : bytes.length + cs.length = frameLength bytes + 2) :
    cs.foldl State.character (s.rxGoOn .body bytes) = s.rxGoOn .check (bytes ++ cs) := by
  induction cs generalizing bytes with
  | nil => exact absurd rfl hne
  | cons c cs ih =>
    have hchar : (s.rxGoOn .body bytes).character c =
        s.rxGoOn (if frameLength bytes + 2 ≤ bytes.length + 1 then .check else .body) (bytes ++ [c]) :=
      State.character_body (s := s.rxGoOn .body bytes) hb c rfl hlen
    rw [List.length_cons] at hcount
    rw [List.foldl_cons, hchar]
    by_cases hlast : cs = []
    · subst hlast
      rw [if_pos (by simp at hcount; omega)]
      rfl
    · have hpos := List.length_pos_iff.2 hlast
      rw [if_neg (by omega), ih _ hlast (by simp; omega) (by rw [frameLength_append hlen]; simp; omega), List.append_assoc]
      rfl

/-- RX_CHECK takes the two check bytes and hands the frame on. -/
theorem State.foldl_character_check {bytes check : List Byte} (hcheck : check.length = 2) (hlen : 2 ≤ bytes.length)
    (hcount : bytes.length = frameLength bytes + 2) :
    check.foldl State.character (s.rxGoOn .check bytes) = s.discardFrame.frameDone (bytes ++ check) := by
  obtain ⟨hi, lo, rfl⟩ := List.length_eq_two.1 hcheck
  have hmore : ¬ frameLength bytes + 4 ≤ bytes.length + 1 := by omega
  have hlen' : 2 ≤ (bytes ++ [hi]).length := by rw [List.length_append]; omega
  have hlast : frameLength (bytes ++ [hi]) + 4 ≤ (bytes ++ [hi]).length + 1 := by
    rw [frameLength_append hlen, List.length_append, List.length_singleton]
    omega
  have hfirst : (s.rxGoOn .check bytes).character hi = s.rxGoOn .check (bytes ++ [hi]) :=
    (State.character_check (s := s.rxGoOn .check bytes) hb hi rfl hlen).trans (if_neg (by exact hmore))
  have hsecond : (s.rxGoOn .check (bytes ++ [hi])).character lo = s.discardFrame.frameDone (bytes ++ [hi] ++ [lo]) :=
    (State.character_check (s := s.rxGoOn .check (bytes ++ [hi])) hb lo rfl (by exact hlen')).trans (if_pos (by exact hlast))
  rw [List.foldl_cons, hfirst, List.foldl_cons, hsecond, List.append_assoc]
  rfl

/-- The characters of a frame, taken from RX_HUNT, end in the dispatch of what the frame was built from. -/
theorem State.foldl_character_frame (hrx : s.link.rx = .hunt) (kind tag : Byte) {payload : List Byte} (hp : payload.length ≤ 528) :
    (frameBytes kind tag payload).foldl State.character s = s.discardFrame.dispatch kind tag payload := by
  have hlength : (byteOf (payload.length + 2)).toNat + 256 * (byteOf ((payload.length + 2) / 256)).toNat = payload.length + 2 :=
    (frameLength_eq _ _ []).symm.trans (frameLength_le2 (by omega) [])
  have hbody : (kind :: tag :: payload).foldl State.character (s.rxGoOn .body (le2 (payload.length + 2))) =
      s.rxGoOn .check (frameCovered kind tag payload) := by
    rw [State.foldl_character_body hb _ _ (by simp) (by simp [le2])]
    · simp [frameCovered]
    · rw [← List.append_nil (le2 _), frameLength_le2 (by omega)]
      simp [le2]
      omega
  have hcheck : (frameCheck kind tag payload).foldl State.character (s.rxGoOn .check (frameCovered kind tag payload)) =
      s.discardFrame.frameDone (frameCovered kind tag payload ++ frameCheck kind tag payload) := by
    refine State.foldl_character_check hb rfl (by simp [frameCovered, le2]) ?_
    rw [← List.append_nil (frameCovered kind tag payload), frameLength_frameCovered hp]
    simp [frameCovered, le2]
  calc (frameBytes kind tag payload).foldl State.character s
    _ = (frameCheck kind tag payload).foldl State.character
          ((kind :: tag :: payload).foldl State.character ((le2 (payload.length + 2)).foldl State.character (s.character 0xC5#8))) := by
        simp [frameBytes_eq, frameCovered]
    _ = s.discardFrame.frameDone (frameCovered kind tag payload ++ frameCheck kind tag payload) := by
        rw [State.character_hunt_start hb hrx, le2, State.foldl_character_lengths hb (by omega) (by omega)]
        exact (congrArg (List.foldl State.character · _) hbody).trans hcheck
    _ = s.discardFrame.dispatch kind tag payload := State.frameDone_frame hp kind tag _

end

/-- Settles O36: a frame character by character, the rows of the kinds, and the frame of a bad check. -/
theorem framesArriveAsTheyWereSent : Obligations.FramesArriveAsTheyWereSent := by
  refine ⟨fun s kind tag payload hb hrx hp => State.foldl_character_frame hb hrx kind tag hp,
    fun s kind tag payload hp => ⟨fun c hc => ?_, fun hnone => ?_⟩, fun s bytes hp hbad => ?_⟩
  · rw [exec_requestRow hc, whenPowered_present _ hp]
  · rw [State.dispatch_unknown s hnone]
    exact congrArg Host.Outcome.next (whenPowered_present (fun t => t.takeUnknown tag) hp)
  · rw [State.frameDone, if_neg hbad]
    exact congrArg Host.Outcome.next (whenPowered_present State.takeBadFrame hp)

end Sys2Proof.Machine
end
section
/-! PROOFS. Requests at the service link (10 R178, R181, R188): wrong lengths and undefined flag bits, STATUS, RESET and its effect. -/

namespace Sys2Proof.Machine

/-! ## The lengths and the flag bits of the ten kinds (R178) -/

theorem byteAt_take (bs : List Byte) {n i : Nat} (h : i < n) : byteAt (bs.take n) i = byteAt bs i := by
  simp [byteAt, List.getD_eq_getElem?_getD, h]

/-- Bytes that the walk accepts are zone records with their order lists, one after another (R178). -/
theorem records_of_parseZones {k : Nat} {bs : List Byte} (h : (parseZones k bs).isSome = true) :
    ∃ recs : List (List Byte), recs.length = k ∧ recs.flatten = bs ∧ ∀ r ∈ recs, r.length = recordLength r := by
  induction k generalizing bs with
  | zero =>
    have hnil : bs = [] := by
      by_contra hne
      simp [parseZones, hne] at h
    exact ⟨[], rfl, hnil.symm, by simp⟩
  | succ k ih =>
    have hlen : recordLength bs ≤ bs.length := by
      by_contra hshort
      unfold recordLength at hshort
      simp only [parseZones, if_pos (Nat.lt_of_not_le hshort), Option.isSome_none, Bool.false_eq_true] at h
    have hrest : (parseZones k (bs.drop (recordLength bs))).isSome = true := by
      have hlen' := Nat.not_lt.2 hlen
      unfold recordLength at hlen' ⊢
      simpa only [parseZones, if_neg hlen', Option.isSome_map] using h
    obtain ⟨recs, hcount, hflat, hrecs⟩ := ih hrest
    have h13 : 13 ≤ recordLength bs := Nat.le_add_right _ _
    have hfirst : recordLength (bs.take (recordLength bs)) = recordLength bs := by
      rw [recordLength, byteAt_take bs (by omega), byteAt_take bs (by omega), ← recordLength]
    refine ⟨bs.take (recordLength bs) :: recs, by simp [hcount], by rw [List.flatten_cons, hflat, List.take_append_drop], ?_⟩
    exact List.forall_mem_cons.2 ⟨by rw [hfirst, List.length_take, Nat.min_eq_left hlen], hrecs⟩

/-- The length of a PROFILE is right when its bytes are as many zone records as it says (R178, R183). -/
theorem lengthOk_profile_iff (p : List Byte) : lengthOk 3 p = true ↔ 5 ≤ p.length ∧
    ∃ recs : List (List Byte), recs.length = (byteAt p 4).toNat ∧ recs.flatten = p.drop 5 ∧ ∀ r ∈ recs, r.length = recordLength r := by
  constructor
  · intro h
    change (parseProfile p).isSome = true at h
    have hlen : 5 ≤ p.length := by
      by_contra hshort
      simp [parseProfile, Nat.lt_of_not_le hshort] at h
    rw [parseProfile, if_neg (Nat.not_lt.2 hlen), Option.isSome_map] at h
    exact ⟨hlen, records_of_parseZones h⟩
  · rintro ⟨hlen, recs, hcount, hflat, hrecs⟩
    exact congrArg Option.isSome (parseProfile_of_records hlen hcount hflat hrecs)

/-- The flag bytes of a PROFILE are byte 8 of its zone records (R183). -/
theorem flagsOk_profile_iff {p : List Byte} {recs : List (List Byte)} (hlen : 5 ≤ p.length) (hcount : recs.length = (byteAt p 4).toNat)
    (hflat : recs.flatten = p.drop 5) (hrecs : ∀ r ∈ recs, r.length = recordLength r) :
    flagsOk 3 p = true ↔ ∀ r ∈ recs, (byteAt r 8).toNat < 8 := by
  simp [flagsOk, parseProfile_of_records hlen hcount hflat hrecs, recordZone]

/-- The flag bytes of a MOUNT are byte 0 and byte 6 of its extent records (R184). -/
theorem flagsOk_mount_iff (p : List Byte) :
    flagsOk 4 p = true ↔ (byteAt p 0).toNat < 4 ∧ ∀ k < (byteAt p 1).toNat, (byteAt p (7 * k + 8)).toNat < 4 := by
  have hplace : ∀ k, 2 + 7 * k + 6 = 7 * k + 8 := fun k => by omega
  simp [flagsOk, mountFlagBytes, hplace]

/-- Of OPTIONS no bit of the set mask beyond the nine options, and the mask's high byte is byte 1 (R182). -/
theorem flagsOk_options_iff (p : List Byte) : flagsOk 2 p = true ↔ (byteAt p 1).toNat < 2 := by
  have hlow := (byteAt p 0).isLt
  simp only [flagsOk, decide_eq_true_eq, ofLe_two, Nat.zero_add]
  omega

theorem lengthOk_mount_iff (p : List Byte) :
    lengthOk 4 p = true ↔ 2 ≤ p.length ∧ p.length = 2 + 7 * (byteAt p 1).toNat := by
  simp [lengthOk]

/-! ## A request that the checks refuse (R178) -/

section
variable {s : State} (h : s.takesRequests) {k : Nat} (tag : Byte) {p : List Byte}
include h

/-- A request that is taken enters execution before its checks (R168). -/
theorem State.request_enters (body : State → State) : s.request k tag p body = (s.entered (byteOf k) tag).checked k p body := by
  obtain ⟨-, hx, hb⟩ := h
  exact (if_neg (by simp [hb])).trans (if_neg (by simp [Link.rxIdle, hx]))

theorem State.request_wrongLength (body : State → State) (hl : lengthOk k p = false) :
    s.request k tag p body = (s.entered (byteOf k) tag).badField 0x20#8 0xFF#8 :=
  (State.request_enters h tag body).trans (if_pos (by simp [hl]))

theorem State.request_wrongFlags (body : State → State) (hl : lengthOk k p = true) (hf : flagsOk k p = false) :
    s.request k tag p body = (s.entered (byteOf k) tag).badField 0x21#8 0xFF#8 :=
  (State.request_enters h tag body).trans ((if_neg (by simp [hl])).trans (if_pos (by simp [hf])))

/-- A request that its checks answer, whatever its own effect would be, ends in that answer or in what the reactions make of it (log 32). -/
theorem exec_request_ends {c : Instr} (hrow : requestRow k tag p = some c) {u : State} {payload : List Byte}
    (hu : ∀ body, s.request k tag p body = u) (ha : s.Answers u (byteOf k) tag payload) :
    ∃ u t, exec c s = .next t ∧ Ends s u t ∧ s.Answers u (byteOf k) tag payload := by
  have htakes := State.takesRequest_of h
  have arrives : ∀ {f : State → State}, exec c s = .next (whenPowered f s) → exec c s = .next (f s) :=
    fun hc => hc.trans (by rw [whenPowered_present _ h.1])
  have alone : ∀ body, exec c s = .next (whenPowered (fun t => t.request k tag p body) s) → exec c s = .next u :=
    fun body hc => (arrives hc).trans (by rw [hu body])
  have tended : ∀ body, exec c s = .next (whenPowered (tendingWhen State.takesRequest fun t => t.request k tag p body) s) →
      exec c s = .next u.tend :=
    fun body hc => (arrives hc).trans (by rw [tendingWhen_taken _ htakes, hu body])
  have settled : ∀ body, exec c s = .next (whenPowered (settlingWhen State.takesRequest fun t => t.request k tag p body) s) →
      exec c s = .next (State.settle s u) :=
    fun body hc => (arrives hc).trans (by rw [settlingWhen_taken _ htakes, hu body])
  match k, hrow with
  | 1, rfl | 3, rfl | 9, rfl | 10, rfl => exact ⟨u, u, alone _ rfl, .inl rfl, ha⟩
  | 2, rfl | 4, rfl => exact ⟨u, _, tended _ rfl, .inr ha.reacted, ha⟩
  | 5, rfl | 6, rfl | 7, rfl | 8, rfl => exact ⟨u, _, settled _ rfl, .inr (reacted_settle s u), ha⟩

end

/-- Settles O18: the lengths and the flag bits kind by kind, PROFILE's by the walk over its records, and the two refusals in their order. -/
theorem wrongLengthsAndFlagsAreBadField : Obligations.WrongLengthsAndFlagsAreBadField := by
  refine ⟨fun p => ⟨?_, ?_, lengthOk_mount_iff p, ?_, ?_, ?_, ⟨lengthOk_profile_iff p, fun recs hlen hrecs => ?_⟩, ?_,
    flagsOk_options_iff p, flagsOk_mount_iff p, ?_⟩, fun s k tag p c h hrow => ⟨fun hl => ?_, fun hl hf => ?_⟩⟩
  · simp [lengthOk]
  · simp [lengthOk]
  · simp [lengthOk]
  · simp [lengthOk]
  · simp [lengthOk]
  · obtain ⟨hcount, hflat, hrecords⟩ := hrecs
    exact flagsOk_profile_iff hlen hcount hflat hrecords
  · simp [flagsOk]
  · simp [flagsOk]
  · exact exec_request_ends h tag hrow (fun body => State.request_wrongLength h tag body hl)
      (s.answers_of_entered (byteOf k) tag .badField 0x20#8 [0xFF#8])
  · exact exec_request_ends h tag hrow (fun body => State.request_wrongFlags h tag body hl hf)
      (s.answers_of_entered (byteOf k) tag .badField 0x21#8 [0xFF#8])

/-! ## STATUS (R181) -/

/-- Settles O20: the record does not see the request that asks for it, and a payload is a wrong length. -/
theorem statusAnswersInEveryState : Obligations.StatusAnswersInEveryState := by
  intro s tag h
  have hexec : ∀ p, exec (.status tag p) s = .next (s.request 1 tag p State.doStatus) :=
    fun p => congrArg Host.Outcome.next (whenPowered_present (fun t => t.takeStatus tag p) h.1)
  refine ⟨⟨_, hexec [], ?_⟩, fun p hp => ⟨_, hexec p, ?_⟩⟩
  · rw [State.request_taken h tag _ rfl rfl]
    exact s.answers_of_entered 0x01#8 tag .ok 0#8 s.statusRecord
  · rw [State.request_wrongLength h tag _ (by simpa [lengthOk] using hp)]
    exact s.answers_of_entered 0x01#8 tag .badField 0x20#8 [0xFF#8]

/-! ## RESET and its effect (R188) -/

theorem doReset_refused {s : State} {p : List Byte} (hn : s.cache.nonClean ≠ 0) (hf : (byteAt p 0).getLsbD 0 = false) :
    s.doReset p = s.wrongState := if_pos ⟨hn, hf⟩

theorem doReset_accepted {s : State} {p : List Byte} (h : s.cache.nonClean = 0 ∨ (byteAt p 0).getLsbD 0 = true) :
    s.doReset p = { s with link := s.link.markReset }.answer .ok 0#8 [] :=
  if_neg fun ⟨hn, hf⟩ => h.elim hn fun hforce => absurd (hforce.symm.trans hf) (by simp)

theorem exec_reset_taken {s : State} (h : s.takesRequests) (tag b : Byte) (hb : b.toNat ≤ 1) :
    exec (.reset tag [b]) s = .next ((s.entered 0x0A#8 tag).doReset [b]) := by
  have hf : flagsOk 10 [b] = true := decide_eq_true (Nat.lt_succ_of_le hb)
  change execReset tag [b] s = _
  rw [execReset, whenPowered_present _ h.1, State.takeReset, State.request_taken h tag _ rfl hf]
  rfl

/-- Settles O33: the refusal, and otherwise the answer of a request that is marked before it. -/
theorem resetRequest : Obligations.ResetRequest := by
  intro s tag b h hb
  refine ⟨fun hn h0 => ⟨_, exec_reset_taken h tag b hb, ?_⟩, fun hok => ⟨_, exec_reset_taken h tag b hb, ?_⟩⟩
  · rw [doReset_refused (s := s.entered 0x0A#8 tag) hn (by rw [h0]; rfl)]
    exact s.answers_of_entered 0x0A#8 tag .wrongState s.mount.state.code []
  · rw [doReset_accepted (s := s.entered 0x0A#8 tag) (hok.imp_right fun h1 => by rw [h1]; rfl)]
    exact ⟨rfl, Link.answered_hasReply _ _ _, Link.answered_executing _ _ _⟩

/-- Settles O8: the reset is the restart of POWER_ON with the link break put back, and nothing before it is due. -/
theorem resetTakesEffectAsPowerOn : Obligations.ResetTakesEffectAsPowerOn := by
  intro b s hp
  have hexec : exec (.resetTakesEffect b) s = .next (s.resetNow b) :=
    congrArg Host.Outcome.next (whenPowered_present (fun t => t.resetNow b) hp)
  refine ⟨fun hdue => ⟨s.restart { s.inputs with fastStrap := b }, rfl, ?_⟩, fun hdue => ?_⟩
  · rw [hexec, State.resetNow, if_pos hdue]
    rfl
  · rw [hexec, State.resetNow, if_neg (by simp [hdue])]

end Sys2Proof.Machine
end
section
/-! PROOFS. The OPTIONS request (10 R182): the values that are refused, the options asked for, and the selection and spin demand that follow
the reply (02 R24, R34, logs 18, 40 and 41). -/

namespace Sys2Proof.Machine

/-! ## Notices posted after a reply (R170, R172) -/

/-- The link of `t` is that of `s` once notices have been posted. -/
def State.Posts (s t : State) : Prop := ∃ bs, t.link = s.link.postAll bs

theorem State.Posts.of_link {s t : State} (h : t.link = s.link) : s.Posts t := ⟨[], h⟩

theorem State.Posts.trans {s t u : State} (h : s.Posts t) (k : t.Posts u) : s.Posts u := by
  obtain ⟨as, ha⟩ := h
  obtain ⟨bs, hb⟩ := k
  exact ⟨as ++ bs, by rw [hb, ha, Link.postAll_append]⟩

theorem State.Posts.hasReply {s t : State} (h : s.Posts t) {kind tag : Byte} {payload : List Byte} (hr : s.link.hasReply kind tag payload) :
    t.link.hasReply kind tag payload := by
  obtain ⟨bs, hl⟩ := h
  rw [hl]
  exact Link.postAll_hasReply hr bs

theorem State.Posts.reacting {s : State} {f : State → State} (h : s.Posts (f s)) : s.Posts (Machine.reacting f s) :=
  h.trans (.of_link (by rw [reacting_eq]))

theorem posts_endSectorWrite (s : State) (bs : List Byte) (o : WriteOutcome) : s.Posts (s.endSectorWrite bs o) := by
  unfold State.endSectorWrite
  split
  · cases o with
    | quiet | good => exact .of_link rfl
    | faulty r => exact ⟨[_], rfl⟩
  · exact .of_link rfl

theorem posts_endTrackWrite (s : State) : s.Posts s.endTrackWrite := by
  cases htrack : s.cap.track with
  | none => exact .of_link (by simp only [State.endTrackWrite, htrack])
  | some tr =>
    cases hline : s.cap.line with
    | none => exact .of_link (by simp only [State.endTrackWrite, htrack, hline])
    | some i =>
      rw [State.endTrackWrite_eq htrack hline]
      dsimp only
      split
      · split
        · rw [State.storeTrack_eq]
          exact ⟨[.trackWritten tr], rfl⟩
        · exact ⟨[_], rfl⟩
      · exact ⟨[_], rfl⟩

theorem posts_endCapture (s : State) : s.Posts s.endCapture := by
  unfold State.endCapture
  split
  · exact posts_endSectorWrite s _ _
  · exact posts_endSectorWrite s _ _
  · exact posts_endTrackWrite s
  all_goals exact .of_link rfl

theorem posts_captureFall (s : State) : s.Posts s.captureFall := (posts_endCapture s).trans (.of_link rfl)

theorem posts_captureSideChange (s : State) : s.Posts s.captureSideChange := by
  unfold State.captureSideChange
  split
  · exact .of_link rfl
  · exact (posts_endCapture s).trans (.of_link rfl)

theorem posts_captureRise (s : State) : s.Posts s.captureRise := by
  cases h : s.classifyRise with
  | ignored => exact .of_link (by rw [State.captureRise_ignored h])
  | discard c hd sec r =>
    rw [State.captureRise_discard h]
    exact ⟨[_], rfl⟩
  | trackWrite tr i => exact .of_link (by rw [State.captureRise_trackWrite h])
  | sectorWrite tr i j l =>
    rw [State.captureRise, h]
    dsimp only [State.beginSectorWrite]
    split
    · exact .of_link rfl
    · exact ⟨[_], rfl⟩

theorem posts_reworkSpin (s : State) : s.Posts s.reworkSpin := .of_link (by rw [reworkSpin_frame])

theorem posts_reworkGate (s : State) : s.Posts s.reworkGate := by
  unfold State.reworkGate
  dsimp only
  split
  · exact .of_link rfl
  · refine State.Posts.trans (t := { s with drive := _ }) (.of_link rfl) (State.Posts.reacting ?_)
    split
    · exact posts_captureRise _
    · exact posts_captureFall _

theorem posts_reworkSide (s : State) : s.Posts s.reworkSide := by
  unfold State.reworkSide
  split
  · exact .of_link rfl
  · refine State.Posts.trans (.of_link ?_) (posts_captureSideChange _).reacting
    rw [arrival_frame]

/-- A selection posts what the captures that it begins or ends post. -/
theorem posts_reworkSelect (s : State) : s.Posts s.reworkSelect := by
  refine reworkSelect_keeps s.Posts (.of_link rfl) (.of_link rfl) (fun _ ht => ht) fun f hf t ht => ht.trans ?_
  rcases selectionEffects_mem hf with ⟨rfl, -⟩ | ⟨rfl, -⟩ | ⟨rfl, -⟩
  · exact posts_reworkSide t
  · exact posts_reworkSpin t
  · exact posts_reworkGate t

/-! ## The options that a request asks for (R182) -/

/-- The enumerated field at byte `i` is named by bit `k` and lies above its list, which ends at `m` (R182). -/
abbrev BadEnum (p : List Byte) (k i m : Nat) : Prop := (ofLe (bytesAt p 0 2)).testBit k = true ∧ m < (byteAt p i).toNat

/-- The four enumerated fields in the order of the table; the first bad one gives the detail. -/
theorem enumFault_eq (p : List Byte) : enumFault p =
    if BadEnum p 0 2 3 then some 0x23#8
    else if BadEnum p 1 3 1 then some 0x24#8
    else if BadEnum p 2 4 1 then some 0x25#8
    else if BadEnum p 7 11 1 then some 0x26#8
    else none := by
  simp only [enumFault, BadEnum, setBit, Bool.and_eq_true, decide_eq_true_eq]

/-- The options after an accepted request are those that it asks for. -/
theorem applyOptions_eq_asked (o : Options) (p : List Byte) : applyOptions o p = o.asked p := by
  simp only [applyOptions, Options.asked, setBit, clamp, ofLe_two, Nat.zero_max]
  rfl

/-! ## The request, check by check -/

theorem exec_options_taken {s : State} (h : s.takesRequests) (tag : Byte) {p : List Byte} (hl : p.length = 13)
    (hf : ofLe (bytesAt p 0 2) < 512) : exec (.options tag p) s = .next ((s.entered 0x02#8 tag).doOptions p).tend := by
  change execOptions tag p s = _
  rw [execOptions, whenPowered_present _ h.1, State.takeOptions, tendingWhen_taken _ (State.takesRequest_of h),
    State.request_taken h tag _ (by simp [lengthOk, hl]) (by simp [flagsOk, hf])]
  rfl

theorem doOptions_of_fault {s : State} {p : List Byte} {d : Byte} (h : enumFault p = some d) : s.doOptions p = s.badField d 0xFF#8 := by
  simp only [State.doOptions, h]

theorem doOptions_of_none {s : State} {p : List Byte} (h : enumFault p = none) :
    s.doOptions p = s.setOptions (s.link.options.asked p) := by
  simp only [State.doOptions, h, applyOptions_eq_asked]

/-- Settles O23: the first bad field in the order of the table, and its refusal as the whole effect. -/
theorem optionsRefused : Obligations.OptionsRefused := by
  intro s tag p h hl hf bad refused
  have refuses : ∀ d, enumFault p = some d → refused d := fun d hd => by
    have hanswers : s.Answers ((s.entered 0x02#8 tag).doOptions p) 0x02#8 tag [0x02#8, d, 0xFF#8] := by
      rw [doOptions_of_fault hd]
      exact s.answers_of_entered 0x02#8 tag .badField d [0xFF#8]
    exact ⟨_, _, exec_options_taken h tag hl hf, hanswers.reacted, hanswers⟩
  refine ⟨fun h0 => refuses _ ?_, fun h0 h1 => refuses _ ?_, fun h0 h1 h2 => refuses _ ?_, fun h0 h1 h2 h7 => refuses _ ?_⟩
  · exact (enumFault_eq p).trans (if_pos h0)
  · exact (enumFault_eq p).trans ((if_neg h0).trans (if_pos h1))
  · exact (enumFault_eq p).trans ((if_neg h0).trans ((if_neg h1).trans (if_pos h2)))
  · exact (enumFault_eq p).trans ((if_neg h0).trans ((if_neg h1).trans ((if_neg h2).trans (if_pos h7))))

/-! ## OPTIONS accepted (R182, R71, R24, R34) -/

/-- The options stand, and read-ahead has been considered when its option was turned on in MOUNTED (R71, log 20). -/
theorem State.putOptions_eq (s : State) (o : Options) : s.putOptions o = { s with
    cache := if s.mount.state = .mounted ∧ s.link.options.readAhead = false ∧ o.readAhead = true
      then s.cache.considerAhead s.geom s.mount s.drive.lastIn else s.cache
    link := { s.link with options := o } } := by
  by_cases hturned : s.link.options.readAhead = false ∧ o.readAhead = true
  · obtain ⟨hold, hnew⟩ := hturned
    by_cases hm : s.mount.state = .mounted
    · simp [State.putOptions, State.lookAhead, State.isMounted, State.geom, hold, hnew, hm]
    · simp [State.putOptions, State.lookAhead, State.isMounted, hold, hnew, hm]
  · rw [if_neg fun ⟨_, h⟩ => hturned h]
    exact if_neg fun h => hturned (by simpa [and_comm] using h)

/-- The options have been put in force and the request answered; the selection does not follow yet (log 18). -/
def State.optionsAnswered (s : State) (o : Options) : State := (s.putOptions o).answer .ok 0#8 o.bytes

theorem State.setOptions_eq (s : State) (o : Options) : s.setOptions o = (s.optionsAnswered o).reworkSelect.reworkSpin := rfl

theorem State.optionsAnswered_entered (s : State) (tag : Byte) (o : Options) : (s.entered 0x02#8 tag).optionsAnswered o = { s with
    cache := if s.mount.state = .mounted ∧ s.link.options.readAhead = false ∧ o.readAhead = true
      then s.cache.considerAhead s.geom s.mount s.drive.lastIn else s.cache
    link := ({ s.link with options := o } : Link).answered ⟨0x02#8, tag, true, false, false⟩ (0x00#8 :: 0x00#8 :: o.bytes) } := by
  rw [State.optionsAnswered, State.putOptions_eq]
  rfl

/-- What the options leave alone when the selection and spin demand follow them. -/
theorem lineFrame_setOptions (s : State) (o : Options) : LineFrame (s.optionsAnswered o) (s.setOptions o) :=
  (lineFrame_reworkSelect _).trans (lineFrame_reworkSpin _)

/-- Without a selection the side is held (R26). -/
theorem setOptions_side {s : State} {o : Options} (h : (s.optionsAnswered o).addressed = false) :
    (s.setOptions o).drive.side = (s.optionsAnswered o).drive.side := by
  rw [State.setOptions_eq, reworkSpin_drive]
  exact reworkSelect_side h

/-- Settles O22: the options and the reply by what `putOptions` and the answer make of the link, the drive by the lines that it follows
afterwards, and the rest by the frame of the selection. -/
theorem optionsAccepted : Obligations.OptionsAccepted := by
  intro s tag p h hfol hl hf h0 h1 h2 h7 o
  have good : ∀ {k i m}, ((ofLe (bytesAt p 0 2)).testBit k = true → (byteAt p i).toNat ≤ m) → ¬ BadEnum p k i m :=
    fun hle ⟨hbit, hlt⟩ => Nat.not_lt.2 (hle hbit) hlt
  have hnone : enumFault p = none := by
    rw [enumFault_eq, if_neg (good h0), if_neg (good h1), if_neg (good h2), if_neg (good h7)]
  let e := s.entered 0x02#8 tag
  have hdo : e.doOptions p = e.setOptions o := doOptions_of_none hnone
  have hexec : exec (.options tag p) s = .next (e.setOptions o).tend := (exec_options_taken h tag hl hf).trans (by rw [hdo])
  have hw := s.optionsAnswered_entered tag o
  have frame := lineFrame_setOptions e o
  have hbefore : e.Follows := hfol.withLink rfl
  have lines : (e.setOptions o).FollowsLines := hdo ▸ hbefore.doOptions p
  have hoptions : (e.setOptions o).link.options = o := by
    rw [frame.options, hw]
    exact (Link.startTx_sameBase _).options
  have hinputs : (e.setOptions o).inputs = s.inputs := by rw [frame.inputs, hw]
  have haddressed : (e.setOptions o).addressed = (e.optionsAnswered o).addressed := frame.addressed
  have hposts : (e.optionsAnswered o).Posts (e.setOptions o) := (posts_reworkSelect _).trans (posts_reworkSpin _)
  refine ⟨_, _, _, _, hexec, reacted_tend _, hw, reworkSelect_selects _, rfl, hoptions, hposts.hasReply ?_, ?_, ?_, fun hs => ?_,
    fun hs => ?_, ?_, ?_, ?_, ?_, ?_, ?_, ?_, ?_, hinputs, ?_, ?_⟩
  · rw [hw]
    exact Link.answered_hasReply _ ⟨0x02#8, tag, true, false, false⟩ _
  · rw [lines.selected, State.addressed, hinputs, hoptions]
  · exact lines.gate.trans (by rw [hinputs])
  · exact (lines.side hs).trans (by rw [hinputs])
  · rw [setOptions_side (haddressed.symm.trans (lines.selected.symm.trans hs)), hw]
  · rw [← lines.turns.spin]
    simp
  · rw [frame.head, hw]
  · rw [frame.lastIn, hw]
  · rw [frame.latch, hw]
  · rw [frame.time, hw]
  · rw [frame.mount, hw]
  · rw [frame.card, hw]
  · rw [frame.prof, hw]
  · rw [frame.powered, hw]
    exact h.1
  · rw [frame.pending, hw]

end Sys2Proof.Machine
end
section
/-! PROOFS. The STATUS record (10 R189): the flag bytes bit by bit, the parts one after another, and the record's length. -/

namespace Sys2Proof.Machine

/-! ## Flag bytes as numbers (R177) -/

theorem flags_lt (bits : List Bool) : bits.foldr (fun b acc => b.toNat + 2 * acc) 0 < 2 ^ bits.length := by
  induction bits with
  | nil => simp
  | cons b bits ih =>
    have hb := Bool.toNat_lt b
    rw [List.foldr_cons, List.length_cons, Nat.pow_succ]
    omega

theorem flagByte_toNat_lt (bits : List Bool) : (flagByte bits).toNat < 2 ^ bits.length := by
  rw [flagByte, byteOf, BitVec.toNat_ofNat]
  exact (Nat.mod_le _ _).trans_lt (flags_lt bits)

/-- A number that is counted where a flag is set. -/
theorem ite_flag (b : Bool) (n : Nat) : (if b = true then n else 0) = n * b.toNat := by cases b <;> simp

/-- Two flags as the number that they give. -/
theorem flagByte_two (a b : Bool) : flagByte [a, b] = byteOf ((if a = true then 1 else 0) + (if b = true then 2 else 0)) := by
  refine congrArg byteOf ?_
  simp only [List.foldr_cons, List.foldr_nil, ite_flag]
  omega

/-- Four flags as the number that they give. -/
theorem flagByte_four (a b c d : Bool) : flagByte [a, b, c, d] =
    byteOf ((if a = true then 1 else 0) + (if b = true then 2 else 0) + (if c = true then 4 else 0) + (if d = true then 8 else 0)) := by
  refine congrArg byteOf ?_
  simp only [List.foldr_cons, List.foldr_nil, ite_flag]
  omega

/-! ## The presence byte and the drive part -/

/-- Bit by bit, which parts are present. -/
theorem presence_getLsbD (s : State) :
    (s.presence.getLsbD 0 = true ↔ s.card.state ≠ .absent) ∧ (s.presence.getLsbD 1 = true ↔ s.mount.state ≠ .unmounted) ∧
    (s.presence.getLsbD 2 = true ↔ s.card.active ≠ none ∨ s.card.queued ≠ none) ∧
    (s.presence.getLsbD 3 = true ↔ s.card.lastRun ≠ none) := by
  simp only [State.presence]
  refine ⟨?_, ?_, ?_, ?_⟩ <;> rw [flagByte_getLsbD _ (by decide)]
  · simp
  · simp
  · simp [Option.isSome_iff_ne_none]
  · simp [Option.isSome_iff_ne_none]

theorem State.protectCond_iff (s : State) :
    s.protectCond = true ↔ s.mount.state ≠ .mounted ∨ s.mount.readOnly = true ∨ s.card.wp = true := by
  simp [State.protectCond, State.isMounted, or_assoc]

/-! ## The parts of the record, each as the statement writes it -/

theorem cardPart_length (s : State) : s.cardPart.length = if s.card.state = .absent then 0 else 7 := by
  unfold State.cardPart
  split <;> rfl

theorem cardPart_present {s : State} (h : s.card.state ≠ .absent) :
    s.cardPart = [s.card.state.code] ++ le4 s.card.capacity ++ [if s.card.wp then 0x01#8 else 0x00#8, byteOf s.card.failCount] := by
  rw [State.cardPart, if_neg h, flagByte_one]

theorem mountPart_eq {s : State} {code : Byte} (h : s.mount.state.code = code) :
    s.mountPart = if s.mount.state = .unmounted then [] else
      [code, byteOf ((if s.mount.readOnly = true then 1 else 0) + (if s.mount.shortOk = true then 2 else 0))] ++
        le4 s.mount.imageSize ++ [byteOf s.mount.chain.length] ++ le2 s.cache.nonClean ++ [byteOf s.cache.defects.length] := by
  rw [State.mountPart, flagByte_two, h]

theorem operationPart_eq (s : State) : s.operationPart =
    if s.card.active = none ∧ s.card.queued = none then [] else runEntry s.card.active ++ runEntry s.card.queued := by
  simp only [State.operationPart, Bool.and_eq_true, Option.isNone_iff_eq_none]

theorem runEntry_some {r : Run} {cls kind : Byte} {status : List Byte} (hc : r.cls.code = cls) (hk : r.kind.code = kind)
    (hs : r.status.bytes = status) : runEntry (some r) = [cls, kind] ++ le4 r.start ++ [byteOf r.count] ++ status := by
  rw [← hc, ← hk, ← hs]
  rfl

/-- After the presence byte and the drive part the record goes on with the card part. -/
theorem statusRecord_drop_four (s : State) : s.statusRecord.drop 4 =
    s.cardPart ++ (s.mountPart ++ s.operationPart ++ s.lastRunPart ++ s.layoutPart ++ s.cache.part) := by
  simp [State.statusRecord, State.drivePart]

/-- The record after the card part. -/
theorem statusRecord_drop (s : State) : s.statusRecord.drop (4 + (if s.card.state = .absent then 0 else 7)) =
    s.mountPart ++ s.operationPart ++ s.lastRunPart ++ s.layoutPart ++ s.cache.part := by
  rw [← List.drop_drop, statusRecord_drop_four, ← cardPart_length, List.drop_left]

/-- The line state of a line with a track, by its sectors (R64). -/
theorem lineState_code {ln : Line} {tr : Track} (h : ln.tag = some tr) : ln.lineState.code =
    if ∃ x ∈ ln.sectors, x.state = .pending then 0x01#8 else if ∃ x ∈ ln.sectors, x.state = .missing then 0x03#8 else 0x02#8 := by
  simp only [Line.lineState, h, Option.isNone_some, Bool.false_eq_true, if_false, List.any_eq_true, beq_iff_eq]
  split
  · rfl
  · split <;> rfl

theorem Line.nonCleanCount_eq (ln : Line) :
    ln.nonCleanCount = ln.sectors.countP (fun x => x.state = .dirty ∨ x.state = .capture ∨ x.state = .flush) := by
  refine List.countP_congr fun x _ => ?_
  rw [decide_eq_true_eq]
  exact SectorState.nonClean_iff _

theorem Line.missingCount_eq (ln : Line) : ln.missingCount = ln.sectors.countP (fun x => x.state = .missing) := rfl

theorem Cache.lineEntry_free {c : Cache} {i : Nat} (h : (c.line i).tag = none) :
    c.lineEntry i = [0x00#8, 0xFF#8, 0xFF#8, 0xFF#8, 0x00#8, 0x00#8, 0x00#8] := by
  simp only [Cache.lineEntry, h]
  rfl

/-- The entry of a line with a track: its state, the track, the zone, four flags and the two counts. -/
theorem Cache.lineEntry_held {c : Cache} {i : Nat} {tr : Track} (h : (c.line i).tag = some tr) : c.lineEntry i =
    [if ∃ x ∈ (c.line i).sectors, x.state = .pending then 0x01#8
      else if ∃ x ∈ (c.line i).sectors, x.state = .missing then 0x03#8 else 0x02#8,
      byteOf tr.cyl, byteOf tr.head, byteOf (c.line i).zone,
      byteOf ((if (c.line i).origin = .ahead then 1 else 0) + (if (c.line i).pinned = true then 2 else 0) +
        (if i ∈ c.flushQ then 4 else 0) + (if c.forced = some i then 8 else 0)),
      byteOf ((c.line i).sectors.countP (fun x => x.state = .dirty ∨ x.state = .capture ∨ x.state = .flush)),
      byteOf ((c.line i).sectors.countP (fun x => x.state = .missing))] := by
  simp only [Cache.lineEntry, h, lineState_code h, flagByte_four, Line.nonCleanCount_eq, Line.missingCount_eq, beq_iff_eq,
    List.contains_iff_mem]

/-! ## Lengths -/

theorem runEntry_length (r : Option Run) : (runEntry r).length = 9 := by
  cases r with
  | none => rfl
  | some r => cases h : r.status <;> simp [runEntry, RunStatus.bytes, le4, h]

theorem Cache.lineEntry_length (c : Cache) (i : Nat) : (c.lineEntry i).length = 7 := by
  unfold Cache.lineEntry
  dsimp only
  split <;> rfl

theorem Layout.report_length (y : Layout) : y.report.length = 7 := rfl

theorem mountPart_length (s : State) : s.mountPart.length = if s.mount.state = .unmounted then 0 else 10 := by
  unfold State.mountPart
  split <;> rfl

theorem operationPart_length (s : State) :
    s.operationPart.length = if s.card.active = none ∧ s.card.queued = none then 0 else 18 := by
  rw [operationPart_eq]
  split
  · rfl
  · rw [List.length_append, runEntry_length, runEntry_length]

theorem lastRunPart_length (s : State) : s.lastRunPart.length = if s.card.lastRun = none then 0 else 9 := by
  unfold State.lastRunPart
  cases h : s.card.lastRun with
  | none => rfl
  | some r => exact runEntry_length (some r)

theorem layoutPart_length (s : State) : s.layoutPart.length = 5 + 7 * s.prof.layouts.length := by
  have hzones : (s.prof.layouts.flatMap Layout.report).length = 7 * s.prof.layouts.length := by
    simp [List.length_flatMap, Layout.report_length, Nat.mul_comm]
  rw [State.layoutPart, List.length_append, hzones]
  rfl

theorem Cache.part_length {c : Cache} (h : c.lru.length = 8) : c.part.length = 66 := by
  unfold Cache.part
  cases c.waiting <;> simp [List.length_flatMap, c.lineEntry_length, h]

/-- The record's length by the parts that are present. -/
theorem statusRecord_length {s : State} (h : s.cache.lru.length = 8) : s.statusRecord.length =
    4 + (if s.card.state = .absent then 0 else 7) + (if s.mount.state = .unmounted then 0 else 10) +
      (if s.card.active = none ∧ s.card.queued = none then 0 else 18) + (if s.card.lastRun = none then 0 else 9) +
      (5 + 7 * s.prof.layouts.length) + 66 := by
  simp only [State.statusRecord, List.length_append, cardPart_length, mountPart_length, operationPart_length, lastRunPart_length,
    layoutPart_length, Cache.part_length h]
  rfl

/-! ## The obligation -/

/-- Settles O21: the flag bytes bit by bit, and the record after the card part as its parts follow each other. -/
theorem statusRecordHead : Obligations.StatusRecordHead := by
  intro s
  obtain ⟨hcard, hmount, hoperation, hlast⟩ := presence_getLsbD s
  have hflag : ∀ {i}, i < 8 → (byteAt s.statusRecord 1).getLsbD i = _ := fun hi => flagByte_getLsbD _ hi
  refine ⟨hcard, hmount, hoperation, hlast, flagByte_toNat_lt _, hflag (by decide), hflag (by decide), hflag (by decide), hflag (by decide),
    hflag (by decide), ?_, ?_, rfl, rfl, fun hpresent => ?_, ?_, statusRecord_length⟩
  · rw [hflag (by decide)]
    exact s.protectCond_iff
  · rw [hflag (by decide)]
    simp
  · have hlen : s.cardPart.length = 7 := (cardPart_length s).trans (if_neg hpresent)
    rw [← cardPart_present hpresent, bytesAt, statusRecord_drop_four, List.take_left' hlen]
  · intro entry slot lineEntry
    have hentry : ∀ r, runEntry (some r) = entry r := fun r => by
      refine runEntry_some ?_ ?_ ?_
      · cases r.cls <;> rfl
      · cases r.kind <;> rfl
      · cases r.status with
        | failed e => cases e <;> rfl
        | _ => rfl
    have hslot : ∀ r, runEntry r = slot r := fun r => by
      cases r with
      | none => rfl
      | some r => exact hentry r
    have hline : s.cache.lineEntry = lineEntry := funext fun i => by
      cases htag : (s.cache.line i).tag with
      | none => simp only [Cache.lineEntry_free htag, lineEntry, htag]
      | some tr => simp only [Cache.lineEntry_held htag, lineEntry, htag]
    refine (statusRecord_drop s).trans
      (congrArg₂ (· ++ ·) (congrArg₂ (· ++ ·) (congrArg₂ (· ++ ·) (congrArg₂ (· ++ ·) ?_ ?_) ?_) rfl) ?_)
    · exact mountPart_eq (by cases s.mount.state <;> rfl)
    · rw [operationPart_eq, hslot, hslot]
    · unfold State.lastRunPart
      cases s.card.lastRun with
      | none => rfl
      | some r => exact hentry r
    · rw [← hline]
      rfl

end Sys2Proof.Machine
end

section
/-! PROOFS. The supply (11 R193, log 28): without it the outputs on the drive connector are inactive and a command has no effect. -/

namespace Sys2Proof.Machine

/-! ## The outputs without supply -/

theorem State.presented_unpowered {s : State} (hp : s.powered = false) : s.presented = false := by simp [State.presented, hp]

theorem State.flowing_unpowered {s : State} (hp : s.powered = false) : s.flowing = false := by
  simp [State.flowing, State.presented_unpowered hp]

theorem State.indexOut_unpowered {s : State} (hp : s.powered = false) : s.indexOut = false := by
  simp [State.indexOut, State.presented_unpowered hp]

theorem State.track00Out_unpowered {s : State} (hp : s.powered = false) : s.track00Out = false := by simp [State.track00Out, hp]

theorem State.writeProtectOut_unpowered {s : State} (hp : s.powered = false) : s.writeProtectOut = false := by
  simp [State.writeProtectOut, hp]

/-- Line 34 is inactive in both of its functions (R32). -/
theorem State.line34Out_unpowered {s : State} (hp : s.powered = false) : s.line34Out = false := by
  unfold State.line34Out
  split
  · exact State.presented_unpowered hp
  · simp [hp]

theorem State.readDataOut_unpowered {s : State} (hp : s.powered = false) : s.readDataOut = false :=
  (State.present_stopped (State.flowing_unpowered hp)).2

/-! ## The commands without supply -/

theorem whenPowered_absent (f : State → State) {s : State} (hp : s.powered = false) : whenPowered f s = s := if_neg (by simp [hp])

/-- Every command but the two of the supply itself acts under the test of the supply. -/
theorem exec_eq_whenPowered (c : Instr) (hon : ∀ x, c ≠ .powerOn x) (hfail : c ≠ .powerFail) :
    ∃ f, ∀ s, exec c s = .next (whenPowered f s) := by
  cases c with
  | powerOn x => exact absurd rfl (hon x)
  | powerFail => exact absurd rfl hfail
  | _ => exact ⟨_, fun _ => rfl⟩

/-- Settles O9: `State.dark` has no supply, from which each output follows; the other commands by `exec_eq_whenPowered`. -/
theorem powerFailSilencesTheBlock : Obligations.PowerFailSilencesTheBlock := by
  refine ⟨fun s => ?_, fun c s hp hon hfail => ?_⟩
  · have hp : s.dark.powered = false := rfl
    exact ⟨s.dark, rfl, hp, rfl, State.indexOut_unpowered hp, State.track00Out_unpowered hp, State.writeProtectOut_unpowered hp,
      State.line34Out_unpowered hp, State.readDataOut_unpowered hp⟩
  · obtain ⟨f, hexec⟩ := exec_eq_whenPowered c hon hfail
    rw [hexec, whenPowered_absent f hp]

end Sys2Proof.Machine
end

section
/-! PROOFS. The queue of commands (95, logs 1 and 9): a step runs the command at its front, and no command touches the queue. -/

namespace Sys2Proof.Machine

/-- Settles O1: `step` takes its second branch when a command waits. -/
theorem stepRunsTheFrontCommand : Obligations.StepRunsTheFrontCommand := by
  intro c s rest hfront
  simp only [step, hfront]

/-! ## Effects that leave the queue of commands alone -/

/-- An effect that leaves the queue of commands as it is. -/
def KeepsQueue (f : State → State) : Prop := ∀ s, (f s).pending = s.pending

theorem keepsQueue_of_kept {f : State → State} (h : ∀ s, Kept s (f s)) : KeepsQueue f := fun s => (h s).pending

theorem keepsQueue_of_captureOnly {f : State → State} (h : ∀ s, CaptureOnly s (f s)) : KeepsQueue f := fun s => (h s).pending

theorem KeepsQueue.whenPowered {f : State → State} (h : KeepsQueue f) : KeepsQueue (whenPowered f) := by
  intro s
  unfold Machine.whenPowered
  split
  · exact h s
  · rfl

theorem KeepsQueue.settlingWhen {f : State → State} (h : KeepsQueue f) (p : State → Bool) : KeepsQueue (settlingWhen p f) := by
  intro s
  unfold Machine.settlingWhen
  split
  · exact (settled_settle s (f s)).pending.trans (h s)
  · exact h s

theorem KeepsQueue.tendingWhen {f : State → State} (h : KeepsQueue f) (p : State → Bool) : KeepsQueue (tendingWhen p f) := by
  intro s
  unfold Machine.tendingWhen
  split
  · exact (settled_tend (f s)).pending.trans (h s)
  · exact h s

theorem KeepsQueue.tending {f : State → State} (h : KeepsQueue f) : KeepsQueue (tending f) :=
  fun s => (settled_tend (f s)).pending.trans (h s)

/-! ## The requests -/

/-- The arrival of a request changes the link unit at most before the request's own effect. -/
theorem KeepsQueue.request {body : State → State} (h : KeepsQueue body) (kind : Nat) (tag : Byte) (p : List Byte) :
    KeepsQueue (fun s => s.request kind tag p body) := by
  intro s
  obtain ⟨l, -, hlink | ⟨-, hbody⟩⟩ := request_cases s kind tag p body
  · simp only [hlink]
  · simp only [hbody]
    exact h _

theorem keepsQueue_doOptions (p : List Byte) : KeepsQueue (fun s => s.doOptions p) := by
  intro s
  simp only [State.doOptions]
  split
  · rfl
  · rw [State.setOptions, (lineFrame_reworkSpin _).pending, (lineFrame_reworkSelect _).pending, State.answer_pending, putOptions_frame]

theorem keepsQueue_doProfile (p : List Byte) : KeepsQueue (fun s => s.doProfile p) := by
  intro s
  simp only [State.doProfile]
  split
  · rfl
  · split
    · rfl
    · split <;> rfl

theorem keepsQueue_acceptMount (readOnly shortOk : Bool) (chain : List Extent) :
    KeepsQueue (fun s => s.acceptMount readOnly shortOk chain) := by
  intro s
  simp only [State.acceptMount]
  rw [(lineFrame_reworkSpin _).pending, (lineFrame_arrival _ _).pending, State.setLatch_pending]

theorem keepsQueue_doMount (p : List Byte) : KeepsQueue (fun s => s.doMount p) := by
  intro s
  simp only [State.doMount]
  split
  · rfl
  · rfl
  · rfl
  · exact keepsQueue_acceptMount _ _ _ s

theorem keepsQueue_takeStatus (tag : Byte) (p : List Byte) : KeepsQueue (fun s => s.takeStatus tag p) :=
  KeepsQueue.request (body := State.doStatus) (fun _ => rfl) 1 tag p

theorem keepsQueue_takeOptions (tag : Byte) (p : List Byte) : KeepsQueue (fun s => s.takeOptions tag p) :=
  ((keepsQueue_doOptions p).request 2 tag p).tendingWhen State.takesRequest

theorem keepsQueue_takeProfile (tag : Byte) (p : List Byte) : KeepsQueue (fun s => s.takeProfile tag p) :=
  (keepsQueue_doProfile p).request 3 tag p

theorem keepsQueue_takeMount (tag : Byte) (p : List Byte) : KeepsQueue (fun s => s.takeMount tag p) :=
  ((keepsQueue_doMount p).request 4 tag p).tendingWhen State.takesRequest

theorem keepsQueue_takeUnmount (tag : Byte) (p : List Byte) : KeepsQueue (fun s => s.takeUnmount tag p) :=
  ((keepsQueue_of_kept kept_doUnmount).request 5 tag p).settlingWhen State.takesRequest

theorem keepsQueue_takeFlush (tag : Byte) (p : List Byte) : KeepsQueue (fun s => s.takeFlush tag p) :=
  ((keepsQueue_of_kept kept_doFlush).request 6 tag p).settlingWhen State.takesRequest

theorem keepsQueue_takeCardRead (tag : Byte) (p : List Byte) : KeepsQueue (fun s => s.takeCardRead tag p) :=
  ((keepsQueue_of_kept fun s => kept_doCardRead s p).request 7 tag p).settlingWhen State.takesRequest

theorem keepsQueue_takeCardWrite (tag : Byte) (p : List Byte) : KeepsQueue (fun s => s.takeCardWrite tag p) :=
  ((keepsQueue_of_kept fun s => kept_doCardWrite s p).request 8 tag p).settlingWhen State.takesRequest

theorem keepsQueue_takeDefects (tag : Byte) (p : List Byte) : KeepsQueue (fun s => s.takeDefects tag p) :=
  (keepsQueue_of_kept fun s => kept_doDefects s p).request 9 tag p

theorem keepsQueue_takeReset (tag : Byte) (p : List Byte) : KeepsQueue (fun s => s.takeReset tag p) :=
  (keepsQueue_of_kept fun s => kept_doReset s p).request 10 tag p

theorem keepsQueue_takeUnknown (tag : Byte) : KeepsQueue (fun s => s.takeUnknown tag) :=
  keepsQueue_of_kept fun s => kept_takeUnknown s tag

/-! ## The receiver, the link break and the reset of a RESET -/

theorem keepsQueue_dispatch (kind tag : Byte) (p : List Byte) : KeepsQueue (fun s => s.dispatch kind tag p) := by
  intro s
  simp only [State.dispatch]
  split
  · exact keepsQueue_takeStatus tag p s
  · exact keepsQueue_takeOptions tag p s
  · exact keepsQueue_takeProfile tag p s
  · exact keepsQueue_takeMount tag p s
  · exact keepsQueue_takeUnmount tag p s
  · exact keepsQueue_takeFlush tag p s
  · exact keepsQueue_takeCardRead tag p s
  · exact keepsQueue_takeCardWrite tag p s
  · exact keepsQueue_takeDefects tag p s
  · exact keepsQueue_takeReset tag p s
  · exact keepsQueue_takeUnknown tag s

theorem keepsQueue_frameDone (bytes : List Byte) : KeepsQueue (fun s => s.frameDone bytes) := by
  intro s
  simp only [State.frameDone]
  split
  · exact keepsQueue_dispatch _ _ _ s
  · exact (kept_takeBadFrame s).pending

theorem keepsQueue_rxLength (bytes : List Byte) : KeepsQueue (fun s => s.rxLength bytes) := by
  intro s
  simp only [State.rxLength]
  split
  · rfl
  · split <;> rfl

theorem keepsQueue_character (c : Byte) : KeepsQueue (fun s => s.character c) := by
  intro s
  simp only [State.character]
  split
  · rfl
  · split
    · split <;> rfl
    · exact keepsQueue_rxLength _ s
    · rfl
    · split
      · exact (keepsQueue_frameDone _ s.discardFrame).trans s.discardFrame_pending
      · rfl

theorem keepsQueue_linkBreaks : KeepsQueue State.linkBreaks := by
  intro s
  unfold State.linkBreaks
  split <;> rfl

theorem keepsQueue_linkReturns : KeepsQueue State.linkReturns := by
  intro s
  unfold State.linkReturns
  split <;> rfl

/-- A restart puts every block to its values after reset, the queue of commands apart (R188). -/
theorem keepsQueue_resetNow (fastStrap : Bool) : KeepsQueue (fun s => s.resetNow fastStrap) := by
  intro s
  simp only [State.resetNow]
  split <;> rfl

/-! ## The drive connector, the rotation and the decisions -/

theorem keepsQueue_selectChange (line : Fin 4) (asserted : Bool) : KeepsQueue (fun s => s.selectChange line asserted) :=
  fun _ => (lineFrame_reworkSelect _).pending

theorem keepsQueue_stepEdge (dirIn : Bool) : KeepsQueue (fun s => s.stepEdge dirIn) := by
  intro s
  simp only [State.stepEdge]
  split
  · exact (lineFrame_arrival _ _).pending
  · rfl

theorem keepsQueue_sideLevel (asserted : Bool) : KeepsQueue (fun s => s.sideLevel asserted) := by
  intro s
  simp only [State.sideLevel]
  split
  · exact (lineFrame_reworkSide _).pending
  · rfl

theorem keepsQueue_motorLevel (asserted : Bool) : KeepsQueue (fun s => s.motorLevel asserted) :=
  fun _ => (lineFrame_reworkSpin _).pending

theorem keepsQueue_gateLevel (asserted : Bool) : KeepsQueue (fun s => s.gateLevel asserted) :=
  fun _ => (lineFrame_reworkGate _).pending

theorem keepsQueue_spinUpExpiry : KeepsQueue State.spinUpExpiry := by
  intro s
  unfold State.spinUpExpiry
  split <;> rfl

theorem keepsQueue_wrap : KeepsQueue State.wrap := fun _ => (captureOnly_captureWrap _).pending

theorem keepsQueue_pulseEnd : KeepsQueue State.pulseEnd := by
  intro s
  unfold State.pulseEnd
  split <;> rfl

theorem keepsQueue_decideIndex : KeepsQueue State.decideIndex := by
  intro s
  unfold State.decideIndex
  split
  · split <;> rfl
  · rfl

theorem keepsQueue_decideSlot : KeepsQueue State.decideSlot := by
  intro s
  unfold State.decideSlot
  split
  · split <;> rfl
  · rfl

/-! ## The card -/

theorem keepsQueue_cardInsert : KeepsQueue State.cardInsert := fun s => (kept_cardInsert s).pending

theorem keepsQueue_cardRemove : KeepsQueue State.cardRemove := fun s => (kept_cardRemove s).pending

theorem keepsQueue_attemptFails (e : RunError) : KeepsQueue (fun s => s.attemptFails e) :=
  keepsQueue_of_kept fun s => kept_attemptFails s e

theorem keepsQueue_transferEnds (data : List Byte) : KeepsQueue (fun s => s.transferEnds data) := by
  intro s
  simp only [State.transferEnds]
  split
  · exact (settled_settle _ _).pending.trans (kept_blockDone s data).pending
  · rfl

/-! ## Every command -/

/-- Settles O3: by cases on the command, each of whose effects leaves the queue alone, the supply present or not. -/
theorem everyCommandAnswersANextState : Obligations.EveryCommandAnswersANextState := by
  intro c s
  cases c with
  | powerOn x => exact ⟨_, rfl, rfl⟩
  | powerFail => exact ⟨_, rfl, rfl⟩
  | status tag p => exact ⟨_, rfl, (keepsQueue_takeStatus tag p).whenPowered s⟩
  | options tag p => exact ⟨_, rfl, (keepsQueue_takeOptions tag p).whenPowered s⟩
  | profile tag p => exact ⟨_, rfl, (keepsQueue_takeProfile tag p).whenPowered s⟩
  | mount tag p => exact ⟨_, rfl, (keepsQueue_takeMount tag p).whenPowered s⟩
  | unmount tag p => exact ⟨_, rfl, (keepsQueue_takeUnmount tag p).whenPowered s⟩
  | flush tag p => exact ⟨_, rfl, (keepsQueue_takeFlush tag p).whenPowered s⟩
  | cardRead tag p => exact ⟨_, rfl, (keepsQueue_takeCardRead tag p).whenPowered s⟩
  | cardWrite tag p => exact ⟨_, rfl, (keepsQueue_takeCardWrite tag p).whenPowered s⟩
  | defects tag p => exact ⟨_, rfl, (keepsQueue_takeDefects tag p).whenPowered s⟩
  | reset tag p => exact ⟨_, rfl, (keepsQueue_takeReset tag p).whenPowered s⟩
  | unknownKind kind tag => exact ⟨_, rfl, (keepsQueue_takeUnknown tag).whenPowered s⟩
  | frameError => exact ⟨_, rfl, (keepsQueue_of_kept kept_takeBadFrame).whenPowered s⟩
  | badLengthDiscard => exact ⟨_, rfl, KeepsQueue.whenPowered State.discardFrame_pending s⟩
  | framingFault => exact ⟨_, rfl, KeepsQueue.whenPowered State.discardFrame_pending s⟩
  | interCharacterTimeout => exact ⟨_, rfl, KeepsQueue.whenPowered State.discardFrame_pending s⟩
  | frameSent => exact ⟨_, rfl, KeepsQueue.whenPowered State.linkSent_pending s⟩
  | resetTakesEffect fastStrap => exact ⟨_, rfl, (keepsQueue_resetNow fastStrap).whenPowered s⟩
  | linkBreak => exact ⟨_, rfl, keepsQueue_linkBreaks.whenPowered s⟩
  | linkBreakEnd => exact ⟨_, rfl, keepsQueue_linkReturns.whenPowered s⟩
  | driveSelectChange line asserted => exact ⟨_, rfl, (keepsQueue_selectChange line asserted).tending.whenPowered s⟩
  | step dirIn => exact ⟨_, rfl, ((keepsQueue_stepEdge dirIn).tendingWhen _).whenPowered s⟩
  | sideChange asserted => exact ⟨_, rfl, ((keepsQueue_sideLevel asserted).tendingWhen _).whenPowered s⟩
  | motorOnChange asserted => exact ⟨_, rfl, (keepsQueue_motorLevel asserted).tending.whenPowered s⟩
  | spinUpTimerExpiry => exact ⟨_, rfl, keepsQueue_spinUpExpiry.whenPowered s⟩
  | rotationWrap => exact ⟨_, rfl, (keepsQueue_wrap.settlingWhen _).whenPowered s⟩
  | indexPulseEnd => exact ⟨_, rfl, keepsQueue_pulseEnd.whenPowered s⟩
  | indexFieldDecision => exact ⟨_, rfl, keepsQueue_decideIndex.whenPowered s⟩
  | slotDecision => exact ⟨_, rfl, keepsQueue_decideSlot.whenPowered s⟩
  | writeGateRise => exact ⟨_, rfl, (keepsQueue_gateLevel true).tending.whenPowered s⟩
  | writeDataFluxChange => exact ⟨_, rfl, ((keepsQueue_of_captureOnly captureOnly_fluxChange).settlingWhen _).whenPowered s⟩
  | huntDeadline => exact ⟨_, rfl, ((keepsQueue_of_captureOnly captureOnly_captureDeadline).settlingWhen _).whenPowered s⟩
  | slotEndDuringCapture => exact ⟨_, rfl, ((keepsQueue_of_captureOnly captureOnly_captureSlotEnd).settlingWhen _).whenPowered s⟩
  | writeGateFall => exact ⟨_, rfl, (keepsQueue_gateLevel false).tending.whenPowered s⟩
  | idleFlushTimerExpiry => exact ⟨_, rfl, ((keepsQueue_of_kept kept_idleExpires).settlingWhen _).whenPowered s⟩
  | cardInserted => exact ⟨_, rfl, (keepsQueue_cardInsert.settlingWhen _).whenPowered s⟩
  | bringUpDone ok capacity wp =>
    exact ⟨_, rfl, ((keepsQueue_of_kept fun t => kept_bringUpEnds t ok capacity wp).settlingWhen _).whenPowered s⟩
  | bringUpLimitExpiry => exact ⟨_, rfl, ((keepsQueue_of_kept kept_bringUpExpires).settlingWhen _).whenPowered s⟩
  | cardRemoved => exact ⟨_, rfl, (keepsQueue_cardRemove.settlingWhen _).whenPowered s⟩
  | blockTransferDone data => exact ⟨_, rfl, (keepsQueue_transferEnds data).whenPowered s⟩
  | blockLimitExpiry => exact ⟨_, rfl, ((keepsQueue_attemptFails .timeout).settlingWhen _).whenPowered s⟩
  | blockCardError => exact ⟨_, rfl, ((keepsQueue_attemptFails .cardError).settlingWhen _).whenPowered s⟩
  | emptyCell => exact ⟨_, rfl, ((keepsQueue_of_captureOnly captureOnly_emptyCell).settlingWhen _).whenPowered s⟩
  | characterReceived char => exact ⟨_, rfl, (keepsQueue_character char).whenPowered s⟩

end Sys2Proof.Machine
end
